-- ==== Sys2Proof/Word.lean ====
section
/-! DEFINITION. The word types of ARM8 (spec/00_scope.md R7, R9): a byte is 8 bits, a halfword 16, a word 32. -/

namespace Sys2Proof

/-- A 32-bit word: a register, an address, an instruction (R7). -/
abbrev Word := BitVec 32

/-- The unit of memory (R7, R42). -/
abbrev Byte := BitVec 8

/-- A 16-bit halfword (R9). -/
abbrev Half := BitVec 16

end Sys2Proof
end

