-- ==== Sys2Proof/Config.lean ====
section
/-! DEFINITION. What the spec leaves to the implementation or the platform: the parameters that are fixed for a run
(spec/00_scope.md R8, spec/92_eei_decisions.md section 2) and the free values (`ANY(n)`, R11, R13). -/

namespace Sys2Proof

/-- How R15 reads as an operand, as stored data and as the link value of BL in a 26-bit mode
(spec/50_26bit_operation.md R405, decision D16). -/
inductive R15Read26 where
  /-- R15 reads as A + 8 everywhere and BL saves A + 4. -/
  | pcOnly
  /-- Read as Rm, stored, or saved by BL, R15 holds the PC together with N Z C V I F M1 M0; read as Rn or as a
  base it holds the PC alone (PRESUMED, log entry 16). -/
  | arm2as
deriving DecidableEq, Repr

/-- The parameters of R8 that are not streams or oracles and are fixed for a run; PredictOn, which may be switched
(spec/70_reset_and_hazards.md R494), is `Machine.Platform.predictOn`. -/
structure Config where
  /-- BIGEND: HIGH means big-endian (spec/20_memory.md R60). -/
  bigend : Bool
  /-- ISYNC: HIGH means that nFIQ and nIRQ are not synchronised. Latency only: no definition of this model reads it
  (spec/60_exceptions.md R447, log entry 17). -/
  isync : Bool
  /-- Whether undefined classes B to E take the undefined instruction trap (spec/49 R372, decision D14). -/
  undefClassesBtoE : Bool
  /-- The 26-bit reading of R15 (R405, decision D16). -/
  r15Read26 : R15Read26
deriving DecidableEq, Repr

/-- The free words of the machine: `ANY(n)` of R11. The k-th free value of a run is `Config.freeWord k`; it has no
body, so nothing can be proved of it. `Machine.State.freeCount` counts the uses (DESIGN CHOICE, log entry 8). -/
opaque Config.freeWord : Nat → BitVec 32

/-- How many instruction words the Prefetch Unit holds ahead of the one in Execute: 8 in the prefetch buffer
(spec/00_scope.md R7, spec/20_memory.md R93) and those in the pipeline (R91). It has no body, because
spec/93_implementation_defined.md section 4 says that the depth must not be provable (DESIGN CHOICE, log entry 36). -/
opaque Config.prefetchDepth : Nat

end Sys2Proof
end

