-- ==== Sys2Proof/Syntax.lean ====
section
/-! DEFINITION. The instructions of ARM8 as data: one constructor of `Instr` for each mnemonic of
spec/opcode_table.json (spec/30_encoding.md R112, R134, R135). The rows of one mnemonic that differ only in an operand
form are told apart by the operand (`Operand2`, `TransferOffset`, `HalfOffset`, `Index`, `MsrSource`). Fields that the
processor ignores (R131) are kept, so that no bit of a word is lost. -/

namespace Sys2Proof

/-- The condition field, bits 31 to 28 (spec/40_conditional_execution.md R150); `nv` is the reserved 1111 (R129). -/
inductive Cond where
  | eq | ne | cs | cc | mi | pl | vs | vc | hi | ls | ge | lt | gt | le | al | nv
deriving DecidableEq, Repr

/-- A register number as an instruction names it, in the view of the current mode (R111, spec/10_state.md R23). -/
inductive Reg where
  | r0 | r1 | r2 | r3 | r4 | r5 | r6 | r7 | r8 | r9 | r10 | r11 | r12 | r13 | r14 | r15
deriving DecidableEq, Repr

/-- The shift type field (R114). -/
inductive ShiftType where
  | lsl | lsr | asr | ror
deriving DecidableEq, Repr

/-- Operand 2 of a data-processing instruction (R114). -/
inductive Operand2 where
  /-- An 8-bit immediate rotated right by twice `rotate`. -/
  | imm (rotate : BitVec 4) (imm8 : BitVec 8)
  /-- Rm shifted by the 5-bit amount field. -/
  | shiftImm (rm : Reg) (ty : ShiftType) (amount : BitVec 5)
  /-- Rm shifted by the bottom byte of Rs. -/
  | shiftReg (rm : Reg) (ty : ShiftType) (rs : Reg)
deriving DecidableEq, Repr

/-- The three addressing forms that P and W select in a single transfer (R260, R290). -/
inductive Index where
  /-- P = 1, W = 0: pre-indexed, the base is kept. -/
  | offset
  /-- P = 1, W = 1: pre-indexed with write-back. -/
  | pre
  /-- P = 0, W = 0: post-indexed, always written back. -/
  | post
deriving DecidableEq, Repr

/-- The offset of LDR, STR and their byte and T forms (R116). -/
inductive TransferOffset where
  | imm (offset : BitVec 12)
  | reg (rm : Reg) (ty : ShiftType) (amount : BitVec 5)
deriving DecidableEq, Repr

/-- The offset of a halfword or signed transfer (R117). -/
inductive HalfOffset where
  | imm (offset : BitVec 8)
  | reg (rm : Reg)
deriving DecidableEq, Repr

/-- The source operand of MSR (R121). -/
inductive MsrSource where
  | reg (rm : Reg)
  | imm (rotate : BitVec 4) (imm8 : BitVec 8)
deriving DecidableEq, Repr

/-- Every instruction and every reserved or undefined pattern of spec/opcode_table.json. `c` is the condition, `f` the
S bit, `up` the U bit (offset added). The undefined classes and the reserved patterns carry bits 27 to 0 whole. -/
inductive Instr where
  | and (c : Cond) (f : Bool) (rd rn : Reg) (op2 : Operand2)
  | eor (c : Cond) (f : Bool) (rd rn : Reg) (op2 : Operand2)
  | sub (c : Cond) (f : Bool) (rd rn : Reg) (op2 : Operand2)
  | rsb (c : Cond) (f : Bool) (rd rn : Reg) (op2 : Operand2)
  | add (c : Cond) (f : Bool) (rd rn : Reg) (op2 : Operand2)
  | adc (c : Cond) (f : Bool) (rd rn : Reg) (op2 : Operand2)
  | sbc (c : Cond) (f : Bool) (rd rn : Reg) (op2 : Operand2)
  | rsc (c : Cond) (f : Bool) (rd rn : Reg) (op2 : Operand2)
  | orr (c : Cond) (f : Bool) (rd rn : Reg) (op2 : Operand2)
  | bic (c : Cond) (f : Bool) (rd rn : Reg) (op2 : Operand2)
  /-- `rn` is ignored (R131). -/
  | mov (c : Cond) (f : Bool) (rd rn : Reg) (op2 : Operand2)
  /-- `rn` is ignored (R131). -/
  | mvn (c : Cond) (f : Bool) (rd rn : Reg) (op2 : Operand2)
  /-- `rd` is ignored (R131); 1111 selects TSTP. -/
  | tst (c : Cond) (rd rn : Reg) (op2 : Operand2)
  /-- `rd` is ignored (R131); 1111 selects TEQP. -/
  | teq (c : Cond) (rd rn : Reg) (op2 : Operand2)
  /-- `rd` is ignored (R131); 1111 selects CMPP. -/
  | cmp (c : Cond) (rd rn : Reg) (op2 : Operand2)
  /-- `rd` is ignored (R131); 1111 selects CMNP. -/
  | cmn (c : Cond) (rd rn : Reg) (op2 : Operand2)
  | tstp (c : Cond) (rn : Reg) (op2 : Operand2)
  | teqp (c : Cond) (rn : Reg) (op2 : Operand2)
  | cmpp (c : Cond) (rn : Reg) (op2 : Operand2)
  | cmnp (c : Cond) (rn : Reg) (op2 : Operand2)
  /-- `spsr` is Ps: the SPSR of the current mode, not the CPSR. -/
  | mrs (c : Cond) (spsr : Bool) (rd : Reg)
  /-- `spsr` is Pd; `mask` is bits 19 to 16. -/
  | msr (c : Cond) (spsr : Bool) (mask : BitVec 4) (src : MsrSource)
  /-- `rn` is ignored but must not be R15 (R241). -/
  | mul (c : Cond) (f : Bool) (rd rn rs rm : Reg)
  | mla (c : Cond) (f : Bool) (rd rn rs rm : Reg)
  | umull (c : Cond) (f : Bool) (rdHi rdLo rs rm : Reg)
  | umlal (c : Cond) (f : Bool) (rdHi rdLo rs rm : Reg)
  | smull (c : Cond) (f : Bool) (rdHi rdLo rs rm : Reg)
  | smlal (c : Cond) (f : Bool) (rdHi rdLo rs rm : Reg)
  | ldr (c : Cond) (idx : Index) (up : Bool) (rn rd : Reg) (off : TransferOffset)
  | ldrb (c : Cond) (idx : Index) (up : Bool) (rn rd : Reg) (off : TransferOffset)
  | str (c : Cond) (idx : Index) (up : Bool) (rn rd : Reg) (off : TransferOffset)
  | strb (c : Cond) (idx : Index) (up : Bool) (rn rd : Reg) (off : TransferOffset)
  | ldrt (c : Cond) (up : Bool) (rn rd : Reg) (off : TransferOffset)
  | ldrbt (c : Cond) (up : Bool) (rn rd : Reg) (off : TransferOffset)
  | strt (c : Cond) (up : Bool) (rn rd : Reg) (off : TransferOffset)
  | strbt (c : Cond) (up : Bool) (rn rd : Reg) (off : TransferOffset)
  | ldrh (c : Cond) (idx : Index) (up : Bool) (rn rd : Reg) (off : HalfOffset)
  | ldrsb (c : Cond) (idx : Index) (up : Bool) (rn rd : Reg) (off : HalfOffset)
  | ldrsh (c : Cond) (idx : Index) (up : Bool) (rn rd : Reg) (off : HalfOffset)
  | strh (c : Cond) (idx : Index) (up : Bool) (rn rd : Reg) (off : HalfOffset)
  /-- `p`, `up`, `psr` and `w` are bits 24 to 21; `list` is the register list. -/
  | ldm (c : Cond) (p up psr w : Bool) (rn : Reg) (list : BitVec 16)
  /-- `p`, `up`, `psr` and `w` are bits 24 to 21; `list` is the register list. -/
  | stm (c : Cond) (p up psr w : Bool) (rn : Reg) (list : BitVec 16)
  | swp (c : Cond) (rn rd rm : Reg)
  | swpb (c : Cond) (rn rd rm : Reg)
  | b (c : Cond) (offset : BitVec 24)
  | bl (c : Cond) (offset : BitVec 24)
  | swi (c : Cond) (comment : BitVec 24)
  | cdp (c : Cond) (opc crn crd num : BitVec 4) (info : BitVec 3) (crm : BitVec 4)
  | ldc (c : Cond) (p up n w : Bool) (rn : Reg) (crd num : BitVec 4) (offset : BitVec 8)
  | stc (c : Cond) (p up n w : Bool) (rn : Reg) (crd num : BitVec 4) (offset : BitVec 8)
  | mrc (c : Cond) (opc : BitVec 3) (crn : BitVec 4) (rd : Reg) (num : BitVec 4) (info : BitVec 3) (crm : BitVec 4)
  | mcr (c : Cond) (opc : BitVec 3) (crn : BitVec 4) (rd : Reg) (num : BitVec 4) (info : BitVec 3) (crm : BitVec 4)
  | undefinedA (c : Cond) (bits : BitVec 28)
  | undefinedB (c : Cond) (bits : BitVec 28)
  | undefinedC (c : Cond) (bits : BitVec 28)
  | undefinedD (c : Cond) (bits : BitVec 28)
  | undefinedE (c : Cond) (bits : BitVec 28)
  | reservedMrs (c : Cond) (bits : BitVec 28)
  | reservedMsr (c : Cond) (bits : BitVec 28)
  | reservedSwp (c : Cond) (bits : BitVec 28)
  | reservedHreg (c : Cond) (bits : BitVec 28)
deriving DecidableEq, Repr

end Sys2Proof
end

