-- ==== Sys2Proof/Machine/State.lean ====
section
/-! DEFINITION. The state of ARM8 as plain data (spec/10_state.md), the faults and refusals, and the state after reset
(spec/70_reset_and_hazards.md R481, R482). -/

namespace Sys2Proof.Machine

/-- The register bank a mode sees (spec/10_state.md R22). -/
inductive Bank where
  | usr | fiq | irq | svc | abt | und
deriving DecidableEq, Repr

/-- The eleven described modes (R22). -/
inductive Mode where
  | usr | fiq | irq | svc | abt | und | sys | usr26 | fiq26 | irq26 | svc26
deriving DecidableEq, Repr

/-- The 30 physical general registers other than R15 (R21). -/
inductive PReg where
  | r0 | r1 | r2 | r3 | r4 | r5 | r6 | r7
  | r8 | r9 | r10 | r11 | r12
  | r8fiq | r9fiq | r10fiq | r11fiq | r12fiq
  | r13usr | r14usr | r13fiq | r14fiq | r13irq | r14irq | r13svc | r14svc | r13abt | r14abt | r13und | r14und
deriving DecidableEq, Repr

/-- The values of the 30 physical general registers (R21). -/
structure RegFile where
  r0 : Word
  r1 : Word
  r2 : Word
  r3 : Word
  r4 : Word
  r5 : Word
  r6 : Word
  r7 : Word
  r8 : Word
  r9 : Word
  r10 : Word
  r11 : Word
  r12 : Word
  r8fiq : Word
  r9fiq : Word
  r10fiq : Word
  r11fiq : Word
  r12fiq : Word
  r13usr : Word
  r14usr : Word
  r13fiq : Word
  r14fiq : Word
  r13irq : Word
  r14irq : Word
  r13svc : Word
  r14svc : Word
  r13abt : Word
  r14abt : Word
  r13und : Word
  r14und : Word
deriving DecidableEq, Repr

/-- The condition code flags (R34). -/
structure Flags where
  n : Bool
  z : Bool
  c : Bool
  v : Bool
deriving DecidableEq, Repr

/-- The defined bits of the CPSR (R33). Its mode is always one of the eleven: any other value is a fault (R27). -/
structure Cpsr where
  flags : Flags
  /-- IRQ disable (R35). -/
  i : Bool
  /-- FIQ disable (R35). -/
  f : Bool
  mode : Mode
deriving DecidableEq, Repr

/-- The defined bits of an SPSR (R33). `m` may hold any value: only a copy to the CPSR is restricted (R27). -/
structure Psr where
  flags : Flags
  i : Bool
  f : Bool
  m : BitVec 5
deriving DecidableEq, Repr

/-- The names of the five SPSRs (R38). -/
inductive SpsrName where
  | fiq | irq | svc | abt | und
deriving DecidableEq, Repr

/-- The five SPSRs (R38). -/
structure Spsrs where
  fiq : Psr
  irq : Psr
  svc : Psr
  abt : Psr
  und : Psr
deriving DecidableEq, Repr

/-- What an access to memory does (spec/20_memory.md R77). -/
inductive AccessKind where
  | load | store | fetch
deriving DecidableEq, Repr

/-- The width of an access (R73). -/
inductive Width where
  | byte | half | word
deriving DecidableEq, Repr

/-- One access as the memory system sees it (R46, R76, R77). -/
structure Access where
  addr : Word
  width : Width
  kind : AccessKind
  privileged : Bool
  twentySixBit : Bool
  locked : Bool
deriving DecidableEq, Repr

/-- One part of the platform's `Mem` oracle (R77, R78): accesses to addresses from `lo` up to but not including `hi`
abort when every filter that is present agrees with the access. -/
structure AbortRule where
  /-- A read or a fetch is answered with RRESP_EXTABORT_D or RRESP_EXTABORT_I; else, and for every store, the answer is
  ARESP_ABORT. ARM8 treats both alike (R78). -/
  external : Bool
  lo : Nat
  hi : Nat
  width : Option Width
  kind : Option AccessKind
  privileged : Option Bool
  twentySixBit : Option Bool
  locked : Option Bool
deriving DecidableEq, Repr

/-- A word that the coprocessors supply (spec/49_coprocessor_undefined.md R377). -/
inductive CoprocWord where
  | fixed (v : Word)
  /-- What their register `k` holds. -/
  | reg (k : Nat)
deriving DecidableEq, Repr

/-- A change of the private state of the coprocessors (R377): register `reg` takes `value`, or where that is `none` the
word that the instruction transfers. -/
structure CoprocEffect where
  reg : Nat
  value : Option CoprocWord
deriving DecidableEq, Repr

/-- One answer of the platform's `Coproc` oracle (R377): what `respond`, `data` and `write` do with one instruction. -/
structure CoprocAnswer where
  /-- The cycles of busy-wait that are left; `none` is a wait without end (R369). -/
  busy : Option Nat
  /-- Accept, or else bounce, at the end of the wait. -/
  accept : Bool
  /-- The word of an accepted MRC. -/
  data : CoprocWord
  /-- What the coprocessors change once the instruction is executed. -/
  effects : List CoprocEffect
deriving DecidableEq, Repr

/-- A condition on the private state of the coprocessors: register `reg` holds `value` in the bits of `mask`. -/
structure CoprocTest where
  reg : Nat
  mask : Word
  value : Word
deriving DecidableEq, Repr

/-- One line of the `Coproc` oracle (R377): instructions with `bits` in the bits of `mask` of I[25:0], from a privileged
mode or not where `privileged` says so, while the private state meets every test, are given `answer`. -/
structure CoprocRule where
  mask : BitVec 26
  bits : BitVec 26
  privileged : Option Bool
  tests : List CoprocTest
  answer : CoprocAnswer
deriving DecidableEq, Repr

/-- The platform's `Coproc` oracle with its private state (R377). -/
structure Coproc where
  /-- The coprocessors that are present, by CP# (R379). -/
  present : List (BitVec 4)
  /-- The private state. -/
  regs : List Word
  /-- How the coprocessors answer; the first rule that applies does, so that exactly one answer is given. -/
  rules : List CoprocRule
deriving DecidableEq, Repr

/-- The levels of the input lines at one step boundary; `true` means asserted, that is LOW on nRESET, nFIQ, nIRQ
(spec/60_exceptions.md R445, spec/70_reset_and_hazards.md R480). -/
structure Lines where
  reset : Bool
  fiq : Bool
  irq : Bool
deriving DecidableEq, Repr

/-- The ACCESS request types, ARequest (R98). `more` is the (M) of the table: more words of the same load or store
multiple follow. -/
inductive RequestType where
  | none
  | load (more : Bool) | loadS (more : Bool) | loadB | loadH | loadX | loadBX
  | fetch | fetchS | spec | specS
  | store (more : Bool) | storeS (more : Bool) | storeB | storeH | storeX | storeBX
  | control
deriving DecidableEq, Repr

/-- The data RETURN requests, RRequestD (R99). -/
inductive DataReturn where
  | none | one | two
deriving DecidableEq, Repr

/-- The ACCESS responses, AResponse (R100). -/
inductive AccessResponse where
  | notDone | abort | done
deriving DecidableEq, Repr

/-- The RETURN responses, RResponse (R101). -/
inductive ReturnResponse where
  | nothing | extAbortD | extAbortI | data1 | data2 | instr1 | instr2
deriving DecidableEq, Repr

/-- One exchange on the memory interface at the level of requests and responses (R5, R46, R96 to R101): what ARM8 drives
and what the memory system answers. -/
structure Transaction where
  /-- ARequest. -/
  ty : RequestType
  /-- VAddress. -/
  addr : Word
  /-- Wdata; 0 where nothing is stored. -/
  wdata : Word
  /-- Privileged. -/
  privileged : Bool
  /-- TwentySixBit. -/
  twentySixBit : Bool
  /-- RRequestD. -/
  data : DataReturn
  /-- RRequestIC: the Core asks for instructions. -/
  instrCore : Bool
  /-- RRequestIP: the Prefetch Unit asks for instructions. -/
  instrPrefetch : Bool
  /-- AResponse. -/
  aresp : AccessResponse
  /-- RResponse. -/
  rresp : ReturnResponse
  /-- The words returned on Rdata, in order: none, one or two. -/
  rdata : List Word
deriving DecidableEq, Repr

/-- What passes on the memory and coprocessor interfaces in a step (R5, R96, R376; log entry 20). -/
inductive Output where
  /-- An exchange with the memory system. -/
  | access (t : Transaction)
  /-- CInstruct and CPrivileged of an instruction that enters the pipeline: bits 25 to 0 of a coprocessor instruction;
  `none` says that it is none, which is CInstruct[25:24] = 11 (R371, R376). -/
  | cpInstruct (bits : Option (BitVec 26)) (privileged : Bool)
  /-- CExecute: the coprocessor instruction should be executed, or must not be (R369, R376). -/
  | cpExecute (go : Bool)
  /-- An accepted MCR hands `v` to the coprocessor: what passes in `Coproc.write` of R377. -/
  | cpWrite (bits : BitVec 26) (v : Word)
deriving DecidableEq, Repr

/-- A fetch that the Prefetch Unit makes ahead of execution (R95). -/
structure FetchAhead where
  addr : Word
  /-- AREQ_SPEC, which the memory system need not supply, and not AREQ_FETCH (R98). -/
  speculative : Bool
  /-- Whether the memory system supplies a speculative one. -/
  supplied : Bool
  /-- IExhausted at this request: HIGH where the next sequential instruction word is not in the instruction buffer (R97). -/
  iExhausted : Bool
deriving DecidableEq, Repr

/-- What ARM8 is told of the word buffers of the memory system (R97), and what it asks of them, in a step. -/
structure WordBuffers where
  /-- IExhausted at the fetch of the step: HIGH where the next sequential instruction word is not in the instruction
  buffer. -/
  iExhausted : Bool
  /-- DExhausted at the sequential requests of a load multiple, first to last: HIGH where the next word is not in the data
  buffer; HIGH once the list has been used up. -/
  dExhausted : List Bool
  /-- For each store of the step, first to last: whether IExhausted is LOW and the Prefetch Unit asks, together with the
  store, for the return of the next sequential instruction words, the Parallel request of R97; not once the list has been
  used up. -/
  parallel : List Bool
deriving DecidableEq, Repr

/-- Where the memory system returns two words to a request for two (R101). -/
structure DoubleReturn where
  /-- Whether it ever does. -/
  enabled : Bool
  /-- The words of a cache line: the last word of a line is returned alone; 0 means that there are no lines. -/
  lineWords : Nat
  /-- Further word addresses at which a load or a fetch is given one word. -/
  lone : List (AccessKind × Word)
deriving DecidableEq, Repr

/-- What the platform's `Mem` does, and what is left open of the Prefetch Unit, at one step boundary (R77, R92, R95). -/
structure PlatformStep where
  /-- The bytes that other agents write, in order. -/
  writes : List Host.Cell
  /-- The accesses that abort from now on, where that changes. -/
  aborts : Option (List AbortRule)
  /-- The word buffers from now on, where they change (R97). -/
  buffers : Option WordBuffers
  /-- Where two words are returned from now on, where that changes (R101). -/
  double : Option DoubleReturn
  /-- The coprocessors from now on, where they change by themselves: one that was busy may be done (R369, R377). -/
  coproc : Option Coproc
  /-- The level of PredictOn from now on, where it is switched (spec/70_reset_and_hazards.md R494). -/
  predictOn : Option Bool
  /-- The Prefetch Unit is flushed because it was starved (R92). -/
  starved : Bool
  /-- The fetches made ahead: their set is not fixed (spec/93_implementation_defined.md 2.7). -/
  ahead : List FetchAhead
deriving DecidableEq, Repr

/-- A device byte, the read-sensitive location of R8, R75 and R77: after each access to it that the memory system
performs, it holds the next value of `shows`, and keeps what it holds when there is none. -/
structure DeviceByte where
  addr : Nat
  shows : List Byte
deriving DecidableEq, Repr

/-- The rest of the platform (R8, R77, R101): what changes without ARM8. -/
structure Platform where
  /-- What happens at the coming step boundaries; none left means nothing happens. -/
  steps : List PlatformStep
  /-- The device bytes. -/
  devices : List DeviceByte
  /-- Where the memory system returns two words to a request for two (R99, R101). -/
  double : DoubleReturn
  /-- The word buffers in this step (R97). -/
  buffers : WordBuffers
  /-- PredictOn: HIGH means that branches are predicted (R94). It decides whether a taken branch flushes the Prefetch Unit
  (R92), never a result (spec/40_conditional_execution.md R154). -/
  predictOn : Bool
  /-- The levels of the input lines once `lines` has been used up. -/
  linesAfter : Lines
deriving DecidableEq, Repr

/-- What the Prefetch Unit does with an instruction word (R94). -/
inductive Prediction where
  /-- Passed to the Core unchanged. -/
  | notPredicted
  | taken
  | notTaken
deriving DecidableEq, Repr

/-- An instruction word in the prefetch buffer, with its address (R43, R93). -/
structure Prefetched where
  addr : Word
  /-- The word; `none` is the mark of a fetch that aborted (spec/60_exceptions.md R432). -/
  word : Option Word
  /-- Its branch prediction (R43), made when the word was fetched (log entry 36). -/
  prediction : Prediction
deriving DecidableEq, Repr

/-- What the Prefetch Unit and the pipeline hold between steps. -/
structure FetchUnit where
  /-- The address of the instruction word fetched last: the Prefetch Unit's own PC is the address after it (R93, R98). -/
  last : Option Word
  /-- The prefetch buffer, oldest word first (R43, R93). -/
  buffer : List Prefetched
  /-- The instruction word in Execute, where `busyWait` holds it there (R369). -/
  ir : Option Word
  /-- The branch prediction of the instruction that the Prefetch Unit gave to the Core last (R43, R94). -/
  prediction : Prediction
deriving DecidableEq, Repr

/-- The state of the machine. -/
structure State where
  /-- R0 to R14 in every bank (R21). -/
  regs : RegFile
  /-- The address of the instruction being executed (R28, R29). -/
  pc : Word
  cpsr : Cpsr
  spsrs : Spsrs
  /-- Memory in canonical form: addresses strictly rising below 2^32, no byte that equals what an unlisted address
  reads as (`Memory.wf`; log entry 4). -/
  mem : List Host.Cell
  /-- Addresses of the bytes written since the last IMB, strictly rising (spec/20_memory.md R89). -/
  marks : List Nat
  /-- Addresses of the instructions executed in a 26-bit mode since the last IMB, strictly rising (spec/50 R406, log entry 10). -/
  ran26 : List Nat
  /-- The same for the 32-bit modes. -/
  ran32 : List Nat
  /-- The instruction just executed was a user-bank LDM (spec/47_block_data_transfer.md R322). -/
  userLdm : Bool
  /-- The instruction at `pc` is an MRC or MCR in busy-wait (spec/49 R369). -/
  busyWait : Bool
  /-- The levels of the input lines at the coming step boundaries; then `platform.linesAfter` (log entry 7). -/
  lines : List Lines
  /-- The coprocessors (R377; log entry 38). -/
  coproc : Coproc
  /-- While `busyWait`: the answer that the instruction in Execute was given, with the cycles left (R369). -/
  pending : CoprocAnswer
  /-- The accesses that the memory system aborts at present (log entry 7). -/
  aborts : List AbortRule
  /-- Other agents, device bytes, and what else the platform does (log entries 7, 28, 34, 35). -/
  platform : Platform
  /-- What the Prefetch Unit and the pipeline hold between steps (log entries 20 and 36). -/
  fetchUnit : FetchUnit
  /-- What has passed on the interfaces in the current step, oldest first (log entry 20). -/
  outputs : List Output
  /-- The model's own: how many free values have been drawn (log entry 8). -/
  freeCount : Nat
  cfg : Config
deriving DecidableEq, Repr

/-- Why the machine stops. Every constructor names a case that the spec calls UNPREDICTABLE (spec/00_scope.md R13) and
for which it gives no effect; stopping is SAFE: the hardware would go on in some state of which nothing is promised
(log entry 12). -/
inductive Fault where
  /-- Condition field 1111 (R129, D4). Raised by every meaning. Safe. -/
  | condReserved
  /-- A mode number outside the eleven would be written to CPSR.M (R27, D21). Raised by MSR and by exception return. Safe. -/
  | invalidMode
  /-- Sequential execution past 0xFFFFFFFC (R32, D6). Raised by every meaning that goes on at A + 4. Safe. -/
  | pastTop32
  /-- Sequential execution past 0x03FFFFFC in a 26-bit mode (R393). Raised by every meaning that goes on at A + 4. Safe. -/
  | pastTop26
  /-- The instruction word has a byte written since the last IMB (R89, D12). Raised by `step`. Safe. -/
  | modifiedCode
  /-- The instruction word was executed in a mode of the other width since the last IMB (R406). Raised by `step`. Safe. -/
  | mixedWidthCode
  /-- A 26-bit mode would be entered with address bits 31:26 not zero (R406). Raised by MSR and by exception return. Safe. -/
  | enter26Outside
  /-- The SPSR of a mode that has none (R38). Raised by MRS, MSR and the forms that return from an exception. Safe. -/
  | noSpsr
  /-- TST, TEQ, CMP, CMN with Rd = 1111 in a 32-bit mode (R185). Raised by the P forms. Safe. -/
  | pFormIn32Bit
  /-- R15 as Rn, Rm or Rs of a register-specified shift (R178). Raised by data processing. Safe. -/
  | r15RegisterShift
  /-- MRS with Rd = R15 (R223). Safe. -/
  | mrsR15
  /-- MSR with Rm = R15 (R224). Safe. -/
  | msrR15
  /-- MUL or MLA with R15 in a register field (R241, R242). Safe. -/
  | mulR15
  /-- MUL or MLA with Rd = Rm (R241, R242). Safe. -/
  | mulRdRm
  /-- A long multiply with R15 in a register field (R246 to R249). Safe. -/
  | mullR15
  /-- A long multiply with RdHi, RdLo and Rm not all different (R246 to R249). Safe. -/
  | mullOverlap
  /-- A transfer with write-back or post-indexing and base R15 (R269, R297). Raised by single and halfword transfers. Safe. -/
  | writebackR15
  /-- A transfer with offset register R15 (R269, R297). Raised by single and halfword transfers. Safe. -/
  | offsetR15
  /-- A byte, halfword or signed transfer with Rd = R15 (R269, R297). Raised by single and halfword transfers. Safe. -/
  | narrowR15
  /-- LDR or STR of R15 at an address that is not a multiple of 4 (R269). Safe. -/
  | misalignedR15
  /-- A post-indexed transfer with Rm = Rn (R269, R297). Raised by single and halfword transfers. Safe. -/
  | postIndexRmRn
  /-- A load with write-back and Rd = Rn (R269, R297). Raised by single and halfword loads. Safe. -/
  | writebackRdRn
  /-- STRH to an odd address (R296, D3). Safe. -/
  | strhOdd
  /-- LDM or STM with an empty list (R311). Safe. -/
  | emptyList
  /-- LDM or STM with base R15 (R318). Safe. -/
  | blockBaseR15
  /-- LDM with write-back and the base in the list (R319). Safe. -/
  | ldmWritebackBase
  /-- LDM or STM with S = 1 in User or System mode, or in usr26 where the 26-bit rules do not define it (R317, R407). Safe. -/
  | blockUserMode
  /-- A user-bank transfer with write-back (R321). Raised by LDM and STM. Safe. -/
  | userBankWriteback
  /-- A register banked for the current mode is read straight after a user-bank LDM (R322, D20). Raised by every meaning that reads a register. Safe. -/
  | userBankHazard
  /-- SWP or SWPB with R15 (R341, R342). Safe. -/
  | swpR15
  /-- An accepted MCR with Rd = R15 (R368). Safe. -/
  | mcrR15
  /-- A reserved MRS-like word (R130 (a), D15). Safe. -/
  | reservedMrs
  /-- A reserved MSR-like word (R130 (a), (b), D15). Safe. -/
  | reservedMsr
  /-- A reserved SWP-like word (R130 (c), D15). Safe. -/
  | reservedSwp
  /-- A reserved halfword-transfer-like word (R130 (d), D15). Safe. -/
  | reservedHreg
  /-- A word of undefined class B where classes B to E do not trap (R372, D14). Safe. -/
  | undefinedBNotTrapping
  /-- A word of undefined class C where classes B to E do not trap (R372, D14). Safe. -/
  | undefinedCNotTrapping
  /-- A word of undefined class D where classes B to E do not trap (R372, D14). Safe. -/
  | undefinedDNotTrapping
  /-- A word of undefined class E where classes B to E do not trap (R372, D14). Safe. -/
  | undefinedENotTrapping
deriving DecidableEq, Repr

/-- Why a step has no meaning in this model. -/
inductive Refusal where
  /-- An instruction without a meaning. No arm of `exec` answers it. Safe. -/
  | notModelled (mnemonic : String)
  /-- Fewer than four bytes were given to the decoder (R110). Raised by the decoder, never by `step`, which gives it four. Safe. -/
  | truncated
deriving DecidableEq, Repr

/-- A step's outcome on this machine. -/
abbrev Out := Host.Outcome State Fault Refusal

/-- The general registers after reset: the spec states none (R482). DESIGN CHOICE: zero, unsafe (log entry 1). -/
def RegFile.atReset : RegFile :=
  { r0 := 0, r1 := 0, r2 := 0, r3 := 0, r4 := 0, r5 := 0, r6 := 0, r7 := 0,
    r8 := 0, r9 := 0, r10 := 0, r11 := 0, r12 := 0,
    r8fiq := 0, r9fiq := 0, r10fiq := 0, r11fiq := 0, r12fiq := 0,
    r13usr := 0, r14usr := 0, r13fiq := 0, r14fiq := 0, r13irq := 0, r14irq := 0,
    r13svc := 0, r14svc := 0, r13abt := 0, r14abt := 0, r13und := 0, r14und := 0 }

/-- The flags after reset: not stated (R482). DESIGN CHOICE: clear, unsafe (log entry 2). -/
def Flags.atReset : Flags := { n := false, z := false, c := false, v := false }

/-- An SPSR after reset: not stated (R482). DESIGN CHOICE: zero, unsafe (log entry 3). -/
def Psr.atReset : Psr := { flags := Flags.atReset, i := false, f := false, m := 0 }

/-- The parameters at the start: DESIGN CHOICE except `undefClassesBtoE` (D14), log entry 5. -/
def Config.atReset : Config :=
  { bigend := false, isync := false, undefClassesBtoE := true, r15Read26 := .pcOnly }

/-- No line asserted. -/
def Lines.idle : Lines := { reset := false, fiq := false, irq := false }

/-- The Prefetch Unit after reset: empty (R481). -/
def FetchUnit.empty : FetchUnit := { last := none, buffer := [], ir := none, prediction := .notPredicted }

/-- Word buffers that never have a further word. -/
def WordBuffers.exhausted : WordBuffers := { iExhausted := true, dExhausted := [], parallel := [] }

/-- One word to every request. -/
def DoubleReturn.never : DoubleReturn := { enabled := false, lineWords := 0, lone := [] }

/-- The simplest platform (D9): no other agent, no device, one word at a time, nothing buffered, no line asserted, no
branch predicted. -/
def Platform.atReset : Platform :=
  { steps := [], devices := [], double := DoubleReturn.never, buffers := WordBuffers.exhausted,
    predictOn := false, linesAfter := Lines.idle }

/-- Bounce, at once. -/
def CoprocAnswer.bounce : CoprocAnswer := { busy := some 0, accept := false, data := .fixed 0, effects := [] }

/-- A system without coprocessors, which bounces everything (R377, R379, D8). -/
def Coproc.absent : Coproc := { present := [], regs := [], rules := [] }

/-- The machine right after reset (R481, R482, spec/10_state.md R47): Supervisor mode, I = F = 1, pc 0, marks cleared;
what the spec does not state is named in log entries 1 to 5, 7, 8, 34 and 38. -/
def State.reset : State :=
  { regs := RegFile.atReset
    pc := 0
    cpsr := { flags := Flags.atReset, i := true, f := true, mode := .svc }
    spsrs := { fiq := Psr.atReset, irq := Psr.atReset, svc := Psr.atReset, abt := Psr.atReset, und := Psr.atReset }
    mem := []
    marks := []
    ran26 := []
    ran32 := []
    userLdm := false
    busyWait := false
    lines := []
    coproc := Coproc.absent
    pending := CoprocAnswer.bounce
    aborts := []
    platform := Platform.atReset
    fetchUnit := FetchUnit.empty
    outputs := []
    freeCount := 0
    cfg := Config.atReset }

end Sys2Proof.Machine
end

