-- ==== Sys2Proof/Machine/Modes.lean ====
section
/-! DEFINITION. Modes, banks and the view of the registers (spec/10_state.md R22, R23), and the status registers as
fields (R33). -/

namespace Sys2Proof.Machine

/-- M[4:0] of a mode (R22). -/
def Mode.bits : Mode → BitVec 5
  | .usr => 0b10000#5 | .fiq => 0b10001#5 | .irq => 0b10010#5 | .svc => 0b10011#5 | .abt => 0b10111#5
  | .und => 0b11011#5 | .sys => 0b11111#5
  | .usr26 => 0b00000#5 | .fiq26 => 0b00001#5 | .irq26 => 0b00010#5 | .svc26 => 0b00011#5

/-- The mode of a value of M[4:0], where it is one of the eleven (R22, R27). -/
def Mode.ofBits (m : BitVec 5) : Option Mode :=
  match m.toNat with
  | 0b10000 => some .usr | 0b10001 => some .fiq | 0b10010 => some .irq | 0b10011 => some .svc
  | 0b10111 => some .abt | 0b11011 => some .und | 0b11111 => some .sys
  | 0b00000 => some .usr26 | 0b00001 => some .fiq26 | 0b00010 => some .irq26 | 0b00011 => some .svc26
  | _ => none

/-- The register bank of a mode (R22). -/
def Mode.bank : Mode → Bank
  | .usr | .sys | .usr26 => .usr
  | .fiq | .fiq26 => .fiq
  | .irq | .irq26 => .irq
  | .svc | .svc26 => .svc
  | .abt => .abt
  | .und => .und

/-- Every mode but User and usr26 is privileged (R22, spec/60_exceptions.md R460). -/
def Mode.privileged : Mode → Bool
  | .usr | .usr26 => false
  | .fiq | .irq | .svc | .abt | .und | .sys | .fiq26 | .irq26 | .svc26 => true

/-- The modes with M4 = 0 (spec/50_26bit_operation.md R390). -/
def Mode.is26 : Mode → Bool
  | .usr26 | .fiq26 | .irq26 | .svc26 => true
  | .usr | .fiq | .irq | .svc | .abt | .und | .sys => false

/-- The SPSR of a mode, where it has one (R22, R38, spec/50_26bit_operation.md R395). -/
def Mode.spsr : Mode → Option SpsrName
  | .fiq | .fiq26 => some .fiq
  | .irq | .irq26 => some .irq
  | .svc | .svc26 => some .svc
  | .abt => some .abt
  | .und => some .und
  | .usr | .sys | .usr26 => none

/-- The 26-bit mode with the given M1 and M0 (R397: M4, M3 and M2 stay 0). -/
def Mode.of26 (m1 m0 : Bool) : Mode :=
  match m1, m0 with
  | false, false => .usr26
  | false, true => .fiq26
  | true, false => .irq26
  | true, true => .svc26

/-- R13 of a bank (R23). -/
def Bank.sp : Bank → PReg
  | .usr => .r13usr | .fiq => .r13fiq | .irq => .r13irq | .svc => .r13svc | .abt => .r13abt | .und => .r13und

/-- R14 of a bank (R23). -/
def Bank.lr : Bank → PReg
  | .usr => .r14usr | .fiq => .r14fiq | .irq => .r14irq | .svc => .r14svc | .abt => .r14abt | .und => .r14und

/-- The physical register that a register number names in a bank; R15 is the program counter (R23). -/
def Bank.view (k : Bank) : Reg → Option PReg
  | .r0 => some .r0 | .r1 => some .r1 | .r2 => some .r2 | .r3 => some .r3
  | .r4 => some .r4 | .r5 => some .r5 | .r6 => some .r6 | .r7 => some .r7
  | .r8 => some (if k = .fiq then .r8fiq else .r8)
  | .r9 => some (if k = .fiq then .r9fiq else .r9)
  | .r10 => some (if k = .fiq then .r10fiq else .r10)
  | .r11 => some (if k = .fiq then .r11fiq else .r11)
  | .r12 => some (if k = .fiq then .r12fiq else .r12)
  | .r13 => some k.sp
  | .r14 => some k.lr
  | .r15 => none

/-- Whether a register number is banked for the current mode (spec/47_block_data_transfer.md R322): R13 and R14, and
in FIQ mode R8 to R12 as well; in User and System mode none. -/
def Mode.bankedReg (m : Mode) (r : Reg) : Bool := m.bank.view r != Bank.usr.view r

/-- The value of a physical register. -/
def RegFile.get (f : RegFile) : PReg → Word
  | .r0 => f.r0 | .r1 => f.r1 | .r2 => f.r2 | .r3 => f.r3 | .r4 => f.r4 | .r5 => f.r5 | .r6 => f.r6 | .r7 => f.r7
  | .r8 => f.r8 | .r9 => f.r9 | .r10 => f.r10 | .r11 => f.r11 | .r12 => f.r12
  | .r8fiq => f.r8fiq | .r9fiq => f.r9fiq | .r10fiq => f.r10fiq | .r11fiq => f.r11fiq | .r12fiq => f.r12fiq
  | .r13usr => f.r13usr | .r14usr => f.r14usr | .r13fiq => f.r13fiq | .r14fiq => f.r14fiq
  | .r13irq => f.r13irq | .r14irq => f.r14irq | .r13svc => f.r13svc | .r14svc => f.r14svc
  | .r13abt => f.r13abt | .r14abt => f.r14abt | .r13und => f.r13und | .r14und => f.r14und

/-- The register file with one physical register written. -/
def RegFile.set (f : RegFile) (p : PReg) (v : Word) : RegFile :=
  match p with
  | .r0 => { f with r0 := v } | .r1 => { f with r1 := v } | .r2 => { f with r2 := v } | .r3 => { f with r3 := v }
  | .r4 => { f with r4 := v } | .r5 => { f with r5 := v } | .r6 => { f with r6 := v } | .r7 => { f with r7 := v }
  | .r8 => { f with r8 := v } | .r9 => { f with r9 := v } | .r10 => { f with r10 := v }
  | .r11 => { f with r11 := v } | .r12 => { f with r12 := v }
  | .r8fiq => { f with r8fiq := v } | .r9fiq => { f with r9fiq := v } | .r10fiq => { f with r10fiq := v }
  | .r11fiq => { f with r11fiq := v } | .r12fiq => { f with r12fiq := v }
  | .r13usr => { f with r13usr := v } | .r14usr => { f with r14usr := v }
  | .r13fiq => { f with r13fiq := v } | .r14fiq => { f with r14fiq := v }
  | .r13irq => { f with r13irq := v } | .r14irq => { f with r14irq := v }
  | .r13svc => { f with r13svc := v } | .r14svc => { f with r14svc := v }
  | .r13abt => { f with r13abt := v } | .r14abt => { f with r14abt := v }
  | .r13und => { f with r13und := v } | .r14und => { f with r14und := v }

/-- The value of an SPSR. -/
def Spsrs.get (p : Spsrs) : SpsrName → Psr
  | .fiq => p.fiq | .irq => p.irq | .svc => p.svc | .abt => p.abt | .und => p.und

/-- The SPSRs with one written. -/
def Spsrs.set (p : Spsrs) (n : SpsrName) (v : Psr) : Spsrs :=
  match n with
  | .fiq => { p with fiq := v } | .irq => { p with irq := v } | .svc => { p with svc := v }
  | .abt => { p with abt := v } | .und => { p with und := v }

/-- The CPSR as an SPSR keeps it (R33, R423: all defined bits). -/
def Cpsr.toPsr (p : Cpsr) : Psr := { flags := p.flags, i := p.i, f := p.f, m := p.mode.bits }

/-- N, Z, C, V as bits 31 to 28 of a word name them (R33). -/
def Flags.ofWord (v : Word) : Flags :=
  { n := v.getLsbD 31, z := v.getLsbD 30, c := v.getLsbD 29, v := v.getLsbD 28 }

/-- N, Z, C, V as a 4-bit field (R33). -/
def Flags.bits (g : Flags) : BitVec 4 :=
  BitVec.ofBool g.n ++ BitVec.ofBool g.z ++ BitVec.ofBool g.c ++ BitVec.ofBool g.v

/-- A PSR read as a word (spec/43_psr_transfer.md R221, R223): the reserved bits 27 to 8 and 5 are those of `free`. -/
def Psr.word (p : Psr) (free : Word) : Word :=
  p.flags.bits ++ free.extractLsb' 8 20 ++ BitVec.ofBool p.i ++ BitVec.ofBool p.f ++ free.extractLsb' 5 1 ++ p.m

end Sys2Proof.Machine
end

