-- ==== Sys2Proof/Machine/Flags.lean ====
section
/-! DEFINITION. Conditions (spec/40_conditional_execution.md R150), the adder and every flag computation
(spec/42_data_processing.md R179 to R181, spec/44_multiply.md R241, R246). -/

namespace Sys2Proof.Machine

/-- `CondPassed` (R150). The reserved condition passes nothing: `condExec` stops on it before it asks (R129). -/
def condPassed (g : Flags) : Cond → Bool
  | .eq => g.z
  | .ne => !g.z
  | .cs => g.c
  | .cc => !g.c
  | .mi => g.n
  | .pl => !g.n
  | .vs => g.v
  | .vc => !g.v
  | .hi => g.c && !g.z
  | .ls => !g.c || g.z
  | .ge => g.n == g.v
  | .lt => g.n != g.v
  | .gt => !g.z && (g.n == g.v)
  | .le => g.z || (g.n != g.v)
  | .al => true
  | .nv => false

/-- What an operation of the ALU gives: the result and the C and V it would write. -/
structure AluOut where
  value : Word
  c : Bool
  v : Bool
deriving DecidableEq, Repr

/-- What an operation of the ALU is given: the operands, the shifter carry, and the C and V flags before it. -/
structure AluIn where
  op1 : Word
  op2 : Word
  shiftCarry : Bool
  c : Bool
  v : Bool
deriving DecidableEq, Repr

/-- `AddC` (R179): the exact sums decide carry and overflow. For SBC and RSC with C = 0 the spec takes the same adder
from general knowledge (PRESUMED, log entry 24). -/
def addC (x y : Word) (cin : Bool) : AluOut :=
  let usum := x.toNat + y.toNat + cin.toNat
  let ssum := x.toInt + y.toInt + (cin.toNat : Int)
  let result := BitVec.ofNat 32 usum
  { value := result, c := decide (2 ^ 32 ≤ usum), v := decide (ssum ≠ result.toInt) }

/-- A logical operation with this result: C is the shifter carry and V stays (R180). -/
def logical (x : AluIn) (result : Word) : AluOut :=
  { value := result, c := x.shiftCarry, v := x.v }

/-- The flags that a data-processing instruction sets (R180, R181). -/
def AluOut.flags (r : AluOut) : Flags :=
  { n := r.value.getLsbD 31, z := decide (r.value = 0), c := r.c, v := r.v }

/-- The operations of R170. -/
def aluAnd (x : AluIn) : AluOut := logical x (x.op1 &&& x.op2)
/-- EOR, TEQ (R188, R196). -/
def aluEor (x : AluIn) : AluOut := logical x (x.op1 ^^^ x.op2)
/-- ORR (R199). -/
def aluOrr (x : AluIn) : AluOut := logical x (x.op1 ||| x.op2)
/-- BIC (R201). -/
def aluBic (x : AluIn) : AluOut := logical x (x.op1 &&& ~~~x.op2)
/-- MOV (R200). -/
def aluMov (x : AluIn) : AluOut := logical x x.op2
/-- MVN (R202). -/
def aluMvn (x : AluIn) : AluOut := logical x (~~~x.op2)
/-- ADD, CMN (R191, R198). -/
def aluAdd (x : AluIn) : AluOut := addC x.op1 x.op2 false
/-- ADC (R192). -/
def aluAdc (x : AluIn) : AluOut := addC x.op1 x.op2 x.c
/-- SUB, CMP (R189, R197). -/
def aluSub (x : AluIn) : AluOut := addC x.op1 (~~~x.op2) true
/-- SBC (R193). -/
def aluSbc (x : AluIn) : AluOut := addC x.op1 (~~~x.op2) x.c
/-- RSB (R190). -/
def aluRsb (x : AluIn) : AluOut := addC x.op2 (~~~x.op1) true
/-- RSC (R194). -/
def aluRsc (x : AluIn) : AluOut := addC x.op2 (~~~x.op1) x.c

/-- The flags of MUL and MLA with S = 1: N and Z of the result, C the free bit `c`, V unaffected (R241). -/
def mulFlags (old : Flags) (result : Word) (c : Bool) : Flags :=
  { n := result.getLsbD 31, z := decide (result = 0), c := c, v := old.v }

/-- The flags of a long multiply with S = 1: N and Z of the 64-bit result, C and V free (R246). -/
def mullFlags (result : BitVec 64) (c v : Bool) : Flags :=
  { n := result.getLsbD 63, z := decide (result = 0), c := c, v := v }

end Sys2Proof.Machine
end

