-- ==== Sys2Proof/WellFormed.lean ====
section
/-! DEFINITION. Which terms of `Instr` are instructions: the conditions that the types of Syntax.lean do not force. A
word of an undefined class or of a reserved pattern carries its bits 27 to 0, which must lie in that class
(spec/30_encoding.md R127, R130); TST, TEQ, CMP and CMN exclude the Rd field of the P forms (R131, R135). -/

namespace Sys2Proof

/-- Undefined class A (R127): 011x in bits 27 to 24 and bit 4 set. -/
def isUndefinedA (b : BitVec 28) : Bool :=
  b.extractLsb' 25 3 == 0b011#3 && b.getLsbD 4

/-- Undefined class B (R127), its three rows. -/
def isUndefinedB (b : BitVec 28) : Bool :=
  (b.extractLsb' 23 5 == 0b00010#5 && !b.getLsbD 20 && !b.getLsbD 4 && b.extractLsb' 5 3 != 0b000#3)
  || (b.extractLsb' 23 5 == 0b00010#5 && !b.getLsbD 20 && b.getLsbD 4 && !b.getLsbD 7)
  || (b.extractLsb' 23 5 == 0b00110#5 && b.extractLsb' 20 2 == 0b00#2)

/-- Undefined class C (R127). -/
def isUndefinedC (b : BitVec 28) : Bool :=
  b.extractLsb' 22 6 == 0b000001#6 && b.extractLsb' 4 4 == 0b1001#4

/-- Undefined class D (R127; spec/90_conflicts.md C9). -/
def isUndefinedD (b : BitVec 28) : Bool :=
  b.extractLsb' 24 4 == 0b0001#4 && b.extractLsb' 20 4 != 0b0000#4 && b.extractLsb' 20 4 != 0b0100#4
  && b.extractLsb' 4 4 == 0b1001#4

/-- Undefined class E (R127), its two rows. -/
def isUndefinedE (b : BitVec 28) : Bool :=
  (b.extractLsb' 24 4 == 0b0000#4 && b.getLsbD 21 && b.getLsbD 7 && b.getLsbD 4 && b.extractLsb' 5 2 != 0b00#2)
  || (b.extractLsb' 25 3 == 0b000#3 && !b.getLsbD 20 && b.extractLsb' 6 2 == 0b11#2 && b.getLsbD 4)

/-- Reserved, MRS-like (R130 (a), bit 21 clear). -/
def isReservedMrs (b : BitVec 28) : Bool :=
  b.extractLsb' 23 5 == 0b00010#5 && b.extractLsb' 20 2 == 0b00#2 && b.extractLsb' 4 4 == 0b0000#4
  && (b.extractLsb' 16 4 != 0b1111#4 || b.extractLsb' 8 4 != 0b0000#4 || b.extractLsb' 0 4 != 0b0000#4)

/-- Reserved, MSR-like (R130 (a), bit 21 set, and (b)). -/
def isReservedMsr (b : BitVec 28) : Bool :=
  (b.extractLsb' 23 5 == 0b00010#5 && b.extractLsb' 20 2 == 0b10#2 && b.extractLsb' 4 4 == 0b0000#4
    && (b.extractLsb' 12 4 != 0b1111#4 || b.extractLsb' 8 4 != 0b0000#4))
  || (b.extractLsb' 23 5 == 0b00110#5 && b.extractLsb' 20 2 == 0b10#2 && b.extractLsb' 12 4 != 0b1111#4)

/-- Reserved, SWP-like (R130 (c)). -/
def isReservedSwp (b : BitVec 28) : Bool :=
  b.extractLsb' 23 5 == 0b00010#5 && b.extractLsb' 20 2 == 0b00#2 && b.extractLsb' 4 4 == 0b1001#4
  && b.extractLsb' 8 4 != 0b0000#4

/-- Reserved, halfword-transfer-like (R130 (d)). -/
def isReservedHreg (b : BitVec 28) : Bool :=
  b.extractLsb' 25 3 == 0b000#3 && !b.getLsbD 22 && b.getLsbD 7 && b.getLsbD 4 && b.extractLsb' 5 2 != 0b00#2
  && !isUndefinedE b && b.extractLsb' 8 4 != 0b0000#4

/-- The terms that are instructions. -/
def Instr.wf : Instr → Bool
  | .tst _ rd _ _ | .teq _ rd _ _ | .cmp _ rd _ _ | .cmn _ rd _ _ => rd != .r15
  | .undefinedA _ x => isUndefinedA x
  | .undefinedB _ x => isUndefinedB x
  | .undefinedC _ x => isUndefinedC x
  | .undefinedD _ x => isUndefinedD x
  | .undefinedE _ x => isUndefinedE x
  | .reservedMrs _ x => isReservedMrs x
  | .reservedMsr _ x => isReservedMsr x
  | .reservedSwp _ x => isReservedSwp x
  | .reservedHreg _ x => isReservedHreg x
  | .and .. | .eor .. | .sub .. | .rsb .. | .add .. | .adc .. | .sbc .. | .rsc .. | .orr .. | .bic .. | .mov ..
  | .mvn .. | .tstp .. | .teqp .. | .cmpp .. | .cmnp .. | .mrs .. | .msr .. | .mul .. | .mla .. | .umull ..
  | .umlal .. | .smull .. | .smlal .. | .ldr .. | .ldrb .. | .str .. | .strb .. | .ldrt .. | .ldrbt .. | .strt ..
  | .strbt .. | .ldrh .. | .ldrsb .. | .ldrsh .. | .strh .. | .ldm .. | .stm .. | .swp .. | .swpb .. | .b _ _
  | .bl .. | .swi .. | .cdp .. | .ldc .. | .stc .. | .mrc .. | .mcr .. => true

end Sys2Proof
end

