-- ==== Sys2Proof/Decode.lean ====
section
/-! DEFINITION. The decoder, total on every 32-bit word (spec/30_encoding.md R123 to R130), and after it the encoder,
written from the formats of R112. Bytes are joined into words here, once (spec/20_memory.md R61, R62, R64). -/

namespace Sys2Proof

/-! ## Fields -/

/-- The condition named by bits 31 to 28 (R150). -/
def Cond.ofBits (v : BitVec 4) : Cond :=
  match v.toNat with
  | 0 => .eq | 1 => .ne | 2 => .cs | 3 => .cc | 4 => .mi | 5 => .pl | 6 => .vs | 7 => .vc
  | 8 => .hi | 9 => .ls | 10 => .ge | 11 => .lt | 12 => .gt | 13 => .le | 14 => .al | _ => .nv

/-- The condition field (R150). -/
def Cond.bits : Cond → BitVec 4
  | .eq => 0 | .ne => 1 | .cs => 2 | .cc => 3 | .mi => 4 | .pl => 5 | .vs => 6 | .vc => 7
  | .hi => 8 | .ls => 9 | .ge => 10 | .lt => 11 | .gt => 12 | .le => 13 | .al => 14 | .nv => 15

/-- The register named by a 4-bit field (R111). -/
def Reg.ofBits (v : BitVec 4) : Reg :=
  match v.toNat with
  | 0 => .r0 | 1 => .r1 | 2 => .r2 | 3 => .r3 | 4 => .r4 | 5 => .r5 | 6 => .r6 | 7 => .r7
  | 8 => .r8 | 9 => .r9 | 10 => .r10 | 11 => .r11 | 12 => .r12 | 13 => .r13 | 14 => .r14 | _ => .r15

/-- The 4-bit field that names a register (R111). -/
def Reg.bits : Reg → BitVec 4
  | .r0 => 0 | .r1 => 1 | .r2 => 2 | .r3 => 3 | .r4 => 4 | .r5 => 5 | .r6 => 6 | .r7 => 7
  | .r8 => 8 | .r9 => 9 | .r10 => 10 | .r11 => 11 | .r12 => 12 | .r13 => 13 | .r14 => 14 | .r15 => 15

/-- The shift type of bits 6 and 5 (R114). -/
def ShiftType.ofBits (v : BitVec 2) : ShiftType :=
  match v.toNat with
  | 0 => .lsl | 1 => .lsr | 2 => .asr | _ => .ror

/-- The shift type field (R114). -/
def ShiftType.bits : ShiftType → BitVec 2
  | .lsl => 0 | .lsr => 1 | .asr => 2 | .ror => 3

/-- The addressing form that P and W select; P = 0 with W = 1 is never asked (R260, R290). -/
def Index.ofBits (p w : Bool) : Index :=
  if p then (if w then .pre else .offset) else .post

/-- The P bit of an addressing form (R113). -/
def Index.p : Index → Bool
  | .offset | .pre => true
  | .post => false

/-- The W bit of an addressing form (R113, R291). -/
def Index.w : Index → Bool
  | .pre => true
  | .offset | .post => false

/-- The register in the 4-bit field of `b` that starts at bit `lo`. -/
def regAt (b : BitVec 28) (lo : Nat) : Reg := Reg.ofBits (b.extractLsb' lo 4)

/-! ## The decoder -/

/-- Operand 2 with I = 0 (R114). -/
def decodeOperand2Reg (b : BitVec 28) : Operand2 :=
  if b.getLsbD 4 then .shiftReg (regAt b 0) (ShiftType.ofBits (b.extractLsb' 5 2)) (regAt b 8)
  else .shiftImm (regAt b 0) (ShiftType.ofBits (b.extractLsb' 5 2)) (b.extractLsb' 7 5)

/-- Operand 2 with I = 1 (R114). -/
def decodeOperand2Imm (b : BitVec 28) : Operand2 :=
  .imm (b.extractLsb' 8 4) (b.extractLsb' 0 8)

/-- A data-processing word whose operand 2 is `o` (R125 (c), R126, R170); Rd = 1111 in the four that write no register
is the P form (R135). -/
def decodeDp (c : Cond) (b : BitVec 28) (o : Operand2) : Instr :=
  let f := b.getLsbD 20
  let rd := regAt b 12
  let rn := regAt b 16
  match (b.extractLsb' 21 4).toNat with
  | 0 => .and c f rd rn o
  | 1 => .eor c f rd rn o
  | 2 => .sub c f rd rn o
  | 3 => .rsb c f rd rn o
  | 4 => .add c f rd rn o
  | 5 => .adc c f rd rn o
  | 6 => .sbc c f rd rn o
  | 7 => .rsc c f rd rn o
  | 8 => if rd = .r15 then .tstp c rn o else .tst c rd rn o
  | 9 => if rd = .r15 then .teqp c rn o else .teq c rd rn o
  | 10 => if rd = .r15 then .cmpp c rn o else .cmp c rd rn o
  | 11 => if rd = .r15 then .cmnp c rn o else .cmn c rd rn o
  | 12 => .orr c f rd rn o
  | 13 => .mov c f rd rn o
  | 14 => .bic c f rd rn o
  | _ => .mvn c f rd rn o

/-- Bits 27 to 25 are 000 and bits 7 to 4 are 1001: multiplies and swaps (R125 (a)). -/
def decodeMultiplySwap (c : Cond) (b : BitVec 28) : Instr :=
  let f := b.getLsbD 20
  if b.extractLsb' 22 3 = 0b000#3 then
    (if b.getLsbD 21 then .mla c f (regAt b 16) (regAt b 12) (regAt b 8) (regAt b 0)
     else .mul c f (regAt b 16) (regAt b 12) (regAt b 8) (regAt b 0))
  else if b.extractLsb' 22 3 = 0b001#3 then .undefinedC c b
  else if b.extractLsb' 23 2 = 0b01#2 then
    match (b.extractLsb' 21 2).toNat with
    | 0 => .umull c f (regAt b 16) (regAt b 12) (regAt b 8) (regAt b 0)
    | 1 => .umlal c f (regAt b 16) (regAt b 12) (regAt b 8) (regAt b 0)
    | 2 => .smull c f (regAt b 16) (regAt b 12) (regAt b 8) (regAt b 0)
    | _ => .smlal c f (regAt b 16) (regAt b 12) (regAt b 8) (regAt b 0)
  else if b.extractLsb' 20 5 = 0b10000#5 then
    (if b.extractLsb' 8 4 = 0b0000#4 then .swp c (regAt b 16) (regAt b 12) (regAt b 0) else .reservedSwp c b)
  else if b.extractLsb' 20 5 = 0b10100#5 then
    (if b.extractLsb' 8 4 = 0b0000#4 then .swpb c (regAt b 16) (regAt b 12) (regAt b 0) else .reservedSwp c b)
  else .undefinedD c b

/-- The offset of a halfword or signed transfer (R117). -/
def decodeHalfOffset (b : BitVec 28) : HalfOffset :=
  if b.getLsbD 22 then .imm (b.extractLsb' 8 4 ++ b.extractLsb' 0 4) else .reg (regAt b 0)

/-- Bits 27 to 25 are 000, bits 7 and 4 are set and bits 6 and 5 are not both clear: halfword and signed transfers (R125 (a)). -/
def decodeHalf (c : Cond) (b : BitVec 28) : Instr :=
  let up := b.getLsbD 23
  let idx := Index.ofBits (b.getLsbD 24) (b.getLsbD 21)
  let rn := regAt b 16
  let rd := regAt b 12
  let off := decodeHalfOffset b
  if !b.getLsbD 24 && b.getLsbD 21 then .undefinedE c b
  else if !b.getLsbD 20 && b.getLsbD 6 then .undefinedE c b
  else if !b.getLsbD 22 && b.extractLsb' 8 4 != 0b0000#4 then .reservedHreg c b
  else if b.getLsbD 20 then
    match (b.extractLsb' 5 2).toNat with
    | 1 => .ldrh c idx up rn rd off
    | 2 => .ldrsb c idx up rn rd off
    | _ => .ldrsh c idx up rn rd off
  else .strh c idx up rn rd off

/-- The PSR transfer space with a register operand (R125 (b)). -/
def decodePsr (c : Cond) (b : BitVec 28) : Instr :=
  if b.getLsbD 4 then .undefinedB c b
  else if b.extractLsb' 5 3 ≠ 0b000#3 then .undefinedB c b
  else if b.getLsbD 21 then
    (if b.extractLsb' 12 4 = 0b1111#4 ∧ b.extractLsb' 8 4 = 0b0000#4 then
      .msr c (b.getLsbD 22) (b.extractLsb' 16 4) (.reg (regAt b 0))
     else .reservedMsr c b)
  else
    (if b.extractLsb' 16 4 = 0b1111#4 ∧ b.extractLsb' 0 12 = 0#12 then .mrs c (b.getLsbD 22) (regAt b 12)
     else .reservedMrs c b)

/-- Bits 27 to 25 are 000 (R125). -/
def decode000 (c : Cond) (b : BitVec 28) : Instr :=
  if b.getLsbD 7 && b.getLsbD 4 then
    (if b.extractLsb' 5 2 = 0b00#2 then decodeMultiplySwap c b else decodeHalf c b)
  else if b.extractLsb' 23 2 = 0b10#2 ∧ b.getLsbD 20 = false then decodePsr c b
  else decodeDp c b (decodeOperand2Reg b)

/-- Bits 27 to 25 are 001 (R126). -/
def decode001 (c : Cond) (b : BitVec 28) : Instr :=
  if b.extractLsb' 23 2 = 0b10#2 ∧ b.getLsbD 20 = false then
    (if b.getLsbD 21 then
      (if b.extractLsb' 12 4 = 0b1111#4 then
        .msr c (b.getLsbD 22) (b.extractLsb' 16 4) (.imm (b.extractLsb' 8 4) (b.extractLsb' 0 8))
       else .reservedMsr c b)
     else .undefinedB c b)
  else decodeDp c b (decodeOperand2Imm b)

/-- A single data transfer with offset `off`: the mnemonic is chosen by L, B and, for post-indexed forms, W (R124, R260). -/
def decodeSingle (c : Cond) (b : BitVec 28) (off : TransferOffset) : Instr :=
  let up := b.getLsbD 23
  let idx := Index.ofBits (b.getLsbD 24) (b.getLsbD 21)
  let rn := regAt b 16
  let rd := regAt b 12
  if !b.getLsbD 24 && b.getLsbD 21 then
    (if b.getLsbD 20 then
      (if b.getLsbD 22 then .ldrbt c up rn rd off else .ldrt c up rn rd off)
     else
      (if b.getLsbD 22 then .strbt c up rn rd off else .strt c up rn rd off))
  else if b.getLsbD 20 then
    (if b.getLsbD 22 then .ldrb c idx up rn rd off else .ldr c idx up rn rd off)
  else
    (if b.getLsbD 22 then .strb c idx up rn rd off else .str c idx up rn rd off)

/-- Bits 27 to 25 are 100 (R124, R310). -/
def decodeBlock (c : Cond) (b : BitVec 28) : Instr :=
  if b.getLsbD 20 then
    .ldm c (b.getLsbD 24) (b.getLsbD 23) (b.getLsbD 22) (b.getLsbD 21) (regAt b 16) (b.extractLsb' 0 16)
  else
    .stm c (b.getLsbD 24) (b.getLsbD 23) (b.getLsbD 22) (b.getLsbD 21) (regAt b 16) (b.extractLsb' 0 16)

/-- Bits 27 to 25 are 110 (R124, R362). -/
def decodeCoprocTransfer (c : Cond) (b : BitVec 28) : Instr :=
  if b.getLsbD 20 then
    .ldc c (b.getLsbD 24) (b.getLsbD 23) (b.getLsbD 22) (b.getLsbD 21) (regAt b 16) (b.extractLsb' 12 4)
      (b.extractLsb' 8 4) (b.extractLsb' 0 8)
  else
    .stc c (b.getLsbD 24) (b.getLsbD 23) (b.getLsbD 22) (b.getLsbD 21) (regAt b 16) (b.extractLsb' 12 4)
      (b.extractLsb' 8 4) (b.extractLsb' 0 8)

/-- Bits 27 to 25 are 111 (R124, R360). -/
def decode111 (c : Cond) (b : BitVec 28) : Instr :=
  if b.getLsbD 24 then .swi c (b.extractLsb' 0 24)
  else if !b.getLsbD 4 then
    .cdp c (b.extractLsb' 20 4) (b.extractLsb' 16 4) (b.extractLsb' 12 4) (b.extractLsb' 8 4) (b.extractLsb' 5 3)
      (b.extractLsb' 0 4)
  else if b.getLsbD 20 then
    .mrc c (b.extractLsb' 21 3) (b.extractLsb' 16 4) (regAt b 12) (b.extractLsb' 8 4) (b.extractLsb' 5 3)
      (b.extractLsb' 0 4)
  else
    .mcr c (b.extractLsb' 21 3) (b.extractLsb' 16 4) (regAt b 12) (b.extractLsb' 8 4) (b.extractLsb' 5 3)
      (b.extractLsb' 0 4)

/-- Bits 27 to 0 under the condition `c` (R124). -/
def decodeBody (c : Cond) (b : BitVec 28) : Instr :=
  match (b.extractLsb' 25 3).toNat with
  | 0 => decode000 c b
  | 1 => decode001 c b
  | 2 => decodeSingle c b (.imm (b.extractLsb' 0 12))
  | 3 =>
    if b.getLsbD 4 then .undefinedA c b
    else decodeSingle c b (.reg (regAt b 0) (ShiftType.ofBits (b.extractLsb' 5 2)) (b.extractLsb' 7 5))
  | 4 => decodeBlock c b
  | 5 => if b.getLsbD 24 then .bl c (b.extractLsb' 0 24) else .b c (b.extractLsb' 0 24)
  | 6 => decodeCoprocTransfer c b
  | _ => decode111 c b

/-- The instruction of a word (R123): a pure function of its 32 bits. -/
def decode (w : Word) : Instr :=
  decodeBody (Cond.ofBits (w.extractLsb' 28 4)) (w.extractLsb' 0 28)

/-! ## Bytes and words -/

/-- The word on the data lines when the bytes at A, A + 1, A + 2, A + 3 are `b0` to `b3` (R64). -/
def joinWord (big : Bool) (b0 b1 b2 b3 : Byte) : Word :=
  if big then b0 ++ b1 ++ b2 ++ b3 else b3 ++ b2 ++ b1 ++ b0

/-- The byte at A + k when the word on the data lines is `v` (R64, R68). -/
def wordByte (big : Bool) (v : Word) (k : Nat) : Byte :=
  if big then v.extractLsb' (24 - 8 * k) 8 else v.extractLsb' (8 * k) 8

/-- Why bytes are not an instruction. -/
inductive DecodeError where
  /-- Fewer than four bytes (R110). -/
  | truncated
deriving DecidableEq, Repr

/-- The instruction at the front of `bytes`, lowest address first, and the bytes after it. -/
def decodeBytes (big : Bool) : List Byte → Except DecodeError (Instr × List Byte)
  | b0 :: b1 :: b2 :: b3 :: rest => .ok (decode (joinWord big b0 b1 b2 b3), rest)
  | _ => .error .truncated

/-- The word `v` as bytes, lowest address first (R64). -/
def wordBytes (big : Bool) (v : Word) : List Byte :=
  [wordByte big v 0, wordByte big v 1, wordByte big v 2, wordByte big v 3]

/-- What the decoder reads from a word of spec/opcode_table.json: the low `nbits` bits of `w`, the rest 0, laid out in
little-endian order (the byte order does not matter to a word, R63). -/
def decodeTableWord (nbits w : Nat) : Option Instr :=
  match decodeBytes false (wordBytes false (BitVec.ofNat 32 (w % 2 ^ nbits))) with
  | .ok (i, _) => some i
  | .error _ => none

/-! ## The encoder -/

/-- Bits 11 to 0 of operand 2 (R114). -/
def Operand2.bits : Operand2 → BitVec 12
  | .imm rotate imm8 => rotate ++ imm8
  | .shiftImm rm ty amount => amount ++ ty.bits ++ 0b0#1 ++ rm.bits
  | .shiftReg rm ty rs => rs.bits ++ 0b0#1 ++ ty.bits ++ 0b1#1 ++ rm.bits

/-- The I bit of a data-processing word (R113). -/
def Operand2.isImm : Operand2 → Bool
  | .imm .. => true
  | .shiftImm .. | .shiftReg .. => false

/-- Format DP (R112). -/
def encodeDp (op : BitVec 4) (f : Bool) (rd rn : Reg) (o : Operand2) : BitVec 28 :=
  0b00#2 ++ BitVec.ofBool o.isImm ++ op ++ BitVec.ofBool f ++ rn.bits ++ rd.bits ++ o.bits

/-- Format MUL (R112). -/
def encodeMul (a f : Bool) (rd rn rs rm : Reg) : BitVec 28 :=
  0b000000#6 ++ BitVec.ofBool a ++ BitVec.ofBool f ++ rd.bits ++ rn.bits ++ rs.bits ++ 0b1001#4 ++ rm.bits

/-- Format MULL (R112). -/
def encodeMull (u a f : Bool) (rdHi rdLo rs rm : Reg) : BitVec 28 :=
  0b00001#5 ++ BitVec.ofBool u ++ BitVec.ofBool a ++ BitVec.ofBool f ++ rdHi.bits ++ rdLo.bits ++ rs.bits
    ++ 0b1001#4 ++ rm.bits

/-- Bits 11 to 0 of a single data transfer (R116). -/
def TransferOffset.bits : TransferOffset → BitVec 12
  | .imm offset => offset
  | .reg rm ty amount => amount ++ ty.bits ++ 0b0#1 ++ rm.bits

/-- The I bit of a single data transfer (R113: the opposite sense to data processing). -/
def TransferOffset.isReg : TransferOffset → Bool
  | .imm _ => false
  | .reg .. => true

/-- Format SDT (R112). -/
def encodeSingle (p up byte w load : Bool) (rn rd : Reg) (off : TransferOffset) : BitVec 28 :=
  0b01#2 ++ BitVec.ofBool off.isReg ++ BitVec.ofBool p ++ BitVec.ofBool up ++ BitVec.ofBool byte ++ BitVec.ofBool w
    ++ BitVec.ofBool load ++ rn.bits ++ rd.bits ++ off.bits

/-- Formats HREG and HIMM (R112); `sh` is bits 6 and 5. -/
def encodeHalf (idx : Index) (up load : Bool) (sh : BitVec 2) (rn rd : Reg) : HalfOffset → BitVec 28
  | .imm offset =>
    0b000#3 ++ BitVec.ofBool idx.p ++ BitVec.ofBool up ++ 0b1#1 ++ BitVec.ofBool idx.w ++ BitVec.ofBool load
      ++ rn.bits ++ rd.bits ++ offset.extractLsb' 4 4 ++ 0b1#1 ++ sh ++ 0b1#1 ++ offset.extractLsb' 0 4
  | .reg rm =>
    0b000#3 ++ BitVec.ofBool idx.p ++ BitVec.ofBool up ++ 0b0#1 ++ BitVec.ofBool idx.w ++ BitVec.ofBool load
      ++ rn.bits ++ rd.bits ++ 0b0000#4 ++ 0b1#1 ++ sh ++ 0b1#1 ++ rm.bits

/-- Formats MSRR and MSRI (R112). -/
def encodeMsr (spsr : Bool) (mask : BitVec 4) : MsrSource → BitVec 28
  | .reg rm => 0b00010#5 ++ BitVec.ofBool spsr ++ 0b10#2 ++ mask ++ 0b1111#4 ++ 0b00000000#8 ++ rm.bits
  | .imm rotate imm8 => 0b00110#5 ++ BitVec.ofBool spsr ++ 0b10#2 ++ mask ++ 0b1111#4 ++ rotate ++ imm8

/-- Format BDT (R112). -/
def encodeBlock (p up psr w load : Bool) (rn : Reg) (list : BitVec 16) : BitVec 28 :=
  0b100#3 ++ BitVec.ofBool p ++ BitVec.ofBool up ++ BitVec.ofBool psr ++ BitVec.ofBool w ++ BitVec.ofBool load
    ++ rn.bits ++ list

/-- Format SWP (R112). -/
def encodeSwap (byte : Bool) (rn rd rm : Reg) : BitVec 28 :=
  0b00010#5 ++ BitVec.ofBool byte ++ 0b00#2 ++ rn.bits ++ rd.bits ++ 0b0000#4 ++ 0b1001#4 ++ rm.bits

/-- Format CDT (R112). -/
def encodeCoprocTransfer (p up n w load : Bool) (rn : Reg) (crd num : BitVec 4) (offset : BitVec 8) : BitVec 28 :=
  0b110#3 ++ BitVec.ofBool p ++ BitVec.ofBool up ++ BitVec.ofBool n ++ BitVec.ofBool w ++ BitVec.ofBool load
    ++ rn.bits ++ crd ++ num ++ offset

/-- Format CRT (R112). -/
def encodeCoprocReg (load : Bool) (opc : BitVec 3) (crn : BitVec 4) (rd : Reg) (num : BitVec 4) (info : BitVec 3)
    (crm : BitVec 4) : BitVec 28 :=
  0b1110#4 ++ opc ++ BitVec.ofBool load ++ crn ++ rd.bits ++ num ++ info ++ 0b1#1 ++ crm

/-- Format CDO (R112). -/
def encodeCdp (opc crn crd num : BitVec 4) (info : BitVec 3) (crm : BitVec 4) : BitVec 28 :=
  0b1110#4 ++ opc ++ crn ++ crd ++ num ++ info ++ 0b0#1 ++ crm

/-- The condition of an instruction. -/
def Instr.cond : Instr → Cond
  | .and c .. | .eor c .. | .sub c .. | .rsb c .. | .add c .. | .adc c .. | .sbc c .. | .rsc c .. | .orr c ..
  | .bic c .. | .mov c .. | .mvn c .. | .tst c .. | .teq c .. | .cmp c .. | .cmn c .. | .tstp c .. | .teqp c ..
  | .cmpp c .. | .cmnp c .. | .mrs c .. | .msr c .. | .mul c .. | .mla c .. | .umull c .. | .umlal c ..
  | .smull c .. | .smlal c .. | .ldr c .. | .ldrb c .. | .str c .. | .strb c .. | .ldrt c .. | .ldrbt c ..
  | .strt c .. | .strbt c .. | .ldrh c .. | .ldrsb c .. | .ldrsh c .. | .strh c .. | .ldm c .. | .stm c ..
  | .swp c .. | .swpb c .. | .b c _ | .bl c .. | .swi c .. | .cdp c .. | .ldc c .. | .stc c .. | .mrc c ..
  | .mcr c .. | .undefinedA c .. | .undefinedB c .. | .undefinedC c .. | .undefinedD c .. | .undefinedE c ..
  | .reservedMrs c .. | .reservedMsr c .. | .reservedSwp c .. | .reservedHreg c .. => c

/-- Bits 27 to 0 of an instruction (R112, R170, R360). -/
def encodeBody : Instr → BitVec 28
  | .and _ f rd rn o => encodeDp 0b0000#4 f rd rn o
  | .eor _ f rd rn o => encodeDp 0b0001#4 f rd rn o
  | .sub _ f rd rn o => encodeDp 0b0010#4 f rd rn o
  | .rsb _ f rd rn o => encodeDp 0b0011#4 f rd rn o
  | .add _ f rd rn o => encodeDp 0b0100#4 f rd rn o
  | .adc _ f rd rn o => encodeDp 0b0101#4 f rd rn o
  | .sbc _ f rd rn o => encodeDp 0b0110#4 f rd rn o
  | .rsc _ f rd rn o => encodeDp 0b0111#4 f rd rn o
  | .tst _ rd rn o => encodeDp 0b1000#4 true rd rn o
  | .teq _ rd rn o => encodeDp 0b1001#4 true rd rn o
  | .cmp _ rd rn o => encodeDp 0b1010#4 true rd rn o
  | .cmn _ rd rn o => encodeDp 0b1011#4 true rd rn o
  | .tstp _ rn o => encodeDp 0b1000#4 true .r15 rn o
  | .teqp _ rn o => encodeDp 0b1001#4 true .r15 rn o
  | .cmpp _ rn o => encodeDp 0b1010#4 true .r15 rn o
  | .cmnp _ rn o => encodeDp 0b1011#4 true .r15 rn o
  | .orr _ f rd rn o => encodeDp 0b1100#4 f rd rn o
  | .mov _ f rd rn o => encodeDp 0b1101#4 f rd rn o
  | .bic _ f rd rn o => encodeDp 0b1110#4 f rd rn o
  | .mvn _ f rd rn o => encodeDp 0b1111#4 f rd rn o
  | .mrs _ spsr rd => 0b00010#5 ++ BitVec.ofBool spsr ++ 0b00#2 ++ 0b1111#4 ++ rd.bits ++ 0#12
  | .msr _ spsr mask src => encodeMsr spsr mask src
  | .mul _ f rd rn rs rm => encodeMul false f rd rn rs rm
  | .mla _ f rd rn rs rm => encodeMul true f rd rn rs rm
  | .umull _ f rdHi rdLo rs rm => encodeMull false false f rdHi rdLo rs rm
  | .umlal _ f rdHi rdLo rs rm => encodeMull false true f rdHi rdLo rs rm
  | .smull _ f rdHi rdLo rs rm => encodeMull true false f rdHi rdLo rs rm
  | .smlal _ f rdHi rdLo rs rm => encodeMull true true f rdHi rdLo rs rm
  | .ldr _ idx up rn rd off => encodeSingle idx.p up false idx.w true rn rd off
  | .ldrb _ idx up rn rd off => encodeSingle idx.p up true idx.w true rn rd off
  | .str _ idx up rn rd off => encodeSingle idx.p up false idx.w false rn rd off
  | .strb _ idx up rn rd off => encodeSingle idx.p up true idx.w false rn rd off
  | .ldrt _ up rn rd off => encodeSingle false up false true true rn rd off
  | .ldrbt _ up rn rd off => encodeSingle false up true true true rn rd off
  | .strt _ up rn rd off => encodeSingle false up false true false rn rd off
  | .strbt _ up rn rd off => encodeSingle false up true true false rn rd off
  | .ldrh _ idx up rn rd off => encodeHalf idx up true 0b01#2 rn rd off
  | .ldrsb _ idx up rn rd off => encodeHalf idx up true 0b10#2 rn rd off
  | .ldrsh _ idx up rn rd off => encodeHalf idx up true 0b11#2 rn rd off
  | .strh _ idx up rn rd off => encodeHalf idx up false 0b01#2 rn rd off
  | .ldm _ p up psr w rn list => encodeBlock p up psr w true rn list
  | .stm _ p up psr w rn list => encodeBlock p up psr w false rn list
  | .swp _ rn rd rm => encodeSwap false rn rd rm
  | .swpb _ rn rd rm => encodeSwap true rn rd rm
  | .b _ offset => 0b1010#4 ++ offset
  | .bl _ offset => 0b1011#4 ++ offset
  | .swi _ comment => 0b1111#4 ++ comment
  | .cdp _ opc crn crd num info crm => encodeCdp opc crn crd num info crm
  | .ldc _ p up n w rn crd num offset => encodeCoprocTransfer p up n w true rn crd num offset
  | .stc _ p up n w rn crd num offset => encodeCoprocTransfer p up n w false rn crd num offset
  | .mrc _ opc crn rd num info crm => encodeCoprocReg true opc crn rd num info crm
  | .mcr _ opc crn rd num info crm => encodeCoprocReg false opc crn rd num info crm
  | .undefinedA _ b | .undefinedB _ b | .undefinedC _ b | .undefinedD _ b | .undefinedE _ b
  | .reservedMrs _ b | .reservedMsr _ b | .reservedSwp _ b | .reservedHreg _ b => b

/-- The word of an instruction (R111, R112). -/
def encode (i : Instr) : Word := i.cond.bits ++ encodeBody i

end Sys2Proof
end

