-- ==== Sys2Proof/Machine/Memory.lean ====
section
/-! DEFINITION. Memory (spec/20_memory.md R64 to R70): a list of cells in one canonical form, addresses strictly rising
below 2^32 and no byte equal to what an unlisted address reads as. -/

namespace Sys2Proof.Machine

/-- What a byte that nothing has written reads as: the spec gives memory no content (spec/70_reset_and_hazards.md
R482). DESIGN CHOICE: 0x00, unsafe (log entry 4). -/
def Memory.unlisted : Byte := 0x00#8

/-- The byte at an address (R66). -/
def Memory.read : List Host.Cell → Nat → Byte
  | [], _ => Memory.unlisted
  | (k, x) :: rest, a => if a = k then x else if a < k then Memory.unlisted else Memory.read rest a

/-- Memory with the byte at `a` written; a byte that reads as unlisted is not kept. -/
def Memory.write : List Host.Cell → Nat → Byte → List Host.Cell
  | [], a, v => if v = Memory.unlisted then [] else [(a, v)]
  | (k, x) :: rest, a, v =>
    if a < k then (if v = Memory.unlisted then (k, x) :: rest else (a, v) :: (k, x) :: rest)
    else if a = k then (if v = Memory.unlisted then rest else (a, v) :: rest)
    else (k, x) :: Memory.write rest a v

/-- The canonical form above a bound. -/
def Memory.wfFrom (lo : Nat) : List Host.Cell → Bool
  | [] => true
  | (k, x) :: rest => decide (lo ≤ k) && decide (k < 2 ^ 32) && decide (x ≠ Memory.unlisted) && Memory.wfFrom (k + 1) rest

/-- The canonical form. -/
def Memory.wf (m : List Host.Cell) : Bool := Memory.wfFrom 0 m

/-- The aligned word that contains an address (R65, R68, D2). -/
def alignWord (a : Word) : Word := a &&& 0xFFFFFFFC#32

/-- `MemRead(addr, 4)` (R65): the aligned word that contains the address. -/
def Memory.readWord (big : Bool) (m : List Host.Cell) (a : Word) : Word :=
  let k := (alignWord a).toNat
  joinWord big (Memory.read m k) (Memory.read m (k + 1)) (Memory.read m (k + 2)) (Memory.read m (k + 3))

/-- `MemRead(addr, 2)` at an even address (R67). -/
def Memory.readHalf (big : Bool) (m : List Host.Cell) (a : Word) : Half :=
  let k := a.toNat
  if big then Memory.read m k ++ Memory.read m (k + 1) else Memory.read m (k + 1) ++ Memory.read m k

/-- `MemRead(addr, 1)` (R66). -/
def Memory.readByte (m : List Host.Cell) (a : Word) : Byte := Memory.read m a.toNat

/-- Write bytes at consecutive addresses. -/
def Memory.writeBytes (m : List Host.Cell) (a : Nat) : List Byte → List Host.Cell
  | [] => m
  | v :: rest => Memory.writeBytes (Memory.write m a v) (a + 1) rest

/-- The bytes of a halfword, lowest address first (R70). -/
def halfBytes (big : Bool) (v : Half) : List Byte :=
  if big then [v.extractLsb' 8 8, v.extractLsb' 0 8] else [v.extractLsb' 0 8, v.extractLsb' 8 8]

/-- Insert an address into a strictly rising list. -/
def insertAddr (a : Nat) : List Nat → List Nat
  | [] => [a]
  | k :: rest => if a < k then a :: k :: rest else if a = k then k :: rest else k :: insertAddr a rest

/-- Insert `n` consecutive addresses. -/
def insertAddrs (a : Nat) : Nat → List Nat → List Nat
  | 0, l => l
  | n + 1, l => insertAddrs (a + 1) n (insertAddr a l)

/-- A strictly rising list of addresses below 2^32, above a bound. -/
def risingFrom (lo : Nat) : List Nat → Bool
  | [] => true
  | k :: rest => decide (lo ≤ k) && decide (k < 2 ^ 32) && risingFrom (k + 1) rest

/-- A strictly rising list of addresses below 2^32: the form of `marks`, `ran26` and `ran32`. -/
def rising (l : List Nat) : Bool := risingFrom 0 l

end Sys2Proof.Machine
end

