-- ==== Sys2Proof/Machine/Ops.lean ====
section
/-! DEFINITION. The named operations over the state: registers (spec/10_state.md R23, R30, R31), the program counter
(R32), memory accesses (spec/20_memory.md R64 to R78), free values, taking an exception and returning from one
(spec/60_exceptions.md R423, R450), reset (spec/70_reset_and_hazards.md R481), and the condition test that opens every
meaning (spec/40_conditional_execution.md R151, R152). -/

namespace Sys2Proof.Machine

/-! ## Registers -/

/-- The bits of the program counter that a mode keeps (R31; spec/50_26bit_operation.md R392). -/
def Mode.pcMask (m : Mode) : Word := if m.is26 then 0x03FFFFFC#32 else 0xFFFFFFFC#32

/-- An address relative to the instruction, as a part of R15: in a 26-bit mode its top six bits are zero (R30, R392;
DEDUCED, log entry 14). -/
def State.pcPlus (s : State) (k : Word) : Word :=
  if s.cpsr.mode.is26 then (s.pc + k) &&& 0x03FFFFFC#32 else s.pc + k

/-- R15 as read in the Rm position, as stored and as linked by BL (spec/50_26bit_operation.md R405): under `arm2as` in
a 26-bit mode the PSR bits stand around the PC (PRESUMED, log entry 16). -/
def State.pcWithPsr (s : State) (k : Word) : Word :=
  if s.cpsr.mode.is26 && s.cfg.r15Read26 == .arm2as then
    s.cpsr.flags.bits ++ BitVec.ofBool s.cpsr.i ++ BitVec.ofBool s.cpsr.f ++ (s.pcPlus k).extractLsb' 2 24
      ++ s.cpsr.mode.bits.extractLsb' 0 2
  else s.pcPlus k

/-- `x[r]` in the current mode's view; R15 reads as A + 8 without PSR bits: the Rn and base position (R23, R30). -/
def State.reg (s : State) (r : Reg) : Word :=
  match s.cpsr.mode.bank.view r with
  | some p => s.regs.get p
  | none => s.pcPlus 8

/-- `x[r]` in the Rm position and as stored data: R15 by R405 (R30). -/
def State.regM (s : State) (r : Reg) : Word :=
  match s.cpsr.mode.bank.view r with
  | some p => s.regs.get p
  | none => s.pcWithPsr 8

/-- `x_usr[r]` as stored data (R11, R23). -/
def State.regUsr (s : State) (r : Reg) : Word :=
  match Bank.usr.view r with
  | some p => s.regs.get p
  | none => s.pcWithPsr 8

/-- `x[r] <- v` in the view of bank `k`; R15 is written by `jump` only. -/
def State.setRegIn (s : State) (k : Bank) (r : Reg) (v : Word) : State :=
  match k.view r with
  | some p => { s with regs := s.regs.set p v }
  | none => s

/-- `x[r] <- v` (R11) for R0 to R14. -/
def State.setReg (s : State) (r : Reg) (v : Word) : State := s.setRegIn s.cpsr.mode.bank r v

/-- The flags written. -/
def State.setFlags (s : State) (g : Flags) : State := { s with cpsr := { s.cpsr with flags := g } }

/-! ## The program counter -/

/-- `pc <- pc + 4` (R32): past the top of the address space, and in a 26-bit mode past 0x03FFFFFC (R393), nothing is
promised. -/
def State.advance (s : State) : Out :=
  if s.pc = 0xFFFFFFFC#32 then .fault .pastTop32
  else if s.cpsr.mode.is26 && s.pc == 0x03FFFFFC#32 then .fault .pastTop26
  else .next { s with pc := s.pc + 4, userLdm := false, busyWait := false }

/-- The Prefetch Unit flushed: every prefetched word is discarded (R11; spec/20_memory.md R92). -/
def FetchUnit.flushed (f : FetchUnit) : FetchUnit := { f with buffer := [] }

/-- `pc <- v` (R11, R31, R392), which flushes the Prefetch Unit. -/
def State.jumpTo (s : State) (v : Word) : State :=
  { s with
    pc := v &&& s.cpsr.mode.pcMask
    userLdm := false
    busyWait := false
    fetchUnit := s.fetchUnit.flushed }

/-- `pc <- v` as the end of an instruction. -/
def State.jump (s : State) (v : Word) : Out := .next (s.jumpTo v)

/-! ## Free values -/

/-- The next free word: `ANY(32)` (R11, log entry 8). -/
def State.free (s : State) : Word := Config.freeWord s.freeCount

/-- The state after a free word has been drawn. -/
def State.drawn (s : State) : State := { s with freeCount := s.freeCount + 1 }

/-! ## Memory -/

/-- A filter of an abort rule: absent, or equal to the access's attribute. -/
def filterOk {α : Type} [DecidableEq α] (o : Option α) (x : α) : Bool :=
  match o with
  | none => true
  | some y => decide (y = x)

/-- Whether a rule of the `Mem` oracle aborts an access (R77). -/
def AbortRule.hits (r : AbortRule) (a : Access) : Bool :=
  decide (r.lo ≤ a.addr.toNat) && decide (a.addr.toNat < r.hi) && filterOk r.width a.width && filterOk r.kind a.kind
  && filterOk r.privileged a.privileged && filterOk r.twentySixBit a.twentySixBit && filterOk r.locked a.locked

/-- Whether the memory system aborts an access (R78). -/
def State.abortsAt (s : State) (a : Access) : Bool := s.aborts.any (fun r => r.hits a)

/-- An access from the current mode; `user` presents it as a User-mode access (R76, R263). -/
def State.access (s : State) (user : Bool) (kind : AccessKind) (width : Width) (locked : Bool) (addr : Word) : Access :=
  { addr := addr, width := width, kind := kind, privileged := s.cpsr.mode.privileged && !user,
    twentySixBit := s.cpsr.mode.is26, locked := locked }

/-- Something driven on the interfaces. -/
def State.emit (s : State) (o : Output) : State := { s with outputs := s.outputs ++ [o] }

/-- The word at an address (R65). -/
def State.loadWord (s : State) (a : Word) : Word := Memory.readWord s.cfg.bigend s.mem a

/-- The RETURN response that completes a request of `words` (R101). -/
def returnOf (kind : AccessKind) (words : List Word) : ReturnResponse :=
  match kind, words with
  | .load, [_] => .data1
  | .load, _ => .data2
  | .fetch, [_] => .instr1
  | .fetch, _ => .instr2
  | .store, _ => .nothing

/-- Whether a request for two words at an address is given two (R101): where it is given one, the next is asked for
again. -/
def State.returnsTwo (s : State) (kind : AccessKind) (a : Word) : Bool :=
  let d := s.platform.double
  let lastOfLine := d.lineWords != 0 && a.toNat / 4 % d.lineWords + 1 == d.lineWords
  d.enabled && !lastOfLine && !d.lone.contains (kind, alignWord a)

/-- The exchange for an access: the ACCESS request (R98), the RETURN request with it (R97, R99), and the answers
(R78, R100, R101). `asked` is the data asked for by a load, `words` what a read or a fetch returns. -/
def State.transaction (s : State) (ty : RequestType) (a : Access) (wdata : Word) (asked : DataReturn)
    (words : List Word) : Transaction :=
  let rule := s.aborts.find? (fun r => r.hits a)
  let external := a.kind != .store && rule.any AbortRule.external
  { ty := ty
    addr := a.addr
    wdata := wdata
    privileged := a.privileged
    twentySixBit := a.twentySixBit
    data := if a.kind = .load then asked else .none
    instrCore := false
    instrPrefetch := decide (a.kind = .fetch)
    aresp := if ty = .none then .notDone else if rule.isSome && !external then .abort else .done
    rresp := if external then (if a.kind = .fetch then .extAbortI else .extAbortD)
      else if rule.isSome then .nothing else returnOf a.kind words
    rdata := if rule.isSome || a.kind = .store then [] else words }

/-- An exchange without access: AREQ_NONE, a speculative request that is not supplied, or AREQ_CONTROL, which returns
nothing (R98, R100, R101; spec/49_coprocessor_undefined.md R368). -/
def State.noAccess (s : State) (ty : RequestType) (addr : Word) (aresp : AccessResponse) : Transaction :=
  { ty := ty, addr := addr, wdata := 0, privileged := s.cpsr.mode.privileged, twentySixBit := s.cpsr.mode.is26,
    data := .none, instrCore := false, instrPrefetch := ty == .spec || ty == .specS,
    aresp := aresp, rresp := .nothing, rdata := [] }

/-- The ACCESS type of a sequential word: none where the word is in its buffer, so that only its return is asked for (the
Single requests of R97). A word that aborts is in no buffer. -/
def State.sequentialType (s : State) (buffered : Bool) (ty : RequestType) (a : Access) : RequestType :=
  if buffered && !s.abortsAt a then .none else ty

/-- The exchange of one load or store (R74). A byte or halfword load is shown with the whole aligned word on Rdata, its
lanes that the core ignores included (R66, R67; DESIGN CHOICE, log entry 20). -/
def State.request (s : State) (ty : RequestType) (a : Access) (wdata : Word) : State :=
  s.emit (.access (s.transaction ty a wdata .one [s.loadWord a.addr]))

/-- The word at an address, rotated so that the addressed byte is in bits 7 to 0 (spec/45_single_data_transfer.md R266). -/
def State.loadRotated (s : State) (a : Word) : Word := (s.loadWord a).rotateRight (8 * (a.toNat % 4))

/-- The halfword at an even address (R67). -/
def State.loadHalf (s : State) (a : Word) : Half := Memory.readHalf s.cfg.bigend s.mem a

/-- The byte at an address (R66). -/
def State.loadByte (s : State) (a : Word) : Byte := Memory.readByte s.mem a

/-- Bytes stored at consecutive addresses, each marked as written since the last IMB (R89). -/
def State.storeBytes (s : State) (a : Nat) (bytes : List Byte) : State :=
  { s with mem := Memory.writeBytes s.mem a bytes, marks := insertAddrs a bytes.length s.marks }

/-- `MemWrite(addr, 4, v)` (R68). -/
def State.storeWord (s : State) (a v : Word) : State := s.storeBytes (alignWord a).toNat (wordBytes s.cfg.bigend v)

/-- `MemWrite(addr, 2, v)` at an even address (R70). -/
def State.storeHalf (s : State) (a : Word) (v : Half) : State := s.storeBytes a.toNat (halfBytes s.cfg.bigend v)

/-- `MemWrite(addr, 1, v)` (R69). -/
def State.storeByte (s : State) (a : Word) (v : Byte) : State := s.storeBytes a.toNat [v]

/-! ## Exceptions -/

/-- The exceptions that an instruction, a fetch or a line raises (spec/60_exceptions.md R422); reset is `takeReset`. -/
inductive Exception where
  | undefined | swi | prefetchAbort | dataAbort | irq | fiq
deriving DecidableEq, Repr

/-- The mode that an exception enters (R422). -/
def Exception.mode : Exception → Mode
  | .undefined => .und
  | .swi => .svc
  | .prefetchAbort | .dataAbort => .abt
  | .irq => .irq
  | .fiq => .fiq

/-- The SPSR that an exception saves the CPSR into (R422, R423). -/
def Exception.spsr : Exception → SpsrName
  | .undefined => .und
  | .swi => .svc
  | .prefetchAbort | .dataAbort => .abt
  | .irq => .irq
  | .fiq => .fiq

/-- The R14 that an exception saves the return address into (R422, R423). -/
def Exception.link (e : Exception) : PReg := e.mode.bank.lr

/-- The vector of an exception (R421). -/
def Exception.vector : Exception → Word
  | .undefined => 0x00000004#32
  | .swi => 0x00000008#32
  | .prefetchAbort => 0x0000000C#32
  | .dataAbort => 0x00000010#32
  | .irq => 0x00000018#32
  | .fiq => 0x0000001C#32

/-- TAKING AN EXCEPTION (R423): R14 and the SPSR of the new mode receive `ret` and the whole CPSR, the mode becomes the
exception's, I is set, F too for FIQ, and the PC goes to the vector, which flushes the Prefetch Unit (R92). -/
def State.enter (s : State) (e : Exception) (ret : Word) : State :=
  { s with
    regs := s.regs.set e.link ret
    spsrs := s.spsrs.set e.spsr s.cpsr.toPsr
    cpsr := { flags := s.cpsr.flags, i := true, f := s.cpsr.f || decide (e = .fiq), mode := e.mode }
    pc := e.vector
    userLdm := false
    busyWait := false
    fetchUnit := s.fetchUnit.flushed }

/-- The undefined instruction trap (R425). -/
def State.trapUndefined (s : State) : Out := .next (s.enter .undefined (s.pc + 4))

/-- RETURNING FROM AN EXCEPTION (spec/42_data_processing.md R186, spec/47_block_data_transfer.md R320, R450): the SPSR
of the current mode goes to the CPSR and `v` to the PC. Without an SPSR (R38), into a mode that does not exist (R27), or
into a 26-bit mode from or to an address outside 64 Mbytes (R406; DEDUCED, log entry 13), nothing is promised. -/
def State.exceptionReturn (s : State) (v : Word) : Out :=
  match s.cpsr.mode.spsr with
  | none => .fault .noSpsr
  | some n =>
    match Mode.ofBits (s.spsrs.get n).m with
    | none => .fault .invalidMode
    | some m =>
      if m.is26 && (s.pc.extractLsb' 26 6 != 0#6 || v.extractLsb' 26 6 != 0#6) then .fault .enter26Outside
      else
        State.jump
          { s with cpsr := { flags := (s.spsrs.get n).flags, i := (s.spsrs.get n).i, f := (s.spsrs.get n).f, mode := m } }
          v

/-- The PSR bits of a combined PC/PSR word written in a 26-bit mode (spec/50_26bit_operation.md R397): N, Z, C, V
always, and I, F, M1, M0 in a privileged mode. -/
def State.writePsr26 (s : State) (v : Word) : State :=
  if s.cpsr.mode.privileged then
    { s with
      cpsr := { flags := Flags.ofWord v, i := v.getLsbD 27, f := v.getLsbD 26,
                mode := Mode.of26 (v.getLsbD 1) (v.getLsbD 0) } }
  else s.setFlags (Flags.ofWord v)

/-- R15 with S = 1 (R186, R398; LDM: R320, R399): in a 26-bit mode the PSR bits come from the value, in a 32-bit mode
this is the return from an exception. -/
def State.writePcAndPsr (s : State) (v : Word) : Out :=
  if s.cpsr.mode.is26 then (s.writePsr26 v).jump v else s.exceptionReturn v

/-- A PSR made of the defined bits of a word (R33). -/
def Psr.ofWord (v : Word) : Psr :=
  { flags := Flags.ofWord v, i := v.getLsbD 7, f := v.getLsbD 6, m := v.extractLsb' 0 5 }

/-- The general registers as free words, from the k-th on (R482, D5). -/
def RegFile.free (k : Nat) : RegFile :=
  { r0 := Config.freeWord k, r1 := Config.freeWord (k + 1), r2 := Config.freeWord (k + 2), r3 := Config.freeWord (k + 3),
    r4 := Config.freeWord (k + 4), r5 := Config.freeWord (k + 5), r6 := Config.freeWord (k + 6),
    r7 := Config.freeWord (k + 7), r8 := Config.freeWord (k + 8), r9 := Config.freeWord (k + 9),
    r10 := Config.freeWord (k + 10), r11 := Config.freeWord (k + 11), r12 := Config.freeWord (k + 12),
    r8fiq := Config.freeWord (k + 13), r9fiq := Config.freeWord (k + 14), r10fiq := Config.freeWord (k + 15),
    r11fiq := Config.freeWord (k + 16), r12fiq := Config.freeWord (k + 17),
    r13usr := Config.freeWord (k + 18), r14usr := Config.freeWord (k + 19),
    r13fiq := Config.freeWord (k + 20), r14fiq := Config.freeWord (k + 21),
    r13irq := Config.freeWord (k + 22), r14irq := Config.freeWord (k + 23),
    r13svc := Config.freeWord (k + 24), r14svc := Config.freeWord (k + 25),
    r13abt := Config.freeWord (k + 26), r14abt := Config.freeWord (k + 27),
    r13und := Config.freeWord (k + 28), r14und := Config.freeWord (k + 29) }

/-- A busy-waiting MRC or MCR is given up: CExecute goes LOW, and the coprocessors are as if it had not been there
(spec/49_coprocessor_undefined.md R369). -/
def State.abandon (s : State) : State :=
  if s.busyWait then { s.emit (.cpExecute false) with busyWait := false } else s

/-- RESET in a run (R481, R482): Supervisor mode, I = F = 1, pc 0, Prefetch Unit empty, marks cleared; every register,
flag and SPSR is free (D5), memory stays the platform's (log entry 21). -/
def State.takeReset (s : State) : State :=
  let k := s.freeCount
  { s.abandon with
    regs := RegFile.free k
    spsrs := { fiq := Psr.ofWord (Config.freeWord (k + 30)), irq := Psr.ofWord (Config.freeWord (k + 31)),
               svc := Psr.ofWord (Config.freeWord (k + 32)), abt := Psr.ofWord (Config.freeWord (k + 33)),
               und := Psr.ofWord (Config.freeWord (k + 34)) }
    cpsr := { flags := Flags.ofWord (Config.freeWord (k + 35)), i := true, f := true, mode := .svc }
    pc := 0
    marks := []
    ran26 := []
    ran32 := []
    userLdm := false
    busyWait := false
    fetchUnit := FetchUnit.empty
    freeCount := k + 36 }

/-! ## The opening of every meaning -/

/-- Whether reading `reads` meets the hazard after a user-bank LDM (spec/47_block_data_transfer.md R322; log entry 11). -/
def State.hazard (s : State) (reads : List Reg) : Bool :=
  s.userLdm && reads.any (fun r => s.cpsr.mode.bankedReg r)

/-- The condition is tested first (R151): the reserved one stops (R129), one that fails goes on at A + 4 (R152), one that
passes gives `k`, unless a register of `reads` meets the hazard of R322. -/
def condExec (c : Cond) (reads : List Reg) (s : State) (k : Out) : Out :=
  if c = .nv then .fault .condReserved
  else if condPassed s.cpsr.flags c then (if s.hazard reads then .fault .userBankHazard else k)
  else s.advance

end Sys2Proof.Machine
end

