-- ==== Sys2Proof/Machine/Operands.lean ====
section
/-! DEFINITION. Every operand form: the shifter (spec/42_data_processing.md R171 to R177), operand 2 (R178), the
offsets and addresses of the transfers (spec/45_single_data_transfer.md R261, R262, spec/46 R291), the addresses of a
block transfer (spec/47_block_data_transfer.md R312) and the branch target (spec/30_encoding.md R115). -/

namespace Sys2Proof.Machine

/-- `m` shifted by `n`, with the shifter carry; `c` is the C flag, which passes through where nothing is shifted
(R171 to R175). -/
def shiftBy (ty : ShiftType) (m : Word) (n : Nat) (c : Bool) : Word × Bool :=
  if n = 0 then (m, c)
  else
    match ty with
    | .lsl =>
      if n < 32 then (m <<< n, m.getLsbD (32 - n)) else if n = 32 then (0, m.getLsbD 0) else (0, false)
    | .lsr =>
      if n < 32 then (m >>> n, m.getLsbD (n - 1)) else if n = 32 then (0, m.getLsbD 31) else (0, false)
    | .asr =>
      if n < 32 then (m.sshiftRight n, m.getLsbD (n - 1)) else (m.sshiftRight 31, m.getLsbD 31)
    | .ror =>
      if n % 32 = 0 then (m, m.getLsbD 31) else (m.rotateRight (n % 32), m.getLsbD (n % 32 - 1))

/-- RRX (R176). -/
def rrx (m : Word) (c : Bool) : Word × Bool := (BitVec.ofBool c ++ m.extractLsb' 1 31, m.getLsbD 0)

/-- `m` shifted by an immediate-amount field, where 0 means LSL #0, LSR #32, ASR #32 and RRX (R171 to R176). -/
def shiftByField (ty : ShiftType) (m : Word) (amount : BitVec 5) (c : Bool) : Word × Bool :=
  if amount = 0 then
    match ty with
    | .lsl => (m, c)
    | .lsr => shiftBy .lsr m 32 c
    | .asr => shiftBy .asr m 32 c
    | .ror => rrx m c
  else shiftBy ty m amount.toNat c

/-- An 8-bit immediate rotated right by twice `rotate` (R114, R177). -/
def rotatedImm (rotate : BitVec 4) (imm8 : BitVec 8) : Word := (imm8.setWidth 32).rotateRight (2 * rotate.toNat)

/-- Operand 2 and the shifter carry (R171, R177, R178). -/
def State.operand2 (s : State) : Operand2 → Word × Bool
  | .imm rotate imm8 =>
    (rotatedImm rotate imm8, if rotate = 0 then s.cpsr.flags.c else (rotatedImm rotate imm8).getLsbD 31)
  | .shiftImm rm ty amount => shiftByField ty (s.regM rm) amount s.cpsr.flags.c
  | .shiftReg rm ty rs => shiftBy ty (s.regM rm) ((s.reg rs).extractLsb' 0 8).toNat s.cpsr.flags.c

/-- The registers that operand 2 reads. -/
def operand2Reads : Operand2 → List Reg
  | .imm _ _ => []
  | .shiftImm rm _ _ => [rm]
  | .shiftReg rm _ rs => [rm, rs]

/-- Whether R15 stands where a register-specified shift forbids it (R178): as Rm, as Rs, or among the other registers
read, `rns`. -/
def r15InRegisterShift (rns : List Reg) : Operand2 → Bool
  | .shiftReg rm _ rs => rm == .r15 || rs == .r15 || rns.contains .r15
  | .imm _ _ | .shiftImm _ _ _ => false

/-! ## Single, halfword and signed transfers -/

/-- The offset of a single data transfer (R261): the shifter carry is discarded. -/
def State.transferOffset (s : State) : TransferOffset → Word
  | .imm offset => offset.setWidth 32
  | .reg rm ty amount => (shiftByField ty (s.reg rm) amount s.cpsr.flags.c).1

/-- The offset register, where there is one. -/
def transferOffsetReg : TransferOffset → Option Reg
  | .imm _ => none
  | .reg rm _ _ => some rm

/-- The offset of a halfword or signed transfer (R291). -/
def State.halfOffset (s : State) : HalfOffset → Word
  | .imm offset => offset.setWidth 32
  | .reg rm => s.reg rm

/-- The offset register, where there is one. -/
def halfOffsetReg : HalfOffset → Option Reg
  | .imm _ => none
  | .reg rm => some rm

/-- The modified base (R262, R291, wrapping). -/
def modifiedBase (up : Bool) (base offset : Word) : Word := if up then base + offset else base - offset

/-- The transfer address (R262, R291). -/
def transferAddress (idx : Index) (up : Bool) (base offset : Word) : Word :=
  match idx with
  | .offset | .pre => modifiedBase up base offset
  | .post => base

/-- Whether the base is written back (R262, R291). -/
def writesBack : Index → Bool
  | .offset => false
  | .pre | .post => true

/-! ## Block transfers -/

/-- R0 to R15 in ascending order. -/
def allRegs : List Reg :=
  [.r0, .r1, .r2, .r3, .r4, .r5, .r6, .r7, .r8, .r9, .r10, .r11, .r12, .r13, .r14, .r15]

/-- Whether a register stands in a register list (spec/47_block_data_transfer.md R311). -/
def inList (list : BitVec 16) (r : Reg) : Bool := list.getLsbD r.bits.toNat

/-- The registers of a register list in ascending order (R311). -/
def listRegs (list : BitVec 16) : List Reg := allRegs.filter (inList list)

/-- `start` of R312 for `n` registers. -/
def blockStart (p up : Bool) (base : Word) (n : Nat) : Word :=
  if up then (if p then base + 4 else base)
  else (if p then base - BitVec.ofNat 32 (4 * n) else base - BitVec.ofNat 32 (4 * n) + 4)

/-- `final` of R312 for `n` registers. -/
def blockFinal (up : Bool) (base : Word) (n : Nat) : Word :=
  if up then base + BitVec.ofNat 32 (4 * n) else base - BitVec.ofNat 32 (4 * n)

/-- Each register of a list with its address: ascending, four bytes apart (R312). -/
def transfersFrom (a : Word) : List Reg → List (Reg × Word)
  | [] => []
  | r :: rest => (r, a) :: transfersFrom (a + 4) rest

/-! ## Branches -/

/-- The branch target (spec/30_encoding.md R115, spec/41_branch.md R161). -/
def State.branchTarget (s : State) (offset : BitVec 24) : Word :=
  s.pc + 8 + (offset ++ 0b00#2).signExtend 32

end Sys2Proof.Machine
end

