-- ==== Sys2Proof/Machine/Prefetch.lean ====
section
/-! DEFINITION. Instruction fetch (spec/20_memory.md R71), the prefetch buffer (R93), the marks of the instruction memory
barrier (R89, spec/50_26bit_operation.md R406) and the static branch prediction of the Prefetch Unit (R94). -/

namespace Sys2Proof.Machine

/-- The access of an instruction fetch at the program counter (R71, R46). -/
def State.fetchAccess (s : State) : Access := s.access false .fetch .word false s.pc

/-- Whether a byte of the instruction word at the program counter was written since the last IMB (R89). -/
def State.modified (s : State) : Bool :=
  let k := (alignWord s.pc).toNat
  s.marks.any (fun a => decide (k ≤ a) && decide (a < k + 4))

/-- Whether the instruction word at the program counter was executed in a mode of the other width since the last IMB
(R406; DEDUCED, log entry 10). It is asked before the condition is tested (DESIGN CHOICE, log entry 10). -/
def State.mixedWidth (s : State) : Bool :=
  if s.cpsr.mode.is26 then s.ran32.contains s.pc.toNat else s.ran26.contains s.pc.toNat

/-- The instruction word at the program counter noted as executed in a mode of this width (R406); one that is cancelled
because its condition fails (R152) is noted too (DESIGN CHOICE, log entry 10). -/
def State.noteRan (s : State) : State :=
  if s.cpsr.mode.is26 then { s with ran26 := insertAddr s.pc.toNat s.ran26 }
  else { s with ran32 := insertAddr s.pc.toNat s.ran32 }

/-! ## Static branch prediction -/

/-- The static prediction of a word that the Prefetch Unit has fetched, under the present level of PredictOn (R94); `none`
is an aborted fetch. It never changes a result (spec/40_conditional_execution.md R154): it decides whether a taken branch
flushes the Prefetch Unit (R92). -/
def State.predict (s : State) : Option Word → Prediction
  | none => .notPredicted
  | some w =>
    if !s.platform.predictOn || w.extractLsb' 28 4 == 0b1111#4 || w.extractLsb' 25 3 != 0b101#3
        || (w.extractLsb' 24 4 == 0b1011#4 && w.extractLsb' 28 4 != 0b1110#4) then .notPredicted
    else if w.extractLsb' 28 4 == 0b1110#4 || w.getLsbD 23 then .taken
    else .notTaken

/-- What the Prefetch Unit holds of a word at an address: with its prediction, made when it is fetched (R43, R94;
DESIGN CHOICE, log entry 36). -/
def State.prefetched (s : State) (a : Word) (w : Option Word) : Prefetched :=
  { addr := a, word := w, prediction := s.predict w }

/-! ## Requests of the Prefetch Unit -/

/-- Whether a fetch is sequential to the instruction word loaded last (R98). -/
def FetchUnit.sequential (f : FetchUnit) (a : Word) : Bool :=
  match f.last with
  | some l => a == l + 4
  | none => false

/-- The words that a fetch is answered with (R99, R101): the one at its address, or the mark of its abort, and the one
after it where the memory system gives two and neither aborts. The second address is not cut to 26 bits in a 26-bit mode
(R393) and wraps modulo 2^32 past 0xFFFFFFFC (DESIGN CHOICE, log entry 37). -/
def State.fetchAnswer (s : State) (a : Access) : List Prefetched :=
  if s.abortsAt a then [s.prefetched a.addr none]
  else
    s.prefetched a.addr (some (s.loadWord a.addr))
      :: (if s.returnsTwo .fetch a.addr && !s.abortsAt { a with addr := a.addr + 4 } then
            [s.prefetched (a.addr + 4) (some (s.loadWord (a.addr + 4)))]
          else [])

/-- A fetch of the Prefetch Unit, under the type it has (R98, R99), with the address of the last word noted. -/
def State.fetchRequest (s : State) (ty : RequestType) (a : Access) : State :=
  { s.emit (.access (s.transaction ty a 0 .none ((s.fetchAnswer a).filterMap Prefetched.word))) with
    fetchUnit := { s.fetchUnit with last := (s.fetchAnswer a).getLast?.map Prefetched.addr } }

/-! ## The prefetch buffer -/

/-- Whether the prefetch buffer takes another word (R93; DESIGN CHOICE, log entry 36). -/
def FetchUnit.hasRoom (f : FetchUnit) : Bool := f.buffer.isEmpty || decide (f.buffer.length < Config.prefetchDepth)

/-- A word put into the prefetch buffer, if there is room. -/
def FetchUnit.push (f : FetchUnit) (e : Prefetched) : FetchUnit :=
  if f.hasRoom then { f with buffer := f.buffer ++ [e] } else f

/-- Words put into the prefetch buffer, in order. -/
def State.pushWords (s : State) (es : List Prefetched) : State :=
  { s with fetchUnit := es.foldl FetchUnit.push s.fetchUnit }

/-- The oldest word of the prefetch buffer, where it is that of the program counter. -/
def State.buffered (s : State) : Option Prefetched :=
  match s.fetchUnit.buffer with
  | [] => none
  | e :: _ => if e.addr = s.pc then some e else none

/-- The instruction word that the Prefetch Unit presents to the Core (R93): the oldest of the buffer, or, where that is of
another address, the one that a fetch at the program counter gives; `none` is the mark of an aborted fetch (R432). -/
def State.presented (s : State) : Option Word :=
  match s.buffered with
  | some e => e.word
  | none => if s.abortsAt s.fetchAccess then none else some (s.loadWord s.pc)

/-- The word at the program counter taken: out of the buffer without a request, or by a fetch, before which the buffer is
emptied (DESIGN CHOICE, log entry 36) and after which a second word that came with it is in the buffer (R93, R98, R101);
where the word is in the memory system's instruction buffer its return alone is asked for (R97). Its prediction goes with
it to the Core. -/
def State.requestFetch (s : State) : State :=
  match s.buffered with
  | some e => { s with fetchUnit := { s.fetchUnit with buffer := s.fetchUnit.buffer.tail, prediction := e.prediction } }
  | none =>
    let t : State := { s with fetchUnit := { s.fetchUnit.flushed with prediction := s.predict s.presented } }
    (t.fetchRequest
      (if s.fetchUnit.sequential s.pc then s.sequentialType (!s.platform.buffers.iExhausted) .fetchS s.fetchAccess
        else .fetch)
      s.fetchAccess).pushWords (s.fetchAnswer s.fetchAccess).tail

/-- A fetch ahead of execution (R95), made where the buffer has room: its words go into the buffer, an abort of it is a
mark there and harmless unless it is run (R432), and a speculative one need not be supplied (R98). Any word address is
fetched, in a 26-bit mode too, where R393 lets the Prefetch Unit pass 0x03FFFFFC (DESIGN CHOICE, log entry 37). -/
def State.fetchAhead (s : State) (p : FetchAhead) : State :=
  let a := s.access false .fetch .word false (alignWord p.addr)
  let seq := s.fetchUnit.sequential a.addr
  let ty : RequestType :=
    if p.speculative then (if seq then .specS else .spec) else (if seq then .fetchS else .fetch)
  if !s.fetchUnit.hasRoom then s
  else if p.speculative && !p.supplied then s.emit (.access (s.noAccess ty a.addr .notDone))
  else
    (s.fetchRequest (if seq then s.sequentialType (!p.iExhausted) ty a else ty) a).pushWords (s.fetchAnswer a)

/-! ## Stores with a Parallel request -/

/-- The instruction words asked for together with the store number `k` of a step (R97, R99): the next sequential ones of
the instruction buffer, where the Prefetch Unit asks for them and has room (DESIGN CHOICE, log entry 20). A word that
aborts is in no word buffer. -/
def State.parallelWords (s : State) (k : Nat) : List Prefetched :=
  match s.fetchUnit.last with
  | none => []
  | some l =>
    let a := s.access false .fetch .word false (l + 4)
    if s.platform.buffers.parallel.getD k false && s.fetchUnit.hasRoom && !s.abortsAt a then s.fetchAnswer a else []

/-- Instruction words taken by the Prefetch Unit, with the address of the last one noted. -/
def FetchUnit.receive (f : FetchUnit) (es : List Prefetched) : FetchUnit :=
  { es.foldl FetchUnit.push f with last := (es.getLast?.map Prefetched.addr).or f.last }

/-- The Prefetch Unit has taken what is returned with the store number `k`. -/
def State.ask (s : State) (k : Nat) : State := { s with fetchUnit := s.fetchUnit.receive (s.parallelWords k) }

/-- The Prefetch Unit has taken what is returned with `n` stores, from number `k` on; nothing else has changed. -/
def State.askFrom (s : State) (k : Nat) : Nat → State
  | 0 => s
  | n + 1 => (s.ask k).askFrom (k + 1) n

/-- The Prefetch Unit has taken what is returned with the first `n` stores of a step; nothing else has changed. -/
def State.asked (s : State) (n : Nat) : State := s.askFrom 0 n

/-- The exchange of a store: with a RETURN request for instructions too where there is one to be made (R97), which
returns nothing where the store aborts (R101). -/
def State.storeTransaction (s : State) (k : Nat) (ty : RequestType) (a : Access) (wdata : Word) : Transaction :=
  let t := s.transaction ty a wdata .none []
  match s.parallelWords k with
  | [] => t
  | es =>
    let words := es.filterMap Prefetched.word
    if s.abortsAt a then { t with instrPrefetch := true }
    else { t with instrPrefetch := true, rresp := returnOf .fetch words, rdata := words }

/-- The store number `k` of a step, which aborts (R78): the Prefetch Unit takes nothing (R101). -/
def State.storeAborted (s : State) (k : Nat) (ty : RequestType) (a : Access) (wdata : Word) : State :=
  s.emit (.access (s.storeTransaction k ty a wdata))

/-- The store number `k` of a step, which does not abort, with the instructions returned in parallel (R74, R97). -/
def State.storeRequest (s : State) (k : Nat) (ty : RequestType) (a : Access) (wdata : Word) : State :=
  (s.ask k).emit (.access (s.storeTransaction k ty a wdata))

/-- A cycle in which nothing is asked of the memory system: AREQ_NONE, with `v` on VAddress. -/
def State.noRequest (s : State) (v : Word) : State := s.emit (.access (s.noAccess .none v .notDone))

/-! ## The instruction enters Execute -/

/-- A coprocessor instruction: CDP, LDC, STC, MRC or MCR (spec/30_encoding.md; spec/49_coprocessor_undefined.md R371). -/
def isCoprocessor (w : Word) : Bool := w.extractLsb' 26 2 == 0b11#2 && w.extractLsb' 24 2 != 0b11#2

/-- What the coprocessors are told of every instruction (spec/49_coprocessor_undefined.md R371, R376): CInstruct and
CPrivileged, and CExecute LOW where the condition of a coprocessor instruction fails. -/
def State.announce (s : State) (i : Instr) (w : Word) : State :=
  let t := s.emit (.cpInstruct (if isCoprocessor w then some (w.extractLsb' 0 26) else none) s.cpsr.mode.privileged)
  if isCoprocessor w && !condPassed s.cpsr.flags i.cond then t.emit (.cpExecute false) else t

/-- The state in which the instruction `i`, the word `w`, is executed: its address is noted (R406), also where its condition
will fail (R152; DESIGN CHOICE, log entry 10), its word is held while it is in Execute (R369), and the coprocessors are
told. -/
def State.issue (s : State) (i : Instr) (w : Word) : State :=
  State.announce { s.noteRan with fetchUnit := { s.fetchUnit with ir := some w } } i w

/-- The instruction word that a busy-wait holds in Execute (spec/49_coprocessor_undefined.md R369). -/
def State.waiting (s : State) : Option Word := if s.busyWait then s.fetchUnit.ir else none

end Sys2Proof.Machine
end

