-- ==== Sys2Proof/Machine/BlockTransfer.lean ====
section
/-! DEFINITION. LDM and STM (spec/47_block_data_transfer.md R310 to R323; in a 26-bit mode spec/50_26bit_operation.md R399). -/

namespace Sys2Proof.Machine

/-- Whether the User bank is transferred (R321): S = 1, and for LDM no R15 in the list. -/
def userBank (load psr : Bool) (list : BitVec 16) : Bool := psr && !(load && inList list .r15)

/-- The forbidden forms (R311, R317 to R321): S = 1 in User or System mode; in usr26 only LDM with R15 has a meaning
with S = 1 (R399, R407). -/
def blockStop (load psr w : Bool) (rn : Reg) (list : BitVec 16) (m : Mode) : Option Fault :=
  if list = 0 then some .emptyList
  else if rn = .r15 then some .blockBaseR15
  else if psr && (m == .usr || m == .sys || (m == .usr26 && userBank load psr list)) then some .blockUserMode
  else if userBank load psr list && w then some .userBankWriteback
  else if load && w && inList list rn then some .ldmWritebackBase
  else none

/-- The bank of the registers transferred (R321). -/
def blockBank (load psr : Bool) (list : BitVec 16) (m : Mode) : Bank := if userBank load psr list then .usr else m.bank

/-- The transfers of a list, in order (R312). -/
def State.blockTransfers (s : State) (p up : Bool) (rn : Reg) (list : BitVec 16) : List (Reg × Word) :=
  transfersFrom (blockStart p up (s.reg rn) (listRegs list).length) (listRegs list)

/-- The transfers before the first that aborts (R323). -/
def State.blockDone (s : State) (kind : AccessKind) (ts : List (Reg × Word)) : List (Reg × Word) :=
  ts.takeWhile (fun t => !s.abortsAt (s.access false kind .word false t.2))

/-- Whether a load multiple is given two words at once (R99, R101): the memory system gives two there, and neither
aborts. -/
def State.pairs (s : State) (a b : Word) : Bool :=
  s.returnsTwo .load a && !s.abortsAt (s.access false .load .word false a)
    && !s.abortsAt (s.access false .load .word false b)

/-- The ACCESS type of the request number `k` of a load multiple (R98); none where the data buffer holds the word (R97). -/
def State.loadType (s : State) (k : Nat) (more : Bool) (a : Word) : RequestType :=
  match k with
  | 0 => .load more
  | j + 1 =>
    s.sequentialType (!s.platform.buffers.dExhausted.getD j true) (.loadS more) (s.access false .load .word false a)

/-- The exchanges of a load multiple from request number `k` on (R98, R99): the first ACCESS is AREQ_LOAD, the others are
sequential, (M) where words follow the one addressed; two words are asked for where two remain; the one that aborts is the last (R323). -/
def State.loadRequests (s : State) (k : Nat) : List (Reg × Word) → State
  | [] => s
  | [(_, a)] => s.request (s.loadType k false a) (s.access false .load .word false a) 0
  | (_, a) :: (r, b) :: rest =>
    let acc := s.access false .load .word false a
    let words := if s.pairs a b then [s.loadWord a, s.loadWord b] else [s.loadWord a]
    let t := s.emit (.access (s.transaction (s.loadType k true a) acc 0 .two words))
    if s.abortsAt acc then t
    else if s.pairs a b then State.loadRequests t (k + 1) rest
    else State.loadRequests t (k + 1) ((r, b) :: rest)

/-- The exchanges of a store multiple from store number `k` on (R98); the one that aborts is the last (R323). -/
def State.storeRequests (s : State) (value : Reg → Word) (k : Nat) : List (Reg × Word) → State
  | [] => s
  | (r, a) :: rest =>
    let acc := s.access false .store .word false a
    let ty : RequestType := if k = 0 then .store (!rest.isEmpty) else .storeS (!rest.isEmpty)
    if s.abortsAt acc then s.storeAborted k ty acc (value r)
    else State.storeRequests (s.storeRequest k ty acc (value r)) value (k + 1) rest

/-- The registers of a list loaded in bank `k` (R315, R321). -/
def State.loadRegs (s : State) (k : Bank) : List (Reg × Word) → State
  | [] => s
  | (r, a) :: rest => State.loadRegs (s.setRegIn k r (s.loadWord a)) k rest

/-- The registers before the aborting one: bit r of `which` says whether Rr was overwritten (R323, D24); the base keeps
its value. -/
def State.loadSome (s : State) (k : Bank) (base : Option PReg) (which : Word) : List (Reg × Word) → State
  | [] => s
  | (r, a) :: rest =>
    State.loadSome
      (if which.getLsbD r.bits.toNat && k.view r != base then s.setRegIn k r (s.loadWord a) else s) k base which rest

/-- The words of a list stored (R316). -/
def State.storeWords (s : State) (value : Reg → Word) : List (Reg × Word) → State
  | [] => s
  | (r, a) :: rest => State.storeWords (s.storeWord a (value r)) value rest

/-- The mark of a user-bank LDM that has completed (R322). -/
def markUserLdm : Out → Out
  | .next s => .next { s with userLdm := true }
  | .fault x => .fault x
  | .refused x => .refused x

/-- The end of an LDM that has loaded everything: R15 last (R315, R320, R399), or the next instruction. -/
def State.finishLoad (s : State) (psr : Bool) (list : BitVec 16) (ts : List (Reg × Word)) : Out :=
  match ts.getLast? with
  | some (.r15, a) => if psr then s.writePcAndPsr (s.loadWord a) else s.jump (s.loadWord a)
  | _ => if userBank true psr list then markUserLdm s.advance else s.advance

/-- LDM (R315, R317 to R323). -/
def execLdm (c : Cond) (p up psr w : Bool) (rn : Reg) (list : BitVec 16) (s : State) : Out :=
  condExec c [rn] s
    (match blockStop true psr w rn list s.cpsr.mode with
     | some x => .fault x
     | none =>
      let k := blockBank true psr list s.cpsr.mode
      let ts := s.blockTransfers p up rn list
      let done := s.blockDone .load ts
      let t := s.loadRequests 0 ts
      if done.length < ts.length then
        .next ((t.drawn.loadSome k (s.cpsr.mode.bank.view rn) s.free done).enter .dataAbort (s.pc + 8))
      else
        ((if w then t.setReg rn (blockFinal up (s.reg rn) ts.length) else t).loadRegs k ts).finishLoad psr list ts)

/-- Whether the base stored by STM is not specified (R319): write-back, and the base in the list but not the lowest. -/
def baseNotSpecified (w : Bool) (rn : Reg) (list : BitVec 16) : Bool :=
  w && inList list rn && (listRegs list).head? != some rn

/-- The word that STM stores for a register (R316, R319, R321). -/
def State.stmValue (s : State) (psr w : Bool) (rn : Reg) (list : BitVec 16) (r : Reg) : Word :=
  if psr then s.regUsr r
  else if r == rn && baseNotSpecified w rn list then s.free
  else s.regM r

/-- STM (R316 to R323). -/
def execStm (c : Cond) (p up psr w : Bool) (rn : Reg) (list : BitVec 16) (s : State) : Out :=
  condExec c (rn :: listRegs list) s
    (match blockStop false psr w rn list s.cpsr.mode with
     | some x => .fault x
     | none =>
      let ts := s.blockTransfers p up rn list
      let done := s.blockDone .store ts
      let value := s.stmValue psr w rn list
      let d := if baseNotSpecified w rn list then s.drawn else s
      let t := (d.storeRequests value 0 ts).storeWords value done
      if done.length < ts.length then .next (t.enter .dataAbort (s.pc + 8))
      else (if w then t.setReg rn (blockFinal up (s.reg rn) ts.length) else t).advance)

end Sys2Proof.Machine
end

