-- ==== Sys2Proof/Machine/Branch.lean ====
section
/-! DEFINITION. B and BL (spec/41_branch.md R160 to R163). -/

namespace Sys2Proof.Machine

/-- A taken branch: where the Prefetch Unit has predicted it as taken there is no flush (spec/20_memory.md R92, R94),
whatever the level of PredictOn is by now (spec/70_reset_and_hazards.md R494); one that it passed to the Core unpredicted
flushes (DEDUCED, log entry 36). -/
def State.branch (s : State) (target : Word) : Out :=
  let t := s.jumpTo target
  .next (if s.fetchUnit.prediction = .taken then { t with fetchUnit := s.fetchUnit } else t)

/-- B (R161). -/
def execB (c : Cond) (offset : BitVec 24) (s : State) : Out :=
  condExec c [] s (s.branch (s.branchTarget offset))

/-- BL (R162): R14 receives A + 4; with the PSR bits only under `arm2as` in a 26-bit mode (spec/50_26bit_operation.md R405). -/
def execBl (c : Cond) (offset : BitVec 24) (s : State) : Out :=
  condExec c [] s ((s.setReg .r14 (s.pcWithPsr 4)).branch (s.branchTarget offset))

end Sys2Proof.Machine
end

