-- ==== Sys2Proof/Machine/Coprocessor.lean ====
section
/-! DEFINITION. The coprocessors (spec/49_coprocessor_undefined.md R377, R379), and CDP, LDC, STC, MRC, MCR (R360 to
R369). -/

namespace Sys2Proof.Machine

/-! ## The `Coproc` oracle -/

/-- A register of the coprocessors; 0 where they have none of that number (log entry 38). -/
def Coproc.reg (p : Coproc) (k : Nat) : Word := p.regs.getD k 0

/-- The value of a word that the coprocessors supply. -/
def Coproc.word (p : Coproc) : CoprocWord → Word
  | .fixed v => v
  | .reg k => p.reg k

/-- Whether the private state meets a test. -/
def Coproc.meets (p : Coproc) (t : CoprocTest) : Bool := p.reg t.reg &&& t.mask == t.value

/-- Whether a rule speaks of an instruction. -/
def CoprocRule.applies (r : CoprocRule) (p : Coproc) (bits : BitVec 26) (privileged : Bool) : Bool :=
  bits &&& r.mask == r.bits && r.privileged.all (· == privileged) && r.tests.all p.meets

/-- `Coproc.respond` (R377): the answer to an instruction with I[25:0] = `bits`, for which CPrivileged says `privileged`.
One whose CP#, bits 11 to 8, names an absent coprocessor is bounced (R379), and so is one of which no rule speaks
(log entry 38). -/
def Coproc.respond (p : Coproc) (bits : BitVec 26) (privileged : Bool) : CoprocAnswer :=
  if p.present.contains (bits.extractLsb' 8 4) then
    ((p.rules.find? (·.applies p bits privileged)).map CoprocRule.answer).getD CoprocAnswer.bounce
  else CoprocAnswer.bounce

/-- The coprocessors after an instruction that they answered with `a` has been executed, with the word `v` transferred
(`Coproc.write`, R377); what an effect copies is what the registers held before. -/
def Coproc.execute (p : Coproc) (a : CoprocAnswer) (v : Word) : Coproc :=
  { p with regs := a.effects.foldl (fun l e => l.set e.reg ((e.value.map p.word).getD v)) p.regs }

/-- The answer after a cycle of busy-wait (R369). -/
def CoprocAnswer.later (a : CoprocAnswer) : CoprocAnswer := { a with busy := a.busy.map (· - 1) }

/-- The answer to the instruction in Execute: the one it was given where it busy-waits (R369), else that of the
coprocessors to its bits 25 to 0 in the current mode (R376, R377). -/
def State.coprocAnswer (s : State) (bits : BitVec 26) : CoprocAnswer :=
  if s.busyWait then s.pending else s.coproc.respond bits s.cpsr.mode.privileged

/-- The coprocessors take the effect of the instruction in Execute (R377, R380). -/
def State.coprocExecute (s : State) (a : CoprocAnswer) (v : Word) : State :=
  { s with coproc := s.coproc.execute a v }

/-! ## The instructions -/

/-- A coprocessor instruction that is bounced: CExecute goes LOW (R376; DEDUCED, log entry 20), and the undefined
instruction trap is taken (R370, R378). -/
def State.bounced (s : State) : Out := (s.emit (.cpExecute false)).trapUndefined

/-- CDP (R361): always bounced, so always the undefined instruction trap (D13). -/
def execCdp (c : Cond) (_opc _crn _crd _num : BitVec 4) (_info : BitVec 3) (_crm : BitVec 4) (s : State) : Out :=
  condExec c [] s s.bounced

/-- LDC (R363, R364): always bounced (D13); no address is computed and no memory accessed. -/
def execLdc (c : Cond) (_p _up _n _w : Bool) (_rn : Reg) (_crd _num : BitVec 4) (_offset : BitVec 8) (s : State) : Out :=
  condExec c [] s s.bounced

/-- STC (R363, R365): always bounced (D13). -/
def execStc (c : Cond) (_p _up _n _w : Bool) (_rn : Reg) (_crd _num : BitVec 4) (_offset : BitVec 8) (s : State) : Out :=
  condExec c [] s s.bounced

/-- The common part of MRC and MCR (R366, R369), with I[25:0] = `bits`: a cycle of busy-wait leaves the instruction in
Execute for the next step, with `wait` on the memory interface and no change of the coprocessors; then accept goes on with
`accepted`, and bounce takes the undefined instruction trap. CExecute is HIGH while the instruction should be executed. -/
def coprocTransfer (c : Cond) (reads : List Reg) (bits : BitVec 26) (wait : State → State)
    (accepted : State → CoprocAnswer → Out) (s : State) : Out :=
  condExec c reads s
    (let a := s.coprocAnswer bits
     let go := s.emit (.cpExecute true)
     if a.busy ≠ some 0 then .next { wait go with pending := a.later, busyWait := true, userLdm := false }
     else if a.accept then accepted go a
     else s.bounced)

/-- MRC (R367): Rd receives the word of the coprocessors; with Rd = R15 the flags receive its bits 31 to 28. -/
def execMrc (c : Cond) (opc : BitVec 3) (crn : BitVec 4) (rd : Reg) (num : BitVec 4) (info : BitVec 3)
    (crm : BitVec 4) (s : State) : Out :=
  coprocTransfer c [] ((encodeCoprocReg true opc crn rd num info crm).extractLsb' 0 26) (fun t => t.noRequest 0)
    (fun t a =>
      let v := t.coproc.word a.data
      let u := t.coprocExecute a v
      if rd = .r15 then (u.setFlags (Flags.ofWord v)).advance else (u.setReg rd v).advance) s

/-- A busy-wait cycle of MCR drives Rd on VAddress, the same in each cycle (R382); with Rd = R15 it is a word that is left
open, drawn in the first cycle (log entry 20). -/
def State.mcrWait (s : State) (rd : Reg) : State :=
  if rd = .r15 then
    (if s.busyWait then s.noRequest (Config.freeWord (s.freeCount - 1)) else s.drawn.noRequest s.free)
  else s.noRequest (s.reg rd)

/-- MCR (R368): the coprocessor takes Rd, and the memory system sees AREQ_CONTROL with Rd on VAddress. An accepted one
with Rd = R15 stops (log entry 23). -/
def execMcr (c : Cond) (opc : BitVec 3) (crn : BitVec 4) (rd : Reg) (num : BitVec 4) (info : BitVec 3) (crm : BitVec 4)
    (s : State) : Out :=
  let bits := (encodeCoprocReg false opc crn rd num info crm).extractLsb' 0 26
  coprocTransfer c [rd] bits (fun t => t.mcrWait rd)
    (fun t a =>
      if rd = .r15 then .fault .mcrR15
      else
        State.advance
          (((t.coprocExecute a (s.reg rd)).emit (.cpWrite bits (s.reg rd))).emit
            (.access (s.noAccess .control (s.reg rd) .done)))) s

end Sys2Proof.Machine
end

