-- ==== Sys2Proof/Machine/DataProcessing.lean ====
section
/-! DEFINITION. The sixteen data-processing instructions (spec/42_data_processing.md R170 to R202) and the P forms of the
26-bit modes (spec/50_26bit_operation.md R397 to R404). -/

namespace Sys2Proof.Machine

/-- What the ALU is given (R178, R183): `rn` is absent where Op1 is not read. -/
def dpInput (s : State) (rn : Option Reg) (o : Operand2) : AluIn :=
  { op1 := match rn with
      | some r => s.reg r
      | none => 0
    op2 := (s.operand2 o).1
    shiftCarry := (s.operand2 o).2
    c := s.cpsr.flags.c
    v := s.cpsr.flags.v }

/-- The twelve instructions that write a result (R183): Rd and, with S = 1, the flags (R180, R181); Rd = R15 is R184
with S = 0 and R186 or R398 with S = 1. -/
def dpWrite (c : Cond) (f : Bool) (rd : Reg) (rn : Option Reg) (o : Operand2) (op : AluIn → AluOut) (s : State) : Out :=
  condExec c (rn.toList ++ operand2Reads o) s
    (if r15InRegisterShift rn.toList o then .fault .r15RegisterShift
     else
      let r := op (dpInput s rn o)
      if rd = .r15 then (if f then s.writePcAndPsr r.value else s.jump r.value)
      else if f then ((s.setReg rd r.value).setFlags r.flags).advance
      else (s.setReg rd r.value).advance)

/-- The four instructions that only set the flags (R185). -/
def dpTest (c : Cond) (rn : Reg) (o : Operand2) (op : AluIn → AluOut) (s : State) : Out :=
  condExec c (rn :: operand2Reads o) s
    (if r15InRegisterShift [rn] o then .fault .r15RegisterShift
     else (s.setFlags (op (dpInput s (some rn) o)).flags).advance)

/-- The four P forms (R397): UNPREDICTABLE in a 32-bit mode (R185). -/
def dpPsr (c : Cond) (rn : Reg) (o : Operand2) (op : AluIn → AluOut) (s : State) : Out :=
  condExec c (rn :: operand2Reads o) s
    (if s.cpsr.mode.is26 then
      (if r15InRegisterShift [rn] o then .fault .r15RegisterShift
       else (s.writePsr26 (op (dpInput s (some rn) o)).value).advance)
     else .fault .pFormIn32Bit)

/-- AND (R187). -/
def execAnd (c : Cond) (f : Bool) (rd rn : Reg) (o : Operand2) (s : State) : Out := dpWrite c f rd (some rn) o aluAnd s
/-- EOR (R188). -/
def execEor (c : Cond) (f : Bool) (rd rn : Reg) (o : Operand2) (s : State) : Out := dpWrite c f rd (some rn) o aluEor s
/-- SUB (R189). -/
def execSub (c : Cond) (f : Bool) (rd rn : Reg) (o : Operand2) (s : State) : Out := dpWrite c f rd (some rn) o aluSub s
/-- RSB (R190). -/
def execRsb (c : Cond) (f : Bool) (rd rn : Reg) (o : Operand2) (s : State) : Out := dpWrite c f rd (some rn) o aluRsb s
/-- ADD (R191). -/
def execAdd (c : Cond) (f : Bool) (rd rn : Reg) (o : Operand2) (s : State) : Out := dpWrite c f rd (some rn) o aluAdd s
/-- ADC (R192). -/
def execAdc (c : Cond) (f : Bool) (rd rn : Reg) (o : Operand2) (s : State) : Out := dpWrite c f rd (some rn) o aluAdc s
/-- SBC (R193). -/
def execSbc (c : Cond) (f : Bool) (rd rn : Reg) (o : Operand2) (s : State) : Out := dpWrite c f rd (some rn) o aluSbc s
/-- RSC (R194). -/
def execRsc (c : Cond) (f : Bool) (rd rn : Reg) (o : Operand2) (s : State) : Out := dpWrite c f rd (some rn) o aluRsc s
/-- ORR (R199). -/
def execOrr (c : Cond) (f : Bool) (rd rn : Reg) (o : Operand2) (s : State) : Out := dpWrite c f rd (some rn) o aluOrr s
/-- BIC (R201). -/
def execBic (c : Cond) (f : Bool) (rd rn : Reg) (o : Operand2) (s : State) : Out := dpWrite c f rd (some rn) o aluBic s
/-- MOV (R200): the Rn field is ignored (R131). -/
def execMov (c : Cond) (f : Bool) (rd _rn : Reg) (o : Operand2) (s : State) : Out := dpWrite c f rd none o aluMov s
/-- MVN (R202): the Rn field is ignored (R131). -/
def execMvn (c : Cond) (f : Bool) (rd _rn : Reg) (o : Operand2) (s : State) : Out := dpWrite c f rd none o aluMvn s

/-- TST (R195): the Rd field is ignored (R131). -/
def execTst (c : Cond) (_rd rn : Reg) (o : Operand2) (s : State) : Out := dpTest c rn o aluAnd s
/-- TEQ (R196): the Rd field is ignored (R131). -/
def execTeq (c : Cond) (_rd rn : Reg) (o : Operand2) (s : State) : Out := dpTest c rn o aluEor s
/-- CMP (R197): the Rd field is ignored (R131). -/
def execCmp (c : Cond) (_rd rn : Reg) (o : Operand2) (s : State) : Out := dpTest c rn o aluSub s
/-- CMN (R198): the Rd field is ignored (R131). -/
def execCmn (c : Cond) (_rd rn : Reg) (o : Operand2) (s : State) : Out := dpTest c rn o aluAdd s

/-- TSTP (R401). -/
def execTstp (c : Cond) (rn : Reg) (o : Operand2) (s : State) : Out := dpPsr c rn o aluAnd s
/-- TEQP (R402). -/
def execTeqp (c : Cond) (rn : Reg) (o : Operand2) (s : State) : Out := dpPsr c rn o aluEor s
/-- CMPP (R403). -/
def execCmpp (c : Cond) (rn : Reg) (o : Operand2) (s : State) : Out := dpPsr c rn o aluSub s
/-- CMNP (R404). -/
def execCmnp (c : Cond) (rn : Reg) (o : Operand2) (s : State) : Out := dpPsr c rn o aluAdd s

end Sys2Proof.Machine
end

