-- ==== Sys2Proof/Machine/SingleTransfer.lean ====
section
/-! DEFINITION. LDR, LDRB, STR, STRB and their T forms (spec/45_single_data_transfer.md R260 to R278), over the template
that the halfword transfers share (R264; spec/46_halfword_signed_transfer.md R292). -/

namespace Sys2Proof.Machine

/-- The forbidden operand combinations of a transfer (R269; spec/46 R297): `narrow` is a byte, halfword or signed
transfer, `rm` the offset register. -/
def transferStop (load narrow : Bool) (idx : Index) (rn rd : Reg) (rm : Option Reg) : Option Fault :=
  if writesBack idx && rn == .r15 then some .writebackR15
  else if rm == some .r15 then some .offsetR15
  else if narrow && rd == .r15 then some .narrowR15
  else if idx == .post && rm == some rn then some .postIndexRmRn
  else if load && writesBack idx && rd == rn then some .writebackRdRn
  else none

/-- A load (R264, R292). `value` gives the loaded value and the state after it (it may draw a free value); an abort
changes no register (R270, R298) and is entered with A + 8 (spec/60_exceptions.md R434). -/
def loadTransfer (width : Width) (ty : RequestType) (narrow user : Bool) (value : State → Word → State × Word)
    (c : Cond) (idx : Index) (up : Bool) (rn rd : Reg) (rm : Option Reg) (offset : Word) (s : State) : Out :=
  condExec c (rn :: rm.toList) s
    (match transferStop true narrow idx rn rd rm with
     | some x => .fault x
     | none =>
      let addr := transferAddress idx up (s.reg rn) offset
      if rd == .r15 && addr.extractLsb' 0 2 != 0#2 then .fault .misalignedR15
      else
        let acc := s.access user .load width false addr
        let t := s.request ty acc 0
        if s.abortsAt acc then .next (t.enter .dataAbort (s.pc + 8))
        else
          let u := if writesBack idx then t.setReg rn (modifiedBase up (s.reg rn) offset) else t
          let r := value u addr
          if rd = .r15 then r.1.jump r.2 else (r.1.setReg rd r.2).advance)

/-- A store (R264, R292): `put` stores the value of Rd at the address; `bus` is what Wdata carries. An abort stores
nothing and changes no register. -/
def storeTransfer (width : Width) (ty : RequestType) (narrow user : Bool) (bus : Word → Word)
    (put : State → Word → Word → State)
    (c : Cond) (idx : Index) (up : Bool) (rn rd : Reg) (rm : Option Reg) (offset : Word) (s : State) : Out :=
  condExec c (rd :: rn :: rm.toList) s
    (match transferStop false narrow idx rn rd rm with
     | some x => .fault x
     | none =>
      let addr := transferAddress idx up (s.reg rn) offset
      if rd == .r15 && addr.extractLsb' 0 2 != 0#2 then .fault .misalignedR15
      else if width == .half && addr.getLsbD 0 then .fault .strhOdd
      else
        let acc := s.access user .store width false addr
        let v := bus (s.regM rd)
        if s.abortsAt acc then .next ((s.storeAborted 0 ty acc v).enter .dataAbort (s.pc + 8))
        else
          let u := put (s.storeRequest 0 ty acc v) addr (s.regM rd)
          (if writesBack idx then u.setReg rn (modifiedBase up (s.reg rn) offset) else u).advance)

/-- The value of LDR: the aligned word, rotated (R266). -/
def wordValue (s : State) (a : Word) : State × Word := (s, s.loadRotated a)

/-- The value of LDRB: the byte, zero-extended (R265). -/
def byteValue (s : State) (a : Word) : State × Word := (s, (s.loadByte a).setWidth 32)

/-- The store of STRB: bits 7 to 0 (R274). -/
def putByte (s : State) (a v : Word) : State := s.storeByte a (v.extractLsb' 0 8)

/-- Wdata of a byte store: the byte four times (R69). -/
def byteBus (v : Word) : Word :=
  v.extractLsb' 0 8 ++ v.extractLsb' 0 8 ++ v.extractLsb' 0 8 ++ v.extractLsb' 0 8

/-- LDR (R266). -/
def execLdr (c : Cond) (idx : Index) (up : Bool) (rn rd : Reg) (off : TransferOffset) (s : State) : Out :=
  loadTransfer .word (.load false) false false wordValue c idx up rn rd (transferOffsetReg off) (s.transferOffset off) s

/-- LDRB (R265). -/
def execLdrb (c : Cond) (idx : Index) (up : Bool) (rn rd : Reg) (off : TransferOffset) (s : State) : Out :=
  loadTransfer .byte .loadB true false byteValue c idx up rn rd (transferOffsetReg off) (s.transferOffset off) s

/-- STR (R267). -/
def execStr (c : Cond) (idx : Index) (up : Bool) (rn rd : Reg) (off : TransferOffset) (s : State) : Out :=
  storeTransfer .word (.store false) false false id State.storeWord c idx up rn rd (transferOffsetReg off)
    (s.transferOffset off) s

/-- STRB (R274). -/
def execStrb (c : Cond) (idx : Index) (up : Bool) (rn rd : Reg) (off : TransferOffset) (s : State) : Out :=
  storeTransfer .byte .storeB true false byteBus putByte c idx up rn rd (transferOffsetReg off) (s.transferOffset off) s

/-- LDRT (R263, R275): post-indexed, presented as a User-mode access. -/
def execLdrt (c : Cond) (up : Bool) (rn rd : Reg) (off : TransferOffset) (s : State) : Out :=
  loadTransfer .word (.load false) false true wordValue c .post up rn rd (transferOffsetReg off) (s.transferOffset off) s

/-- LDRBT (R263, R276). -/
def execLdrbt (c : Cond) (up : Bool) (rn rd : Reg) (off : TransferOffset) (s : State) : Out :=
  loadTransfer .byte .loadB true true byteValue c .post up rn rd (transferOffsetReg off) (s.transferOffset off) s

/-- STRT (R263, R277). -/
def execStrt (c : Cond) (up : Bool) (rn rd : Reg) (off : TransferOffset) (s : State) : Out :=
  storeTransfer .word (.store false) false true id State.storeWord c .post up rn rd (transferOffsetReg off)
    (s.transferOffset off) s

/-- STRBT (R263, R278). -/
def execStrbt (c : Cond) (up : Bool) (rn rd : Reg) (off : TransferOffset) (s : State) : Out :=
  storeTransfer .byte .storeB true true byteBus putByte c .post up rn rd (transferOffsetReg off) (s.transferOffset off) s

end Sys2Proof.Machine
end

