-- ==== Sys2Proof/Machine/HalfTransfer.lean ====
section
/-! DEFINITION. LDRH, LDRSB, LDRSH, STRH (spec/46_halfword_signed_transfer.md R290 to R298). -/

namespace Sys2Proof.Machine

/-- The value of a halfword load: `extend` of the halfword at an even address, a free word at an odd one (R293, R294, D3). -/
def halfValue (extend : Half → Word) (s : State) (a : Word) : State × Word :=
  if a.getLsbD 0 then (s.drawn, s.free) else (s, extend (s.loadHalf a))

/-- The value of LDRSB: the byte, sign-extended (R295). -/
def signedByteValue (s : State) (a : Word) : State × Word := (s, (s.loadByte a).signExtend 32)

/-- The store of STRH: bits 15 to 0 (R296). -/
def putHalf (s : State) (a v : Word) : State := s.storeHalf a (v.extractLsb' 0 16)

/-- Wdata of a halfword store: the halfword twice (R70). -/
def halfBus (v : Word) : Word := v.extractLsb' 0 16 ++ v.extractLsb' 0 16

/-- LDRH (R293). -/
def execLdrh (c : Cond) (idx : Index) (up : Bool) (rn rd : Reg) (off : HalfOffset) (s : State) : Out :=
  loadTransfer .half .loadH true false (halfValue (fun h => h.setWidth 32)) c idx up rn rd (halfOffsetReg off)
    (s.halfOffset off) s

/-- LDRSB (R295). -/
def execLdrsb (c : Cond) (idx : Index) (up : Bool) (rn rd : Reg) (off : HalfOffset) (s : State) : Out :=
  loadTransfer .byte .loadB true false signedByteValue c idx up rn rd (halfOffsetReg off) (s.halfOffset off) s

/-- LDRSH (R294). -/
def execLdrsh (c : Cond) (idx : Index) (up : Bool) (rn rd : Reg) (off : HalfOffset) (s : State) : Out :=
  loadTransfer .half .loadH true false (halfValue (fun h => h.signExtend 32)) c idx up rn rd (halfOffsetReg off)
    (s.halfOffset off) s

/-- STRH (R296). -/
def execStrh (c : Cond) (idx : Index) (up : Bool) (rn rd : Reg) (off : HalfOffset) (s : State) : Out :=
  storeTransfer .half .storeH true false halfBus putHalf c idx up rn rd (halfOffsetReg off) (s.halfOffset off) s

end Sys2Proof.Machine
end

