-- ==== Sys2Proof/Machine/Multiply.lean ====
section
/-! DEFINITION. MUL, MLA and the long multiplies (spec/44_multiply.md R240 to R249). -/

namespace Sys2Proof.Machine

/-- The common part of MUL and MLA (R241, R242): `result` goes to Rd; with S = 1, N and Z are set from it, C is a free
bit (D18) and V stays. -/
def mulWrite (c : Cond) (f : Bool) (rd rn rs rm : Reg) (reads : List Reg) (result : Word) (s : State) : Out :=
  condExec c reads s
    (if [rd, rn, rs, rm].contains .r15 then .fault .mulR15
     else if rd = rm then .fault .mulRdRm
     else if f then
      ((s.drawn.setReg rd result).setFlags (mulFlags s.cpsr.flags result (s.free.getLsbD 0))).advance
     else (s.setReg rd result).advance)

/-- MUL (R241): Rn is not read, but must not be R15. -/
def execMul (c : Cond) (f : Bool) (rd rn rs rm : Reg) (s : State) : Out :=
  mulWrite c f rd rn rs rm [rm, rs] (s.reg rm * s.reg rs) s

/-- MLA (R242). -/
def execMla (c : Cond) (f : Bool) (rd rn rs rm : Reg) (s : State) : Out :=
  mulWrite c f rd rn rs rm [rm, rs, rn] (s.reg rm * s.reg rs + s.reg rn) s

/-- The common part of the long multiplies (R246 to R249): `p` goes to RdHi and RdLo; with S = 1, N and Z are set from
it, and C and V are free bits (D18). -/
def mullWrite (c : Cond) (f : Bool) (rdHi rdLo rs rm : Reg) (reads : List Reg) (p : BitVec 64) (s : State) : Out :=
  condExec c reads s
    (if [rdHi, rdLo, rs, rm].contains .r15 then .fault .mullR15
     else if rdHi = rdLo ∨ rdHi = rm ∨ rdLo = rm then .fault .mullOverlap
     else if f then
      (((s.drawn.setReg rdLo (p.extractLsb' 0 32)).setReg rdHi (p.extractLsb' 32 32)).setFlags
        (mullFlags p (s.free.getLsbD 0) (s.free.getLsbD 1))).advance
     else ((s.setReg rdLo (p.extractLsb' 0 32)).setReg rdHi (p.extractLsb' 32 32)).advance)

/-- The exact product of two words read as unsigned (R246). -/
def umul64 (x y : Word) : BitVec 64 := BitVec.ofNat 64 (x.toNat * y.toNat)

/-- The exact product of two words read as signed (R248). -/
def smul64 (x y : Word) : BitVec 64 := BitVec.ofInt 64 (x.toInt * y.toInt)

/-- UMULL (R246). -/
def execUmull (c : Cond) (f : Bool) (rdHi rdLo rs rm : Reg) (s : State) : Out :=
  mullWrite c f rdHi rdLo rs rm [rm, rs] (umul64 (s.reg rm) (s.reg rs)) s

/-- UMLAL (R247): a carry out of bit 63 is lost. -/
def execUmlal (c : Cond) (f : Bool) (rdHi rdLo rs rm : Reg) (s : State) : Out :=
  mullWrite c f rdHi rdLo rs rm [rm, rs, rdHi, rdLo]
    (umul64 (s.reg rm) (s.reg rs) + (s.reg rdHi ++ s.reg rdLo)) s

/-- SMULL (R248). -/
def execSmull (c : Cond) (f : Bool) (rdHi rdLo rs rm : Reg) (s : State) : Out :=
  mullWrite c f rdHi rdLo rs rm [rm, rs] (smul64 (s.reg rm) (s.reg rs)) s

/-- SMLAL (R249): overflow of the accumulation wraps. -/
def execSmlal (c : Cond) (f : Bool) (rdHi rdLo rs rm : Reg) (s : State) : Out :=
  mullWrite c f rdHi rdLo rs rm [rm, rs, rdHi, rdLo]
    (smul64 (s.reg rm) (s.reg rs) + (s.reg rdHi ++ s.reg rdLo)) s

end Sys2Proof.Machine
end

