-- ==== Sys2Proof/Machine/PsrTransfer.lean ====
section
/-! DEFINITION. MRS and MSR (spec/43_psr_transfer.md R220 to R228); in a 26-bit mode they are the same
(spec/50_26bit_operation.md R396). -/

namespace Sys2Proof.Machine

/-- The PSR that Ps or Pd names; none where the mode has no SPSR (R222). -/
def State.namedPsr (s : State) (spsr : Bool) : Option Psr :=
  if spsr then s.cpsr.mode.spsr.map s.spsrs.get else some s.cpsr.toPsr

/-- MRS (R223): the reserved bits are those of a free word (R221). -/
def execMrs (c : Cond) (spsr : Bool) (rd : Reg) (s : State) : Out :=
  condExec c [] s
    (if rd = .r15 then .fault .mrsR15
     else
      match s.namedPsr spsr with
      | none => .fault .noSpsr
      | some p => (s.drawn.setReg rd (p.word s.free)).advance)

/-- The source operand of MSR (R224). -/
def State.msrValue (s : State) : MsrSource → Word
  | .reg rm => s.reg rm
  | .imm rotate imm8 => rotatedImm rotate imm8

/-- The registers that the source operand reads. -/
def msrReads : MsrSource → List Reg
  | .reg rm => [rm]
  | .imm _ _ => []

/-- A PSR under a field mask (R224): bit 3 writes N, Z, C, V, bit 0 writes I, F, M; bits 1 and 2 select reserved bits
only (spec/90_conflicts.md C5). -/
def Psr.masked (p : Psr) (mask : BitVec 4) (v : Word) : Psr :=
  { flags := if mask.getLsbD 3 then Flags.ofWord v else p.flags
    i := if mask.getLsbD 0 then v.getLsbD 7 else p.i
    f := if mask.getLsbD 0 then v.getLsbD 6 else p.f
    m := if mask.getLsbD 0 then v.extractLsb' 0 5 else p.m }

/-- MSR to the control field of the CPSR in a privileged mode (R224): M must be a mode (R27), and a 26-bit mode must not
be entered outside 64 Mbytes (spec/50_26bit_operation.md R406) nor left by running past 0x03FFFFFC (R393). -/
def State.msrControl (s : State) (g : Flags) (v : Word) : Out :=
  match Mode.ofBits (v.extractLsb' 0 5) with
  | none => .fault .invalidMode
  | some m =>
    if s.cpsr.mode.is26 && s.pc == 0x03FFFFFC#32 then .fault .pastTop26
    else if m.is26 && s.pc.extractLsb' 26 6 != 0#6 then .fault .enter26Outside
    else State.advance { s with cpsr := { flags := g, i := v.getLsbD 7, f := v.getLsbD 6, mode := m } }

/-- MSR (R224). In User mode and usr26 the control field is not written (R39). -/
def execMsr (c : Cond) (spsr : Bool) (mask : BitVec 4) (src : MsrSource) (s : State) : Out :=
  condExec c (msrReads src) s
    (if msrReads src = [.r15] then .fault .msrR15
     else
      let v := s.msrValue src
      if spsr then
        match s.cpsr.mode.spsr with
        | none => .fault .noSpsr
        | some n => State.advance { s with spsrs := s.spsrs.set n ((s.spsrs.get n).masked mask v) }
      else
        let g := if mask.getLsbD 3 then Flags.ofWord v else s.cpsr.flags
        if mask.getLsbD 0 && s.cpsr.mode.privileged then s.msrControl g v
        else (s.setFlags g).advance)

end Sys2Proof.Machine
end

