-- ==== Sys2Proof/Machine/SwapSwi.lean ====
section
/-! DEFINITION. SWP, SWPB and SWI, which is also the instruction memory barrier (spec/48_swap_swi_imb.md R340 to R349). -/

namespace Sys2Proof.Machine

/-- The swap (R341 to R343): a locked read, then a locked write; an abort of either leaves registers and memory as they
were. `value` is what Rd receives. -/
def swap (width : Width) (readTy writeTy : RequestType) (bus : Word → Word) (value : State → Word → Word)
    (put : State → Word → Word → State) (c : Cond) (rn rd rm : Reg) (s : State) : Out :=
  condExec c [rn, rm] s
    (if [rn, rd, rm].contains .r15 then .fault .swpR15
     else
      let addr := s.reg rn
      let racc := s.access false .load width true addr
      let wacc := s.access false .store width true addr
      let t := s.request readTy racc 0
      if s.abortsAt racc then .next (t.enter .dataAbort (s.pc + 8))
      else
        let v := bus (s.reg rm)
        if s.abortsAt wacc then .next ((t.storeAborted 0 writeTy wacc v).enter .dataAbort (s.pc + 8))
        else ((put (t.storeRequest 0 writeTy wacc v) addr (s.reg rm)).setReg rd (value s addr)).advance)

/-- SWP (R341): reads as LDR, writes as STR. -/
def execSwp (c : Cond) (rn rd rm : Reg) (s : State) : Out :=
  swap .word .loadX .storeX id State.loadRotated State.storeWord c rn rd rm s

/-- SWPB (R342): reads as LDRB, writes as STRB. -/
def execSwpb (c : Cond) (rn rd rm : Reg) (s : State) : Out :=
  swap .byte .loadBX .storeBX byteBus (fun t a => (t.loadByte a).setWidth 32) putByte c rn rd rm s

/-- The instruction memory barrier (R349; spec/20_memory.md R89): every mark is cleared, and so is what is known of
instructions executed before (spec/50_26bit_operation.md R406). -/
def State.barrier (s : State) : State := { s with marks := [], ran26 := [], ran32 := [] }

/-- SWI (R345): the software interrupt, and on ARM8 a full IMB whatever the comment field (R349). -/
def execSwi (c : Cond) (_comment : BitVec 24) (s : State) : Out :=
  condExec c [] s (.next (s.barrier.enter .swi (s.pc + 4)))

end Sys2Proof.Machine
end

