-- ==== Sys2Proof/Machine/Undefined.lean ====
section
/-! DEFINITION. The undefined instruction classes (spec/30_encoding.md R127, spec/49_coprocessor_undefined.md R370 to
R372) and the reserved patterns that do not trap (spec/30_encoding.md R128, R130). -/

namespace Sys2Proof.Machine

/-- Class A (R370 (a)): always the trap. -/
def execUndefinedA (c : Cond) (_bits : BitVec 28) (s : State) : Out := condExec c [] s s.trapUndefined

/-- Classes B to E (R370 (b), R372): the trap where the implementation traps them (D14). -/
def undefinedBtoE (c : Cond) (x : Fault) (s : State) : Out :=
  condExec c [] s (if s.cfg.undefClassesBtoE then s.trapUndefined else .fault x)

/-- Class B. -/
def execUndefinedB (c : Cond) (_bits : BitVec 28) (s : State) : Out := undefinedBtoE c .undefinedBNotTrapping s
/-- Class C. -/
def execUndefinedC (c : Cond) (_bits : BitVec 28) (s : State) : Out := undefinedBtoE c .undefinedCNotTrapping s
/-- Class D. -/
def execUndefinedD (c : Cond) (_bits : BitVec 28) (s : State) : Out := undefinedBtoE c .undefinedDNotTrapping s
/-- Class E. -/
def execUndefinedE (c : Cond) (_bits : BitVec 28) (s : State) : Out := undefinedBtoE c .undefinedENotTrapping s

/-- A reserved MRS-like word (R130 (a)): UNPREDICTABLE when its condition passes (R128, D15). -/
def execReservedMrs (c : Cond) (_bits : BitVec 28) (s : State) : Out := condExec c [] s (.fault .reservedMrs)
/-- A reserved MSR-like word (R130 (a), (b)). -/
def execReservedMsr (c : Cond) (_bits : BitVec 28) (s : State) : Out := condExec c [] s (.fault .reservedMsr)
/-- A reserved SWP-like word (R130 (c)). -/
def execReservedSwp (c : Cond) (_bits : BitVec 28) (s : State) : Out := condExec c [] s (.fault .reservedSwp)
/-- A reserved halfword-transfer-like word (R130 (d)). -/
def execReservedHreg (c : Cond) (_bits : BitVec 28) (s : State) : Out := condExec c [] s (.fault .reservedHreg)

end Sys2Proof.Machine
end

