-- ==== Sys2Proof/Machine/Dispatch.lean ====
section
/-! DEFINITION. One arm for each instruction: the call of its meaning. -/

namespace Sys2Proof.Machine

/-- The meaning of an instruction at `s.pc`. -/
def exec (i : Instr) (s : State) : Host.Outcome State Fault Refusal :=
  match i with
  | .and c f rd rn op2 => Sys2Proof.Machine.execAnd c f rd rn op2 s
  | .eor c f rd rn op2 => Sys2Proof.Machine.execEor c f rd rn op2 s
  | .sub c f rd rn op2 => Sys2Proof.Machine.execSub c f rd rn op2 s
  | .rsb c f rd rn op2 => Sys2Proof.Machine.execRsb c f rd rn op2 s
  | .add c f rd rn op2 => Sys2Proof.Machine.execAdd c f rd rn op2 s
  | .adc c f rd rn op2 => Sys2Proof.Machine.execAdc c f rd rn op2 s
  | .sbc c f rd rn op2 => Sys2Proof.Machine.execSbc c f rd rn op2 s
  | .rsc c f rd rn op2 => Sys2Proof.Machine.execRsc c f rd rn op2 s
  | .orr c f rd rn op2 => Sys2Proof.Machine.execOrr c f rd rn op2 s
  | .bic c f rd rn op2 => Sys2Proof.Machine.execBic c f rd rn op2 s
  | .mov c f rd rn op2 => Sys2Proof.Machine.execMov c f rd rn op2 s
  | .mvn c f rd rn op2 => Sys2Proof.Machine.execMvn c f rd rn op2 s
  | .tst c rd rn op2 => Sys2Proof.Machine.execTst c rd rn op2 s
  | .teq c rd rn op2 => Sys2Proof.Machine.execTeq c rd rn op2 s
  | .cmp c rd rn op2 => Sys2Proof.Machine.execCmp c rd rn op2 s
  | .cmn c rd rn op2 => Sys2Proof.Machine.execCmn c rd rn op2 s
  | .tstp c rn op2 => Sys2Proof.Machine.execTstp c rn op2 s
  | .teqp c rn op2 => Sys2Proof.Machine.execTeqp c rn op2 s
  | .cmpp c rn op2 => Sys2Proof.Machine.execCmpp c rn op2 s
  | .cmnp c rn op2 => Sys2Proof.Machine.execCmnp c rn op2 s
  | .mrs c spsr rd => Sys2Proof.Machine.execMrs c spsr rd s
  | .msr c spsr mask src => Sys2Proof.Machine.execMsr c spsr mask src s
  | .mul c f rd rn rs rm => Sys2Proof.Machine.execMul c f rd rn rs rm s
  | .mla c f rd rn rs rm => Sys2Proof.Machine.execMla c f rd rn rs rm s
  | .umull c f rdHi rdLo rs rm => Sys2Proof.Machine.execUmull c f rdHi rdLo rs rm s
  | .umlal c f rdHi rdLo rs rm => Sys2Proof.Machine.execUmlal c f rdHi rdLo rs rm s
  | .smull c f rdHi rdLo rs rm => Sys2Proof.Machine.execSmull c f rdHi rdLo rs rm s
  | .smlal c f rdHi rdLo rs rm => Sys2Proof.Machine.execSmlal c f rdHi rdLo rs rm s
  | .ldr c idx up rn rd off => Sys2Proof.Machine.execLdr c idx up rn rd off s
  | .ldrb c idx up rn rd off => Sys2Proof.Machine.execLdrb c idx up rn rd off s
  | .str c idx up rn rd off => Sys2Proof.Machine.execStr c idx up rn rd off s
  | .strb c idx up rn rd off => Sys2Proof.Machine.execStrb c idx up rn rd off s
  | .ldrt c up rn rd off => Sys2Proof.Machine.execLdrt c up rn rd off s
  | .ldrbt c up rn rd off => Sys2Proof.Machine.execLdrbt c up rn rd off s
  | .strt c up rn rd off => Sys2Proof.Machine.execStrt c up rn rd off s
  | .strbt c up rn rd off => Sys2Proof.Machine.execStrbt c up rn rd off s
  | .ldrh c idx up rn rd off => Sys2Proof.Machine.execLdrh c idx up rn rd off s
  | .ldrsb c idx up rn rd off => Sys2Proof.Machine.execLdrsb c idx up rn rd off s
  | .ldrsh c idx up rn rd off => Sys2Proof.Machine.execLdrsh c idx up rn rd off s
  | .strh c idx up rn rd off => Sys2Proof.Machine.execStrh c idx up rn rd off s
  | .ldm c p up psr w rn regs => Sys2Proof.Machine.execLdm c p up psr w rn regs s
  | .stm c p up psr w rn regs => Sys2Proof.Machine.execStm c p up psr w rn regs s
  | .swp c rn rd rm => Sys2Proof.Machine.execSwp c rn rd rm s
  | .swpb c rn rd rm => Sys2Proof.Machine.execSwpb c rn rd rm s
  | .b c offset => Sys2Proof.Machine.execB c offset s
  | .bl c offset => Sys2Proof.Machine.execBl c offset s
  | .swi c comment => Sys2Proof.Machine.execSwi c comment s
  | .cdp c opc crn crd cp info crm => Sys2Proof.Machine.execCdp c opc crn crd cp info crm s
  | .ldc c p up n w rn crd cp offset => Sys2Proof.Machine.execLdc c p up n w rn crd cp offset s
  | .stc c p up n w rn crd cp offset => Sys2Proof.Machine.execStc c p up n w rn crd cp offset s
  | .mrc c opc crn rd cp info crm => Sys2Proof.Machine.execMrc c opc crn rd cp info crm s
  | .mcr c opc crn rd cp info crm => Sys2Proof.Machine.execMcr c opc crn rd cp info crm s
  | .undefinedA c bits => Sys2Proof.Machine.execUndefinedA c bits s
  | .undefinedB c bits => Sys2Proof.Machine.execUndefinedB c bits s
  | .undefinedC c bits => Sys2Proof.Machine.execUndefinedC c bits s
  | .undefinedD c bits => Sys2Proof.Machine.execUndefinedD c bits s
  | .undefinedE c bits => Sys2Proof.Machine.execUndefinedE c bits s
  | .reservedMrs c bits => Sys2Proof.Machine.execReservedMrs c bits s
  | .reservedMsr c bits => Sys2Proof.Machine.execReservedMsr c bits s
  | .reservedSwp c bits => Sys2Proof.Machine.execReservedSwp c bits s
  | .reservedHreg c bits => Sys2Proof.Machine.execReservedHreg c bits s

end Sys2Proof.Machine
end

