-- ==== Sys2Proof/Machine/Platform.lean ====
section
/-! DEFINITION. What happens at a step boundary (spec/00_scope.md R8; spec/20_memory.md R77, R95): device bytes react to
the accesses just made, other agents write memory, the coprocessors, the accesses that abort, the word buffers, the double returns and
PredictOn change, the Prefetch Unit fetches ahead. -/

namespace Sys2Proof.Machine

/-- How many bytes an access of a type moves for each word asked; none for AREQ_NONE and AREQ_CONTROL (R73, R98). -/
def RequestType.size : RequestType → Nat
  | .none | .control => 0
  | .loadB | .loadBX | .storeB | .storeBX => 1
  | .loadH | .storeH => 2
  | .load _ | .loadS _ | .loadX | .fetch | .fetchS | .spec | .specS | .store _ | .storeS _ | .storeX => 4

/-- How many words or parts of a word an access is performed on: for a store the one stored, whatever instructions are
returned with it (R97). -/
def Transaction.units (t : Transaction) : Nat :=
  match t.ty with
  | .store _ | .storeS _ | .storeB | .storeH | .storeX | .storeBX => 1
  | .none | .load _ | .loadS _ | .loadB | .loadH | .loadX | .loadBX | .fetch | .fetchS | .spec | .specS | .control =>
    max 1 t.rdata.length

/-- Whether the memory system has performed an access on the byte at `x`: not where it answered ARESP_ABORT or
ARESP_NOTDONE; an external abort may have been performed (R75 (b), log entry 34). A halfword load from an odd address,
which R67 leaves undefined, is performed on the aligned halfword that contains the address (spec/46 R293, R294;
DESIGN CHOICE, log entry 34). -/
def Transaction.touches (t : Transaction) (x : Nat) : Bool :=
  t.aresp == .done && (List.range t.units).any (fun i =>
    decide (x / t.ty.size = (t.addr + BitVec.ofNat 32 (4 * i)).toNat / t.ty.size) && decide (t.ty.size ≠ 0))

/-- A byte written from outside ARM8: it carries the mark of R89 too (DEDUCED, log entry 35). -/
def State.outsideWrite (s : State) (c : Host.Cell) : State := s.storeBytes (c.1 % 2 ^ 32) [c.2]

/-- A device byte reacts to an access (R75, R77). -/
def State.deviceReacts (t : Transaction) (s : State) (d : DeviceByte) : State :=
  match d.shows with
  | [] => s
  | v :: _ => if t.touches d.addr then s.outsideWrite (d.addr, v) else s

/-- The device bytes after an access. -/
def DeviceByte.after (t : Transaction) (d : DeviceByte) : DeviceByte :=
  if t.touches d.addr then { d with shows := d.shows.tail } else d

/-- The platform's answer to what passed on the interfaces: the device bytes react. -/
def State.react (s : State) : Output → State
  | .access t =>
    let u := s.platform.devices.foldl (State.deviceReacts t) s
    { u with platform := { u.platform with devices := u.platform.devices.map (DeviceByte.after t) } }
  | .cpInstruct _ _ | .cpExecute _ | .cpWrite _ _ => s

/-- A boundary at which the platform does nothing. -/
def PlatformStep.quiet : PlatformStep :=
  { writes := [], aborts := none, buffers := none, double := none, coproc := none, predictOn := none, starved := false,
    ahead := [] }

/-- What the platform does at this boundary. -/
def State.platformStep (s : State) : PlatformStep := s.platform.steps.headD PlatformStep.quiet

/-- The levels of the lines at this step boundary (log entry 7). -/
def State.levels (s : State) : Lines := s.lines.headD s.platform.linesAfter

/-- Memory, coprocessors, abort rules, word buffers, double returns, PredictOn and prefetch buffer as the step finds them, with the
levels used up and the interfaces quiet. A switch of PredictOn leaves the prefetch buffer as it is, with the predictions made before, so that
a thread already being prefetched goes on (spec/70_reset_and_hazards.md R494). -/
def State.settle (s : State) : State :=
  let u := s.platformStep.writes.foldl State.outsideWrite (s.outputs.foldl State.react s)
  { u with
    lines := s.lines.tail
    outputs := []
    coproc := s.platformStep.coproc.getD s.coproc
    aborts := s.platformStep.aborts.getD s.aborts
    fetchUnit := if s.platformStep.starved then s.fetchUnit.flushed else s.fetchUnit
    platform :=
      { u.platform with
        steps := s.platform.steps.tail
        buffers := s.platformStep.buffers.getD s.platform.buffers
        double := s.platformStep.double.getD s.platform.double
        predictOn := s.platformStep.predictOn.getD s.platform.predictOn } }

/-- The state in which the step's work begins. -/
def State.beginStep (s : State) : State := s.platformStep.ahead.foldl State.fetchAhead s.settle

end Sys2Proof.Machine
end

