-- ==== Sys2Proof/Machine/Run.lean ====
section
/-! DEFINITION. How the step comes to the instruction it runs: the fetch (spec/20_memory.md R71, R89;
spec/60_exceptions.md R433), or the instruction that busy-waits (spec/49_coprocessor_undefined.md R369). -/

namespace Sys2Proof.Machine

/-- The instruction at the program counter, the word `w`, is run: the marks of R89 and R406 are checked, before its
condition is tested (log entries 9 and 10), the coprocessors told, and its meaning applied. -/
def State.runWord (s : State) (w : Word) : Host.Outcome State Fault Refusal :=
  if s.modified then .fault .modifiedCode
  else if s.mixedWidth then .fault .mixedWidthCode
  else exec (decode w) (s.issue (decode w) w)

/-- The instruction that the Prefetch Unit presents is run, or, where it carries the mark of an aborted fetch, the prefetch
abort is taken (spec/60_exceptions.md R432, R433); one that busy-waits is in Execute already and is run again without a
fetch (spec/49_coprocessor_undefined.md R369). -/
def State.runNext (s : State) : Host.Outcome State Fault Refusal :=
  match s.waiting with
  | some w => exec (decode w) s
  | none =>
    match s.presented with
    | none => .next (s.requestFetch.enter .prefetchAbort (s.pc + 4))
    | some w => s.requestFetch.runWord w

end Sys2Proof.Machine
end

