-- ==== Sys2Proof/Machine/Step.lean ====
section
/-! DEFINITION. One step of the machine, in the order of spec/40_conditional_execution.md R153, and the placing of a word
where the next step fetches. -/

namespace Sys2Proof.Machine

/-- One step (R153): after the platform's part of the boundary, reset, then FIQ, then IRQ, then the instruction. A
busy-waiting MRC or MCR is abandoned by an interrupt, which returns to it (R369, D23). -/
def step (s : State) : Host.Outcome State Fault Refusal :=
  if s.levels.reset then .next s.beginStep.takeReset
  else if s.levels.fiq && !s.cpsr.f then .next (s.beginStep.abandon.enter .fiq (s.pc + 4))
  else if s.levels.irq && !s.cpsr.i then .next (s.beginStep.abandon.enter .irq (s.pc + 4))
  else s.beginStep.runNext

/-- `s` with the word `w` (its low `nbits` bits, the rest 0) stored where `step` fetches next, in the byte order of the
configuration, so that the next step runs it: its bytes unmarked, its address not noted for the other width, no
instruction in busy-wait, the prefetch buffer empty, no line asserted, a boundary at which the platform does nothing, and
no rule that aborts the fetch (log entry 6). -/
def State.withFetchWord (s : State) (nbits w : Nat) : State :=
  let k := (alignWord s.pc).toNat
  { s with
    mem := Memory.writeBytes s.mem k (wordBytes s.cfg.bigend (BitVec.ofNat 32 (w % 2 ^ nbits)))
    marks := s.marks.filter (fun a => !(decide (k ≤ a) && decide (a < k + 4)))
    ran26 := s.ran26.filter (fun a => decide (a ≠ s.pc.toNat))
    ran32 := s.ran32.filter (fun a => decide (a ≠ s.pc.toNat))
    busyWait := false
    lines := Lines.idle :: s.lines.tail
    aborts := s.aborts.filter (fun r => !r.hits s.fetchAccess)
    platform := { s.platform with steps := PlatformStep.quiet :: s.platform.steps.tail }
    fetchUnit := s.fetchUnit.flushed
    outputs := [] }

end Sys2Proof.Machine
end

