-- ==== Sys2Proof/Safety.lean ====
section
/-! DEFINITION. What counts as a safe run: the invariant that every step keeps, completion, and what an instruction
leaves unchanged, in the terms that the statements use. -/

namespace Sys2Proof.Machine

/-! ## The invariant -/

/-- The program counter is a multiple of 4, and in a 26-bit mode below 2^26 (spec/10_state.md R28,
spec/50_26bit_operation.md R392). -/
def State.pcLegal (s : State) : Prop := s.pc &&& s.cpsr.mode.pcMask = s.pc

/-- The data structures of the state are in their canonical form. -/
def State.canonical (s : State) : Prop :=
  Memory.wf s.mem = true ∧ rising s.marks = true ∧ rising s.ran26 = true ∧ rising s.ran32 = true

/-- Every word of the prefetch buffer is the word in memory, but for aborted fetches and for words with a byte written
since the last IMB (spec/20_memory.md R89, R90, R93). -/
def State.fresh (s : State) : Prop :=
  ∀ e ∈ s.fetchUnit.buffer, e.word = none ∨ e.word = some (s.loadWord e.addr)
    ∨ ∃ a ∈ s.marks, (alignWord e.addr).toNat ≤ a ∧ a < (alignWord e.addr).toNat + 4

/-- The invariant of the machine. -/
def State.inv (s : State) : Prop := s.pcLegal ∧ s.canonical ∧ s.fresh

/-! ## Completion -/

/-- Sequential execution has a next instruction (spec/10_state.md R32, spec/50_26bit_operation.md R393). -/
def State.canAdvance (s : State) : Prop :=
  s.pc ≠ 0xFFFFFFFC#32 ∧ (s.cpsr.mode.is26 = true → s.pc ≠ 0x03FFFFFC#32)

/-- The name under which going on past the top stops. -/
def State.topFault (s : State) : Fault := if s.pc = 0xFFFFFFFC#32 then .pastTop32 else .pastTop26

/-- The condition `c` is not the reserved one and passes (spec/40_conditional_execution.md R129, R150), and reading
`reads` does not meet the hazard of spec/47_block_data_transfer.md R322. -/
def State.ready (s : State) (c : Cond) (reads : List Reg) : Prop :=
  c ≠ .nv ∧ condPassed s.cpsr.flags c = true ∧ s.hazard reads = false

/-- A safe outcome: the machine goes on. -/
def goesOn (o : Out) : Prop := ∃ t, o = .next t

/-! ## Frames -/

/-- Every physical register is unchanged but those that `written` names in the current mode. -/
def State.keepsRegs (s t : State) (written : List Reg) : Prop :=
  ∀ p : PReg, (∀ r ∈ written, s.cpsr.mode.bank.view r ≠ some p) → t.regs.get p = s.regs.get p

/-- I, F and the mode are unchanged. -/
def State.keepsControl (s t : State) : Prop :=
  t.cpsr.i = s.cpsr.i ∧ t.cpsr.f = s.cpsr.f ∧ t.cpsr.mode = s.cpsr.mode

/-- What is known of executed instructions (R406), the input lines, the coprocessors, the answer to a busy-wait, the
aborting accesses, the rest of the platform, what the Prefetch Unit holds (or it is flushed) and the parameters are unchanged. -/
def State.keepsPlatform (s t : State) : Prop :=
  t.ran26 = s.ran26 ∧ t.ran32 = s.ran32 ∧ t.lines = s.lines ∧ t.coproc = s.coproc ∧ t.pending = s.pending
  ∧ t.aborts = s.aborts  ∧ t.platform = s.platform ∧ (t.fetchUnit = s.fetchUnit ∨ t.fetchUnit = s.fetchUnit.flushed) ∧ t.cfg = s.cfg

/-- The five SPSRs and the platform are unchanged. -/
def State.keepsSystem (s t : State) : Prop := t.spsrs = s.spsrs ∧ s.keepsPlatform t

/-- Every byte of memory reads as before, and no byte is newly marked as written (R89). -/
def State.keepsMemory (s t : State) : Prop :=
  (∀ a : Nat, Memory.read t.mem a = Memory.read s.mem a) ∧ t.marks = s.marks

/-- Memory is written at the `n` bytes from `a` on and nowhere else: every other byte reads as before, and exactly the
bytes written are newly marked (R89). -/
def State.storesOnly (s t : State) (a n : Nat) : Prop :=
  (∀ x : Nat, x < a ∨ a + n ≤ x → Memory.read t.mem x = Memory.read s.mem x)
  ∧ (∀ x : Nat, x ∈ t.marks ↔ (a ≤ x ∧ x < a + n) ∨ x ∈ s.marks)

/-- An instruction that runs to its end in the same mode, writes the registers `written` and at most the flags and
memory, and goes on at A + 4. -/
def State.goesOnTo (s t : State) (written : List Reg) : Prop :=
  t.pc = s.pc + 4 ∧ s.keepsRegs t written ∧ s.keepsControl t ∧ s.keepsSystem t ∧ t.fetchUnit = s.fetchUnit

/-- The same, for an instruction that writes `target` to the program counter (R31, R392); whether it flushes the Prefetch
Unit (spec/20_memory.md R92) is said beside it. -/
def State.goesTo (s t : State) (written : List Reg) (target : Word) : Prop :=
  t.pc = target &&& s.cpsr.mode.pcMask ∧ s.keepsRegs t written ∧ s.keepsControl t ∧ s.keepsSystem t

/-- The exception `e` has been taken with return address `ret` (spec/60_exceptions.md R423): the SPSR and R14 of its
mode hold the old CPSR and `ret`, every other register and SPSR is unchanged. -/
def State.hasTaken (s t : State) (e : Exception) (ret : Word) : Prop :=
  t.cpsr.mode = e.mode ∧ t.cpsr.i = true ∧ t.cpsr.f = (s.cpsr.f || decide (e = .fiq)) ∧ t.cpsr.flags = s.cpsr.flags
  ∧ t.pc = e.vector ∧ t.regs.get e.link = ret ∧ t.spsrs.get e.spsr = s.cpsr.toPsr
  ∧ (∀ p, p ≠ e.link → t.regs.get p = s.regs.get p) ∧ (∀ n, n ≠ e.spsr → t.spsrs.get n = s.spsrs.get n)

/-- The outcome is the data abort of the instruction at `s.pc`, with every register but R14_abt, memory and the platform
as they were (spec/60_exceptions.md R434). -/
def State.abortsData (s : State) (out : Out) : Prop :=
  ∃ t, out = .next t ∧ s.hasTaken t .dataAbort (s.pc + 8) ∧ s.keepsMemory t ∧ s.keepsPlatform t

/-- The outcome is the undefined instruction trap of the instruction at `s.pc` (spec/60_exceptions.md R425). -/
def State.traps (s : State) (out : Out) : Prop :=
  ∃ t, out = .next t ∧ s.hasTaken t .undefined (s.pc + 4) ∧ s.keepsMemory t

/-! ## Data processing -/

/-- The twelve data-processing instructions that write a result (spec/42_data_processing.md R170). -/
inductive DpOp where
  | and | eor | sub | rsb | add | adc | sbc | rsc | orr | mov | bic | mvn
deriving DecidableEq, Repr

/-- The instruction. -/
def DpOp.instr (op : DpOp) (c : Cond) (f : Bool) (rd rn : Reg) (o : Operand2) : Instr :=
  match op with
  | .and => .and c f rd rn o | .eor => .eor c f rd rn o | .sub => .sub c f rd rn o | .rsb => .rsb c f rd rn o
  | .add => .add c f rd rn o | .adc => .adc c f rd rn o | .sbc => .sbc c f rd rn o | .rsc => .rsc c f rd rn o
  | .orr => .orr c f rd rn o | .mov => .mov c f rd rn o | .bic => .bic c f rd rn o | .mvn => .mvn c f rd rn o

/-- Rn, where the instruction reads it (R170: MOV and MVN do not). -/
def DpOp.rnRead (op : DpOp) (rn : Reg) : List Reg :=
  match op with
  | .mov | .mvn => []
  | .and | .eor | .sub | .rsb | .add | .adc | .sbc | .rsc | .orr | .bic => [rn]

/-- The logical operations (R180). -/
def DpOp.isLogical : DpOp → Bool
  | .and | .eor | .orr | .mov | .bic | .mvn => true
  | .sub | .rsb | .add | .adc | .sbc | .rsc => false

/-- A flag as a word. -/
def bitWord (c : Bool) : Word := (BitVec.ofBool c).setWidth 32

/-- The result as the table of R170 writes it, modulo 2^32: `x` is Op1, `y` is Op2, `c` the C flag. -/
def DpOp.value (op : DpOp) (x y : Word) (c : Bool) : Word :=
  match op with
  | .and => x &&& y | .eor => x ^^^ y | .orr => x ||| y | .mov => y | .bic => x &&& ~~~y | .mvn => ~~~y
  | .add => x + y | .adc => x + y + bitWord c
  | .sub => x - y | .sbc => x - y + bitWord c - 1
  | .rsb => y - x | .rsc => y - x + bitWord c - 1

/-- The C of the arithmetic operations in unsigned terms (R179): a carry of an addition, no borrow of a subtraction. -/
def DpOp.carryOut (op : DpOp) (x y : Word) (c : Bool) : Bool :=
  match op with
  | .add => decide (2 ^ 32 ≤ x.toNat + y.toNat)
  | .adc => decide (2 ^ 32 ≤ x.toNat + y.toNat + c.toNat)
  | .sub => decide (y.toNat ≤ x.toNat)
  | .sbc => decide (y.toNat + (!c).toNat ≤ x.toNat)
  | .rsb => decide (x.toNat ≤ y.toNat)
  | .rsc => decide (x.toNat + (!c).toNat ≤ y.toNat)
  | .and | .eor | .orr | .mov | .bic | .mvn => false

/-- The exact result of the arithmetic operations on operands read as signed (R179). -/
def DpOp.exact (op : DpOp) (x y : Word) (c : Bool) : Int :=
  match op with
  | .add => x.toInt + y.toInt
  | .adc => x.toInt + y.toInt + (c.toNat : Int)
  | .sub => x.toInt - y.toInt
  | .sbc => x.toInt - y.toInt + (c.toNat : Int) - 1
  | .rsb => y.toInt - x.toInt
  | .rsc => y.toInt - x.toInt + (c.toNat : Int) - 1
  | .and | .eor | .orr | .mov | .bic | .mvn => 0

/-- The flags written with S = 1 (R180, R181): `sc` is the shifter carry, `c` and `v` the flags before. -/
def DpOp.flags (op : DpOp) (x y : Word) (sc c v : Bool) : Flags :=
  { n := (op.value x y c).getLsbD 31
    z := decide (op.value x y c = 0)
    c := if op.isLogical then sc else op.carryOut x y c
    v := if op.isLogical then v else decide (op.exact x y c < -2 ^ 31 ∨ 2 ^ 31 ≤ op.exact x y c) }

/-- The result of the operation on the operands that an instruction names. -/
def State.dpValue (s : State) (op : DpOp) (rn : Reg) (o : Operand2) : Word :=
  op.value (s.reg rn) (s.operand2 o).1 s.cpsr.flags.c

/-- The flags of the operation on the operands that an instruction names. -/
def State.dpFlags (s : State) (op : DpOp) (rn : Reg) (o : Operand2) : Flags :=
  op.flags (s.reg rn) (s.operand2 o).1 (s.operand2 o).2 s.cpsr.flags.c s.cpsr.flags.v

/-! ## Transfers -/

/-- The operand combinations that a transfer may have (spec/45_single_data_transfer.md R269, spec/46 R297). -/
def transferAllowed (load narrow : Bool) (idx : Index) (rn rd : Reg) (rm : Option Reg) : Prop :=
  (idx ≠ .offset → rn ≠ .r15) ∧ rm ≠ some .r15 ∧ (narrow = true → rd ≠ .r15) ∧ (idx = .post → rm ≠ some rn)
  ∧ (load = true → idx ≠ .offset → rd ≠ rn)

/-- The registers that a transfer with this indexing writes back. -/
def writtenBase (idx : Index) (rn : Reg) : List Reg := if idx = .offset then [] else [rn]

/-- A load has completed: Rd holds `value`, the base is written back where the indexing says so, nothing else changes
(spec/45 R264, spec/46 R292). -/
def State.loaded (s t : State) (idx : Index) (up : Bool) (rn rd : Reg) (offset value : Word) : Prop :=
  t.reg rd = value ∧ (idx ≠ .offset → t.reg rn = if up then s.reg rn + offset else s.reg rn - offset)
  ∧ t.cpsr.flags = s.cpsr.flags ∧ s.goesOnTo t (rd :: writtenBase idx rn) ∧ s.keepsMemory t

/-- A store of `n` bytes at `a` has completed: the base is written back where the indexing says so, the Prefetch Unit has
taken what is returned with the store (spec/20_memory.md R97, log entry 20), and no other register, flag or byte changes. -/
def State.stored (s t : State) (idx : Index) (up : Bool) (rn : Reg) (offset : Word) (a n : Nat) : Prop :=
  s.storesOnly t a n ∧ (idx ≠ .offset → t.reg rn = if up then s.reg rn + offset else s.reg rn - offset)
  ∧ t.cpsr.flags = s.cpsr.flags ∧ (s.asked 1).goesOnTo t (writtenBase idx rn)

/-! ## Block transfers -/

/-- The n-th word of a block transfer in address order. -/
def State.blockAddress (s : State) (p up : Bool) (rn : Reg) (list : BitVec 16) (k : Nat) : Word :=
  blockStart p up (s.reg rn) (listRegs list).length + BitVec.ofNat 32 (4 * k)

/-- No access of the block transfer aborts. -/
def State.noBlockAbort (s : State) (kind : AccessKind) (p up : Bool) (rn : Reg) (list : BitVec 16) : Prop :=
  ∀ k, k < (listRegs list).length → s.abortsAt (s.access false kind .word false (s.blockAddress p up rn list k)) = false

/-! ## What an instruction writes and reads -/

/-- Whether an instruction writes the program counter when its condition passes (spec/10_state.md R31; SWI and the
traps do so by an exception). -/
def instrWritesPc : Instr → Bool
  | .b _ _ | .bl .. => true
  | .and _ _ rd _ _ | .eor _ _ rd _ _ | .sub _ _ rd _ _ | .rsb _ _ rd _ _ | .add _ _ rd _ _ | .adc _ _ rd _ _
  | .sbc _ _ rd _ _ | .rsc _ _ rd _ _ | .orr _ _ rd _ _ | .mov _ _ rd _ _ | .bic _ _ rd _ _ | .mvn _ _ rd _ _
  | .ldr _ _ _ _ rd _ | .ldrt _ _ _ rd _ => rd == .r15
  | .ldm _ _ _ _ _ _ list => inList list .r15
  | .tst .. | .teq .. | .cmp .. | .cmn .. | .tstp .. | .teqp .. | .cmpp .. | .cmnp .. | .mrs .. | .msr .. | .mul ..
  | .mla .. | .umull .. | .umlal .. | .smull .. | .smlal .. | .ldrb .. | .ldrbt .. | .str .. | .strb .. | .strt ..
  | .strbt .. | .ldrh .. | .ldrsh .. | .ldrsb .. | .strh .. | .stm .. | .swp .. | .swpb .. | .swi .. | .cdp .. | .ldc ..
  | .stc .. | .mrc .. | .mcr .. | .undefinedA .. | .undefinedB .. | .undefinedC .. | .undefinedD .. | .undefinedE ..
  | .reservedMrs .. | .reservedMsr .. | .reservedSwp .. | .reservedHreg .. => false

/-- The registers of the current mode's view that an instruction reads (spec/47_block_data_transfer.md R322; log entry
11). -/
def instrReads : Instr → List Reg
  | .and _ _ _ rn o | .eor _ _ _ rn o | .sub _ _ _ rn o | .rsb _ _ _ rn o | .add _ _ _ rn o | .adc _ _ _ rn o
  | .sbc _ _ _ rn o | .rsc _ _ _ rn o | .orr _ _ _ rn o | .bic _ _ _ rn o | .tst _ _ rn o | .teq _ _ rn o
  | .cmp _ _ rn o | .cmn _ _ rn o | .tstp _ rn o | .teqp _ rn o | .cmpp _ rn o | .cmnp _ rn o => rn :: operand2Reads o
  | .mov _ _ _ _ o | .mvn _ _ _ _ o => operand2Reads o
  | .msr _ _ _ src => msrReads src
  | .mul _ _ _ _ rs rm | .umull _ _ _ _ rs rm | .smull _ _ _ _ rs rm => [rm, rs]
  | .mla _ _ _ rn rs rm => [rm, rs, rn]
  | .umlal _ _ rdHi rdLo rs rm | .smlal _ _ rdHi rdLo rs rm => [rm, rs, rdHi, rdLo]
  | .ldr _ _ _ rn _ off | .ldrb _ _ _ rn _ off | .ldrt _ _ rn _ off | .ldrbt _ _ rn _ off =>
    rn :: (transferOffsetReg off).toList
  | .str _ _ _ rn rd off | .strb _ _ _ rn rd off | .strt _ _ rn rd off | .strbt _ _ rn rd off =>
    rd :: rn :: (transferOffsetReg off).toList
  | .ldrh _ _ _ rn _ off | .ldrsb _ _ _ rn _ off | .ldrsh _ _ _ rn _ off => rn :: (halfOffsetReg off).toList
  | .strh _ _ _ rn rd off => rd :: rn :: (halfOffsetReg off).toList
  | .ldm _ _ _ _ _ rn _ => [rn]
  | .stm _ _ _ _ _ rn list => rn :: listRegs list
  | .swp _ rn _ rm | .swpb _ rn _ rm => [rn, rm]
  | .mcr _ _ _ rd _ _ _ => [rd]
  | .mrs .. | .b _ _ | .bl .. | .swi .. | .cdp .. | .ldc .. | .stc .. | .mrc .. | .undefinedA .. | .undefinedB ..
  | .undefinedC .. | .undefinedD .. | .undefinedE .. | .reservedMrs .. | .reservedMsr .. | .reservedSwp ..
  | .reservedHreg .. => []

end Sys2Proof.Machine
end

