-- ==== Sys2Proof/Certificates/Slice0/Obligations.lean ====
section
/-! DEFINITION. The statements about the model, each after a rule of spec/. A free value (log entry 8) is left open in
every statement: none says what it is. -/

open Sys2Proof Sys2Proof.Machine

/-! ## Encoding -/

/-- Decoding the word of a well-formed instruction gives the instruction back (spec/30_encoding.md R112, R123 to R130). -/
def Obligations.DecodeEncode : Prop := ∀ i : Instr, i.wf = true → decode (encode i) = i

/-- Every word decodes to a well-formed instruction whose word it is: no bit is dropped, and the decoder is total
(spec/30_encoding.md R123). -/
def Obligations.EncodeDecode : Prop := ∀ w : Word, (decode w).wf = true ∧ encode (decode w) = w

/-- Words written out from the encodings of the spec decode to the instructions they stand for. -/
def Obligations.WordsDecodeAsWritten : Prop :=
  decode 0xE0910382#32 = .add .al true .r0 .r1 (.shiftImm .r2 .lsl 7)
  ∧ decode 0xE0010392#32 = .mul .al false .r1 .r0 .r3 .r2
  ∧ decode 0x00314392#32 = .mla .eq true .r1 .r4 .r3 .r2
  ∧ decode 0xE4F10001#32 = .ldrbt .al true .r1 .r0 (.imm 1)
  ∧ decode 0xE4A10004#32 = .strt .al true .r1 .r0 (.imm 4)
  ∧ decode 0xEAFFFFFE#32 = .b .al 0xFFFFFE#24
  ∧ decode 0xE10F0000#32 = .mrs .al false .r0
  ∧ decode 0xE129F000#32 = .msr .al false 9 (.reg .r0)
  ∧ decode 0xE8FD8000#32 = .ldm .al false true true true .r13 0x8000#16
  ∧ decode 0xE1010092#32 = .swp .al .r1 .r0 .r2
  ∧ decode 0xE330F000#32 = .teqp .al .r0 (.imm 0 0)
  ∧ decode 0xE7F000F0#32 = .undefinedA .al 0x7F000F0#28

/-! ## The machine -/

/-- A step is the platform's part of the boundary, then, where no line is asserted that can be taken, the instruction: the
one that the word presented by the Prefetch Unit decodes to, if it is not marked, or the one that busy-waits, without a
fetch. The word presented is taken out of the prefetch buffer, without a request, where its oldest word is that of the
program counter; else it is fetched, if the fetch does not abort; in a state that meets the invariant it is the word at
the program counter. Without fetches ahead the boundary leaves the buffer as it is, or empty where the Prefetch Unit was
starved (R92), also where PredictOn is switched (spec/70_reset_and_hazards.md R494); the prediction of a word is the one
made when it was fetched. The boundary changes no register and no status; in memory it changes only the bytes that
other agents write, the last write to a byte standing, and the device bytes that an access reached. The fetch and the
word shown to the coprocessors (CInstruct and CPrivileged, or that it is no coprocessor instruction) change neither. -/
def Obligations.StepRunsDecoded : Prop :=
  ∀ s : State,
    let b := s.beginStep
    (b.regs = s.regs ∧ b.pc = s.pc ∧ b.cpsr = s.cpsr ∧ b.spsrs = s.spsrs ∧ b.pending = s.pending
      ∧ b.userLdm = s.userLdm ∧ b.busyWait = s.busyWait ∧ b.cfg = s.cfg ∧ b.lines = s.lines.tail
      ∧ b.coproc = s.platformStep.coproc.getD s.coproc
      ∧ b.aborts = s.platformStep.aborts.getD s.aborts
      ∧ b.platform.buffers = s.platformStep.buffers.getD s.platform.buffers
      ∧ b.platform.double = s.platformStep.double.getD s.platform.double
      ∧ b.platform.predictOn = s.platformStep.predictOn.getD s.platform.predictOn)
    ∧ (s.platformStep.writes = [] → s.platform.devices = [] → b.mem = s.mem ∧ b.marks = s.marks)
    ∧ (s.canonical → ∀ x, (∀ c ∈ s.platformStep.writes, c.1 % 2 ^ 32 ≠ x) →
        (∀ d ∈ s.platform.devices, d.addr % 2 ^ 32 ≠ x) → Memory.read b.mem x = Memory.read s.mem x)
    ∧ (s.canonical → ∀ before c after, s.platformStep.writes = before ++ c :: after →
        (∀ d ∈ after, d.1 % 2 ^ 32 ≠ c.1 % 2 ^ 32) → Memory.read b.mem (c.1 % 2 ^ 32) = c.2)
    ∧ (s.canonical → ∀ a v rest x, s.platform.devices = [{ addr := x, shows := v :: rest }] → x < 2 ^ 32 →
        s.platformStep.writes = [] → s.outputs = [.access a] →
        (a.touches x = true → Memory.read b.mem x = v ∧ b.platform.devices = [{ addr := x, shows := rest }])
        ∧ (a.touches x = false →
          Memory.read b.mem x = Memory.read s.mem x ∧ b.platform.devices = s.platform.devices))
    ∧ (s.levels.reset = false → (s.levels.fiq && !s.cpsr.f) = false → (s.levels.irq && !s.cpsr.i) = false →
      (b.waiting = none → b.modified = false → b.mixedWidth = false → ∀ w, b.presented = some w →
        let t := b.requestFetch.issue (decode w) w
        step s = exec (decode w) t ∧ t.regs = s.regs ∧ t.pc = s.pc ∧ t.cpsr = s.cpsr ∧ t.spsrs = s.spsrs
          ∧ t.mem = b.mem ∧ t.marks = b.marks ∧ t.coproc = b.coproc ∧ t.pending = s.pending ∧ t.aborts = b.aborts
          ∧ t.cfg = s.cfg
          ∧ t.fetchUnit.prediction = b.requestFetch.fetchUnit.prediction
          ∧ .cpInstruct (if isCoprocessor w then some (w.extractLsb' 0 26) else none) s.cpsr.mode.privileged
              ∈ t.outputs)
      ∧ (∀ w, b.waiting = some w → step s = exec (decode w) b))
    ∧ (s.platformStep.ahead = [] →
        b.fetchUnit = if s.platformStep.starved then s.fetchUnit.flushed else s.fetchUnit)
    ∧ (b.buffered = none → (b.presented = if b.abortsAt b.fetchAccess then none else some (b.loadWord s.pc))
        ∧ b.requestFetch.fetchUnit.prediction = b.predict b.presented)
    ∧ (∀ e, b.buffered = some e →
        b.presented = e.word ∧ b.requestFetch.outputs = b.outputs
        ∧ b.requestFetch.fetchUnit.prediction = e.prediction
        ∧ b.fetchUnit.buffer = e :: b.requestFetch.fetchUnit.buffer)
    ∧ (s.inv → b.modified = false → ∀ w, b.presented = some w → w = b.loadWord s.pc)

/-- From every state that meets the invariant, a step that goes on gives a state that meets it: the program counter is a
multiple of 4 and below 2^26 in a 26-bit mode, memory keeps its canonical form, and every word of the prefetch buffer is
the word in memory, but for aborted fetches and words written since the last IMB (R89, R90). -/
def Obligations.StepKeepsInvariant : Prop := ∀ s t : State, s.inv → step s = .next t → t.inv

/-- The state after reset has the values that the spec states (spec/70_reset_and_hazards.md R481) and meets the
invariant. -/
def Obligations.ResetState : Prop :=
  State.reset.pc = 0 ∧ State.reset.cpsr.mode.bits = 0b10011#5 ∧ State.reset.cpsr.i = true
  ∧ State.reset.cpsr.f = true ∧ State.reset.inv

/-- The reset line, seen at a step boundary, abandons everything: Supervisor mode, I and F set, the program counter 0,
the marks cleared, the Prefetch Unit empty, memory as the boundary leaves it; registers, flags and SPSRs are left open. -/
def Obligations.ResetLine : Prop :=
  ∀ s : State, s.levels.reset = true →
    ∃ t, step s = .next t ∧ t.pc = 0 ∧ t.cpsr.mode = .svc ∧ t.cpsr.i = true ∧ t.cpsr.f = true
      ∧ t.mem = s.beginStep.mem ∧ t.marks = [] ∧ t.ran26 = [] ∧ t.ran32 = [] ∧ t.busyWait = false
      ∧ t.userLdm = false ∧ t.fetchUnit = FetchUnit.empty ∧ t.lines = s.lines.tail ∧ t.cfg = s.cfg
      ∧ t.aborts = s.beginStep.aborts ∧ t.platform = s.beginStep.platform ∧ t.coproc = s.beginStep.coproc

/-- An enabled FIQ is taken before an IRQ, an enabled IRQ before the instruction, and the abort of its fetch in
place of it, also where it was fetched ahead (the mark that the Prefetch Unit presents): each enters its mode with
return address A + 4, and memory and the coprocessors are as the step boundary leaves them; an interrupt ends a
busy-wait without an effect on them. -/
def Obligations.InterruptAndPrefetchAbort : Prop :=
  ∀ s : State, s.levels.reset = false →
    let b := s.beginStep
    (s.levels.fiq = true → s.cpsr.f = false →
      ∃ t, step s = .next t ∧ s.hasTaken t .fiq (s.pc + 4) ∧ b.keepsMemory t ∧ t.busyWait = false ∧ t.coproc = b.coproc)
    ∧ ((s.levels.fiq && !s.cpsr.f) = false → s.levels.irq = true → s.cpsr.i = false →
      ∃ t, step s = .next t ∧ s.hasTaken t .irq (s.pc + 4) ∧ b.keepsMemory t ∧ t.busyWait = false ∧ t.coproc = b.coproc)
    ∧ ((s.levels.fiq && !s.cpsr.f) = false → (s.levels.irq && !s.cpsr.i) = false → b.waiting = none →
      b.presented = none →
      ∃ t, step s = .next t ∧ s.hasTaken t .prefetchAbort (s.pc + 4) ∧ b.keepsMemory t ∧ t.coproc = b.coproc)

/-- A word with a byte written since the last IMB is not run: the step stops (R89), as it does on a word that was run in
a mode of the other width (R406). Both clauses are the model's reading: that the step stops before the condition is
tested, so on a cancelled instruction too (R152; log entries 9 and 10), and that the second goes word by word (log
entry 10). -/
def Obligations.UnsafeCodeStops : Prop :=
  ∀ s : State, s.levels.reset = false → (s.levels.fiq && !s.cpsr.f) = false → (s.levels.irq && !s.cpsr.i) = false →
    let b := s.beginStep
    b.waiting = none → b.presented ≠ none →
    ((∃ a ∈ b.marks, (alignWord s.pc).toNat ≤ a ∧ a < (alignWord s.pc).toNat + 4) →
      step s = .fault .modifiedCode)
    ∧ ((∀ a ∈ b.marks, a < (alignWord s.pc).toNat ∨ (alignWord s.pc).toNat + 4 ≤ a) →
      s.pc.toNat ∈ (if s.cpsr.mode.is26 then s.ran32 else s.ran26) → step s = .fault .mixedWidthCode)

/-! ## Conditions -/

/-- An instruction whose condition fails goes on at A + 4 and changes nothing else; the reserved condition 1111 stops,
which is the model's choice (log entry 12). Every instruction. -/
def Obligations.ConditionGate : Prop :=
  ∀ (i : Instr) (s : State),
    (i.cond ≠ .nv → condPassed s.cpsr.flags i.cond = false → s.canAdvance →
      ∃ t, exec i s = .next t ∧ s.goesOnTo t [] ∧ s.keepsMemory t ∧ t.cpsr.flags = s.cpsr.flags
        ∧ t.outputs = s.outputs ∧ t.freeCount = s.freeCount)
    ∧ (i.cond = .nv → exec i s = .fault .condReserved)

/-- Straight after a user-bank LDM, an instruction that passes its condition and reads a register that is banked for the
current mode stops. That it stops, and the instructions' reading sets, are the model's choice (log entries 12 and 11). -/
def Obligations.UserBankHazard : Prop :=
  ∀ (i : Instr) (s : State), i.cond ≠ .nv → condPassed s.cpsr.flags i.cond = true → s.userLdm = true →
    (∃ r ∈ instrReads i, s.cpsr.mode.bankedReg r = true) → exec i s = .fault .userBankHazard

/-- After CMP the conditions read as the table of R150 says: unsigned and signed order of Op1 and Op2. -/
def Obligations.CompareThenCondition : Prop :=
  ∀ (s : State) (c : Cond) (rd rn : Reg) (o : Operand2), s.ready c (rn :: operand2Reads o) →
    r15InRegisterShift [rn] o = false → rd ≠ .r15 → s.canAdvance →
    ∃ t, exec (.cmp c rd rn o) s = .next t
      ∧ (let x := s.reg rn
         let y := (s.operand2 o).1
         (condPassed t.cpsr.flags .eq = true ↔ x = y) ∧ (condPassed t.cpsr.flags .ne = true ↔ x ≠ y)
         ∧ (condPassed t.cpsr.flags .cs = true ↔ y.toNat ≤ x.toNat)
         ∧ (condPassed t.cpsr.flags .cc = true ↔ x.toNat < y.toNat)
         ∧ (condPassed t.cpsr.flags .hi = true ↔ y.toNat < x.toNat)
         ∧ (condPassed t.cpsr.flags .ls = true ↔ x.toNat ≤ y.toNat)
         ∧ (condPassed t.cpsr.flags .ge = true ↔ y.toInt ≤ x.toInt)
         ∧ (condPassed t.cpsr.flags .lt = true ↔ x.toInt < y.toInt)
         ∧ (condPassed t.cpsr.flags .gt = true ↔ y.toInt < x.toInt)
         ∧ (condPassed t.cpsr.flags .le = true ↔ x.toInt ≤ y.toInt))

/-! ## Branches -/

/-- B and BL go to A + 8 plus four times the signed offset (modulo the address space of the mode); BL leaves A + 4 in
R14, in a 26-bit mode what R405 gives for the configuration; the Prefetch Unit is flushed unless it predicted the branch
as taken (R92); nothing else changes. The prediction is the one made when the word was fetched (the model's choice, log
entry 36), by the scheme of R94: with PredictOn HIGH, taken where the condition is always or a B goes backward, not taken
for another B, none for a BL under a condition; with PredictOn LOW, none. -/
def Obligations.BranchResult : Prop :=
  ∀ (s : State) (c : Cond) (offset : BitVec 24), s.ready c [] →
    let target := BitVec.ofInt 32 ((s.pc.toNat : Int) + 8 + 4 * offset.toInt)
    let kept := if s.fetchUnit.prediction = .taken then s.fetchUnit else s.fetchUnit.flushed
    (∃ t, exec (.b c offset) s = .next t ∧ s.goesTo t [] target ∧ s.keepsMemory t ∧ t.cpsr.flags = s.cpsr.flags
        ∧ t.fetchUnit = kept)
    ∧ (∃ t, exec (.bl c offset) s = .next t ∧ s.goesTo t [.r14] target ∧ s.keepsMemory t
        ∧ t.cpsr.flags = s.cpsr.flags ∧ t.reg .r14 = s.pcWithPsr 4
        ∧ (s.cpsr.mode.is26 = false → t.reg .r14 = s.pc + 4) ∧ t.fetchUnit = kept)
    ∧ (∀ a, ∀ e ∈ s.fetchAnswer a, e.prediction = s.predict e.word)
    ∧ s.predict (some (encode (.b c offset)))
        = (if s.platform.predictOn then if c = .al ∨ offset.getLsbD 23 = true then .taken else .notTaken
          else .notPredicted)
    ∧ s.predict (some (encode (.bl c offset)))
        = (if s.platform.predictOn = true ∧ c = .al then .taken else .notPredicted)

/-! ## Data processing -/

/-- Operand 2 by a register-specified amount: the shifts as multiplication, division and rotation of the value, with the
carry, for every amount 0 to 255; and as an 8-bit immediate rotated right. -/
def Obligations.ShifterByRegister : Prop :=
  ∀ (s : State) (rm rs : Reg),
    let m := s.regM rm
    let n := ((s.reg rs).extractLsb' 0 8).toNat
    (s.operand2 (.shiftReg rm .lsl rs)).1.toNat = m.toNat * 2 ^ n % 2 ^ 32
    ∧ (s.operand2 (.shiftReg rm .lsr rs)).1.toNat = m.toNat / 2 ^ n
    ∧ (s.operand2 (.shiftReg rm .asr rs)).1.toInt = m.toInt / 2 ^ n
    ∧ (∀ k, k < 32 → (s.operand2 (.shiftReg rm .ror rs)).1.getLsbD k = m.getLsbD ((k + n) % 32))
    ∧ (n = 0 → ∀ ty, (s.operand2 (.shiftReg rm ty rs)).2 = s.cpsr.flags.c)
    ∧ (n ≠ 0 →
        (s.operand2 (.shiftReg rm .lsl rs)).2 = (m.toNat * 2 ^ n).testBit 32
        ∧ (s.operand2 (.shiftReg rm .lsr rs)).2 = m.getLsbD (n - 1)
        ∧ (s.operand2 (.shiftReg rm .asr rs)).2 = m.getLsbD (min n 32 - 1)
        ∧ (s.operand2 (.shiftReg rm .ror rs)).2 = m.getLsbD ((n - 1) % 32))

/-- Operand 2 by an immediate amount: 1 to 31 as by a register; 0 means LSL #0, LSR #32, ASR #32 and RRX. And the
8-bit immediate rotated right by twice the rotate field, with the carry out of bit 31 unless the field is 0. -/
def Obligations.ShifterByImmediate : Prop :=
  ∀ (s : State) (rm : Reg) (amount : BitVec 5) (rotate : BitVec 4) (imm8 : BitVec 8),
    let m := s.regM rm
    let n := amount.toNat
    (s.operand2 (.shiftImm rm .lsl amount)).1.toNat = m.toNat * 2 ^ n % 2 ^ 32
    ∧ (s.operand2 (.shiftImm rm .lsl 0)).2 = s.cpsr.flags.c
    ∧ (n ≠ 0 →
        (s.operand2 (.shiftImm rm .lsr amount)).1.toNat = m.toNat / 2 ^ n
        ∧ (s.operand2 (.shiftImm rm .asr amount)).1.toInt = m.toInt / 2 ^ n
        ∧ (∀ k, k < 32 → (s.operand2 (.shiftImm rm .ror amount)).1.getLsbD k = m.getLsbD ((k + n) % 32))
        ∧ (s.operand2 (.shiftImm rm .lsl amount)).2 = m.getLsbD (32 - n)
        ∧ (s.operand2 (.shiftImm rm .lsr amount)).2 = m.getLsbD (n - 1)
        ∧ (s.operand2 (.shiftImm rm .asr amount)).2 = m.getLsbD (n - 1)
        ∧ (s.operand2 (.shiftImm rm .ror amount)).2 = m.getLsbD (n - 1))
    ∧ s.operand2 (.shiftImm rm .lsr 0) = (0, m.getLsbD 31)
    ∧ s.operand2 (.shiftImm rm .asr 0) = (if m.getLsbD 31 then 0xFFFFFFFF#32 else 0, m.getLsbD 31)
    ∧ (s.operand2 (.shiftImm rm .ror 0)).2 = m.getLsbD 0
    ∧ (∀ k, k < 32 → (s.operand2 (.shiftImm rm .ror 0)).1.getLsbD k
        = if k = 31 then s.cpsr.flags.c else m.getLsbD (k + 1))
    ∧ (∀ k, k < 32 → (s.operand2 (.imm rotate imm8)).1.getLsbD k = imm8.getLsbD ((k + 2 * rotate.toNat) % 32))
    ∧ (s.operand2 (.imm rotate imm8)).2
        = (if rotate = 0 then s.cpsr.flags.c else (s.operand2 (.imm rotate imm8)).1.getLsbD 31)

/-- The twelve instructions that write a result, to R0 to R14: the result of R170 modulo 2^32, and with S = 1 the flags.
Logical: C from the shifter, V kept. Arithmetic: C is the carry of an addition or the absence of a borrow, V says that
the exact signed result does not fit. C and V of SBC and RSC with C = 0 are general knowledge (log entry 24). -/
def Obligations.DataProcessingResult : Prop :=
  ∀ (op : DpOp) (s : State) (c : Cond) (f : Bool) (rd rn : Reg) (o : Operand2),
    s.ready c (op.rnRead rn ++ operand2Reads o) → r15InRegisterShift (op.rnRead rn) o = false → rd ≠ .r15 →
    s.canAdvance →
    ∃ t, exec (op.instr c f rd rn o) s = .next t ∧ t.reg rd = s.dpValue op rn o
      ∧ t.cpsr.flags = (if f then s.dpFlags op rn o else s.cpsr.flags) ∧ s.goesOnTo t [rd] ∧ s.keepsMemory t

/-- TST, TEQ, CMP and CMN write the flags of AND, EOR, SUB and ADD and nothing else. -/
def Obligations.TestResult : Prop :=
  ∀ (s : State) (c : Cond) (rd rn : Reg) (o : Operand2), s.ready c (rn :: operand2Reads o) →
    r15InRegisterShift [rn] o = false → rd ≠ .r15 → s.canAdvance →
    ∀ p ∈ [(Instr.tst c rd rn o, DpOp.and), (.teq c rd rn o, .eor), (.cmp c rd rn o, .sub), (.cmn c rd rn o, .add)],
      ∃ t, exec p.1 s = .next t ∧ t.cpsr.flags = s.dpFlags p.2 rn o ∧ s.goesOnTo t [] ∧ s.keepsMemory t

/-- The twelve instructions with Rd = R15 and S = 0: the result goes to the program counter, the flags stay,
and the Prefetch Unit is flushed. -/
def Obligations.ResultToPc : Prop :=
  ∀ (op : DpOp) (s : State) (c : Cond) (rn : Reg) (o : Operand2),
    s.ready c (op.rnRead rn ++ operand2Reads o) → r15InRegisterShift (op.rnRead rn) o = false →
    ∃ t, exec (op.instr c false .r15 rn o) s = .next t ∧ s.goesTo t [] (s.dpValue op rn o) ∧ s.keepsMemory t
      ∧ t.cpsr.flags = s.cpsr.flags ∧ t.fetchUnit = s.fetchUnit.flushed

/-- The twelve instructions with Rd = R15 and S = 1 in a 32-bit mode with an SPSR that names a mode: the result goes to
the program counter and the whole SPSR to the CPSR. A 26-bit mode is entered from and to addresses below 2^26 (the
second is the model's reading, log entry 13). The flush of R92 is left unsaid here. -/
def Obligations.ReturnFromException : Prop :=
  ∀ (op : DpOp) (s : State) (c : Cond) (rn : Reg) (o : Operand2) (n : SpsrName) (m : Mode),
    s.ready c (op.rnRead rn ++ operand2Reads o) → r15InRegisterShift (op.rnRead rn) o = false →
    s.cpsr.mode.is26 = false → s.cpsr.mode.spsr = some n → (s.spsrs.get n).m = m.bits →
    (m.is26 = true → s.pc.toNat < 2 ^ 26 ∧ (s.dpValue op rn o).toNat < 2 ^ 26) →
    ∃ t, exec (op.instr c true .r15 rn o) s = .next t ∧ t.cpsr.toPsr = s.spsrs.get n
      ∧ t.pc = s.dpValue op rn o &&& m.pcMask ∧ t.regs = s.regs ∧ s.keepsSystem t ∧ s.keepsMemory t

/-- The twelve instructions with Rd = R15 and S = 1 in a 26-bit mode: the flags come from the result, in a privileged
mode I, F, M1 and M0 too, and the PC from its bits 25 to 2; no SPSR is read. -/
def Obligations.ResultToPcPsr26 : Prop :=
  ∀ (op : DpOp) (s : State) (c : Cond) (rn : Reg) (o : Operand2),
    s.ready c (op.rnRead rn ++ operand2Reads o) → r15InRegisterShift (op.rnRead rn) o = false →
    s.cpsr.mode.is26 = true →
    let v := s.dpValue op rn o
    ∃ t, exec (op.instr c true .r15 rn o) s = .next t ∧ t.pc = v &&& 0x03FFFFFC#32
      ∧ t.cpsr.flags = { n := v.getLsbD 31, z := v.getLsbD 30, c := v.getLsbD 29, v := v.getLsbD 28 }
      ∧ (s.cpsr.mode.privileged = true →
          t.cpsr.i = v.getLsbD 27 ∧ t.cpsr.f = v.getLsbD 26 ∧ t.cpsr.mode.bits = 0b000#3 ++ v.extractLsb' 0 2)
      ∧ (s.cpsr.mode.privileged = false → s.keepsControl t)
      ∧ t.regs = s.regs ∧ s.keepsSystem t ∧ s.keepsMemory t

/-- TSTP, TEQP, CMPP and CMNP in a 26-bit mode write the result's bits 31 to 28 to the flags and, in a privileged mode,
bits 27, 26, 1 and 0 to I, F, M1 and M0; in a 32-bit mode they stop, which is the model's choice (log entry 12). -/
def Obligations.PFormResult : Prop :=
  ∀ (s : State) (c : Cond) (rn : Reg) (o : Operand2), s.ready c (rn :: operand2Reads o) →
    ∀ p ∈ [(Instr.tstp c rn o, DpOp.and), (.teqp c rn o, .eor), (.cmpp c rn o, .sub), (.cmnp c rn o, .add)],
      (s.cpsr.mode.is26 = true → r15InRegisterShift [rn] o = false → s.canAdvance →
        let v := s.dpValue p.2 rn o
        ∃ t, exec p.1 s = .next t ∧ t.pc = s.pc + 4
          ∧ t.cpsr.flags = { n := v.getLsbD 31, z := v.getLsbD 30, c := v.getLsbD 29, v := v.getLsbD 28 }
          ∧ (s.cpsr.mode.privileged = true →
              t.cpsr.i = v.getLsbD 27 ∧ t.cpsr.f = v.getLsbD 26 ∧ t.cpsr.mode.bits = 0b000#3 ++ v.extractLsb' 0 2)
          ∧ (s.cpsr.mode.privileged = false → s.keepsControl t)
          ∧ t.regs = s.regs ∧ s.keepsSystem t ∧ s.keepsMemory t)
      ∧ (s.cpsr.mode.is26 = false → exec p.1 s = .fault .pFormIn32Bit)

/-- R15 in an instruction with a register-specified shift stops: the twelve that write a result, the four tests, and in a
26-bit mode the P forms. So does a return from a mode without SPSR, one whose SPSR names no mode, and one that enters a
26-bit mode from or to an address above 2^26 (the second is the model's reading, log entry 13). That each of these stops
is the model's choice (log entry 12). -/
def Obligations.DataProcessingStops : Prop :=
  ∀ (op : DpOp) (s : State) (c : Cond) (f : Bool) (rd rn : Reg) (o : Operand2),
    (s.ready c (op.rnRead rn ++ operand2Reads o) →
      ((∃ rm ty rs, o = .shiftReg rm ty rs ∧ (rm = .r15 ∨ rs = .r15 ∨ .r15 ∈ op.rnRead rn)) →
        exec (op.instr c f rd rn o) s = .fault .r15RegisterShift)
      ∧ (r15InRegisterShift (op.rnRead rn) o = false → s.cpsr.mode = .usr ∨ s.cpsr.mode = .sys →
        exec (op.instr c true .r15 rn o) s = .fault .noSpsr)
      ∧ (∀ n, r15InRegisterShift (op.rnRead rn) o = false → s.cpsr.mode.is26 = false → s.cpsr.mode.spsr = some n →
        ((∀ m : Mode, m.bits ≠ (s.spsrs.get n).m) → exec (op.instr c true .r15 rn o) s = .fault .invalidMode)
        ∧ (∀ m : Mode, m.bits = (s.spsrs.get n).m → m.is26 = true →
          2 ^ 26 ≤ s.pc.toNat ∨ 2 ^ 26 ≤ (s.dpValue op rn o).toNat →
          exec (op.instr c true .r15 rn o) s = .fault .enter26Outside)))
    ∧ (s.ready c (rn :: operand2Reads o) →
      (∃ rm ty rs, o = .shiftReg rm ty rs ∧ (rm = .r15 ∨ rs = .r15 ∨ rn = .r15)) →
      (∀ i ∈ [Instr.tst c rd rn o, .teq c rd rn o, .cmp c rd rn o, .cmn c rd rn o],
        exec i s = .fault .r15RegisterShift)
      ∧ (s.cpsr.mode.is26 = true →
        ∀ i ∈ [Instr.tstp c rn o, .teqp c rn o, .cmpp c rn o, .cmnp c rn o], exec i s = .fault .r15RegisterShift))

/-! ## The status registers -/

/-- MRS: Rd receives the defined bits of the CPSR, or of the SPSR of the current mode; its reserved bits are open. -/
def Obligations.MrsResult : Prop :=
  ∀ (s : State) (c : Cond) (spsr : Bool) (rd : Reg) (p : Psr), s.ready c [] → rd ≠ .r15 → s.canAdvance →
    ((spsr = false ∧ p = s.cpsr.toPsr) ∨ (spsr = true ∧ ∃ n, s.cpsr.mode.spsr = some n ∧ p = s.spsrs.get n)) →
    ∃ t, exec (.mrs c spsr rd) s = .next t
      ∧ (t.reg rd).getLsbD 31 = p.flags.n ∧ (t.reg rd).getLsbD 30 = p.flags.z ∧ (t.reg rd).getLsbD 29 = p.flags.c
      ∧ (t.reg rd).getLsbD 28 = p.flags.v ∧ (t.reg rd).getLsbD 7 = p.i ∧ (t.reg rd).getLsbD 6 = p.f
      ∧ (t.reg rd).extractLsb' 0 5 = p.m
      ∧ t.cpsr.flags = s.cpsr.flags ∧ s.goesOnTo t [rd] ∧ s.keepsMemory t

/-- MSR to the CPSR in a privileged mode: the flags field writes N, Z, C and V, the control field I, F and the mode;
fields not selected stay. -/
def Obligations.MsrCpsrResult : Prop :=
  ∀ (s : State) (c : Cond) (mask : BitVec 4) (src : MsrSource) (m : Mode), s.ready c (msrReads src) →
    src ≠ .reg .r15 → s.cpsr.mode.privileged = true → s.canAdvance →
    (if mask.getLsbD 0 then (s.msrValue src).extractLsb' 0 5 = m.bits ∧ (m.is26 = true → s.pc.toNat < 0x03FFFFFC)
      else m = s.cpsr.mode) →
    ∃ t, exec (.msr c false mask src) s = .next t ∧ t.pc = s.pc + 4 ∧ t.cpsr.mode = m
      ∧ t.cpsr.i = (if mask.getLsbD 0 then (s.msrValue src).getLsbD 7 else s.cpsr.i)
      ∧ t.cpsr.f = (if mask.getLsbD 0 then (s.msrValue src).getLsbD 6 else s.cpsr.f)
      ∧ t.cpsr.flags = (if mask.getLsbD 3 then Flags.ofWord (s.msrValue src) else s.cpsr.flags)
      ∧ t.regs = s.regs ∧ s.keepsSystem t ∧ s.keepsMemory t

/-- MSR to the CPSR in User mode writes the flags field only. -/
def Obligations.MsrUserResult : Prop :=
  ∀ (s : State) (c : Cond) (mask : BitVec 4) (src : MsrSource), s.ready c (msrReads src) → src ≠ .reg .r15 →
    s.cpsr.mode.privileged = false → s.canAdvance →
    ∃ t, exec (.msr c false mask src) s = .next t
      ∧ t.cpsr.flags = (if mask.getLsbD 3 then Flags.ofWord (s.msrValue src) else s.cpsr.flags)
      ∧ s.goesOnTo t [] ∧ s.keepsMemory t

/-- MSR to the SPSR of the current mode writes the selected fields of that SPSR and nothing else; any mode bits may be
written. -/
def Obligations.MsrSpsrResult : Prop :=
  ∀ (s : State) (c : Cond) (mask : BitVec 4) (src : MsrSource) (n : SpsrName), s.ready c (msrReads src) →
    src ≠ .reg .r15 → s.cpsr.mode.spsr = some n → s.canAdvance →
    ∃ t, exec (.msr c true mask src) s = .next t ∧ t.pc = s.pc + 4 ∧ t.cpsr = s.cpsr ∧ t.regs = s.regs
      ∧ (t.spsrs.get n).flags = (if mask.getLsbD 3 then Flags.ofWord (s.msrValue src) else (s.spsrs.get n).flags)
      ∧ (t.spsrs.get n).i = (if mask.getLsbD 0 then (s.msrValue src).getLsbD 7 else (s.spsrs.get n).i)
      ∧ (t.spsrs.get n).f = (if mask.getLsbD 0 then (s.msrValue src).getLsbD 6 else (s.spsrs.get n).f)
      ∧ (t.spsrs.get n).m = (if mask.getLsbD 0 then (s.msrValue src).extractLsb' 0 5 else (s.spsrs.get n).m)
      ∧ (∀ k, k ≠ n → t.spsrs.get k = s.spsrs.get k) ∧ s.keepsPlatform t ∧ s.keepsMemory t

/-- MRS and MSR stop on R15, on an SPSR that the mode does not have, on a mode number outside the eleven, and MSR on
entering a 26-bit mode at an address above 2^26: the model's choice for what is UNPREDICTABLE (log entry 12). -/
def Obligations.PsrTransferStops : Prop :=
  ∀ (s : State) (c : Cond) (spsr : Bool) (rd : Reg) (mask : BitVec 4) (src : MsrSource),
    (s.ready c [] → exec (.mrs c spsr .r15) s = .fault .mrsR15)
    ∧ (s.ready c [.r15] → exec (.msr c spsr mask (.reg .r15)) s = .fault .msrR15)
    ∧ (s.ready c [] → rd ≠ .r15 → s.cpsr.mode.spsr = none → exec (.mrs c true rd) s = .fault .noSpsr)
    ∧ (s.ready c (msrReads src) → src ≠ .reg .r15 → s.cpsr.mode.spsr = none →
        exec (.msr c true mask src) s = .fault .noSpsr)
    ∧ (s.ready c (msrReads src) → src ≠ .reg .r15 → s.cpsr.mode.privileged = true → mask.getLsbD 0 = true →
        ((∀ m : Mode, m.bits ≠ (s.msrValue src).extractLsb' 0 5) →
          exec (.msr c false mask src) s = .fault .invalidMode)
        ∧ (∀ m : Mode, m.bits = (s.msrValue src).extractLsb' 0 5 → m.is26 = true → 2 ^ 26 ≤ s.pc.toNat →
          exec (.msr c false mask src) s = .fault .enter26Outside))

/-! ## Multiplies -/

/-- MUL and MLA: the low 32 bits of the product (and sum); with S = 1, N and Z from the result, V kept, C open. -/
def Obligations.MultiplyResult : Prop :=
  ∀ (s : State) (c : Cond) (f : Bool) (rd rn rs rm : Reg), rd ≠ .r15 → rn ≠ .r15 → rs ≠ .r15 → rm ≠ .r15 →
    rd ≠ rm → s.canAdvance →
    ∀ p ∈ [(Instr.mul c f rd rn rs rm, [rm, rs], (s.reg rm).toNat * (s.reg rs).toNat),
           (.mla c f rd rn rs rm, [rm, rs, rn], (s.reg rm).toNat * (s.reg rs).toNat + (s.reg rn).toNat)],
      s.ready c p.2.1 →
      ∃ t, exec p.1 s = .next t ∧ (t.reg rd).toNat = p.2.2 % 2 ^ 32 ∧ s.goesOnTo t [rd] ∧ s.keepsMemory t
        ∧ (f = false → t.cpsr.flags = s.cpsr.flags)
        ∧ (f = true → t.cpsr.flags.n = (t.reg rd).getLsbD 31 ∧ t.cpsr.flags.z = decide (t.reg rd = 0)
            ∧ t.cpsr.flags.v = s.cpsr.flags.v)

/-- UMULL, UMLAL, SMULL and SMLAL: RdHi and RdLo receive the exact 64-bit product, unsigned or signed, with the
accumulation modulo 2^64; with S = 1, N and Z from the 64-bit result, C and V open. -/
def Obligations.LongMultiplyResult : Prop :=
  ∀ (s : State) (c : Cond) (f : Bool) (rdHi rdLo rs rm : Reg), rdHi ≠ .r15 → rdLo ≠ .r15 → rs ≠ .r15 → rm ≠ .r15 →
    rdHi ≠ rdLo → rdHi ≠ rm → rdLo ≠ rm → s.canAdvance →
    let acc : Int := ((s.reg rdHi ++ s.reg rdLo : BitVec 64).toNat : Int)
    let u : Int := (s.reg rm).toNat * (s.reg rs).toNat
    let g : Int := (s.reg rm).toInt * (s.reg rs).toInt
    ∀ p ∈ [(Instr.umull c f rdHi rdLo rs rm, [rm, rs], u), (.umlal c f rdHi rdLo rs rm, [rm, rs, rdHi, rdLo], u + acc),
           (.smull c f rdHi rdLo rs rm, [rm, rs], g), (.smlal c f rdHi rdLo rs rm, [rm, rs, rdHi, rdLo], g + acc)],
      s.ready c p.2.1 →
      ∃ t, exec p.1 s = .next t ∧ (t.reg rdHi ++ t.reg rdLo : BitVec 64) = BitVec.ofInt 64 p.2.2
        ∧ s.goesOnTo t [rdHi, rdLo] ∧ s.keepsMemory t
        ∧ (f = false → t.cpsr.flags = s.cpsr.flags)
        ∧ (f = true → t.cpsr.flags.n = (t.reg rdHi).getLsbD 31
            ∧ t.cpsr.flags.z = decide (t.reg rdHi = 0 ∧ t.reg rdLo = 0))

/-- The multiplies stop on R15 in any register field, on Rd = Rm, and on long results that overlap each other or Rm:
the model's choice for what is UNPREDICTABLE (log entry 12). -/
def Obligations.MultiplyStops : Prop :=
  ∀ (s : State) (c : Cond) (f : Bool) (x y rs rm : Reg),
    (s.ready c [rm, rs] →
      (x = .r15 ∨ y = .r15 ∨ rs = .r15 ∨ rm = .r15 →
        exec (.mul c f x y rs rm) s = .fault .mulR15 ∧ exec (.umull c f x y rs rm) s = .fault .mullR15
        ∧ exec (.smull c f x y rs rm) s = .fault .mullR15)
      ∧ (x ≠ .r15 → y ≠ .r15 → rs ≠ .r15 → rm ≠ .r15 → x = rm → exec (.mul c f x y rs rm) s = .fault .mulRdRm)
      ∧ (x ≠ .r15 → y ≠ .r15 → rs ≠ .r15 → rm ≠ .r15 → x = y ∨ x = rm ∨ y = rm →
        exec (.umull c f x y rs rm) s = .fault .mullOverlap ∧ exec (.smull c f x y rs rm) s = .fault .mullOverlap))
    ∧ (s.ready c [rm, rs, y] →
      (x = .r15 ∨ y = .r15 ∨ rs = .r15 ∨ rm = .r15 → exec (.mla c f x y rs rm) s = .fault .mulR15)
      ∧ (x ≠ .r15 → y ≠ .r15 → rs ≠ .r15 → rm ≠ .r15 → x = rm → exec (.mla c f x y rs rm) s = .fault .mulRdRm))
    ∧ (s.ready c [rm, rs, x, y] →
      (x = .r15 ∨ y = .r15 ∨ rs = .r15 ∨ rm = .r15 →
        exec (.umlal c f x y rs rm) s = .fault .mullR15 ∧ exec (.smlal c f x y rs rm) s = .fault .mullR15)
      ∧ (x ≠ .r15 → y ≠ .r15 → rs ≠ .r15 → rm ≠ .r15 → x = y ∨ x = rm ∨ y = rm →
        exec (.umlal c f x y rs rm) s = .fault .mullOverlap ∧ exec (.smlal c f x y rs rm) s = .fault .mullOverlap))

/-! ## Memory -/

/-- How words, halfwords and bytes lie in memory: a read of a word is of the aligned word that contains the address, in
the byte order of BIGEND; a halfword at an even address and a byte likewise. -/
def Obligations.LoadsReadBytes : Prop :=
  ∀ (s : State) (a : Word),
    (∀ k, k < 4 → (s.loadWord a).extractLsb' (8 * k) 8
      = Memory.read s.mem (a.toNat / 4 * 4 + (if s.cfg.bigend then 3 - k else k)))
    ∧ (∀ k, k < 2 → (s.loadHalf a).extractLsb' (8 * k) 8
      = Memory.read s.mem (a.toNat + (if s.cfg.bigend then 1 - k else k)))
    ∧ s.loadByte a = Memory.read s.mem a.toNat

/-- A store writes the bytes of the aligned word, of the halfword at an even address, or the byte, in the byte order of
BIGEND; they read back, every other byte reads as before, and exactly the bytes written are marked. -/
def Obligations.StoresWriteBytes : Prop :=
  ∀ (s : State) (a v : Word) (h : Half) (x : Byte), Memory.wf s.mem = true →
    s.storesOnly (s.storeWord a v) (a.toNat / 4 * 4) 4 ∧ (s.storeWord a v).loadWord a = v
    ∧ (∀ k, k < 4 → Memory.read (s.storeWord a v).mem (a.toNat / 4 * 4 + k)
        = v.extractLsb' (if s.cfg.bigend then 24 - 8 * k else 8 * k) 8)
    ∧ (a.toNat % 2 = 0 → s.storesOnly (s.storeHalf a h) a.toNat 2 ∧ (s.storeHalf a h).loadHalf a = h)
    ∧ s.storesOnly (s.storeByte a x) a.toNat 1 ∧ (s.storeByte a x).loadByte a = x

/-! ## Single transfers -/

/-- LDR and LDRB to R0 to R14: the aligned word rotated so that the addressed byte lies in bits 7 to 0, or the byte
zero-extended. -/
def Obligations.LdrResult : Prop :=
  ∀ (s : State) (c : Cond) (idx : Index) (up : Bool) (rn rd : Reg) (off : TransferOffset),
    s.ready c (rn :: (transferOffsetReg off).toList) → rd ≠ .r15 → s.canAdvance →
    let a := transferAddress idx up (s.reg rn) (s.transferOffset off)
    (transferAllowed true false idx rn rd (transferOffsetReg off) →
      s.abortsAt (s.access false .load .word false a) = false →
      ∃ t, exec (.ldr c idx up rn rd off) s = .next t
        ∧ s.loaded t idx up rn rd (s.transferOffset off) ((s.loadWord a).rotateRight (8 * (a.toNat % 4))))
    ∧ (transferAllowed true true idx rn rd (transferOffsetReg off) →
      s.abortsAt (s.access false .load .byte false a) = false →
      ∃ t, exec (.ldrb c idx up rn rd off) s = .next t
        ∧ s.loaded t idx up rn rd (s.transferOffset off) ((Memory.read s.mem a.toNat).setWidth 32))

/-- LDR to R15 at a multiple of 4: the word goes to the program counter, the flags and the mode stay. -/
def Obligations.LdrPcResult : Prop :=
  ∀ (s : State) (c : Cond) (idx : Index) (up : Bool) (rn : Reg) (off : TransferOffset),
    s.ready c (rn :: (transferOffsetReg off).toList) →
    transferAllowed true false idx rn .r15 (transferOffsetReg off) →
    let a := transferAddress idx up (s.reg rn) (s.transferOffset off)
    a.toNat % 4 = 0 → s.abortsAt (s.access false .load .word false a) = false →
    ∃ t, exec (.ldr c idx up rn .r15 off) s = .next t ∧ s.goesTo t (writtenBase idx rn) (s.loadWord a)
      ∧ (idx ≠ .offset →
          t.reg rn = if up then s.reg rn + s.transferOffset off else s.reg rn - s.transferOffset off)
      ∧ s.keepsMemory t ∧ t.cpsr.flags = s.cpsr.flags ∧ t.fetchUnit = s.fetchUnit.flushed

/-- LDRT and LDRBT: as LDR and LDRB post-indexed, the access made as from User mode; LDRT to R15 at a multiple of 4
goes to the loaded word. -/
def Obligations.UserLoadResult : Prop :=
  ∀ (s : State) (c : Cond) (up : Bool) (rn rd : Reg) (off : TransferOffset),
    s.ready c (rn :: (transferOffsetReg off).toList) →
    (transferAllowed true false .post rn rd (transferOffsetReg off) → rd ≠ .r15 → s.canAdvance →
      s.abortsAt { s.access true .load .word false (s.reg rn) with privileged := false } = false →
      ∃ t, exec (.ldrt c up rn rd off) s = .next t
        ∧ s.loaded t .post up rn rd (s.transferOffset off)
            ((s.loadWord (s.reg rn)).rotateRight (8 * ((s.reg rn).toNat % 4))))
    ∧ (transferAllowed true false .post rn .r15 (transferOffsetReg off) → (s.reg rn).toNat % 4 = 0 →
      s.abortsAt { s.access true .load .word false (s.reg rn) with privileged := false } = false →
      ∃ t, exec (.ldrt c up rn .r15 off) s = .next t ∧ s.goesTo t [rn] (s.loadWord (s.reg rn))
        ∧ (t.reg rn = if up then s.reg rn + s.transferOffset off else s.reg rn - s.transferOffset off)
        ∧ s.keepsMemory t ∧ t.cpsr.flags = s.cpsr.flags ∧ t.fetchUnit = s.fetchUnit.flushed)
    ∧ (transferAllowed true true .post rn rd (transferOffsetReg off) → s.canAdvance →
      s.abortsAt { s.access true .load .byte false (s.reg rn) with privileged := false } = false →
      ∃ t, exec (.ldrbt c up rn rd off) s = .next t
        ∧ s.loaded t .post up rn rd (s.transferOffset off) ((Memory.read s.mem (s.reg rn).toNat).setWidth 32))

/-- STR and STRB: the word of Rd at the aligned word that contains the address, or the low byte of Rd at the address. R15
as Rd needs an address that is a multiple of 4. The exchange shows the address and the data, and, where the Prefetch Unit
asks with it for instructions of the instruction buffer, their return (R97; with which stores it asks is the model's choice,
log entry 20). -/
def Obligations.StrResult : Prop :=
  ∀ (s : State) (c : Cond) (idx : Index) (up : Bool) (rn rd : Reg) (off : TransferOffset),
    s.ready c (rd :: rn :: (transferOffsetReg off).toList) → s.canAdvance → Memory.wf s.mem = true →
    let a := transferAddress idx up (s.reg rn) (s.transferOffset off)
    let shows := fun (x : Transaction) (ty : RequestType) (v : Word) =>
      x.ty = ty ∧ x.addr = a ∧ x.wdata = v ∧ x.aresp = .done ∧ x.instrPrefetch = !(s.parallelWords 0).isEmpty
      ∧ x.rdata = (s.parallelWords 0).filterMap Prefetched.word
    (transferAllowed false false idx rn rd (transferOffsetReg off) → (rd = .r15 → a.toNat % 4 = 0) →
      s.abortsAt (s.access false .store .word false a) = false →
      ∃ t, exec (.str c idx up rn rd off) s = .next t
        ∧ s.stored t idx up rn (s.transferOffset off) (a.toNat / 4 * 4) 4 ∧ t.loadWord a = s.regM rd
        ∧ ∃ x, t.outputs = s.outputs ++ [.access x] ∧ shows x (.store false) (s.regM rd))
    ∧ (transferAllowed false true idx rn rd (transferOffsetReg off) →
      s.abortsAt (s.access false .store .byte false a) = false →
      ∃ t, exec (.strb c idx up rn rd off) s = .next t
        ∧ s.stored t idx up rn (s.transferOffset off) a.toNat 1
        ∧ Memory.read t.mem a.toNat = (s.reg rd).extractLsb' 0 8
        ∧ ∃ x, t.outputs = s.outputs ++ [.access x] ∧ shows x .storeB (byteBus (s.reg rd)))

/-- STRT and STRBT: as STR and STRB post-indexed, the access made as from User mode. -/
def Obligations.UserStoreResult : Prop :=
  ∀ (s : State) (c : Cond) (up : Bool) (rn rd : Reg) (off : TransferOffset),
    s.ready c (rd :: rn :: (transferOffsetReg off).toList) → s.canAdvance → Memory.wf s.mem = true →
    let a := s.reg rn
    (transferAllowed false false .post rn rd (transferOffsetReg off) → (rd = .r15 → a.toNat % 4 = 0) →
      s.abortsAt { s.access true .store .word false a with privileged := false } = false →
      ∃ t, exec (.strt c up rn rd off) s = .next t
        ∧ s.stored t .post up rn (s.transferOffset off) (a.toNat / 4 * 4) 4 ∧ t.loadWord a = s.regM rd)
    ∧ (transferAllowed false true .post rn rd (transferOffsetReg off) →
      s.abortsAt { s.access true .store .byte false a with privileged := false } = false →
      ∃ t, exec (.strbt c up rn rd off) s = .next t
        ∧ s.stored t .post up rn (s.transferOffset off) a.toNat 1
        ∧ Memory.read t.mem a.toNat = (s.reg rd).extractLsb' 0 8)

/-- LDRH, LDRSH and LDRSB: the halfword at an even address zero- or sign-extended, the byte sign-extended; at an odd
address LDRH and LDRSH complete with a value that is left open. -/
def Obligations.HalfLoadResult : Prop :=
  ∀ (s : State) (c : Cond) (idx : Index) (up : Bool) (rn rd : Reg) (off : HalfOffset),
    s.ready c (rn :: (halfOffsetReg off).toList) → transferAllowed true true idx rn rd (halfOffsetReg off) →
    s.canAdvance →
    let a := transferAddress idx up (s.reg rn) (s.halfOffset off)
    (s.abortsAt (s.access false .load .half false a) = false →
      (∃ t, exec (.ldrh c idx up rn rd off) s = .next t
        ∧ ∃ v, s.loaded t idx up rn rd (s.halfOffset off) v ∧ (a.toNat % 2 = 0 → v = (s.loadHalf a).setWidth 32))
      ∧ (∃ t, exec (.ldrsh c idx up rn rd off) s = .next t
        ∧ ∃ v, s.loaded t idx up rn rd (s.halfOffset off) v ∧ (a.toNat % 2 = 0 → v = (s.loadHalf a).signExtend 32)))
    ∧ (s.abortsAt (s.access false .load .byte false a) = false →
      ∃ t, exec (.ldrsb c idx up rn rd off) s = .next t
        ∧ s.loaded t idx up rn rd (s.halfOffset off) ((Memory.read s.mem a.toNat).signExtend 32))

/-- STRH stores bits 15 to 0 of Rd at an even address. At an odd one, where R296 and D3 say UNPREDICTABLE, it stops: the
model's choice (log entry 12; stuck in spec/93_implementation_defined.md 2.4). -/
def Obligations.StrhResult : Prop :=
  ∀ (s : State) (c : Cond) (idx : Index) (up : Bool) (rn rd : Reg) (off : HalfOffset),
    s.ready c (rd :: rn :: (halfOffsetReg off).toList) → transferAllowed false true idx rn rd (halfOffsetReg off) →
    let a := transferAddress idx up (s.reg rn) (s.halfOffset off)
    (a.toNat % 2 = 0 → s.canAdvance → Memory.wf s.mem = true →
      s.abortsAt (s.access false .store .half false a) = false →
      ∃ t, exec (.strh c idx up rn rd off) s = .next t
        ∧ s.stored t idx up rn (s.halfOffset off) a.toNat 2 ∧ t.loadHalf a = (s.reg rd).extractLsb' 0 16)
    ∧ (a.toNat % 2 = 1 → exec (.strh c idx up rn rd off) s = .fault .strhOdd)

/-- A load or store whose access aborts takes the data abort and changes no register, no memory and no base (STRH at
an even address; R15 as Rd at a multiple of 4). -/
def Obligations.TransferAbort : Prop :=
  ∀ (s : State) (c : Cond) (idx : Index) (up : Bool) (rn rd : Reg) (off : TransferOffset) (hoff : HalfOffset),
    let rm := transferOffsetReg off
    let a := transferAddress idx up (s.reg rn) (s.transferOffset off)
    let hrm := halfOffsetReg hoff
    let ha := transferAddress idx up (s.reg rn) (s.halfOffset hoff)
    (s.ready c (rn :: rm.toList) →
      (transferAllowed true false idx rn rd rm → (rd = .r15 → a.toNat % 4 = 0) →
        s.abortsAt (s.access false .load .word false a) = true → s.abortsData (exec (.ldr c idx up rn rd off) s))
      ∧ (transferAllowed true true idx rn rd rm →
        s.abortsAt (s.access false .load .byte false a) = true → s.abortsData (exec (.ldrb c idx up rn rd off) s))
      ∧ (transferAllowed true false .post rn rd rm → (rd = .r15 → (s.reg rn).toNat % 4 = 0) →
        s.abortsAt (s.access true .load .word false (s.reg rn)) = true → s.abortsData (exec (.ldrt c up rn rd off) s))
      ∧ (transferAllowed true true .post rn rd rm →
        s.abortsAt (s.access true .load .byte false (s.reg rn)) = true → s.abortsData (exec (.ldrbt c up rn rd off) s)))
    ∧ (s.ready c (rd :: rn :: rm.toList) →
      (transferAllowed false false idx rn rd rm → (rd = .r15 → a.toNat % 4 = 0) →
        s.abortsAt (s.access false .store .word false a) = true → s.abortsData (exec (.str c idx up rn rd off) s))
      ∧ (transferAllowed false true idx rn rd rm →
        s.abortsAt (s.access false .store .byte false a) = true → s.abortsData (exec (.strb c idx up rn rd off) s))
      ∧ (transferAllowed false false .post rn rd rm → (rd = .r15 → (s.reg rn).toNat % 4 = 0) →
        s.abortsAt (s.access true .store .word false (s.reg rn)) = true → s.abortsData (exec (.strt c up rn rd off) s))
      ∧ (transferAllowed false true .post rn rd rm →
        s.abortsAt (s.access true .store .byte false (s.reg rn)) = true →
        s.abortsData (exec (.strbt c up rn rd off) s)))
    ∧ (s.ready c (rn :: hrm.toList) → transferAllowed true true idx rn rd hrm →
      (s.abortsAt (s.access false .load .half false ha) = true →
        s.abortsData (exec (.ldrh c idx up rn rd hoff) s) ∧ s.abortsData (exec (.ldrsh c idx up rn rd hoff) s))
      ∧ (s.abortsAt (s.access false .load .byte false ha) = true → s.abortsData (exec (.ldrsb c idx up rn rd hoff) s)))
    ∧ (s.ready c (rd :: rn :: hrm.toList) → transferAllowed false true idx rn rd hrm → ha.toNat % 2 = 0 →
      s.abortsAt (s.access false .store .half false ha) = true → s.abortsData (exec (.strh c idx up rn rd hoff) s))

/-- A transfer whose operands are not allowed stops: no next state, whatever the memory system answers; so does a word
transfer of R15 at an address that is not a multiple of 4. The stops are the model's choice for what is UNPREDICTABLE (log
entry 12). -/
def Obligations.TransferStops : Prop :=
  ∀ (s : State) (c : Cond) (idx : Index) (up : Bool) (rn rd : Reg) (off : TransferOffset) (hoff : HalfOffset),
    c ≠ .nv → condPassed s.cpsr.flags c = true →
    let rm := transferOffsetReg off
    (¬ transferAllowed true false idx rn rd rm → ¬ goesOn (exec (.ldr c idx up rn rd off) s))
    ∧ (¬ transferAllowed true true idx rn rd rm → ¬ goesOn (exec (.ldrb c idx up rn rd off) s))
    ∧ (¬ transferAllowed false false idx rn rd rm → ¬ goesOn (exec (.str c idx up rn rd off) s))
    ∧ (¬ transferAllowed false true idx rn rd rm → ¬ goesOn (exec (.strb c idx up rn rd off) s))
    ∧ (¬ transferAllowed true false .post rn rd rm → ¬ goesOn (exec (.ldrt c up rn rd off) s))
    ∧ (¬ transferAllowed true true .post rn rd rm → ¬ goesOn (exec (.ldrbt c up rn rd off) s))
    ∧ (¬ transferAllowed false false .post rn rd rm → ¬ goesOn (exec (.strt c up rn rd off) s))
    ∧ (¬ transferAllowed false true .post rn rd rm → ¬ goesOn (exec (.strbt c up rn rd off) s))
    ∧ (¬ transferAllowed true true idx rn rd (halfOffsetReg hoff) →
        ¬ goesOn (exec (.ldrh c idx up rn rd hoff) s) ∧ ¬ goesOn (exec (.ldrsh c idx up rn rd hoff) s)
        ∧ ¬ goesOn (exec (.ldrsb c idx up rn rd hoff) s))
    ∧ (¬ transferAllowed false true idx rn rd (halfOffsetReg hoff) → ¬ goesOn (exec (.strh c idx up rn rd hoff) s))
    ∧ ((transferAddress idx up (s.reg rn) (s.transferOffset off)).toNat % 4 ≠ 0 →
        ¬ goesOn (exec (.ldr c idx up rn .r15 off) s) ∧ ¬ goesOn (exec (.str c idx up rn .r15 off) s))
    ∧ ((s.reg rn).toNat % 4 ≠ 0 →
        ¬ goesOn (exec (.ldrt c up rn .r15 off) s) ∧ ¬ goesOn (exec (.strt c up rn .r15 off) s))

/-! ## Block transfers -/

/-- The k-th register of the list, in ascending order, goes with the k-th word from `start`; `start` and `final` are those
of the four addressing modes (spec/47_block_data_transfer.md R312). -/
def Obligations.BlockAddresses : Prop :=
  ∀ (s : State) (p up : Bool) (rn : Reg) (list : BitVec 16),
    let n := (listRegs list).length
    (s.blockTransfers p up rn list).length = n
    ∧ (∀ k, k < n → ((s.blockTransfers p up rn list)[k]?).map Prod.snd = some (s.blockAddress p up rn list k))
    ∧ (s.blockTransfers p up rn list).map Prod.fst = listRegs list
    ∧ (∀ r, r ∈ listRegs list ↔ list.getLsbD r.bits.toNat = true)
    ∧ (listRegs list).Pairwise (fun r q => r.bits.toNat < q.bits.toNat)
    ∧ s.blockAddress true true rn list 0 = s.reg rn + 4 ∧ s.blockAddress false true rn list 0 = s.reg rn
    ∧ s.blockAddress true false rn list 0 = s.reg rn - BitVec.ofNat 32 (4 * n)
    ∧ s.blockAddress false false rn list 0 = s.reg rn - BitVec.ofNat 32 (4 * n) + 4
    ∧ (∀ k, s.blockAddress p up rn list k = s.blockAddress p up rn list 0 + BitVec.ofNat 32 (4 * k))
    ∧ blockFinal true (s.reg rn) n = s.reg rn + BitVec.ofNat 32 (4 * n)
    ∧ blockFinal false (s.reg rn) n = s.reg rn - BitVec.ofNat 32 (4 * n)

/-- LDM with S = 0: every register of the list receives its word, R15 through the program counter; with write-back the
base receives the final address; nothing else changes. -/
def Obligations.LdmResult : Prop :=
  ∀ (s : State) (c : Cond) (p up w : Bool) (rn : Reg) (list : BitVec 16), s.ready c [rn] → list ≠ 0 → rn ≠ .r15 →
    (w = true → rn ∉ listRegs list) → (.r15 ∉ listRegs list → s.canAdvance) → s.noBlockAbort .load p up rn list →
    ∃ t, exec (.ldm c p up false w rn list) s = .next t
      ∧ (∀ k r, (listRegs list)[k]? = some r → r ≠ .r15 → t.reg r = s.loadWord (s.blockAddress p up rn list k))
      ∧ (w = true → t.reg rn = blockFinal up (s.reg rn) (listRegs list).length)
      ∧ (.r15 ∉ listRegs list → t.pc = s.pc + 4)
      ∧ (.r15 ∈ listRegs list → t.pc
          = s.loadWord (s.blockAddress p up rn list ((listRegs list).length - 1)) &&& s.cpsr.mode.pcMask)
      ∧ s.keepsRegs t (listRegs list ++ if w then [rn] else []) ∧ s.keepsControl t ∧ t.cpsr.flags = s.cpsr.flags
      ∧ s.keepsSystem t ∧ s.keepsMemory t

/-- LDM with S = 1 and R15 in the list, in a 32-bit mode with an SPSR that names a mode: the registers of the current mode
are loaded, R15 receives its word, and the SPSR goes to the CPSR. A 26-bit mode is entered from and to addresses below
2^26 (the second is the model's reading, log entry 13). -/
def Obligations.LdmReturnResult : Prop :=
  ∀ (s : State) (c : Cond) (p up w : Bool) (rn : Reg) (list : BitVec 16) (n : SpsrName) (m : Mode), s.ready c [rn] →
    rn ≠ .r15 → (w = true → rn ∉ listRegs list) → .r15 ∈ listRegs list → s.noBlockAbort .load p up rn list →
    s.cpsr.mode.is26 = false → s.cpsr.mode.spsr = some n → (s.spsrs.get n).m = m.bits →
    let v := s.loadWord (s.blockAddress p up rn list ((listRegs list).length - 1))
    (m.is26 = true → s.pc.toNat < 2 ^ 26 ∧ v.toNat < 2 ^ 26) →
    ∃ t, exec (.ldm c p up true w rn list) s = .next t
      ∧ (∀ k r q, (listRegs list)[k]? = some r → s.cpsr.mode.bank.view r = some q →
          t.regs.get q = s.loadWord (s.blockAddress p up rn list k))
      ∧ (∀ q, w = true → s.cpsr.mode.bank.view rn = some q →
          t.regs.get q = blockFinal up (s.reg rn) (listRegs list).length)
      ∧ t.pc = v &&& m.pcMask ∧ t.cpsr.toPsr = s.spsrs.get n
      ∧ s.keepsRegs t (listRegs list ++ if w then [rn] else []) ∧ s.keepsSystem t ∧ s.keepsMemory t

/-- LDM with S = 1 and R15 in the list, in a 26-bit mode: the PC and the PSR bits come from the loaded word, in User mode
the flags only. -/
def Obligations.Ldm26Result : Prop :=
  ∀ (s : State) (c : Cond) (p up w : Bool) (rn : Reg) (list : BitVec 16), s.ready c [rn] →
    rn ≠ .r15 → (w = true → rn ∉ listRegs list) → .r15 ∈ listRegs list → s.noBlockAbort .load p up rn list →
    s.cpsr.mode.is26 = true →
    let v := s.loadWord (s.blockAddress p up rn list ((listRegs list).length - 1))
    ∃ t, exec (.ldm c p up true w rn list) s = .next t
      ∧ (∀ k r q, (listRegs list)[k]? = some r → s.cpsr.mode.bank.view r = some q →
          t.regs.get q = s.loadWord (s.blockAddress p up rn list k))
      ∧ (∀ q, w = true → s.cpsr.mode.bank.view rn = some q →
          t.regs.get q = blockFinal up (s.reg rn) (listRegs list).length)
      ∧ t.pc = v &&& 0x03FFFFFC#32
      ∧ t.cpsr.flags = { n := v.getLsbD 31, z := v.getLsbD 30, c := v.getLsbD 29, v := v.getLsbD 28 }
      ∧ (s.cpsr.mode.privileged = true →
          t.cpsr.i = v.getLsbD 27 ∧ t.cpsr.f = v.getLsbD 26 ∧ t.cpsr.mode.bits = 0b000#3 ++ v.extractLsb' 0 2)
      ∧ (s.cpsr.mode.privileged = false → s.keepsControl t)
      ∧ s.keepsRegs t (listRegs list ++ if w then [rn] else []) ∧ s.keepsSystem t ∧ s.keepsMemory t

/-- LDM with S = 1 and no R15, and STM with S = 1, without write-back, in a mode with an SPSR: the registers of the User
bank are loaded or stored, whatever the mode, R15 as it reads when stored, and nothing else changes but what the Prefetch Unit takes with the stores
(R97, log entry 20). -/
def Obligations.UserBankTransfer : Prop :=
  ∀ (s : State) (c : Cond) (p up : Bool) (rn : Reg) (list : BitVec 16), list ≠ 0 → rn ≠ .r15 →
    s.cpsr.mode.spsr ≠ none → s.canAdvance →
    (s.ready c [rn] → .r15 ∉ listRegs list → s.noBlockAbort .load p up rn list →
      ∃ t, exec (.ldm c p up true false rn list) s = .next t
        ∧ (∀ k r q, (listRegs list)[k]? = some r → Bank.usr.view r = some q →
            t.regs.get q = s.loadWord (s.blockAddress p up rn list k))
        ∧ (∀ q, (∀ r ∈ listRegs list, Bank.usr.view r ≠ some q) → t.regs.get q = s.regs.get q)
        ∧ t.pc = s.pc + 4 ∧ t.cpsr = s.cpsr ∧ s.keepsSystem t ∧ s.keepsMemory t ∧ t.userLdm = true)
    ∧ (s.ready c (rn :: listRegs list) → s.noBlockAbort .store p up rn list → Memory.wf s.mem = true →
      ∃ t, exec (.stm c p up true false rn list) s = .next t
        ∧ (∀ k r, (listRegs list)[k]? = some r →
            t.loadWord (s.blockAddress p up rn list k) = s.regUsr r
            ∧ ∀ q, Bank.usr.view r = some q → t.loadWord (s.blockAddress p up rn list k) = s.regs.get q)
        ∧ (∀ x : Nat, (∀ k, k < (listRegs list).length → x / 4 ≠ (s.blockAddress p up rn list k).toNat / 4) →
            Memory.read t.mem x = Memory.read s.mem x)
        ∧ (∀ x : Nat, x ∈ t.marks ↔
            (∃ k, k < (listRegs list).length ∧ x / 4 = (s.blockAddress p up rn list k).toNat / 4) ∨ x ∈ s.marks)
        ∧ t.cpsr.flags = s.cpsr.flags ∧ (s.asked (listRegs list).length).goesOnTo t [])

/-- STM with S = 0: every register of the list is stored at its word, R15 as it reads when stored, the base as it was
when it is the lowest of the list or is not written back (else its stored value is open); with write-back the base
receives the final address; the Prefetch Unit has taken what is returned with the stores (R97, log entry
20); no other byte changes. -/
def Obligations.StmResult : Prop :=
  ∀ (s : State) (c : Cond) (p up w : Bool) (rn : Reg) (list : BitVec 16), s.ready c (rn :: listRegs list) →
    list ≠ 0 → rn ≠ .r15 → s.canAdvance → s.noBlockAbort .store p up rn list → Memory.wf s.mem = true →
    ∃ t, exec (.stm c p up false w rn list) s = .next t
      ∧ (∀ k r, (listRegs list)[k]? = some r → (w = true → r = rn → k = 0) →
          t.loadWord (s.blockAddress p up rn list k) = s.regM r)
      ∧ (∀ x : Nat, (∀ k, k < (listRegs list).length → x / 4 ≠ (s.blockAddress p up rn list k).toNat / 4) →
          Memory.read t.mem x = Memory.read s.mem x)
      ∧ (∀ x : Nat, x ∈ t.marks ↔
          (∃ k, k < (listRegs list).length ∧ x / 4 = (s.blockAddress p up rn list k).toNat / 4) ∨ x ∈ s.marks)
      ∧ (w = true → t.reg rn = blockFinal up (s.reg rn) (listRegs list).length)
      ∧ t.cpsr.flags = s.cpsr.flags ∧ (s.asked (listRegs list).length).goesOnTo t (if w then [rn] else [])

/-- LDM and STM whose word number k is the first to abort take the data abort. LDM has changed no register outside its
list and not the base, each register before the abort holds its old value or its word, and memory is as it was; STM has
stored the words before the abort, whose bytes alone are newly marked, and changed no register. With S = 1 the registers
are those of R320 and R321. -/
def Obligations.BlockAbort : Prop :=
  ∀ (s : State) (c : Cond) (p up psr w : Bool) (rn : Reg) (list : BitVec 16) (k : Nat), rn ≠ .r15 →
    k < (listRegs list).length →
    (s.ready c [rn] → (w = true → rn ∉ listRegs list) →
      (psr = true → (s.cpsr.mode.spsr ≠ none ∨ s.cpsr.mode = .usr26 ∧ .r15 ∈ listRegs list)
        ∧ (w = true → .r15 ∈ listRegs list)) →
      s.abortsAt (s.access false .load .word false (s.blockAddress p up rn list k)) = true →
      (∀ j, j < k → s.abortsAt (s.access false .load .word false (s.blockAddress p up rn list j)) = false) →
      let bank := blockBank true psr list s.cpsr.mode
      ∃ t, exec (.ldm c p up psr w rn list) s = .next t ∧ t.cpsr.mode = .abt ∧ t.cpsr.i = true
        ∧ t.cpsr.f = s.cpsr.f ∧ t.cpsr.flags = s.cpsr.flags ∧ t.pc = 0x00000010#32
        ∧ t.regs.get .r14abt = s.pc + 8 ∧ t.spsrs.get .abt = s.cpsr.toPsr ∧ s.keepsMemory t
        ∧ (∀ q, q ≠ .r14abt → s.cpsr.mode.bank.view rn = some q → t.regs.get q = s.regs.get q)
        ∧ (∀ q, q ≠ .r14abt → (∀ r ∈ (listRegs list).take k, bank.view r ≠ some q) → t.regs.get q = s.regs.get q)
        ∧ (∀ j r q, j < k → q ≠ .r14abt → (listRegs list)[j]? = some r → bank.view r = some q →
            t.regs.get q = s.regs.get q ∨ t.regs.get q = s.loadWord (s.blockAddress p up rn list j)))
    ∧ (s.ready c (rn :: listRegs list) → Memory.wf s.mem = true →
      (psr = true → s.cpsr.mode.spsr ≠ none ∧ w = false) →
      s.abortsAt (s.access false .store .word false (s.blockAddress p up rn list k)) = true →
      (∀ j, j < k → s.abortsAt (s.access false .store .word false (s.blockAddress p up rn list j)) = false) →
      ∃ t, exec (.stm c p up psr w rn list) s = .next t ∧ s.hasTaken t .dataAbort (s.pc + 8)
        ∧ (∀ j r, j < k → (listRegs list)[j]? = some r → (w = true → r = rn → j = 0) →
            t.loadWord (s.blockAddress p up rn list j) = (if psr then s.regUsr r else s.regM r))
        ∧ (∀ x : Nat, (∀ j, j < k → x / 4 ≠ (s.blockAddress p up rn list j).toNat / 4) →
            Memory.read t.mem x = Memory.read s.mem x)
        ∧ (∀ x : Nat, x ∈ t.marks ↔
            (∃ j, j < k ∧ x / 4 = (s.blockAddress p up rn list j).toNat / 4) ∨ x ∈ s.marks))

/-- LDM and STM stop on an empty list, on base R15, on S = 1 in User and System mode (in usr26 on a user-bank
transfer), on a user-bank transfer with write-back, and LDM on write-back of a base that it loads, with S = 0 or with R15
in the list. An LDM that returns from an exception stops after its accesses where the SPSR names no mode, and where a
26-bit mode would be entered from or to an address above 2^26 (the second is the model's reading, log entry 13). That each of
these stops is the model's choice (log entry 12). -/
def Obligations.BlockStops : Prop :=
  ∀ (s : State) (c : Cond) (p up psr w : Bool) (rn : Reg) (list : BitVec 16), s.ready c (rn :: listRegs list) →
    (list = 0 → exec (.ldm c p up psr w rn list) s = .fault .emptyList
      ∧ exec (.stm c p up psr w rn list) s = .fault .emptyList)
    ∧ (list ≠ 0 → rn = .r15 → exec (.ldm c p up psr w rn list) s = .fault .blockBaseR15
      ∧ exec (.stm c p up psr w rn list) s = .fault .blockBaseR15)
    ∧ (list ≠ 0 → rn ≠ .r15 → (s.cpsr.mode = .usr ∨ s.cpsr.mode = .sys) →
      exec (.ldm c p up true w rn list) s = .fault .blockUserMode
      ∧ exec (.stm c p up true w rn list) s = .fault .blockUserMode)
    ∧ (list ≠ 0 → rn ≠ .r15 → s.cpsr.mode = .usr26 →
      exec (.stm c p up true w rn list) s = .fault .blockUserMode
      ∧ (.r15 ∉ listRegs list → exec (.ldm c p up true w rn list) s = .fault .blockUserMode))
    ∧ (list ≠ 0 → rn ≠ .r15 → s.cpsr.mode.spsr ≠ none →
      exec (.stm c p up true true rn list) s = .fault .userBankWriteback
      ∧ (.r15 ∉ listRegs list → exec (.ldm c p up true true rn list) s = .fault .userBankWriteback))
    ∧ (list ≠ 0 → rn ≠ .r15 → rn ∈ listRegs list →
      exec (.ldm c p up false true rn list) s = .fault .ldmWritebackBase
      ∧ (.r15 ∈ listRegs list → s.cpsr.mode.spsr ≠ none ∨ s.cpsr.mode = .usr26 →
        exec (.ldm c p up true true rn list) s = .fault .ldmWritebackBase))
    ∧ (∀ n, rn ≠ .r15 → (w = true → rn ∉ listRegs list) → .r15 ∈ listRegs list → s.noBlockAbort .load p up rn list →
      s.cpsr.mode.is26 = false → s.cpsr.mode.spsr = some n →
      ((∀ m : Mode, m.bits ≠ (s.spsrs.get n).m) → exec (.ldm c p up true w rn list) s = .fault .invalidMode)
      ∧ (∀ m : Mode, m.bits = (s.spsrs.get n).m → m.is26 = true →
        2 ^ 26 ≤ s.pc.toNat
          ∨ 2 ^ 26 ≤ (s.loadWord (s.blockAddress p up rn list ((listRegs list).length - 1))).toNat →
        exec (.ldm c p up true w rn list) s = .fault .enter26Outside))

/-! ## Swap and software interrupt -/

/-- SWP and SWPB: Rd receives what was in memory (the word rotated as LDR does, the byte zero-extended) and memory
receives Rm as it was; the Prefetch Unit has taken what is returned with the write (R97, log entry 20). -/
def Obligations.SwapResult : Prop :=
  ∀ (s : State) (c : Cond) (rn rd rm : Reg), s.ready c [rn, rm] → rn ≠ .r15 → rd ≠ .r15 → rm ≠ .r15 →
    s.canAdvance → Memory.wf s.mem = true →
    let a := s.reg rn
    (s.abortsAt (s.access false .load .word true a) = false → s.abortsAt (s.access false .store .word true a) = false →
      ∃ t, exec (.swp c rn rd rm) s = .next t ∧ t.reg rd = (s.loadWord a).rotateRight (8 * (a.toNat % 4))
        ∧ t.loadWord a = s.reg rm ∧ s.storesOnly t (a.toNat / 4 * 4) 4 ∧ t.cpsr.flags = s.cpsr.flags
        ∧ (s.asked 1).goesOnTo t [rd])
    ∧ (s.abortsAt (s.access false .load .byte true a) = false → s.abortsAt (s.access false .store .byte true a) = false →
      ∃ t, exec (.swpb c rn rd rm) s = .next t ∧ t.reg rd = (Memory.read s.mem a.toNat).setWidth 32
        ∧ Memory.read t.mem a.toNat = (s.reg rm).extractLsb' 0 8 ∧ s.storesOnly t a.toNat 1
        ∧ t.cpsr.flags = s.cpsr.flags ∧ (s.asked 1).goesOnTo t [rd])

/-- SWP and SWPB whose read or write aborts take the data abort and change no register and no memory; with R15 they
stop, which is the model's choice (log entry 12). -/
def Obligations.SwapAbortsAndStops : Prop :=
  ∀ (s : State) (c : Cond) (rn rd rm : Reg), s.ready c [rn, rm] →
    (rn ≠ .r15 → rd ≠ .r15 → rm ≠ .r15 →
      (s.abortsAt (s.access false .load .word true (s.reg rn)) = true
        ∨ s.abortsAt (s.access false .store .word true (s.reg rn)) = true →
        s.abortsData (exec (.swp c rn rd rm) s))
      ∧ (s.abortsAt (s.access false .load .byte true (s.reg rn)) = true
        ∨ s.abortsAt (s.access false .store .byte true (s.reg rn)) = true →
        s.abortsData (exec (.swpb c rn rd rm) s)))
    ∧ (rn = .r15 ∨ rd = .r15 ∨ rm = .r15 →
      exec (.swp c rn rd rm) s = .fault .swpR15 ∧ exec (.swpb c rn rd rm) s = .fault .swpR15)

/-- SWI takes the software interrupt with A + 4, whatever its comment, and is the instruction memory barrier: no byte is
marked afterwards, and memory is as it was. -/
def Obligations.SoftwareInterrupt : Prop :=
  ∀ (s : State) (c : Cond) (comment : BitVec 24), s.ready c [] →
    ∃ t, exec (.swi c comment) s = .next t ∧ s.hasTaken t .swi (s.pc + 4) ∧ t.marks = [] ∧ t.ran26 = []
      ∧ t.ran32 = [] ∧ (∀ a, Memory.read t.mem a = Memory.read s.mem a)

/-! ## Coprocessor instructions, undefined and reserved words -/

/-- CDP, LDC and STC take the undefined instruction trap, whatever their fields and whatever the coprocessors would
answer; they stay as they are, and CExecute goes LOW (log entry 20). -/
def Obligations.CoprocessorTrap : Prop :=
  ∀ (s : State) (c : Cond) (opc crn crd num : BitVec 4) (info : BitVec 3) (crm : BitVec 4) (p up n w : Bool) (rn : Reg)
    (offset : BitVec 8), s.ready c [] →
    ∀ i ∈ [Instr.cdp c opc crn crd num info crm, .ldc c p up n w rn crd num offset, .stc c p up n w rn crd num offset],
      s.traps (exec i s) ∧ ∃ t, exec i s = .next t ∧ t.coproc = s.coproc
        ∧ t.outputs = s.outputs ++ [.cpExecute false]

/-- An MRC that the coprocessors accept writes their word to Rd, or bits 31 to 28 of it to the flags when Rd is R15, with
CExecute HIGH; the coprocessors change as the answer says, and not at all where it names no effect. The answer is that of
the oracle to the bits 25 to 0 of the instruction in the mode that runs it, or the one it has busy-waited for. -/
def Obligations.MrcAccepted : Prop :=
  ∀ (s : State) (c : Cond) (opc : BitVec 3) (crn : BitVec 4) (rd : Reg) (num : BitVec 4) (info : BitVec 3)
    (crm : BitVec 4), s.ready c [] →
    let a := s.coprocAnswer ((encode (.mrc c opc crn rd num info crm)).extractLsb' 0 26)
    let v := s.coproc.word a.data
    a.busy = some 0 → a.accept = true → s.canAdvance →
    ∃ t, exec (.mrc c opc crn rd num info crm) s = .next t ∧ t.pc = s.pc + 4
      ∧ (rd ≠ .r15 → t.reg rd = v ∧ t.cpsr = s.cpsr)
      ∧ (rd = .r15 → t.regs = s.regs
          ∧ t.cpsr.flags = { n := v.getLsbD 31, z := v.getLsbD 30, c := v.getLsbD 29, v := v.getLsbD 28 })
      ∧ s.keepsRegs t [rd] ∧ s.keepsControl t ∧ t.spsrs = s.spsrs ∧ s.keepsMemory t
      ∧ t.coproc = s.coproc.execute a v ∧ (a.effects = [] → t.coproc = s.coproc)
      ∧ .cpExecute true ∈ t.outputs

/-- An MCR that the coprocessors accept hands them Rd, shows Rd on the address bus as a control request, and changes no
register of ARM8; the coprocessors change as the answer says: their register that takes the word holds Rd afterwards. With
Rd = R15 an accepted one stops, which is the model's choice (log entries 12 and 23). The answer is that of the oracle, as for MRC. -/
def Obligations.McrAccepted : Prop :=
  ∀ (s : State) (c : Cond) (opc : BitVec 3) (crn : BitVec 4) (rd : Reg) (num : BitVec 4) (info : BitVec 3)
    (crm : BitVec 4), s.ready c [rd] →
    let bits := (encode (.mcr c opc crn rd num info crm)).extractLsb' 0 26
    let a := s.coprocAnswer bits
    a.busy = some 0 → a.accept = true →
    (rd ≠ .r15 → s.canAdvance →
      ∃ t, exec (.mcr c opc crn rd num info crm) s = .next t ∧ t.pc = s.pc + 4 ∧ t.regs = s.regs ∧ t.cpsr = s.cpsr
        ∧ t.spsrs = s.spsrs ∧ s.keepsMemory t
        ∧ t.coproc = s.coproc.execute a (s.reg rd) ∧ (a.effects = [] → t.coproc = s.coproc)
        ∧ (∀ k, a.effects = [{ reg := k, value := none }] → k < s.coproc.regs.length →
            t.coproc.reg k = s.reg rd)
        ∧ .cpExecute true ∈ t.outputs ∧ .cpWrite bits (s.reg rd) ∈ t.outputs
        ∧ (∃ a, .access a ∈ t.outputs ∧ a.ty = .control ∧ a.addr = s.reg rd
            ∧ a.privileged = s.cpsr.mode.privileged ∧ a.twentySixBit = s.cpsr.mode.is26))
    ∧ (rd = .r15 → exec (.mcr c opc crn rd num info crm) s = .fault .mcrR15)

/-- An MRC or MCR is answered by the first rule of the oracle that speaks of its bits 25 to 0, of the mode that runs it
and of the private state, or while it busy-waits as it was answered before. One whose CP# names an absent coprocessor,
and one of which no rule speaks, takes the undefined instruction trap, and so does one that is answered bounce, with
CExecute LOW; one that is answered busy stays in Execute, with CExecute HIGH: the program counter, the coprocessors and
everything else but the wait stay, and the memory system is asked for nothing, with Rd on the address bus for an MCR (Rd
not R15). A wait without end is answered the same again. That the oracle is a list of rules is the model's (log entry
38). -/
def Obligations.CoprocessorBounceAndWait : Prop :=
  ∀ (s : State) (c : Cond) (opc : BitVec 3) (crn : BitVec 4) (rd : Reg) (num : BitVec 4) (info : BitVec 3)
    (crm : BitVec 4),
    ∀ i ∈ [(Instr.mrc c opc crn rd num info crm, ([] : List Reg)), (.mcr c opc crn rd num info crm, [rd])],
      s.ready c i.2 →
      let bits := (encode i.1).extractLsb' 0 26
      let speaks := fun r : CoprocRule => r.applies s.coproc bits s.cpsr.mode.privileged
      let a := s.coprocAnswer bits
      (s.busyWait = false → ∀ before r after, s.coproc.rules = before ++ r :: after → num ∈ s.coproc.present →
        (∀ q ∈ before, speaks q = false) → speaks r = true → a = r.answer)
      ∧ (s.busyWait = true → a = s.pending)
      ∧ ((s.busyWait = false ∧ (num ∉ s.coproc.present ∨ ∀ r ∈ s.coproc.rules, speaks r = false))
          ∨ (a.busy = some 0 ∧ a.accept = false) →
        s.traps (exec i.1 s)
        ∧ ∃ t, exec i.1 s = .next t ∧ t.coproc = s.coproc ∧ t.outputs = s.outputs ++ [.cpExecute false])
      ∧ (a.busy ≠ some 0 →
        ∃ t, exec i.1 s = .next t ∧ t.pc = s.pc ∧ t.busyWait = true ∧ t.regs = s.regs ∧ t.cpsr = s.cpsr
          ∧ t.spsrs = s.spsrs ∧ t.coproc = s.coproc ∧ t.pending = { a with busy := a.busy.map (· - 1) }
          ∧ s.keepsMemory t ∧ t.fetchUnit = s.fetchUnit
          ∧ ∃ v, t.outputs = s.outputs ++ [.cpExecute true, .access (s.noAccess .none v .notDone)]
              ∧ (i.2 = [rd] → rd ≠ .r15 → v = s.reg rd))

/-- A word of undefined class A takes the undefined instruction trap, and so do classes B to E where they trap; where
they do not, they stop. A reserved word whose condition passes stops, each kind under its name. Both are UNPREDICTABLE in
the spec (R372, D14; R128, R130, D15), and that they stop is the model's choice (log entry 12; stuck in
spec/93_implementation_defined.md 2.1). -/
def Obligations.UndefinedAndReserved : Prop :=
  ∀ (s : State) (c : Cond) (bits : BitVec 28), s.ready c [] →
    s.traps (exec (.undefinedA c bits) s)
    ∧ (s.cfg.undefClassesBtoE = true →
      s.traps (exec (.undefinedB c bits) s) ∧ s.traps (exec (.undefinedC c bits) s)
      ∧ s.traps (exec (.undefinedD c bits) s) ∧ s.traps (exec (.undefinedE c bits) s))
    ∧ (s.cfg.undefClassesBtoE = false →
      exec (.undefinedB c bits) s = .fault .undefinedBNotTrapping
      ∧ exec (.undefinedC c bits) s = .fault .undefinedCNotTrapping
      ∧ exec (.undefinedD c bits) s = .fault .undefinedDNotTrapping
      ∧ exec (.undefinedE c bits) s = .fault .undefinedENotTrapping)
    ∧ exec (.reservedMrs c bits) s = .fault .reservedMrs ∧ exec (.reservedMsr c bits) s = .fault .reservedMsr
    ∧ exec (.reservedSwp c bits) s = .fault .reservedSwp ∧ exec (.reservedHreg c bits) s = .fault .reservedHreg

/-! ## The machine as a whole -/

/-- An exception taken at a legal address and left by the return that the spec gives (MOVS PC,R14 with the address
itself; SUBS PC,R14,#4 with the address plus 4; SUBS PC,R14,#8 with the address plus 8) gives back the CPSR, the address
and every register but R14 of the exception's mode. -/
def Obligations.ExceptionRoundTrip : Prop :=
  ∀ (s : State) (e : Exception) (a : Word), a &&& s.cpsr.mode.pcMask = a →
    ∀ p ∈ [(Instr.mov .al true .r15 .r0 (.shiftImm .r14 .lsl 0), 0#32),
           (.sub .al true .r15 .r14 (.imm 0 4), 4#32), (.sub .al true .r15 .r14 (.imm 0 8), 8#32)],
      ∃ t, exec p.1 (s.enter e (a + p.2)) = .next t ∧ t.pc = a ∧ t.cpsr = s.cpsr
        ∧ (∀ q, q ≠ e.link → t.regs.get q = s.regs.get q) ∧ (∀ n, n ≠ e.spsr → t.spsrs.get n = s.spsrs.get n)
        ∧ s.keepsMemory t

/-- User mode is confined: a step from User mode or usr26 that stays unprivileged leaves I, F, the mode, every SPSR and
every register of another bank as they were, and one that leaves it does so by an exception, with I set, at that
exception's vector, and with the old CPSR saved; only the reset line does otherwise. -/
def Obligations.UserModeConfined : Prop :=
  ∀ s t : State, s.cpsr.mode.privileged = false → s.levels.reset = false → step s = .next t →
    (t.cpsr.mode.privileged = false ∧ s.keepsControl t ∧ t.spsrs = s.spsrs
      ∧ ∀ q, (∀ r, Bank.usr.view r ≠ some q) → t.regs.get q = s.regs.get q)
    ∨ ∃ e : Exception, t.cpsr.mode = e.mode ∧ t.cpsr.i = true ∧ t.pc = e.vector
        ∧ t.spsrs.get e.spsr = s.cpsr.toPsr ∧ (∀ n, n ≠ e.spsr → t.spsrs.get n = s.spsrs.get n)
        ∧ ∀ q, q ≠ e.link → (∀ r, Bank.usr.view r ≠ some q) → t.regs.get q = s.regs.get q

/-- Execution does not go on in sequence from 0xFFFFFFFC, nor in a 26-bit mode from 0x03FFFFFC: an instruction that goes
on there writes the program counter, takes an exception or busy-waits. One whose condition fails stops under the name of
the top it stands at, and so do the data-processing instructions that write no program counter (log entry 31). -/
def Obligations.NothingRunsPastTheTop : Prop :=
  ∀ s : State, ¬ s.canAdvance →
    (∀ (i : Instr) (t : State), exec i s = .next t →
      instrWritesPc i = true
      ∨ (∃ e : Exception, t.cpsr.mode = e.mode ∧ t.cpsr.i = true ∧ t.pc = e.vector
          ∧ t.spsrs.get e.spsr = s.cpsr.toPsr)
      ∨ (t.busyWait = true ∧ t.pc = s.pc))
    ∧ (∀ i : Instr, i.cond ≠ .nv → condPassed s.cpsr.flags i.cond = false → exec i s = .fault s.topFault)
    ∧ (∀ (op : DpOp) (c : Cond) (f : Bool) (rd rn : Reg) (o : Operand2),
      s.ready c (op.rnRead rn ++ operand2Reads o) → r15InRegisterShift (op.rnRead rn) o = false → rd ≠ .r15 →
      exec (op.instr c f rd rn o) s = .fault s.topFault)
    ∧ (∀ (c : Cond) (rd rn : Reg) (o : Operand2), s.ready c (rn :: operand2Reads o) →
      r15InRegisterShift [rn] o = false →
      ∀ i ∈ [Instr.tst c rd rn o, .teq c rd rn o, .cmp c rd rn o, .cmn c rd rn o], exec i s = .fault s.topFault)
end

