-- ==== Sys2Proof/Laws/State.lean ====
section
/-! SUPPORT. One lemma for each field and each update of the state, so that no proof unfolds a record update. -/

namespace Sys2Proof.Machine

/-! ## setFlags -/

@[simp] theorem State.setFlags_regs (s : State) (g : Flags) : (s.setFlags g).regs = s.regs := rfl
@[simp] theorem State.setFlags_pc (s : State) (g : Flags) : (s.setFlags g).pc = s.pc := rfl
@[simp] theorem State.setFlags_cpsr (s : State) (g : Flags) : (s.setFlags g).cpsr = { s.cpsr with flags := g } := rfl
@[simp] theorem State.setFlags_spsrs (s : State) (g : Flags) : (s.setFlags g).spsrs = s.spsrs := rfl
@[simp] theorem State.setFlags_mem (s : State) (g : Flags) : (s.setFlags g).mem = s.mem := rfl
@[simp] theorem State.setFlags_marks (s : State) (g : Flags) : (s.setFlags g).marks = s.marks := rfl
@[simp] theorem State.setFlags_ran26 (s : State) (g : Flags) : (s.setFlags g).ran26 = s.ran26 := rfl
@[simp] theorem State.setFlags_ran32 (s : State) (g : Flags) : (s.setFlags g).ran32 = s.ran32 := rfl
@[simp] theorem State.setFlags_userLdm (s : State) (g : Flags) : (s.setFlags g).userLdm = s.userLdm := rfl
@[simp] theorem State.setFlags_busyWait (s : State) (g : Flags) : (s.setFlags g).busyWait = s.busyWait := rfl
@[simp] theorem State.setFlags_lines (s : State) (g : Flags) : (s.setFlags g).lines = s.lines := rfl
@[simp] theorem State.setFlags_coproc (s : State) (g : Flags) : (s.setFlags g).coproc = s.coproc := rfl
@[simp] theorem State.setFlags_pending (s : State) (g : Flags) : (s.setFlags g).pending = s.pending := rfl
@[simp] theorem State.setFlags_aborts (s : State) (g : Flags) : (s.setFlags g).aborts = s.aborts := rfl
@[simp] theorem State.setFlags_platform (s : State) (g : Flags) : (s.setFlags g).platform = s.platform := rfl
@[simp] theorem State.setFlags_fetchUnit (s : State) (g : Flags) : (s.setFlags g).fetchUnit = s.fetchUnit := rfl
@[simp] theorem State.setFlags_outputs (s : State) (g : Flags) : (s.setFlags g).outputs = s.outputs := rfl
@[simp] theorem State.setFlags_freeCount (s : State) (g : Flags) : (s.setFlags g).freeCount = s.freeCount := rfl
@[simp] theorem State.setFlags_cfg (s : State) (g : Flags) : (s.setFlags g).cfg = s.cfg := rfl

/-! ## drawn -/

@[simp] theorem State.drawn_regs (s : State) : (s.drawn).regs = s.regs := rfl
@[simp] theorem State.drawn_pc (s : State) : (s.drawn).pc = s.pc := rfl
@[simp] theorem State.drawn_cpsr (s : State) : (s.drawn).cpsr = s.cpsr := rfl
@[simp] theorem State.drawn_spsrs (s : State) : (s.drawn).spsrs = s.spsrs := rfl
@[simp] theorem State.drawn_mem (s : State) : (s.drawn).mem = s.mem := rfl
@[simp] theorem State.drawn_marks (s : State) : (s.drawn).marks = s.marks := rfl
@[simp] theorem State.drawn_ran26 (s : State) : (s.drawn).ran26 = s.ran26 := rfl
@[simp] theorem State.drawn_ran32 (s : State) : (s.drawn).ran32 = s.ran32 := rfl
@[simp] theorem State.drawn_userLdm (s : State) : (s.drawn).userLdm = s.userLdm := rfl
@[simp] theorem State.drawn_busyWait (s : State) : (s.drawn).busyWait = s.busyWait := rfl
@[simp] theorem State.drawn_lines (s : State) : (s.drawn).lines = s.lines := rfl
@[simp] theorem State.drawn_coproc (s : State) : (s.drawn).coproc = s.coproc := rfl
@[simp] theorem State.drawn_pending (s : State) : (s.drawn).pending = s.pending := rfl
@[simp] theorem State.drawn_aborts (s : State) : (s.drawn).aborts = s.aborts := rfl
@[simp] theorem State.drawn_platform (s : State) : (s.drawn).platform = s.platform := rfl
@[simp] theorem State.drawn_fetchUnit (s : State) : (s.drawn).fetchUnit = s.fetchUnit := rfl
@[simp] theorem State.drawn_outputs (s : State) : (s.drawn).outputs = s.outputs := rfl
@[simp] theorem State.drawn_freeCount (s : State) : (s.drawn).freeCount = s.freeCount + 1 := rfl
@[simp] theorem State.drawn_cfg (s : State) : (s.drawn).cfg = s.cfg := rfl

/-! ## emit -/

@[simp] theorem State.emit_regs (s : State) (o : Output) : (s.emit o).regs = s.regs := rfl
@[simp] theorem State.emit_pc (s : State) (o : Output) : (s.emit o).pc = s.pc := rfl
@[simp] theorem State.emit_cpsr (s : State) (o : Output) : (s.emit o).cpsr = s.cpsr := rfl
@[simp] theorem State.emit_spsrs (s : State) (o : Output) : (s.emit o).spsrs = s.spsrs := rfl
@[simp] theorem State.emit_mem (s : State) (o : Output) : (s.emit o).mem = s.mem := rfl
@[simp] theorem State.emit_marks (s : State) (o : Output) : (s.emit o).marks = s.marks := rfl
@[simp] theorem State.emit_ran26 (s : State) (o : Output) : (s.emit o).ran26 = s.ran26 := rfl
@[simp] theorem State.emit_ran32 (s : State) (o : Output) : (s.emit o).ran32 = s.ran32 := rfl
@[simp] theorem State.emit_userLdm (s : State) (o : Output) : (s.emit o).userLdm = s.userLdm := rfl
@[simp] theorem State.emit_busyWait (s : State) (o : Output) : (s.emit o).busyWait = s.busyWait := rfl
@[simp] theorem State.emit_lines (s : State) (o : Output) : (s.emit o).lines = s.lines := rfl
@[simp] theorem State.emit_coproc (s : State) (o : Output) : (s.emit o).coproc = s.coproc := rfl
@[simp] theorem State.emit_pending (s : State) (o : Output) : (s.emit o).pending = s.pending := rfl
@[simp] theorem State.emit_aborts (s : State) (o : Output) : (s.emit o).aborts = s.aborts := rfl
@[simp] theorem State.emit_platform (s : State) (o : Output) : (s.emit o).platform = s.platform := rfl
@[simp] theorem State.emit_fetchUnit (s : State) (o : Output) : (s.emit o).fetchUnit = s.fetchUnit := rfl
@[simp] theorem State.emit_outputs (s : State) (o : Output) : (s.emit o).outputs = s.outputs ++ [o] := rfl
@[simp] theorem State.emit_freeCount (s : State) (o : Output) : (s.emit o).freeCount = s.freeCount := rfl
@[simp] theorem State.emit_cfg (s : State) (o : Output) : (s.emit o).cfg = s.cfg := rfl

/-! ## request -/

@[simp] theorem State.request_regs (s : State) (ty : RequestType) (a : Access) (v : Word) : (s.request ty a v).regs = s.regs := rfl
@[simp] theorem State.request_pc (s : State) (ty : RequestType) (a : Access) (v : Word) : (s.request ty a v).pc = s.pc := rfl
@[simp] theorem State.request_cpsr (s : State) (ty : RequestType) (a : Access) (v : Word) : (s.request ty a v).cpsr = s.cpsr := rfl
@[simp] theorem State.request_spsrs (s : State) (ty : RequestType) (a : Access) (v : Word) : (s.request ty a v).spsrs = s.spsrs := rfl
@[simp] theorem State.request_mem (s : State) (ty : RequestType) (a : Access) (v : Word) : (s.request ty a v).mem = s.mem := rfl
@[simp] theorem State.request_marks (s : State) (ty : RequestType) (a : Access) (v : Word) : (s.request ty a v).marks = s.marks := rfl
@[simp] theorem State.request_ran26 (s : State) (ty : RequestType) (a : Access) (v : Word) : (s.request ty a v).ran26 = s.ran26 := rfl
@[simp] theorem State.request_ran32 (s : State) (ty : RequestType) (a : Access) (v : Word) : (s.request ty a v).ran32 = s.ran32 := rfl
@[simp] theorem State.request_userLdm (s : State) (ty : RequestType) (a : Access) (v : Word) : (s.request ty a v).userLdm = s.userLdm := rfl
@[simp] theorem State.request_busyWait (s : State) (ty : RequestType) (a : Access) (v : Word) : (s.request ty a v).busyWait = s.busyWait := rfl
@[simp] theorem State.request_lines (s : State) (ty : RequestType) (a : Access) (v : Word) : (s.request ty a v).lines = s.lines := rfl
@[simp] theorem State.request_coproc (s : State) (ty : RequestType) (a : Access) (v : Word) : (s.request ty a v).coproc = s.coproc := rfl
@[simp] theorem State.request_pending (s : State) (ty : RequestType) (a : Access) (v : Word) : (s.request ty a v).pending = s.pending := rfl
@[simp] theorem State.request_aborts (s : State) (ty : RequestType) (a : Access) (v : Word) : (s.request ty a v).aborts = s.aborts := rfl
@[simp] theorem State.request_platform (s : State) (ty : RequestType) (a : Access) (v : Word) : (s.request ty a v).platform = s.platform := rfl
@[simp] theorem State.request_fetchUnit (s : State) (ty : RequestType) (a : Access) (v : Word) : (s.request ty a v).fetchUnit = s.fetchUnit := rfl
@[simp] theorem State.request_outputs (s : State) (ty : RequestType) (a : Access) (v : Word) : (s.request ty a v).outputs = s.outputs ++ [.access (s.transaction ty a v .one [s.loadWord a.addr])] := rfl
@[simp] theorem State.request_freeCount (s : State) (ty : RequestType) (a : Access) (v : Word) : (s.request ty a v).freeCount = s.freeCount := rfl
@[simp] theorem State.request_cfg (s : State) (ty : RequestType) (a : Access) (v : Word) : (s.request ty a v).cfg = s.cfg := rfl

/-! ## storeBytes -/

@[simp] theorem State.storeBytes_regs (s : State) (a : Nat) (l : List Byte) : (s.storeBytes a l).regs = s.regs := rfl
@[simp] theorem State.storeBytes_pc (s : State) (a : Nat) (l : List Byte) : (s.storeBytes a l).pc = s.pc := rfl
@[simp] theorem State.storeBytes_cpsr (s : State) (a : Nat) (l : List Byte) : (s.storeBytes a l).cpsr = s.cpsr := rfl
@[simp] theorem State.storeBytes_spsrs (s : State) (a : Nat) (l : List Byte) : (s.storeBytes a l).spsrs = s.spsrs := rfl
@[simp] theorem State.storeBytes_mem (s : State) (a : Nat) (l : List Byte) : (s.storeBytes a l).mem = Memory.writeBytes s.mem a l := rfl
@[simp] theorem State.storeBytes_marks (s : State) (a : Nat) (l : List Byte) : (s.storeBytes a l).marks = insertAddrs a l.length s.marks := rfl
@[simp] theorem State.storeBytes_ran26 (s : State) (a : Nat) (l : List Byte) : (s.storeBytes a l).ran26 = s.ran26 := rfl
@[simp] theorem State.storeBytes_ran32 (s : State) (a : Nat) (l : List Byte) : (s.storeBytes a l).ran32 = s.ran32 := rfl
@[simp] theorem State.storeBytes_userLdm (s : State) (a : Nat) (l : List Byte) : (s.storeBytes a l).userLdm = s.userLdm := rfl
@[simp] theorem State.storeBytes_busyWait (s : State) (a : Nat) (l : List Byte) : (s.storeBytes a l).busyWait = s.busyWait := rfl
@[simp] theorem State.storeBytes_lines (s : State) (a : Nat) (l : List Byte) : (s.storeBytes a l).lines = s.lines := rfl
@[simp] theorem State.storeBytes_coproc (s : State) (a : Nat) (l : List Byte) : (s.storeBytes a l).coproc = s.coproc := rfl
@[simp] theorem State.storeBytes_pending (s : State) (a : Nat) (l : List Byte) : (s.storeBytes a l).pending = s.pending := rfl
@[simp] theorem State.storeBytes_aborts (s : State) (a : Nat) (l : List Byte) : (s.storeBytes a l).aborts = s.aborts := rfl
@[simp] theorem State.storeBytes_platform (s : State) (a : Nat) (l : List Byte) : (s.storeBytes a l).platform = s.platform := rfl
@[simp] theorem State.storeBytes_fetchUnit (s : State) (a : Nat) (l : List Byte) : (s.storeBytes a l).fetchUnit = s.fetchUnit := rfl
@[simp] theorem State.storeBytes_outputs (s : State) (a : Nat) (l : List Byte) : (s.storeBytes a l).outputs = s.outputs := rfl
@[simp] theorem State.storeBytes_freeCount (s : State) (a : Nat) (l : List Byte) : (s.storeBytes a l).freeCount = s.freeCount := rfl
@[simp] theorem State.storeBytes_cfg (s : State) (a : Nat) (l : List Byte) : (s.storeBytes a l).cfg = s.cfg := rfl

/-! ## storeWord -/

@[simp] theorem State.storeWord_regs (s : State) (a v : Word) : (s.storeWord a v).regs = s.regs := rfl
@[simp] theorem State.storeWord_pc (s : State) (a v : Word) : (s.storeWord a v).pc = s.pc := rfl
@[simp] theorem State.storeWord_cpsr (s : State) (a v : Word) : (s.storeWord a v).cpsr = s.cpsr := rfl
@[simp] theorem State.storeWord_spsrs (s : State) (a v : Word) : (s.storeWord a v).spsrs = s.spsrs := rfl
@[simp] theorem State.storeWord_mem (s : State) (a v : Word) : (s.storeWord a v).mem = Memory.writeBytes s.mem (alignWord a).toNat (wordBytes s.cfg.bigend v) := rfl
@[simp] theorem State.storeWord_marks (s : State) (a v : Word) : (s.storeWord a v).marks = insertAddrs (alignWord a).toNat 4 s.marks := rfl
@[simp] theorem State.storeWord_ran26 (s : State) (a v : Word) : (s.storeWord a v).ran26 = s.ran26 := rfl
@[simp] theorem State.storeWord_ran32 (s : State) (a v : Word) : (s.storeWord a v).ran32 = s.ran32 := rfl
@[simp] theorem State.storeWord_userLdm (s : State) (a v : Word) : (s.storeWord a v).userLdm = s.userLdm := rfl
@[simp] theorem State.storeWord_busyWait (s : State) (a v : Word) : (s.storeWord a v).busyWait = s.busyWait := rfl
@[simp] theorem State.storeWord_lines (s : State) (a v : Word) : (s.storeWord a v).lines = s.lines := rfl
@[simp] theorem State.storeWord_coproc (s : State) (a v : Word) : (s.storeWord a v).coproc = s.coproc := rfl
@[simp] theorem State.storeWord_pending (s : State) (a v : Word) : (s.storeWord a v).pending = s.pending := rfl
@[simp] theorem State.storeWord_aborts (s : State) (a v : Word) : (s.storeWord a v).aborts = s.aborts := rfl
@[simp] theorem State.storeWord_platform (s : State) (a v : Word) : (s.storeWord a v).platform = s.platform := rfl
@[simp] theorem State.storeWord_fetchUnit (s : State) (a v : Word) : (s.storeWord a v).fetchUnit = s.fetchUnit := rfl
@[simp] theorem State.storeWord_outputs (s : State) (a v : Word) : (s.storeWord a v).outputs = s.outputs := rfl
@[simp] theorem State.storeWord_freeCount (s : State) (a v : Word) : (s.storeWord a v).freeCount = s.freeCount := rfl
@[simp] theorem State.storeWord_cfg (s : State) (a v : Word) : (s.storeWord a v).cfg = s.cfg := rfl

/-! ## storeByte -/

@[simp] theorem State.storeByte_regs (s : State) (a : Word) (v : Byte) : (s.storeByte a v).regs = s.regs := rfl
@[simp] theorem State.storeByte_pc (s : State) (a : Word) (v : Byte) : (s.storeByte a v).pc = s.pc := rfl
@[simp] theorem State.storeByte_cpsr (s : State) (a : Word) (v : Byte) : (s.storeByte a v).cpsr = s.cpsr := rfl
@[simp] theorem State.storeByte_spsrs (s : State) (a : Word) (v : Byte) : (s.storeByte a v).spsrs = s.spsrs := rfl
@[simp] theorem State.storeByte_mem (s : State) (a : Word) (v : Byte) : (s.storeByte a v).mem = Memory.write s.mem a.toNat v := rfl
@[simp] theorem State.storeByte_marks (s : State) (a : Word) (v : Byte) : (s.storeByte a v).marks = insertAddr a.toNat s.marks := rfl
@[simp] theorem State.storeByte_ran26 (s : State) (a : Word) (v : Byte) : (s.storeByte a v).ran26 = s.ran26 := rfl
@[simp] theorem State.storeByte_ran32 (s : State) (a : Word) (v : Byte) : (s.storeByte a v).ran32 = s.ran32 := rfl
@[simp] theorem State.storeByte_userLdm (s : State) (a : Word) (v : Byte) : (s.storeByte a v).userLdm = s.userLdm := rfl
@[simp] theorem State.storeByte_busyWait (s : State) (a : Word) (v : Byte) : (s.storeByte a v).busyWait = s.busyWait := rfl
@[simp] theorem State.storeByte_lines (s : State) (a : Word) (v : Byte) : (s.storeByte a v).lines = s.lines := rfl
@[simp] theorem State.storeByte_coproc (s : State) (a : Word) (v : Byte) : (s.storeByte a v).coproc = s.coproc := rfl
@[simp] theorem State.storeByte_pending (s : State) (a : Word) (v : Byte) : (s.storeByte a v).pending = s.pending := rfl
@[simp] theorem State.storeByte_aborts (s : State) (a : Word) (v : Byte) : (s.storeByte a v).aborts = s.aborts := rfl
@[simp] theorem State.storeByte_platform (s : State) (a : Word) (v : Byte) : (s.storeByte a v).platform = s.platform := rfl
@[simp] theorem State.storeByte_fetchUnit (s : State) (a : Word) (v : Byte) : (s.storeByte a v).fetchUnit = s.fetchUnit := rfl
@[simp] theorem State.storeByte_outputs (s : State) (a : Word) (v : Byte) : (s.storeByte a v).outputs = s.outputs := rfl
@[simp] theorem State.storeByte_freeCount (s : State) (a : Word) (v : Byte) : (s.storeByte a v).freeCount = s.freeCount := rfl
@[simp] theorem State.storeByte_cfg (s : State) (a : Word) (v : Byte) : (s.storeByte a v).cfg = s.cfg := rfl

/-! ## jumpTo -/

@[simp] theorem State.jumpTo_regs (s : State) (v : Word) : (s.jumpTo v).regs = s.regs := rfl
@[simp] theorem State.jumpTo_pc (s : State) (v : Word) : (s.jumpTo v).pc = v &&& s.cpsr.mode.pcMask := rfl
@[simp] theorem State.jumpTo_cpsr (s : State) (v : Word) : (s.jumpTo v).cpsr = s.cpsr := rfl
@[simp] theorem State.jumpTo_spsrs (s : State) (v : Word) : (s.jumpTo v).spsrs = s.spsrs := rfl
@[simp] theorem State.jumpTo_mem (s : State) (v : Word) : (s.jumpTo v).mem = s.mem := rfl
@[simp] theorem State.jumpTo_marks (s : State) (v : Word) : (s.jumpTo v).marks = s.marks := rfl
@[simp] theorem State.jumpTo_ran26 (s : State) (v : Word) : (s.jumpTo v).ran26 = s.ran26 := rfl
@[simp] theorem State.jumpTo_ran32 (s : State) (v : Word) : (s.jumpTo v).ran32 = s.ran32 := rfl
@[simp] theorem State.jumpTo_userLdm (s : State) (v : Word) : (s.jumpTo v).userLdm = false := rfl
@[simp] theorem State.jumpTo_busyWait (s : State) (v : Word) : (s.jumpTo v).busyWait = false := rfl
@[simp] theorem State.jumpTo_lines (s : State) (v : Word) : (s.jumpTo v).lines = s.lines := rfl
@[simp] theorem State.jumpTo_coproc (s : State) (v : Word) : (s.jumpTo v).coproc = s.coproc := rfl
@[simp] theorem State.jumpTo_pending (s : State) (v : Word) : (s.jumpTo v).pending = s.pending := rfl
@[simp] theorem State.jumpTo_aborts (s : State) (v : Word) : (s.jumpTo v).aborts = s.aborts := rfl
@[simp] theorem State.jumpTo_platform (s : State) (v : Word) : (s.jumpTo v).platform = s.platform := rfl
@[simp] theorem State.jumpTo_fetchUnit (s : State) (v : Word) : (s.jumpTo v).fetchUnit = s.fetchUnit.flushed := rfl
@[simp] theorem State.jumpTo_outputs (s : State) (v : Word) : (s.jumpTo v).outputs = s.outputs := rfl
@[simp] theorem State.jumpTo_freeCount (s : State) (v : Word) : (s.jumpTo v).freeCount = s.freeCount := rfl
@[simp] theorem State.jumpTo_cfg (s : State) (v : Word) : (s.jumpTo v).cfg = s.cfg := rfl

/-! ## enter -/

@[simp] theorem State.enter_regs (s : State) (e : Exception) (v : Word) : (s.enter e v).regs = s.regs.set e.link v := rfl
@[simp] theorem State.enter_pc (s : State) (e : Exception) (v : Word) : (s.enter e v).pc = e.vector := rfl
@[simp] theorem State.enter_cpsr (s : State) (e : Exception) (v : Word) : (s.enter e v).cpsr = { flags := s.cpsr.flags, i := true, f := s.cpsr.f || decide (e = .fiq), mode := e.mode } := rfl
@[simp] theorem State.enter_spsrs (s : State) (e : Exception) (v : Word) : (s.enter e v).spsrs = s.spsrs.set e.spsr s.cpsr.toPsr := rfl
@[simp] theorem State.enter_mem (s : State) (e : Exception) (v : Word) : (s.enter e v).mem = s.mem := rfl
@[simp] theorem State.enter_marks (s : State) (e : Exception) (v : Word) : (s.enter e v).marks = s.marks := rfl
@[simp] theorem State.enter_ran26 (s : State) (e : Exception) (v : Word) : (s.enter e v).ran26 = s.ran26 := rfl
@[simp] theorem State.enter_ran32 (s : State) (e : Exception) (v : Word) : (s.enter e v).ran32 = s.ran32 := rfl
@[simp] theorem State.enter_userLdm (s : State) (e : Exception) (v : Word) : (s.enter e v).userLdm = false := rfl
@[simp] theorem State.enter_busyWait (s : State) (e : Exception) (v : Word) : (s.enter e v).busyWait = false := rfl
@[simp] theorem State.enter_lines (s : State) (e : Exception) (v : Word) : (s.enter e v).lines = s.lines := rfl
@[simp] theorem State.enter_coproc (s : State) (e : Exception) (v : Word) : (s.enter e v).coproc = s.coproc := rfl
@[simp] theorem State.enter_pending (s : State) (e : Exception) (v : Word) : (s.enter e v).pending = s.pending := rfl
@[simp] theorem State.enter_aborts (s : State) (e : Exception) (v : Word) : (s.enter e v).aborts = s.aborts := rfl
@[simp] theorem State.enter_platform (s : State) (e : Exception) (v : Word) : (s.enter e v).platform = s.platform := rfl
@[simp] theorem State.enter_fetchUnit (s : State) (e : Exception) (v : Word) : (s.enter e v).fetchUnit = s.fetchUnit.flushed := rfl
@[simp] theorem State.enter_outputs (s : State) (e : Exception) (v : Word) : (s.enter e v).outputs = s.outputs := rfl
@[simp] theorem State.enter_freeCount (s : State) (e : Exception) (v : Word) : (s.enter e v).freeCount = s.freeCount := rfl
@[simp] theorem State.enter_cfg (s : State) (e : Exception) (v : Word) : (s.enter e v).cfg = s.cfg := rfl

/-! ## barrier -/

@[simp] theorem State.barrier_regs (s : State) : (s.barrier).regs = s.regs := rfl
@[simp] theorem State.barrier_pc (s : State) : (s.barrier).pc = s.pc := rfl
@[simp] theorem State.barrier_cpsr (s : State) : (s.barrier).cpsr = s.cpsr := rfl
@[simp] theorem State.barrier_spsrs (s : State) : (s.barrier).spsrs = s.spsrs := rfl
@[simp] theorem State.barrier_mem (s : State) : (s.barrier).mem = s.mem := rfl
@[simp] theorem State.barrier_marks (s : State) : (s.barrier).marks = [] := rfl
@[simp] theorem State.barrier_ran26 (s : State) : (s.barrier).ran26 = [] := rfl
@[simp] theorem State.barrier_ran32 (s : State) : (s.barrier).ran32 = [] := rfl
@[simp] theorem State.barrier_userLdm (s : State) : (s.barrier).userLdm = s.userLdm := rfl
@[simp] theorem State.barrier_busyWait (s : State) : (s.barrier).busyWait = s.busyWait := rfl
@[simp] theorem State.barrier_lines (s : State) : (s.barrier).lines = s.lines := rfl
@[simp] theorem State.barrier_coproc (s : State) : (s.barrier).coproc = s.coproc := rfl
@[simp] theorem State.barrier_pending (s : State) : (s.barrier).pending = s.pending := rfl
@[simp] theorem State.barrier_aborts (s : State) : (s.barrier).aborts = s.aborts := rfl
@[simp] theorem State.barrier_platform (s : State) : (s.barrier).platform = s.platform := rfl
@[simp] theorem State.barrier_fetchUnit (s : State) : (s.barrier).fetchUnit = s.fetchUnit := rfl
@[simp] theorem State.barrier_outputs (s : State) : (s.barrier).outputs = s.outputs := rfl
@[simp] theorem State.barrier_freeCount (s : State) : (s.barrier).freeCount = s.freeCount := rfl
@[simp] theorem State.barrier_cfg (s : State) : (s.barrier).cfg = s.cfg := rfl

/-! ## noRequest -/

@[simp] theorem State.noRequest_regs (s : State) (v : Word) : (s.noRequest v).regs = s.regs := rfl
@[simp] theorem State.noRequest_pc (s : State) (v : Word) : (s.noRequest v).pc = s.pc := rfl
@[simp] theorem State.noRequest_cpsr (s : State) (v : Word) : (s.noRequest v).cpsr = s.cpsr := rfl
@[simp] theorem State.noRequest_spsrs (s : State) (v : Word) : (s.noRequest v).spsrs = s.spsrs := rfl
@[simp] theorem State.noRequest_mem (s : State) (v : Word) : (s.noRequest v).mem = s.mem := rfl
@[simp] theorem State.noRequest_marks (s : State) (v : Word) : (s.noRequest v).marks = s.marks := rfl
@[simp] theorem State.noRequest_ran26 (s : State) (v : Word) : (s.noRequest v).ran26 = s.ran26 := rfl
@[simp] theorem State.noRequest_ran32 (s : State) (v : Word) : (s.noRequest v).ran32 = s.ran32 := rfl
@[simp] theorem State.noRequest_userLdm (s : State) (v : Word) : (s.noRequest v).userLdm = s.userLdm := rfl
@[simp] theorem State.noRequest_busyWait (s : State) (v : Word) : (s.noRequest v).busyWait = s.busyWait := rfl
@[simp] theorem State.noRequest_lines (s : State) (v : Word) : (s.noRequest v).lines = s.lines := rfl
@[simp] theorem State.noRequest_coproc (s : State) (v : Word) : (s.noRequest v).coproc = s.coproc := rfl
@[simp] theorem State.noRequest_pending (s : State) (v : Word) : (s.noRequest v).pending = s.pending := rfl
@[simp] theorem State.noRequest_aborts (s : State) (v : Word) : (s.noRequest v).aborts = s.aborts := rfl
@[simp] theorem State.noRequest_platform (s : State) (v : Word) : (s.noRequest v).platform = s.platform := rfl
@[simp] theorem State.noRequest_fetchUnit (s : State) (v : Word) : (s.noRequest v).fetchUnit = s.fetchUnit := rfl
@[simp] theorem State.noRequest_outputs (s : State) (v : Word) : (s.noRequest v).outputs = s.outputs ++ [.access (s.noAccess .none v .notDone)] := rfl
@[simp] theorem State.noRequest_freeCount (s : State) (v : Word) : (s.noRequest v).freeCount = s.freeCount := rfl
@[simp] theorem State.noRequest_cfg (s : State) (v : Word) : (s.noRequest v).cfg = s.cfg := rfl

/-! ## fetchRequest -/

@[simp] theorem State.fetchRequest_regs (s : State) (ty : RequestType) (a : Access) : (s.fetchRequest ty a).regs = s.regs := rfl
@[simp] theorem State.fetchRequest_pc (s : State) (ty : RequestType) (a : Access) : (s.fetchRequest ty a).pc = s.pc := rfl
@[simp] theorem State.fetchRequest_cpsr (s : State) (ty : RequestType) (a : Access) : (s.fetchRequest ty a).cpsr = s.cpsr := rfl
@[simp] theorem State.fetchRequest_spsrs (s : State) (ty : RequestType) (a : Access) : (s.fetchRequest ty a).spsrs = s.spsrs := rfl
@[simp] theorem State.fetchRequest_mem (s : State) (ty : RequestType) (a : Access) : (s.fetchRequest ty a).mem = s.mem := rfl
@[simp] theorem State.fetchRequest_marks (s : State) (ty : RequestType) (a : Access) : (s.fetchRequest ty a).marks = s.marks := rfl
@[simp] theorem State.fetchRequest_ran26 (s : State) (ty : RequestType) (a : Access) : (s.fetchRequest ty a).ran26 = s.ran26 := rfl
@[simp] theorem State.fetchRequest_ran32 (s : State) (ty : RequestType) (a : Access) : (s.fetchRequest ty a).ran32 = s.ran32 := rfl
@[simp] theorem State.fetchRequest_userLdm (s : State) (ty : RequestType) (a : Access) : (s.fetchRequest ty a).userLdm = s.userLdm := rfl
@[simp] theorem State.fetchRequest_busyWait (s : State) (ty : RequestType) (a : Access) : (s.fetchRequest ty a).busyWait = s.busyWait := rfl
@[simp] theorem State.fetchRequest_lines (s : State) (ty : RequestType) (a : Access) : (s.fetchRequest ty a).lines = s.lines := rfl
@[simp] theorem State.fetchRequest_coproc (s : State) (ty : RequestType) (a : Access) : (s.fetchRequest ty a).coproc = s.coproc := rfl
@[simp] theorem State.fetchRequest_pending (s : State) (ty : RequestType) (a : Access) : (s.fetchRequest ty a).pending = s.pending := rfl
@[simp] theorem State.fetchRequest_aborts (s : State) (ty : RequestType) (a : Access) : (s.fetchRequest ty a).aborts = s.aborts := rfl
@[simp] theorem State.fetchRequest_platform (s : State) (ty : RequestType) (a : Access) : (s.fetchRequest ty a).platform = s.platform := rfl
@[simp] theorem State.fetchRequest_fetchUnit (s : State) (ty : RequestType) (a : Access) : (s.fetchRequest ty a).fetchUnit = { s.fetchUnit with last := (s.fetchAnswer a).getLast?.map Prefetched.addr } := rfl
@[simp] theorem State.fetchRequest_outputs (s : State) (ty : RequestType) (a : Access) : (s.fetchRequest ty a).outputs = s.outputs ++
      [.access (s.transaction ty a 0 .none ((s.fetchAnswer a).filterMap Prefetched.word))] := rfl
@[simp] theorem State.fetchRequest_freeCount (s : State) (ty : RequestType) (a : Access) : (s.fetchRequest ty a).freeCount = s.freeCount := rfl
@[simp] theorem State.fetchRequest_cfg (s : State) (ty : RequestType) (a : Access) : (s.fetchRequest ty a).cfg = s.cfg := rfl

/-! ## pushWords -/

@[simp] theorem State.pushWords_regs (s : State) (es : List Prefetched) : (s.pushWords es).regs = s.regs := rfl
@[simp] theorem State.pushWords_pc (s : State) (es : List Prefetched) : (s.pushWords es).pc = s.pc := rfl
@[simp] theorem State.pushWords_cpsr (s : State) (es : List Prefetched) : (s.pushWords es).cpsr = s.cpsr := rfl
@[simp] theorem State.pushWords_spsrs (s : State) (es : List Prefetched) : (s.pushWords es).spsrs = s.spsrs := rfl
@[simp] theorem State.pushWords_mem (s : State) (es : List Prefetched) : (s.pushWords es).mem = s.mem := rfl
@[simp] theorem State.pushWords_marks (s : State) (es : List Prefetched) : (s.pushWords es).marks = s.marks := rfl
@[simp] theorem State.pushWords_ran26 (s : State) (es : List Prefetched) : (s.pushWords es).ran26 = s.ran26 := rfl
@[simp] theorem State.pushWords_ran32 (s : State) (es : List Prefetched) : (s.pushWords es).ran32 = s.ran32 := rfl
@[simp] theorem State.pushWords_userLdm (s : State) (es : List Prefetched) : (s.pushWords es).userLdm = s.userLdm := rfl
@[simp] theorem State.pushWords_busyWait (s : State) (es : List Prefetched) : (s.pushWords es).busyWait = s.busyWait := rfl
@[simp] theorem State.pushWords_lines (s : State) (es : List Prefetched) : (s.pushWords es).lines = s.lines := rfl
@[simp] theorem State.pushWords_coproc (s : State) (es : List Prefetched) : (s.pushWords es).coproc = s.coproc := rfl
@[simp] theorem State.pushWords_pending (s : State) (es : List Prefetched) : (s.pushWords es).pending = s.pending := rfl
@[simp] theorem State.pushWords_aborts (s : State) (es : List Prefetched) : (s.pushWords es).aborts = s.aborts := rfl
@[simp] theorem State.pushWords_platform (s : State) (es : List Prefetched) : (s.pushWords es).platform = s.platform := rfl
@[simp] theorem State.pushWords_fetchUnit (s : State) (es : List Prefetched) : (s.pushWords es).fetchUnit = es.foldl FetchUnit.push s.fetchUnit := rfl
@[simp] theorem State.pushWords_outputs (s : State) (es : List Prefetched) : (s.pushWords es).outputs = s.outputs := rfl
@[simp] theorem State.pushWords_freeCount (s : State) (es : List Prefetched) : (s.pushWords es).freeCount = s.freeCount := rfl
@[simp] theorem State.pushWords_cfg (s : State) (es : List Prefetched) : (s.pushWords es).cfg = s.cfg := rfl

/-! ## ask -/

@[simp] theorem State.ask_regs (s : State) (k : Nat) : (s.ask k).regs = s.regs := rfl
@[simp] theorem State.ask_pc (s : State) (k : Nat) : (s.ask k).pc = s.pc := rfl
@[simp] theorem State.ask_cpsr (s : State) (k : Nat) : (s.ask k).cpsr = s.cpsr := rfl
@[simp] theorem State.ask_spsrs (s : State) (k : Nat) : (s.ask k).spsrs = s.spsrs := rfl
@[simp] theorem State.ask_mem (s : State) (k : Nat) : (s.ask k).mem = s.mem := rfl
@[simp] theorem State.ask_marks (s : State) (k : Nat) : (s.ask k).marks = s.marks := rfl
@[simp] theorem State.ask_ran26 (s : State) (k : Nat) : (s.ask k).ran26 = s.ran26 := rfl
@[simp] theorem State.ask_ran32 (s : State) (k : Nat) : (s.ask k).ran32 = s.ran32 := rfl
@[simp] theorem State.ask_userLdm (s : State) (k : Nat) : (s.ask k).userLdm = s.userLdm := rfl
@[simp] theorem State.ask_busyWait (s : State) (k : Nat) : (s.ask k).busyWait = s.busyWait := rfl
@[simp] theorem State.ask_lines (s : State) (k : Nat) : (s.ask k).lines = s.lines := rfl
@[simp] theorem State.ask_coproc (s : State) (k : Nat) : (s.ask k).coproc = s.coproc := rfl
@[simp] theorem State.ask_pending (s : State) (k : Nat) : (s.ask k).pending = s.pending := rfl
@[simp] theorem State.ask_aborts (s : State) (k : Nat) : (s.ask k).aborts = s.aborts := rfl
@[simp] theorem State.ask_platform (s : State) (k : Nat) : (s.ask k).platform = s.platform := rfl
@[simp] theorem State.ask_fetchUnit (s : State) (k : Nat) : (s.ask k).fetchUnit = s.fetchUnit.receive (s.parallelWords k) := rfl
@[simp] theorem State.ask_outputs (s : State) (k : Nat) : (s.ask k).outputs = s.outputs := rfl
@[simp] theorem State.ask_freeCount (s : State) (k : Nat) : (s.ask k).freeCount = s.freeCount := rfl
@[simp] theorem State.ask_cfg (s : State) (k : Nat) : (s.ask k).cfg = s.cfg := rfl

/-! ## storeAborted -/

@[simp] theorem State.storeAborted_regs (s : State) (k : Nat) (ty : RequestType) (a : Access) (v : Word) : (s.storeAborted k ty a v).regs = s.regs := rfl
@[simp] theorem State.storeAborted_pc (s : State) (k : Nat) (ty : RequestType) (a : Access) (v : Word) : (s.storeAborted k ty a v).pc = s.pc := rfl
@[simp] theorem State.storeAborted_cpsr (s : State) (k : Nat) (ty : RequestType) (a : Access) (v : Word) : (s.storeAborted k ty a v).cpsr = s.cpsr := rfl
@[simp] theorem State.storeAborted_spsrs (s : State) (k : Nat) (ty : RequestType) (a : Access) (v : Word) : (s.storeAborted k ty a v).spsrs = s.spsrs := rfl
@[simp] theorem State.storeAborted_mem (s : State) (k : Nat) (ty : RequestType) (a : Access) (v : Word) : (s.storeAborted k ty a v).mem = s.mem := rfl
@[simp] theorem State.storeAborted_marks (s : State) (k : Nat) (ty : RequestType) (a : Access) (v : Word) : (s.storeAborted k ty a v).marks = s.marks := rfl
@[simp] theorem State.storeAborted_ran26 (s : State) (k : Nat) (ty : RequestType) (a : Access) (v : Word) : (s.storeAborted k ty a v).ran26 = s.ran26 := rfl
@[simp] theorem State.storeAborted_ran32 (s : State) (k : Nat) (ty : RequestType) (a : Access) (v : Word) : (s.storeAborted k ty a v).ran32 = s.ran32 := rfl
@[simp] theorem State.storeAborted_userLdm (s : State) (k : Nat) (ty : RequestType) (a : Access) (v : Word) : (s.storeAborted k ty a v).userLdm = s.userLdm := rfl
@[simp] theorem State.storeAborted_busyWait (s : State) (k : Nat) (ty : RequestType) (a : Access) (v : Word) : (s.storeAborted k ty a v).busyWait = s.busyWait := rfl
@[simp] theorem State.storeAborted_lines (s : State) (k : Nat) (ty : RequestType) (a : Access) (v : Word) : (s.storeAborted k ty a v).lines = s.lines := rfl
@[simp] theorem State.storeAborted_coproc (s : State) (k : Nat) (ty : RequestType) (a : Access) (v : Word) : (s.storeAborted k ty a v).coproc = s.coproc := rfl
@[simp] theorem State.storeAborted_pending (s : State) (k : Nat) (ty : RequestType) (a : Access) (v : Word) : (s.storeAborted k ty a v).pending = s.pending := rfl
@[simp] theorem State.storeAborted_aborts (s : State) (k : Nat) (ty : RequestType) (a : Access) (v : Word) : (s.storeAborted k ty a v).aborts = s.aborts := rfl
@[simp] theorem State.storeAborted_platform (s : State) (k : Nat) (ty : RequestType) (a : Access) (v : Word) : (s.storeAborted k ty a v).platform = s.platform := rfl
@[simp] theorem State.storeAborted_fetchUnit (s : State) (k : Nat) (ty : RequestType) (a : Access) (v : Word) : (s.storeAborted k ty a v).fetchUnit = s.fetchUnit := rfl
@[simp] theorem State.storeAborted_outputs (s : State) (k : Nat) (ty : RequestType) (a : Access) (v : Word) : (s.storeAborted k ty a v).outputs = s.outputs ++ [.access (s.storeTransaction k ty a v)] := rfl
@[simp] theorem State.storeAborted_freeCount (s : State) (k : Nat) (ty : RequestType) (a : Access) (v : Word) : (s.storeAborted k ty a v).freeCount = s.freeCount := rfl
@[simp] theorem State.storeAborted_cfg (s : State) (k : Nat) (ty : RequestType) (a : Access) (v : Word) : (s.storeAborted k ty a v).cfg = s.cfg := rfl

/-! ## storeRequest -/

@[simp] theorem State.storeRequest_regs (s : State) (k : Nat) (ty : RequestType) (a : Access) (v : Word) : (s.storeRequest k ty a v).regs = s.regs := rfl
@[simp] theorem State.storeRequest_pc (s : State) (k : Nat) (ty : RequestType) (a : Access) (v : Word) : (s.storeRequest k ty a v).pc = s.pc := rfl
@[simp] theorem State.storeRequest_cpsr (s : State) (k : Nat) (ty : RequestType) (a : Access) (v : Word) : (s.storeRequest k ty a v).cpsr = s.cpsr := rfl
@[simp] theorem State.storeRequest_spsrs (s : State) (k : Nat) (ty : RequestType) (a : Access) (v : Word) : (s.storeRequest k ty a v).spsrs = s.spsrs := rfl
@[simp] theorem State.storeRequest_mem (s : State) (k : Nat) (ty : RequestType) (a : Access) (v : Word) : (s.storeRequest k ty a v).mem = s.mem := rfl
@[simp] theorem State.storeRequest_marks (s : State) (k : Nat) (ty : RequestType) (a : Access) (v : Word) : (s.storeRequest k ty a v).marks = s.marks := rfl
@[simp] theorem State.storeRequest_ran26 (s : State) (k : Nat) (ty : RequestType) (a : Access) (v : Word) : (s.storeRequest k ty a v).ran26 = s.ran26 := rfl
@[simp] theorem State.storeRequest_ran32 (s : State) (k : Nat) (ty : RequestType) (a : Access) (v : Word) : (s.storeRequest k ty a v).ran32 = s.ran32 := rfl
@[simp] theorem State.storeRequest_userLdm (s : State) (k : Nat) (ty : RequestType) (a : Access) (v : Word) : (s.storeRequest k ty a v).userLdm = s.userLdm := rfl
@[simp] theorem State.storeRequest_busyWait (s : State) (k : Nat) (ty : RequestType) (a : Access) (v : Word) : (s.storeRequest k ty a v).busyWait = s.busyWait := rfl
@[simp] theorem State.storeRequest_lines (s : State) (k : Nat) (ty : RequestType) (a : Access) (v : Word) : (s.storeRequest k ty a v).lines = s.lines := rfl
@[simp] theorem State.storeRequest_coproc (s : State) (k : Nat) (ty : RequestType) (a : Access) (v : Word) : (s.storeRequest k ty a v).coproc = s.coproc := rfl
@[simp] theorem State.storeRequest_pending (s : State) (k : Nat) (ty : RequestType) (a : Access) (v : Word) : (s.storeRequest k ty a v).pending = s.pending := rfl
@[simp] theorem State.storeRequest_aborts (s : State) (k : Nat) (ty : RequestType) (a : Access) (v : Word) : (s.storeRequest k ty a v).aborts = s.aborts := rfl
@[simp] theorem State.storeRequest_platform (s : State) (k : Nat) (ty : RequestType) (a : Access) (v : Word) : (s.storeRequest k ty a v).platform = s.platform := rfl
@[simp] theorem State.storeRequest_fetchUnit (s : State) (k : Nat) (ty : RequestType) (a : Access) (v : Word) : (s.storeRequest k ty a v).fetchUnit = s.fetchUnit.receive (s.parallelWords k) := rfl
@[simp] theorem State.storeRequest_outputs (s : State) (k : Nat) (ty : RequestType) (a : Access) (v : Word) : (s.storeRequest k ty a v).outputs = s.outputs ++ [.access (s.storeTransaction k ty a v)] := rfl
@[simp] theorem State.storeRequest_freeCount (s : State) (k : Nat) (ty : RequestType) (a : Access) (v : Word) : (s.storeRequest k ty a v).freeCount = s.freeCount := rfl
@[simp] theorem State.storeRequest_cfg (s : State) (k : Nat) (ty : RequestType) (a : Access) (v : Word) : (s.storeRequest k ty a v).cfg = s.cfg := rfl

/-! ## coprocExecute -/

@[simp] theorem State.coprocExecute_regs (s : State) (a : CoprocAnswer) (v : Word) : (s.coprocExecute a v).regs = s.regs := rfl
@[simp] theorem State.coprocExecute_pc (s : State) (a : CoprocAnswer) (v : Word) : (s.coprocExecute a v).pc = s.pc := rfl
@[simp] theorem State.coprocExecute_cpsr (s : State) (a : CoprocAnswer) (v : Word) : (s.coprocExecute a v).cpsr = s.cpsr := rfl
@[simp] theorem State.coprocExecute_spsrs (s : State) (a : CoprocAnswer) (v : Word) : (s.coprocExecute a v).spsrs = s.spsrs := rfl
@[simp] theorem State.coprocExecute_mem (s : State) (a : CoprocAnswer) (v : Word) : (s.coprocExecute a v).mem = s.mem := rfl
@[simp] theorem State.coprocExecute_marks (s : State) (a : CoprocAnswer) (v : Word) : (s.coprocExecute a v).marks = s.marks := rfl
@[simp] theorem State.coprocExecute_ran26 (s : State) (a : CoprocAnswer) (v : Word) : (s.coprocExecute a v).ran26 = s.ran26 := rfl
@[simp] theorem State.coprocExecute_ran32 (s : State) (a : CoprocAnswer) (v : Word) : (s.coprocExecute a v).ran32 = s.ran32 := rfl
@[simp] theorem State.coprocExecute_userLdm (s : State) (a : CoprocAnswer) (v : Word) : (s.coprocExecute a v).userLdm = s.userLdm := rfl
@[simp] theorem State.coprocExecute_busyWait (s : State) (a : CoprocAnswer) (v : Word) : (s.coprocExecute a v).busyWait = s.busyWait := rfl
@[simp] theorem State.coprocExecute_lines (s : State) (a : CoprocAnswer) (v : Word) : (s.coprocExecute a v).lines = s.lines := rfl
@[simp] theorem State.coprocExecute_coproc (s : State) (a : CoprocAnswer) (v : Word) : (s.coprocExecute a v).coproc = s.coproc.execute a v := rfl
@[simp] theorem State.coprocExecute_pending (s : State) (a : CoprocAnswer) (v : Word) : (s.coprocExecute a v).pending = s.pending := rfl
@[simp] theorem State.coprocExecute_aborts (s : State) (a : CoprocAnswer) (v : Word) : (s.coprocExecute a v).aborts = s.aborts := rfl
@[simp] theorem State.coprocExecute_platform (s : State) (a : CoprocAnswer) (v : Word) : (s.coprocExecute a v).platform = s.platform := rfl
@[simp] theorem State.coprocExecute_fetchUnit (s : State) (a : CoprocAnswer) (v : Word) : (s.coprocExecute a v).fetchUnit = s.fetchUnit := rfl
@[simp] theorem State.coprocExecute_outputs (s : State) (a : CoprocAnswer) (v : Word) : (s.coprocExecute a v).outputs = s.outputs := rfl
@[simp] theorem State.coprocExecute_freeCount (s : State) (a : CoprocAnswer) (v : Word) : (s.coprocExecute a v).freeCount = s.freeCount := rfl
@[simp] theorem State.coprocExecute_cfg (s : State) (a : CoprocAnswer) (v : Word) : (s.coprocExecute a v).cfg = s.cfg := rfl

/-! ## outsideWrite -/

@[simp] theorem State.outsideWrite_regs (s : State) (c : Host.Cell) : (s.outsideWrite c).regs = s.regs := rfl
@[simp] theorem State.outsideWrite_pc (s : State) (c : Host.Cell) : (s.outsideWrite c).pc = s.pc := rfl
@[simp] theorem State.outsideWrite_cpsr (s : State) (c : Host.Cell) : (s.outsideWrite c).cpsr = s.cpsr := rfl
@[simp] theorem State.outsideWrite_spsrs (s : State) (c : Host.Cell) : (s.outsideWrite c).spsrs = s.spsrs := rfl
@[simp] theorem State.outsideWrite_mem (s : State) (c : Host.Cell) : (s.outsideWrite c).mem = Memory.write s.mem (c.1 % 2 ^ 32) c.2 := rfl
@[simp] theorem State.outsideWrite_marks (s : State) (c : Host.Cell) : (s.outsideWrite c).marks = insertAddr (c.1 % 2 ^ 32) s.marks := rfl
@[simp] theorem State.outsideWrite_ran26 (s : State) (c : Host.Cell) : (s.outsideWrite c).ran26 = s.ran26 := rfl
@[simp] theorem State.outsideWrite_ran32 (s : State) (c : Host.Cell) : (s.outsideWrite c).ran32 = s.ran32 := rfl
@[simp] theorem State.outsideWrite_userLdm (s : State) (c : Host.Cell) : (s.outsideWrite c).userLdm = s.userLdm := rfl
@[simp] theorem State.outsideWrite_busyWait (s : State) (c : Host.Cell) : (s.outsideWrite c).busyWait = s.busyWait := rfl
@[simp] theorem State.outsideWrite_lines (s : State) (c : Host.Cell) : (s.outsideWrite c).lines = s.lines := rfl
@[simp] theorem State.outsideWrite_coproc (s : State) (c : Host.Cell) : (s.outsideWrite c).coproc = s.coproc := rfl
@[simp] theorem State.outsideWrite_pending (s : State) (c : Host.Cell) : (s.outsideWrite c).pending = s.pending := rfl
@[simp] theorem State.outsideWrite_aborts (s : State) (c : Host.Cell) : (s.outsideWrite c).aborts = s.aborts := rfl
@[simp] theorem State.outsideWrite_platform (s : State) (c : Host.Cell) : (s.outsideWrite c).platform = s.platform := rfl
@[simp] theorem State.outsideWrite_fetchUnit (s : State) (c : Host.Cell) : (s.outsideWrite c).fetchUnit = s.fetchUnit := rfl
@[simp] theorem State.outsideWrite_outputs (s : State) (c : Host.Cell) : (s.outsideWrite c).outputs = s.outputs := rfl
@[simp] theorem State.outsideWrite_freeCount (s : State) (c : Host.Cell) : (s.outsideWrite c).freeCount = s.freeCount := rfl
@[simp] theorem State.outsideWrite_cfg (s : State) (c : Host.Cell) : (s.outsideWrite c).cfg = s.cfg := rfl

/-! ## storeHalf -/

@[simp] theorem State.storeHalf_regs (s : State) (a : Word) (v : Half) : (s.storeHalf a v).regs = s.regs := rfl
@[simp] theorem State.storeHalf_pc (s : State) (a : Word) (v : Half) : (s.storeHalf a v).pc = s.pc := rfl
@[simp] theorem State.storeHalf_cpsr (s : State) (a : Word) (v : Half) : (s.storeHalf a v).cpsr = s.cpsr := rfl
@[simp] theorem State.storeHalf_spsrs (s : State) (a : Word) (v : Half) : (s.storeHalf a v).spsrs = s.spsrs := rfl
@[simp] theorem State.storeHalf_mem (s : State) (a : Word) (v : Half) : (s.storeHalf a v).mem = Memory.writeBytes s.mem a.toNat (halfBytes s.cfg.bigend v) := rfl
@[simp] theorem State.storeHalf_marks (s : State) (a : Word) (v : Half) : (s.storeHalf a v).marks = insertAddrs a.toNat 2 s.marks := by
  unfold State.storeHalf State.storeBytes halfBytes
  split <;> rfl
@[simp] theorem State.storeHalf_ran26 (s : State) (a : Word) (v : Half) : (s.storeHalf a v).ran26 = s.ran26 := rfl
@[simp] theorem State.storeHalf_ran32 (s : State) (a : Word) (v : Half) : (s.storeHalf a v).ran32 = s.ran32 := rfl
@[simp] theorem State.storeHalf_userLdm (s : State) (a : Word) (v : Half) : (s.storeHalf a v).userLdm = s.userLdm := rfl
@[simp] theorem State.storeHalf_busyWait (s : State) (a : Word) (v : Half) : (s.storeHalf a v).busyWait = s.busyWait := rfl
@[simp] theorem State.storeHalf_lines (s : State) (a : Word) (v : Half) : (s.storeHalf a v).lines = s.lines := rfl
@[simp] theorem State.storeHalf_coproc (s : State) (a : Word) (v : Half) : (s.storeHalf a v).coproc = s.coproc := rfl
@[simp] theorem State.storeHalf_pending (s : State) (a : Word) (v : Half) : (s.storeHalf a v).pending = s.pending := rfl
@[simp] theorem State.storeHalf_aborts (s : State) (a : Word) (v : Half) : (s.storeHalf a v).aborts = s.aborts := rfl
@[simp] theorem State.storeHalf_platform (s : State) (a : Word) (v : Half) : (s.storeHalf a v).platform = s.platform := rfl
@[simp] theorem State.storeHalf_fetchUnit (s : State) (a : Word) (v : Half) : (s.storeHalf a v).fetchUnit = s.fetchUnit := rfl
@[simp] theorem State.storeHalf_outputs (s : State) (a : Word) (v : Half) : (s.storeHalf a v).outputs = s.outputs := rfl
@[simp] theorem State.storeHalf_freeCount (s : State) (a : Word) (v : Half) : (s.storeHalf a v).freeCount = s.freeCount := rfl
@[simp] theorem State.storeHalf_cfg (s : State) (a : Word) (v : Half) : (s.storeHalf a v).cfg = s.cfg := rfl

/-! ## setRegIn -/

@[simp] theorem State.setRegIn_pc (s : State) (k : Bank) (r : Reg) (v : Word) : (s.setRegIn k r v).pc = s.pc := by
  unfold State.setRegIn
  split <;> rfl
@[simp] theorem State.setRegIn_cpsr (s : State) (k : Bank) (r : Reg) (v : Word) : (s.setRegIn k r v).cpsr = s.cpsr := by
  unfold State.setRegIn
  split <;> rfl
@[simp] theorem State.setRegIn_spsrs (s : State) (k : Bank) (r : Reg) (v : Word) : (s.setRegIn k r v).spsrs = s.spsrs := by
  unfold State.setRegIn
  split <;> rfl
@[simp] theorem State.setRegIn_mem (s : State) (k : Bank) (r : Reg) (v : Word) : (s.setRegIn k r v).mem = s.mem := by
  unfold State.setRegIn
  split <;> rfl
@[simp] theorem State.setRegIn_marks (s : State) (k : Bank) (r : Reg) (v : Word) : (s.setRegIn k r v).marks = s.marks := by
  unfold State.setRegIn
  split <;> rfl
@[simp] theorem State.setRegIn_ran26 (s : State) (k : Bank) (r : Reg) (v : Word) : (s.setRegIn k r v).ran26 = s.ran26 := by
  unfold State.setRegIn
  split <;> rfl
@[simp] theorem State.setRegIn_ran32 (s : State) (k : Bank) (r : Reg) (v : Word) : (s.setRegIn k r v).ran32 = s.ran32 := by
  unfold State.setRegIn
  split <;> rfl
@[simp] theorem State.setRegIn_userLdm (s : State) (k : Bank) (r : Reg) (v : Word) : (s.setRegIn k r v).userLdm = s.userLdm := by
  unfold State.setRegIn
  split <;> rfl
@[simp] theorem State.setRegIn_busyWait (s : State) (k : Bank) (r : Reg) (v : Word) : (s.setRegIn k r v).busyWait = s.busyWait := by
  unfold State.setRegIn
  split <;> rfl
@[simp] theorem State.setRegIn_lines (s : State) (k : Bank) (r : Reg) (v : Word) : (s.setRegIn k r v).lines = s.lines := by
  unfold State.setRegIn
  split <;> rfl
@[simp] theorem State.setRegIn_coproc (s : State) (k : Bank) (r : Reg) (v : Word) : (s.setRegIn k r v).coproc = s.coproc := by
  unfold State.setRegIn
  split <;> rfl
@[simp] theorem State.setRegIn_pending (s : State) (k : Bank) (r : Reg) (v : Word) : (s.setRegIn k r v).pending = s.pending := by
  unfold State.setRegIn
  split <;> rfl
@[simp] theorem State.setRegIn_aborts (s : State) (k : Bank) (r : Reg) (v : Word) : (s.setRegIn k r v).aborts = s.aborts := by
  unfold State.setRegIn
  split <;> rfl
@[simp] theorem State.setRegIn_platform (s : State) (k : Bank) (r : Reg) (v : Word) : (s.setRegIn k r v).platform = s.platform := by
  unfold State.setRegIn
  split <;> rfl
@[simp] theorem State.setRegIn_fetchUnit (s : State) (k : Bank) (r : Reg) (v : Word) : (s.setRegIn k r v).fetchUnit = s.fetchUnit := by
  unfold State.setRegIn
  split <;> rfl
@[simp] theorem State.setRegIn_outputs (s : State) (k : Bank) (r : Reg) (v : Word) : (s.setRegIn k r v).outputs = s.outputs := by
  unfold State.setRegIn
  split <;> rfl
@[simp] theorem State.setRegIn_freeCount (s : State) (k : Bank) (r : Reg) (v : Word) : (s.setRegIn k r v).freeCount = s.freeCount := by
  unfold State.setRegIn
  split <;> rfl
@[simp] theorem State.setRegIn_cfg (s : State) (k : Bank) (r : Reg) (v : Word) : (s.setRegIn k r v).cfg = s.cfg := by
  unfold State.setRegIn
  split <;> rfl

/-! ## setReg -/

@[simp] theorem State.setReg_pc (s : State) (r : Reg) (v : Word) : (s.setReg r v).pc = s.pc := by
  unfold State.setReg State.setRegIn
  split <;> rfl
@[simp] theorem State.setReg_cpsr (s : State) (r : Reg) (v : Word) : (s.setReg r v).cpsr = s.cpsr := by
  unfold State.setReg State.setRegIn
  split <;> rfl
@[simp] theorem State.setReg_spsrs (s : State) (r : Reg) (v : Word) : (s.setReg r v).spsrs = s.spsrs := by
  unfold State.setReg State.setRegIn
  split <;> rfl
@[simp] theorem State.setReg_mem (s : State) (r : Reg) (v : Word) : (s.setReg r v).mem = s.mem := by
  unfold State.setReg State.setRegIn
  split <;> rfl
@[simp] theorem State.setReg_marks (s : State) (r : Reg) (v : Word) : (s.setReg r v).marks = s.marks := by
  unfold State.setReg State.setRegIn
  split <;> rfl
@[simp] theorem State.setReg_ran26 (s : State) (r : Reg) (v : Word) : (s.setReg r v).ran26 = s.ran26 := by
  unfold State.setReg State.setRegIn
  split <;> rfl
@[simp] theorem State.setReg_ran32 (s : State) (r : Reg) (v : Word) : (s.setReg r v).ran32 = s.ran32 := by
  unfold State.setReg State.setRegIn
  split <;> rfl
@[simp] theorem State.setReg_userLdm (s : State) (r : Reg) (v : Word) : (s.setReg r v).userLdm = s.userLdm := by
  unfold State.setReg State.setRegIn
  split <;> rfl
@[simp] theorem State.setReg_busyWait (s : State) (r : Reg) (v : Word) : (s.setReg r v).busyWait = s.busyWait := by
  unfold State.setReg State.setRegIn
  split <;> rfl
@[simp] theorem State.setReg_lines (s : State) (r : Reg) (v : Word) : (s.setReg r v).lines = s.lines := by
  unfold State.setReg State.setRegIn
  split <;> rfl
@[simp] theorem State.setReg_coproc (s : State) (r : Reg) (v : Word) : (s.setReg r v).coproc = s.coproc := by
  unfold State.setReg State.setRegIn
  split <;> rfl
@[simp] theorem State.setReg_pending (s : State) (r : Reg) (v : Word) : (s.setReg r v).pending = s.pending := by
  unfold State.setReg State.setRegIn
  split <;> rfl
@[simp] theorem State.setReg_aborts (s : State) (r : Reg) (v : Word) : (s.setReg r v).aborts = s.aborts := by
  unfold State.setReg State.setRegIn
  split <;> rfl
@[simp] theorem State.setReg_platform (s : State) (r : Reg) (v : Word) : (s.setReg r v).platform = s.platform := by
  unfold State.setReg State.setRegIn
  split <;> rfl
@[simp] theorem State.setReg_fetchUnit (s : State) (r : Reg) (v : Word) : (s.setReg r v).fetchUnit = s.fetchUnit := by
  unfold State.setReg State.setRegIn
  split <;> rfl
@[simp] theorem State.setReg_outputs (s : State) (r : Reg) (v : Word) : (s.setReg r v).outputs = s.outputs := by
  unfold State.setReg State.setRegIn
  split <;> rfl
@[simp] theorem State.setReg_freeCount (s : State) (r : Reg) (v : Word) : (s.setReg r v).freeCount = s.freeCount := by
  unfold State.setReg State.setRegIn
  split <;> rfl
@[simp] theorem State.setReg_cfg (s : State) (r : Reg) (v : Word) : (s.setReg r v).cfg = s.cfg := by
  unfold State.setReg State.setRegIn
  split <;> rfl

/-! ## noteRan -/

@[simp] theorem State.noteRan_regs (s : State) : (s.noteRan).regs = s.regs := by
  unfold State.noteRan
  split <;> rfl
@[simp] theorem State.noteRan_pc (s : State) : (s.noteRan).pc = s.pc := by
  unfold State.noteRan
  split <;> rfl
@[simp] theorem State.noteRan_cpsr (s : State) : (s.noteRan).cpsr = s.cpsr := by
  unfold State.noteRan
  split <;> rfl
@[simp] theorem State.noteRan_spsrs (s : State) : (s.noteRan).spsrs = s.spsrs := by
  unfold State.noteRan
  split <;> rfl
@[simp] theorem State.noteRan_mem (s : State) : (s.noteRan).mem = s.mem := by
  unfold State.noteRan
  split <;> rfl
@[simp] theorem State.noteRan_marks (s : State) : (s.noteRan).marks = s.marks := by
  unfold State.noteRan
  split <;> rfl
@[simp] theorem State.noteRan_userLdm (s : State) : (s.noteRan).userLdm = s.userLdm := by
  unfold State.noteRan
  split <;> rfl
@[simp] theorem State.noteRan_busyWait (s : State) : (s.noteRan).busyWait = s.busyWait := by
  unfold State.noteRan
  split <;> rfl
@[simp] theorem State.noteRan_lines (s : State) : (s.noteRan).lines = s.lines := by
  unfold State.noteRan
  split <;> rfl
@[simp] theorem State.noteRan_coproc (s : State) : (s.noteRan).coproc = s.coproc := by
  unfold State.noteRan
  split <;> rfl
@[simp] theorem State.noteRan_pending (s : State) : (s.noteRan).pending = s.pending := by
  unfold State.noteRan
  split <;> rfl
@[simp] theorem State.noteRan_aborts (s : State) : (s.noteRan).aborts = s.aborts := by
  unfold State.noteRan
  split <;> rfl
@[simp] theorem State.noteRan_platform (s : State) : (s.noteRan).platform = s.platform := by
  unfold State.noteRan
  split <;> rfl
@[simp] theorem State.noteRan_fetchUnit (s : State) : (s.noteRan).fetchUnit = s.fetchUnit := by
  unfold State.noteRan
  split <;> rfl
@[simp] theorem State.noteRan_outputs (s : State) : (s.noteRan).outputs = s.outputs := by
  unfold State.noteRan
  split <;> rfl
@[simp] theorem State.noteRan_freeCount (s : State) : (s.noteRan).freeCount = s.freeCount := by
  unfold State.noteRan
  split <;> rfl
@[simp] theorem State.noteRan_cfg (s : State) : (s.noteRan).cfg = s.cfg := by
  unfold State.noteRan
  split <;> rfl

/-! ## requestFetch -/

@[simp] theorem State.requestFetch_regs (s : State) : (s.requestFetch).regs = s.regs := by
  unfold State.requestFetch
  split <;> rfl
@[simp] theorem State.requestFetch_pc (s : State) : (s.requestFetch).pc = s.pc := by
  unfold State.requestFetch
  split <;> rfl
@[simp] theorem State.requestFetch_cpsr (s : State) : (s.requestFetch).cpsr = s.cpsr := by
  unfold State.requestFetch
  split <;> rfl
@[simp] theorem State.requestFetch_spsrs (s : State) : (s.requestFetch).spsrs = s.spsrs := by
  unfold State.requestFetch
  split <;> rfl
@[simp] theorem State.requestFetch_mem (s : State) : (s.requestFetch).mem = s.mem := by
  unfold State.requestFetch
  split <;> rfl
@[simp] theorem State.requestFetch_marks (s : State) : (s.requestFetch).marks = s.marks := by
  unfold State.requestFetch
  split <;> rfl
@[simp] theorem State.requestFetch_ran26 (s : State) : (s.requestFetch).ran26 = s.ran26 := by
  unfold State.requestFetch
  split <;> rfl
@[simp] theorem State.requestFetch_ran32 (s : State) : (s.requestFetch).ran32 = s.ran32 := by
  unfold State.requestFetch
  split <;> rfl
@[simp] theorem State.requestFetch_userLdm (s : State) : (s.requestFetch).userLdm = s.userLdm := by
  unfold State.requestFetch
  split <;> rfl
@[simp] theorem State.requestFetch_busyWait (s : State) : (s.requestFetch).busyWait = s.busyWait := by
  unfold State.requestFetch
  split <;> rfl
@[simp] theorem State.requestFetch_lines (s : State) : (s.requestFetch).lines = s.lines := by
  unfold State.requestFetch
  split <;> rfl
@[simp] theorem State.requestFetch_coproc (s : State) : (s.requestFetch).coproc = s.coproc := by
  unfold State.requestFetch
  split <;> rfl
@[simp] theorem State.requestFetch_pending (s : State) : (s.requestFetch).pending = s.pending := by
  unfold State.requestFetch
  split <;> rfl
@[simp] theorem State.requestFetch_aborts (s : State) : (s.requestFetch).aborts = s.aborts := by
  unfold State.requestFetch
  split <;> rfl
@[simp] theorem State.requestFetch_platform (s : State) : (s.requestFetch).platform = s.platform := by
  unfold State.requestFetch
  split <;> rfl
@[simp] theorem State.requestFetch_freeCount (s : State) : (s.requestFetch).freeCount = s.freeCount := by
  unfold State.requestFetch
  split <;> rfl
@[simp] theorem State.requestFetch_cfg (s : State) : (s.requestFetch).cfg = s.cfg := by
  unfold State.requestFetch
  split <;> rfl

/-! ## fetchAhead -/

@[simp] theorem State.fetchAhead_regs (s : State) (p : FetchAhead) : (s.fetchAhead p).regs = s.regs := by
  unfold State.fetchAhead
  dsimp only
  split
  · rfl
  · split <;> rfl
@[simp] theorem State.fetchAhead_pc (s : State) (p : FetchAhead) : (s.fetchAhead p).pc = s.pc := by
  unfold State.fetchAhead
  dsimp only
  split
  · rfl
  · split <;> rfl
@[simp] theorem State.fetchAhead_cpsr (s : State) (p : FetchAhead) : (s.fetchAhead p).cpsr = s.cpsr := by
  unfold State.fetchAhead
  dsimp only
  split
  · rfl
  · split <;> rfl
@[simp] theorem State.fetchAhead_spsrs (s : State) (p : FetchAhead) : (s.fetchAhead p).spsrs = s.spsrs := by
  unfold State.fetchAhead
  dsimp only
  split
  · rfl
  · split <;> rfl
@[simp] theorem State.fetchAhead_mem (s : State) (p : FetchAhead) : (s.fetchAhead p).mem = s.mem := by
  unfold State.fetchAhead
  dsimp only
  split
  · rfl
  · split <;> rfl
@[simp] theorem State.fetchAhead_marks (s : State) (p : FetchAhead) : (s.fetchAhead p).marks = s.marks := by
  unfold State.fetchAhead
  dsimp only
  split
  · rfl
  · split <;> rfl
@[simp] theorem State.fetchAhead_ran26 (s : State) (p : FetchAhead) : (s.fetchAhead p).ran26 = s.ran26 := by
  unfold State.fetchAhead
  dsimp only
  split
  · rfl
  · split <;> rfl
@[simp] theorem State.fetchAhead_ran32 (s : State) (p : FetchAhead) : (s.fetchAhead p).ran32 = s.ran32 := by
  unfold State.fetchAhead
  dsimp only
  split
  · rfl
  · split <;> rfl
@[simp] theorem State.fetchAhead_userLdm (s : State) (p : FetchAhead) : (s.fetchAhead p).userLdm = s.userLdm := by
  unfold State.fetchAhead
  dsimp only
  split
  · rfl
  · split <;> rfl
@[simp] theorem State.fetchAhead_busyWait (s : State) (p : FetchAhead) : (s.fetchAhead p).busyWait = s.busyWait := by
  unfold State.fetchAhead
  dsimp only
  split
  · rfl
  · split <;> rfl
@[simp] theorem State.fetchAhead_lines (s : State) (p : FetchAhead) : (s.fetchAhead p).lines = s.lines := by
  unfold State.fetchAhead
  dsimp only
  split
  · rfl
  · split <;> rfl
@[simp] theorem State.fetchAhead_coproc (s : State) (p : FetchAhead) : (s.fetchAhead p).coproc = s.coproc := by
  unfold State.fetchAhead
  dsimp only
  split
  · rfl
  · split <;> rfl
@[simp] theorem State.fetchAhead_pending (s : State) (p : FetchAhead) : (s.fetchAhead p).pending = s.pending := by
  unfold State.fetchAhead
  dsimp only
  split
  · rfl
  · split <;> rfl
@[simp] theorem State.fetchAhead_aborts (s : State) (p : FetchAhead) : (s.fetchAhead p).aborts = s.aborts := by
  unfold State.fetchAhead
  dsimp only
  split
  · rfl
  · split <;> rfl
@[simp] theorem State.fetchAhead_platform (s : State) (p : FetchAhead) : (s.fetchAhead p).platform = s.platform := by
  unfold State.fetchAhead
  dsimp only
  split
  · rfl
  · split <;> rfl
@[simp] theorem State.fetchAhead_freeCount (s : State) (p : FetchAhead) : (s.fetchAhead p).freeCount = s.freeCount := by
  unfold State.fetchAhead
  dsimp only
  split
  · rfl
  · split <;> rfl
@[simp] theorem State.fetchAhead_cfg (s : State) (p : FetchAhead) : (s.fetchAhead p).cfg = s.cfg := by
  unfold State.fetchAhead
  dsimp only
  split
  · rfl
  · split <;> rfl

/-! ## deviceReacts -/

@[simp] theorem State.deviceReacts_regs (t : Transaction) (s : State) (d : DeviceByte) :
    (State.deviceReacts t s d).regs = s.regs := by
  unfold State.deviceReacts
  split
  · rfl
  · split <;> rfl
@[simp] theorem State.deviceReacts_pc (t : Transaction) (s : State) (d : DeviceByte) :
    (State.deviceReacts t s d).pc = s.pc := by
  unfold State.deviceReacts
  split
  · rfl
  · split <;> rfl
@[simp] theorem State.deviceReacts_cpsr (t : Transaction) (s : State) (d : DeviceByte) :
    (State.deviceReacts t s d).cpsr = s.cpsr := by
  unfold State.deviceReacts
  split
  · rfl
  · split <;> rfl
@[simp] theorem State.deviceReacts_spsrs (t : Transaction) (s : State) (d : DeviceByte) :
    (State.deviceReacts t s d).spsrs = s.spsrs := by
  unfold State.deviceReacts
  split
  · rfl
  · split <;> rfl
@[simp] theorem State.deviceReacts_ran26 (t : Transaction) (s : State) (d : DeviceByte) :
    (State.deviceReacts t s d).ran26 = s.ran26 := by
  unfold State.deviceReacts
  split
  · rfl
  · split <;> rfl
@[simp] theorem State.deviceReacts_ran32 (t : Transaction) (s : State) (d : DeviceByte) :
    (State.deviceReacts t s d).ran32 = s.ran32 := by
  unfold State.deviceReacts
  split
  · rfl
  · split <;> rfl
@[simp] theorem State.deviceReacts_userLdm (t : Transaction) (s : State) (d : DeviceByte) :
    (State.deviceReacts t s d).userLdm = s.userLdm := by
  unfold State.deviceReacts
  split
  · rfl
  · split <;> rfl
@[simp] theorem State.deviceReacts_busyWait (t : Transaction) (s : State) (d : DeviceByte) :
    (State.deviceReacts t s d).busyWait = s.busyWait := by
  unfold State.deviceReacts
  split
  · rfl
  · split <;> rfl
@[simp] theorem State.deviceReacts_lines (t : Transaction) (s : State) (d : DeviceByte) :
    (State.deviceReacts t s d).lines = s.lines := by
  unfold State.deviceReacts
  split
  · rfl
  · split <;> rfl
@[simp] theorem State.deviceReacts_coproc (t : Transaction) (s : State) (d : DeviceByte) :
    (State.deviceReacts t s d).coproc = s.coproc := by
  unfold State.deviceReacts
  split
  · rfl
  · split <;> rfl
@[simp] theorem State.deviceReacts_pending (t : Transaction) (s : State) (d : DeviceByte) :
    (State.deviceReacts t s d).pending = s.pending := by
  unfold State.deviceReacts
  split
  · rfl
  · split <;> rfl
@[simp] theorem State.deviceReacts_aborts (t : Transaction) (s : State) (d : DeviceByte) :
    (State.deviceReacts t s d).aborts = s.aborts := by
  unfold State.deviceReacts
  split
  · rfl
  · split <;> rfl
@[simp] theorem State.deviceReacts_platform (t : Transaction) (s : State) (d : DeviceByte) :
    (State.deviceReacts t s d).platform = s.platform := by
  unfold State.deviceReacts
  split
  · rfl
  · split <;> rfl
@[simp] theorem State.deviceReacts_fetchUnit (t : Transaction) (s : State) (d : DeviceByte) :
    (State.deviceReacts t s d).fetchUnit = s.fetchUnit := by
  unfold State.deviceReacts
  split
  · rfl
  · split <;> rfl
@[simp] theorem State.deviceReacts_outputs (t : Transaction) (s : State) (d : DeviceByte) :
    (State.deviceReacts t s d).outputs = s.outputs := by
  unfold State.deviceReacts
  split
  · rfl
  · split <;> rfl
@[simp] theorem State.deviceReacts_freeCount (t : Transaction) (s : State) (d : DeviceByte) :
    (State.deviceReacts t s d).freeCount = s.freeCount := by
  unfold State.deviceReacts
  split
  · rfl
  · split <;> rfl
@[simp] theorem State.deviceReacts_cfg (t : Transaction) (s : State) (d : DeviceByte) :
    (State.deviceReacts t s d).cfg = s.cfg := by
  unfold State.deviceReacts
  split
  · rfl
  · split <;> rfl

/-! ## announce -/

@[simp] theorem State.announce_regs (s : State) (i : Instr) (w : Word) : (s.announce i w).regs = s.regs := by
  unfold State.announce
  dsimp only
  split <;> rfl
@[simp] theorem State.announce_pc (s : State) (i : Instr) (w : Word) : (s.announce i w).pc = s.pc := by
  unfold State.announce
  dsimp only
  split <;> rfl
@[simp] theorem State.announce_cpsr (s : State) (i : Instr) (w : Word) : (s.announce i w).cpsr = s.cpsr := by
  unfold State.announce
  dsimp only
  split <;> rfl
@[simp] theorem State.announce_spsrs (s : State) (i : Instr) (w : Word) : (s.announce i w).spsrs = s.spsrs := by
  unfold State.announce
  dsimp only
  split <;> rfl
@[simp] theorem State.announce_mem (s : State) (i : Instr) (w : Word) : (s.announce i w).mem = s.mem := by
  unfold State.announce
  dsimp only
  split <;> rfl
@[simp] theorem State.announce_marks (s : State) (i : Instr) (w : Word) : (s.announce i w).marks = s.marks := by
  unfold State.announce
  dsimp only
  split <;> rfl
@[simp] theorem State.announce_ran26 (s : State) (i : Instr) (w : Word) : (s.announce i w).ran26 = s.ran26 := by
  unfold State.announce
  dsimp only
  split <;> rfl
@[simp] theorem State.announce_ran32 (s : State) (i : Instr) (w : Word) : (s.announce i w).ran32 = s.ran32 := by
  unfold State.announce
  dsimp only
  split <;> rfl
@[simp] theorem State.announce_userLdm (s : State) (i : Instr) (w : Word) : (s.announce i w).userLdm = s.userLdm := by
  unfold State.announce
  dsimp only
  split <;> rfl
@[simp] theorem State.announce_busyWait (s : State) (i : Instr) (w : Word) : (s.announce i w).busyWait = s.busyWait := by
  unfold State.announce
  dsimp only
  split <;> rfl
@[simp] theorem State.announce_lines (s : State) (i : Instr) (w : Word) : (s.announce i w).lines = s.lines := by
  unfold State.announce
  dsimp only
  split <;> rfl
@[simp] theorem State.announce_coproc (s : State) (i : Instr) (w : Word) : (s.announce i w).coproc = s.coproc := by
  unfold State.announce
  dsimp only
  split <;> rfl
@[simp] theorem State.announce_pending (s : State) (i : Instr) (w : Word) : (s.announce i w).pending = s.pending := by
  unfold State.announce
  dsimp only
  split <;> rfl
@[simp] theorem State.announce_aborts (s : State) (i : Instr) (w : Word) : (s.announce i w).aborts = s.aborts := by
  unfold State.announce
  dsimp only
  split <;> rfl
@[simp] theorem State.announce_platform (s : State) (i : Instr) (w : Word) : (s.announce i w).platform = s.platform := by
  unfold State.announce
  dsimp only
  split <;> rfl
@[simp] theorem State.announce_fetchUnit (s : State) (i : Instr) (w : Word) : (s.announce i w).fetchUnit = s.fetchUnit := by
  unfold State.announce
  dsimp only
  split <;> rfl
@[simp] theorem State.announce_freeCount (s : State) (i : Instr) (w : Word) : (s.announce i w).freeCount = s.freeCount := by
  unfold State.announce
  dsimp only
  split <;> rfl
@[simp] theorem State.announce_cfg (s : State) (i : Instr) (w : Word) : (s.announce i w).cfg = s.cfg := by
  unfold State.announce
  dsimp only
  split <;> rfl

/-! ## askFrom -/

@[simp] theorem State.askFrom_regs (s : State) (k n : Nat) : (s.askFrom k n).regs = s.regs := by
  induction n generalizing s k with
  | zero => rfl
  | succ n ih => exact ih (s.ask k) (k + 1)
@[simp] theorem State.askFrom_pc (s : State) (k n : Nat) : (s.askFrom k n).pc = s.pc := by
  induction n generalizing s k with
  | zero => rfl
  | succ n ih => exact ih (s.ask k) (k + 1)
@[simp] theorem State.askFrom_cpsr (s : State) (k n : Nat) : (s.askFrom k n).cpsr = s.cpsr := by
  induction n generalizing s k with
  | zero => rfl
  | succ n ih => exact ih (s.ask k) (k + 1)
@[simp] theorem State.askFrom_spsrs (s : State) (k n : Nat) : (s.askFrom k n).spsrs = s.spsrs := by
  induction n generalizing s k with
  | zero => rfl
  | succ n ih => exact ih (s.ask k) (k + 1)
@[simp] theorem State.askFrom_mem (s : State) (k n : Nat) : (s.askFrom k n).mem = s.mem := by
  induction n generalizing s k with
  | zero => rfl
  | succ n ih => exact ih (s.ask k) (k + 1)
@[simp] theorem State.askFrom_marks (s : State) (k n : Nat) : (s.askFrom k n).marks = s.marks := by
  induction n generalizing s k with
  | zero => rfl
  | succ n ih => exact ih (s.ask k) (k + 1)
@[simp] theorem State.askFrom_ran26 (s : State) (k n : Nat) : (s.askFrom k n).ran26 = s.ran26 := by
  induction n generalizing s k with
  | zero => rfl
  | succ n ih => exact ih (s.ask k) (k + 1)
@[simp] theorem State.askFrom_ran32 (s : State) (k n : Nat) : (s.askFrom k n).ran32 = s.ran32 := by
  induction n generalizing s k with
  | zero => rfl
  | succ n ih => exact ih (s.ask k) (k + 1)
@[simp] theorem State.askFrom_userLdm (s : State) (k n : Nat) : (s.askFrom k n).userLdm = s.userLdm := by
  induction n generalizing s k with
  | zero => rfl
  | succ n ih => exact ih (s.ask k) (k + 1)
@[simp] theorem State.askFrom_busyWait (s : State) (k n : Nat) : (s.askFrom k n).busyWait = s.busyWait := by
  induction n generalizing s k with
  | zero => rfl
  | succ n ih => exact ih (s.ask k) (k + 1)
@[simp] theorem State.askFrom_lines (s : State) (k n : Nat) : (s.askFrom k n).lines = s.lines := by
  induction n generalizing s k with
  | zero => rfl
  | succ n ih => exact ih (s.ask k) (k + 1)
@[simp] theorem State.askFrom_coproc (s : State) (k n : Nat) : (s.askFrom k n).coproc = s.coproc := by
  induction n generalizing s k with
  | zero => rfl
  | succ n ih => exact ih (s.ask k) (k + 1)
@[simp] theorem State.askFrom_pending (s : State) (k n : Nat) : (s.askFrom k n).pending = s.pending := by
  induction n generalizing s k with
  | zero => rfl
  | succ n ih => exact ih (s.ask k) (k + 1)
@[simp] theorem State.askFrom_aborts (s : State) (k n : Nat) : (s.askFrom k n).aborts = s.aborts := by
  induction n generalizing s k with
  | zero => rfl
  | succ n ih => exact ih (s.ask k) (k + 1)
@[simp] theorem State.askFrom_platform (s : State) (k n : Nat) : (s.askFrom k n).platform = s.platform := by
  induction n generalizing s k with
  | zero => rfl
  | succ n ih => exact ih (s.ask k) (k + 1)
@[simp] theorem State.askFrom_outputs (s : State) (k n : Nat) : (s.askFrom k n).outputs = s.outputs := by
  induction n generalizing s k with
  | zero => rfl
  | succ n ih => exact ih (s.ask k) (k + 1)
@[simp] theorem State.askFrom_freeCount (s : State) (k n : Nat) : (s.askFrom k n).freeCount = s.freeCount := by
  induction n generalizing s k with
  | zero => rfl
  | succ n ih => exact ih (s.ask k) (k + 1)
@[simp] theorem State.askFrom_cfg (s : State) (k n : Nat) : (s.askFrom k n).cfg = s.cfg := by
  induction n generalizing s k with
  | zero => rfl
  | succ n ih => exact ih (s.ask k) (k + 1)

/-! ## asked -/

@[simp] theorem State.asked_regs (s : State) (n : Nat) : (s.asked n).regs = s.regs := s.askFrom_regs 0 n
@[simp] theorem State.asked_pc (s : State) (n : Nat) : (s.asked n).pc = s.pc := s.askFrom_pc 0 n
@[simp] theorem State.asked_cpsr (s : State) (n : Nat) : (s.asked n).cpsr = s.cpsr := s.askFrom_cpsr 0 n
@[simp] theorem State.asked_spsrs (s : State) (n : Nat) : (s.asked n).spsrs = s.spsrs := s.askFrom_spsrs 0 n
@[simp] theorem State.asked_mem (s : State) (n : Nat) : (s.asked n).mem = s.mem := s.askFrom_mem 0 n
@[simp] theorem State.asked_marks (s : State) (n : Nat) : (s.asked n).marks = s.marks := s.askFrom_marks 0 n
@[simp] theorem State.asked_ran26 (s : State) (n : Nat) : (s.asked n).ran26 = s.ran26 := s.askFrom_ran26 0 n
@[simp] theorem State.asked_ran32 (s : State) (n : Nat) : (s.asked n).ran32 = s.ran32 := s.askFrom_ran32 0 n
@[simp] theorem State.asked_userLdm (s : State) (n : Nat) : (s.asked n).userLdm = s.userLdm := s.askFrom_userLdm 0 n
@[simp] theorem State.asked_busyWait (s : State) (n : Nat) : (s.asked n).busyWait = s.busyWait := s.askFrom_busyWait 0 n
@[simp] theorem State.asked_lines (s : State) (n : Nat) : (s.asked n).lines = s.lines := s.askFrom_lines 0 n
@[simp] theorem State.asked_coproc (s : State) (n : Nat) : (s.asked n).coproc = s.coproc := s.askFrom_coproc 0 n
@[simp] theorem State.asked_pending (s : State) (n : Nat) : (s.asked n).pending = s.pending := s.askFrom_pending 0 n
@[simp] theorem State.asked_aborts (s : State) (n : Nat) : (s.asked n).aborts = s.aborts := s.askFrom_aborts 0 n
@[simp] theorem State.asked_platform (s : State) (n : Nat) : (s.asked n).platform = s.platform := s.askFrom_platform 0 n
@[simp] theorem State.asked_outputs (s : State) (n : Nat) : (s.asked n).outputs = s.outputs := s.askFrom_outputs 0 n
@[simp] theorem State.asked_freeCount (s : State) (n : Nat) : (s.asked n).freeCount = s.freeCount := s.askFrom_freeCount 0 n
@[simp] theorem State.asked_cfg (s : State) (n : Nat) : (s.asked n).cfg = s.cfg := s.askFrom_cfg 0 n

/-! ## mcrWait -/

@[simp] theorem State.mcrWait_regs (s : State) (rd : Reg) : (s.mcrWait rd).regs = s.regs := by
  unfold State.mcrWait
  split
  · split <;> rfl
  · rfl
@[simp] theorem State.mcrWait_pc (s : State) (rd : Reg) : (s.mcrWait rd).pc = s.pc := by
  unfold State.mcrWait
  split
  · split <;> rfl
  · rfl
@[simp] theorem State.mcrWait_cpsr (s : State) (rd : Reg) : (s.mcrWait rd).cpsr = s.cpsr := by
  unfold State.mcrWait
  split
  · split <;> rfl
  · rfl
@[simp] theorem State.mcrWait_spsrs (s : State) (rd : Reg) : (s.mcrWait rd).spsrs = s.spsrs := by
  unfold State.mcrWait
  split
  · split <;> rfl
  · rfl
@[simp] theorem State.mcrWait_mem (s : State) (rd : Reg) : (s.mcrWait rd).mem = s.mem := by
  unfold State.mcrWait
  split
  · split <;> rfl
  · rfl
@[simp] theorem State.mcrWait_marks (s : State) (rd : Reg) : (s.mcrWait rd).marks = s.marks := by
  unfold State.mcrWait
  split
  · split <;> rfl
  · rfl
@[simp] theorem State.mcrWait_ran26 (s : State) (rd : Reg) : (s.mcrWait rd).ran26 = s.ran26 := by
  unfold State.mcrWait
  split
  · split <;> rfl
  · rfl
@[simp] theorem State.mcrWait_ran32 (s : State) (rd : Reg) : (s.mcrWait rd).ran32 = s.ran32 := by
  unfold State.mcrWait
  split
  · split <;> rfl
  · rfl
@[simp] theorem State.mcrWait_userLdm (s : State) (rd : Reg) : (s.mcrWait rd).userLdm = s.userLdm := by
  unfold State.mcrWait
  split
  · split <;> rfl
  · rfl
@[simp] theorem State.mcrWait_busyWait (s : State) (rd : Reg) : (s.mcrWait rd).busyWait = s.busyWait := by
  unfold State.mcrWait
  split
  · split <;> rfl
  · rfl
@[simp] theorem State.mcrWait_lines (s : State) (rd : Reg) : (s.mcrWait rd).lines = s.lines := by
  unfold State.mcrWait
  split
  · split <;> rfl
  · rfl
@[simp] theorem State.mcrWait_coproc (s : State) (rd : Reg) : (s.mcrWait rd).coproc = s.coproc := by
  unfold State.mcrWait
  split
  · split <;> rfl
  · rfl
@[simp] theorem State.mcrWait_pending (s : State) (rd : Reg) : (s.mcrWait rd).pending = s.pending := by
  unfold State.mcrWait
  split
  · split <;> rfl
  · rfl
@[simp] theorem State.mcrWait_aborts (s : State) (rd : Reg) : (s.mcrWait rd).aborts = s.aborts := by
  unfold State.mcrWait
  split
  · split <;> rfl
  · rfl
@[simp] theorem State.mcrWait_platform (s : State) (rd : Reg) : (s.mcrWait rd).platform = s.platform := by
  unfold State.mcrWait
  split
  · split <;> rfl
  · rfl
@[simp] theorem State.mcrWait_fetchUnit (s : State) (rd : Reg) : (s.mcrWait rd).fetchUnit = s.fetchUnit := by
  unfold State.mcrWait
  split
  · split <;> rfl
  · rfl
@[simp] theorem State.mcrWait_cfg (s : State) (rd : Reg) : (s.mcrWait rd).cfg = s.cfg := by
  unfold State.mcrWait
  split
  · split <;> rfl
  · rfl

/-! ## issue -/

@[simp] theorem State.issue_regs (s : State) (i : Instr) (w : Word) : (s.issue i w).regs = s.regs := by
  simp [State.issue]
@[simp] theorem State.issue_pc (s : State) (i : Instr) (w : Word) : (s.issue i w).pc = s.pc := by
  simp [State.issue]
@[simp] theorem State.issue_cpsr (s : State) (i : Instr) (w : Word) : (s.issue i w).cpsr = s.cpsr := by
  simp [State.issue]
@[simp] theorem State.issue_spsrs (s : State) (i : Instr) (w : Word) : (s.issue i w).spsrs = s.spsrs := by
  simp [State.issue]
@[simp] theorem State.issue_mem (s : State) (i : Instr) (w : Word) : (s.issue i w).mem = s.mem := by
  simp [State.issue]
@[simp] theorem State.issue_marks (s : State) (i : Instr) (w : Word) : (s.issue i w).marks = s.marks := by
  simp [State.issue]
@[simp] theorem State.issue_ran26 (s : State) (i : Instr) (w : Word) : (s.issue i w).ran26 = s.noteRan.ran26 := by
  simp [State.issue]
@[simp] theorem State.issue_ran32 (s : State) (i : Instr) (w : Word) : (s.issue i w).ran32 = s.noteRan.ran32 := by
  simp [State.issue]
@[simp] theorem State.issue_userLdm (s : State) (i : Instr) (w : Word) : (s.issue i w).userLdm = s.userLdm := by
  simp [State.issue]
@[simp] theorem State.issue_busyWait (s : State) (i : Instr) (w : Word) : (s.issue i w).busyWait = s.busyWait := by
  simp [State.issue]
@[simp] theorem State.issue_lines (s : State) (i : Instr) (w : Word) : (s.issue i w).lines = s.lines := by
  simp [State.issue]
@[simp] theorem State.issue_coproc (s : State) (i : Instr) (w : Word) : (s.issue i w).coproc = s.coproc := by
  simp [State.issue]
@[simp] theorem State.issue_pending (s : State) (i : Instr) (w : Word) : (s.issue i w).pending = s.pending := by
  simp [State.issue]
@[simp] theorem State.issue_aborts (s : State) (i : Instr) (w : Word) : (s.issue i w).aborts = s.aborts := by
  simp [State.issue]
@[simp] theorem State.issue_platform (s : State) (i : Instr) (w : Word) : (s.issue i w).platform = s.platform := by
  simp [State.issue]
@[simp] theorem State.issue_fetchUnit (s : State) (i : Instr) (w : Word) : (s.issue i w).fetchUnit = { s.fetchUnit with ir := some w } := by
  simp [State.issue]
@[simp] theorem State.issue_freeCount (s : State) (i : Instr) (w : Word) : (s.issue i w).freeCount = s.freeCount := by
  simp [State.issue]
@[simp] theorem State.issue_cfg (s : State) (i : Instr) (w : Word) : (s.issue i w).cfg = s.cfg := by
  simp [State.issue]

/-! ## abandon -/

@[simp] theorem State.abandon_regs (s : State) : s.abandon.regs = s.regs := by
  unfold State.abandon
  split <;> rfl
@[simp] theorem State.abandon_pc (s : State) : s.abandon.pc = s.pc := by
  unfold State.abandon
  split <;> rfl
@[simp] theorem State.abandon_cpsr (s : State) : s.abandon.cpsr = s.cpsr := by
  unfold State.abandon
  split <;> rfl
@[simp] theorem State.abandon_spsrs (s : State) : s.abandon.spsrs = s.spsrs := by
  unfold State.abandon
  split <;> rfl
@[simp] theorem State.abandon_mem (s : State) : s.abandon.mem = s.mem := by
  unfold State.abandon
  split <;> rfl
@[simp] theorem State.abandon_marks (s : State) : s.abandon.marks = s.marks := by
  unfold State.abandon
  split <;> rfl
@[simp] theorem State.abandon_ran26 (s : State) : s.abandon.ran26 = s.ran26 := by
  unfold State.abandon
  split <;> rfl
@[simp] theorem State.abandon_ran32 (s : State) : s.abandon.ran32 = s.ran32 := by
  unfold State.abandon
  split <;> rfl
@[simp] theorem State.abandon_userLdm (s : State) : s.abandon.userLdm = s.userLdm := by
  unfold State.abandon
  split <;> rfl
@[simp] theorem State.abandon_lines (s : State) : s.abandon.lines = s.lines := by
  unfold State.abandon
  split <;> rfl
@[simp] theorem State.abandon_coproc (s : State) : s.abandon.coproc = s.coproc := by
  unfold State.abandon
  split <;> rfl
@[simp] theorem State.abandon_pending (s : State) : s.abandon.pending = s.pending := by
  unfold State.abandon
  split <;> rfl
@[simp] theorem State.abandon_aborts (s : State) : s.abandon.aborts = s.aborts := by
  unfold State.abandon
  split <;> rfl
@[simp] theorem State.abandon_platform (s : State) : s.abandon.platform = s.platform := by
  unfold State.abandon
  split <;> rfl
@[simp] theorem State.abandon_fetchUnit (s : State) : s.abandon.fetchUnit = s.fetchUnit := by
  unfold State.abandon
  split <;> rfl
@[simp] theorem State.abandon_freeCount (s : State) : s.abandon.freeCount = s.freeCount := by
  unfold State.abandon
  split <;> rfl
@[simp] theorem State.abandon_cfg (s : State) : s.abandon.cfg = s.cfg := by
  unfold State.abandon
  split <;> rfl
@[simp] theorem State.abandon_busyWait (s : State) : s.abandon.busyWait = false := by
  unfold State.abandon
  split
  · rfl
  · rename_i h
    simpa using h

end Sys2Proof.Machine
end

