-- ==== Sys2Proof/Laws/Memory.lean ====
section
/-! SUPPORT. Memory: a read after a write, the canonical form, and the lists of addresses. -/

namespace Sys2Proof.Machine

/-! ## The canonical form -/

theorem Memory.wfFrom_mono {m : List Host.Cell} {lo lo' : Nat} (h : lo' ≤ lo) (hm : Memory.wfFrom lo m = true) :
    Memory.wfFrom lo' m = true := by
  cases m with
  | nil => rfl
  | cons x rest =>
    simp only [Memory.wfFrom, Bool.and_eq_true, decide_eq_true_eq] at hm ⊢
    exact ⟨⟨⟨by omega, hm.1.1.2⟩, hm.1.2⟩, hm.2⟩

theorem Memory.wfFrom_write {m : List Host.Cell} {lo a : Nat} (v : Byte) (hm : Memory.wfFrom lo m = true)
    (hlo : lo ≤ a) (ha : a < 2 ^ 32) : Memory.wfFrom lo (Memory.write m a v) = true := by
  induction m generalizing lo with
  | nil =>
    unfold Memory.write
    split
    · rfl
    · simp [Memory.wfFrom, *]; omega
  | cons x rest ih =>
    obtain ⟨k, y⟩ := x
    simp only [Memory.wfFrom, Bool.and_eq_true, decide_eq_true_eq] at hm
    obtain ⟨⟨⟨h1, h2⟩, h3⟩, h4⟩ := hm
    unfold Memory.write
    split
    · split
      · simp [Memory.wfFrom, *]; omega
      · rename_i hlt hv
        have : a + 1 ≤ k := hlt
        simp [Memory.wfFrom, *]; omega
    · split
      · split
        · exact Memory.wfFrom_mono (by omega) h4
        · subst a
          simp [Memory.wfFrom, *]; omega
      · have := ih h4 (by omega)
        simp [Memory.wfFrom, *]; omega

/-- Every write keeps the canonical form. -/
theorem Memory.wf_write {m : List Host.Cell} {a : Nat} (v : Byte) (hm : Memory.wf m = true) (ha : a < 2 ^ 32) :
    Memory.wf (Memory.write m a v) = true :=
  Memory.wfFrom_write v hm (Nat.zero_le a) ha

theorem Memory.wf_writeBytes {m : List Host.Cell} {a : Nat} (l : List Byte) (hm : Memory.wf m = true)
    (ha : a + l.length ≤ 2 ^ 32) : Memory.wf (Memory.writeBytes m a l) = true := by
  induction l generalizing m a with
  | nil => exact hm
  | cons v rest ih =>
    rw [List.length_cons] at ha
    exact ih (Memory.wf_write v hm (by omega)) (by omega)

/-! ## Reading after writing -/

theorem Memory.read_below {m : List Host.Cell} {lo a : Nat} (hm : Memory.wfFrom lo m = true) (h : a < lo) :
    Memory.read m a = Memory.unlisted := by
  cases m with
  | nil => rfl
  | cons x rest =>
    obtain ⟨k, y⟩ := x
    simp only [Memory.wfFrom, Bool.and_eq_true, decide_eq_true_eq] at hm
    have : a ≠ k := by omega
    have : a < k := by omega
    simp [Memory.read, *]

/-- A read after a write to the same address gives the value written. -/
theorem Memory.read_write_same {m : List Host.Cell} {lo : Nat} (a : Nat) (v : Byte) (hm : Memory.wfFrom lo m = true) :
    Memory.read (Memory.write m a v) a = v := by
  induction m generalizing lo with
  | nil =>
    unfold Memory.write
    split
    · simp [Memory.read, *]
    · simp [Memory.read]
  | cons x rest ih =>
    obtain ⟨k, y⟩ := x
    simp only [Memory.wfFrom, Bool.and_eq_true, decide_eq_true_eq] at hm
    obtain ⟨⟨⟨h1, h2⟩, h3⟩, h4⟩ := hm
    unfold Memory.write
    split
    · split
      · have : a ≠ k := by omega
        simp [Memory.read, *]
      · simp [Memory.read]
    · split
      · split
        · subst a
          rw [Memory.read_below h4 (by omega)]
          exact Eq.symm ‹_›
        · simp [Memory.read]
      · have : ¬ a = k := ‹_›
        have : ¬ a < k := ‹_›
        simp [Memory.read, ih h4, *]

/-- A write leaves every other address alone. -/
theorem Memory.read_write_other {m : List Host.Cell} {lo a x : Nat} (v : Byte) (hm : Memory.wfFrom lo m = true)
    (h : x ≠ a) : Memory.read (Memory.write m a v) x = Memory.read m x := by
  induction m generalizing lo with
  | nil =>
    unfold Memory.write
    split
    · rfl
    · simp [Memory.read, h]
  | cons z rest ih =>
    obtain ⟨k, y⟩ := z
    simp only [Memory.wfFrom, Bool.and_eq_true, decide_eq_true_eq] at hm
    obtain ⟨⟨⟨h1, h2⟩, h3⟩, h4⟩ := hm
    unfold Memory.write
    split
    · split
      · rfl
      · rename_i hlt _
        by_cases hx : x < a
        · have : x ≠ k := by omega
          have : x < k := by omega
          simp [Memory.read, *]
        · simp [Memory.read, h, hx]
    · split
      · rename_i hlt hk
        subst hk
        split
        · by_cases hx : x < a
          · rw [Memory.read_below h4 (by omega)]
            simp [Memory.read, h, hx]
          · simp [Memory.read, h, hx]
        · simp [Memory.read, h]
      · simp only [Memory.read, ih h4]

theorem Memory.read_writeBytes_outside {m : List Host.Cell} {a x : Nat} (l : List Byte) (hm : Memory.wf m = true)
    (ha : a + l.length ≤ 2 ^ 32) (h : x < a ∨ a + l.length ≤ x) :
    Memory.read (Memory.writeBytes m a l) x = Memory.read m x := by
  induction l generalizing m a with
  | nil => rfl
  | cons v rest ih =>
    rw [List.length_cons] at ha h
    show Memory.read (Memory.writeBytes (Memory.write m a v) (a + 1) rest) x = _
    rw [ih (Memory.wf_write v hm (by omega)) (by omega) (by omega)]
    exact Memory.read_write_other v hm (by omega)

theorem Memory.read_writeBytes_inside {m : List Host.Cell} {a : Nat} (l : List Byte) (hm : Memory.wf m = true)
    (ha : a + l.length ≤ 2 ^ 32) {k : Nat} (h : k < l.length) :
    Memory.read (Memory.writeBytes m a l) (a + k) = l[k] := by
  induction l generalizing m a k with
  | nil => simp at h
  | cons v rest ih =>
    rw [List.length_cons] at ha h
    show Memory.read (Memory.writeBytes (Memory.write m a v) (a + 1) rest) (a + k) = _
    have hw := Memory.wf_write v hm (show a < 2 ^ 32 by omega)
    cases k with
    | zero =>
      rw [Memory.read_writeBytes_outside rest hw (by omega) (by omega)]
      exact Memory.read_write_same a v hm
    | succ j =>
      have h1 : a + 1 + rest.length ≤ 2 ^ 32 := by omega
      have h2 : j < rest.length := by omega
      have := ih hw h1 h2
      rw [show a + 1 + j = a + (j + 1) by omega] at this
      simpa using this

/-! ## Lists of addresses -/

theorem mem_insertAddr {a x : Nat} {l : List Nat} : x ∈ insertAddr a l ↔ x = a ∨ x ∈ l := by
  induction l with
  | nil => simp [insertAddr]
  | cons k rest ih =>
    unfold insertAddr
    split
    · simp
    · split
      · subst a; simp
      · simp only [List.mem_cons, ih]
        tauto

theorem mem_insertAddrs {a n x : Nat} {l : List Nat} : x ∈ insertAddrs a n l ↔ (a ≤ x ∧ x < a + n) ∨ x ∈ l := by
  induction n generalizing a l with
  | zero => simp [insertAddrs]
  | succ n ih =>
    simp only [insertAddrs, ih, mem_insertAddr]
    by_cases h : x ∈ l <;> simp [h] <;> omega

theorem risingFrom_insertAddr {lo a : Nat} {l : List Nat} (hl : risingFrom lo l = true) (hlo : lo ≤ a)
    (ha : a < 2 ^ 32) : risingFrom lo (insertAddr a l) = true := by
  induction l generalizing lo with
  | nil => simp [insertAddr, risingFrom, *]; omega
  | cons k rest ih =>
    simp only [risingFrom, Bool.and_eq_true, decide_eq_true_eq] at hl
    obtain ⟨⟨h1, h2⟩, h3⟩ := hl
    unfold insertAddr
    split
    · have : a + 1 ≤ k := ‹_›
      simp [risingFrom, *]; omega
    · split
      · simp [risingFrom, *]; omega
      · have := ih h3 (by omega)
        simp [risingFrom, *]; omega

/-- Inserting an address keeps the form of the lists of addresses. -/
theorem rising_insertAddr {a : Nat} {l : List Nat} (hl : rising l = true) (ha : a < 2 ^ 32) :
    rising (insertAddr a l) = true :=
  risingFrom_insertAddr hl (Nat.zero_le a) ha

theorem rising_insertAddrs {a n : Nat} {l : List Nat} (hl : rising l = true) (ha : a + n ≤ 2 ^ 32) :
    rising (insertAddrs a n l) = true := by
  induction n generalizing a l with
  | zero => exact hl
  | succ n ih => exact ih (rising_insertAddr hl (by omega)) (by omega)

/-! ## Aligned words -/

theorem alignWord_toNat (a : Word) : (alignWord a).toNat = a.toNat / 4 * 4 := by
  have e : alignWord a = (a >>> 2) <<< 2 := by
    unfold alignWord
    ext i hi
    simp only [BitVec.getElem_and, BitVec.getElem_shiftLeft]
    have : i < 32 := hi
    interval_cases i <;> simp [BitVec.getElem_eq_testBit_toNat] <;> exact fun _ => by decide
  rw [e]
  simp [BitVec.toNat_shiftLeft, BitVec.toNat_ushiftRight, Nat.shiftLeft_eq, Nat.shiftRight_eq_div_pow]
  omega

/-- An aligned word lies below the top of the address space. -/
theorem alignWord_add_four_le (a : Word) : (alignWord a).toNat + 4 ≤ 2 ^ 32 := by
  have := a.isLt
  rw [alignWord_toNat]
  omega

/-- The program counter of a 26-bit mode keeps bits 25 to 2. -/
theorem mask26_toNat (a : Word) : (a &&& 0x03FFFFFC#32).toNat = a.toNat % 2 ^ 26 / 4 * 4 := by
  have e : a &&& 0x03FFFFFC#32 = alignWord (a &&& 0x03FFFFFF#32) := by
    rw [alignWord, BitVec.and_assoc]
    rfl
  rw [e, alignWord_toNat, BitVec.toNat_and]
  exact congrArg (fun n => n / 4 * 4) (Nat.and_two_pow_sub_one_eq_mod a.toNat 26)

/-- A word is legal as a 26-bit program counter when it is a multiple of 4 below 2^26. -/
theorem mask26_eq_self {a : Word} : a &&& 0x03FFFFFC#32 = a ↔ a.toNat % 4 = 0 ∧ a.toNat < 2 ^ 26 := by
  rw [← BitVec.toNat_inj, mask26_toNat]
  have := a.isLt
  omega

/-- A word is legal as a 32-bit program counter when it is a multiple of 4. -/
theorem mask32_eq_self {a : Word} : a &&& 0xFFFFFFFC#32 = a ↔ a.toNat % 4 = 0 := by
  rw [show a &&& 0xFFFFFFFC#32 = alignWord a from rfl, ← BitVec.toNat_inj, alignWord_toNat]
  omega

end Sys2Proof.Machine
end

