-- ==== Sys2Proof/Laws/Registers.lean ====
section
/-! SUPPORT. Register banks, the register file, the SPSRs and the mode field. -/

namespace Sys2Proof.Machine

@[simp] theorem RegFile.get_set_same (f : RegFile) (p : PReg) (v : Word) : (f.set p v).get p = v := by
  cases p <;> rfl

theorem RegFile.get_set_other (f : RegFile) {p q : PReg} (v : Word) (h : q ≠ p) : (f.set p v).get q = f.get q := by
  cases p <;> cases q <;> first | rfl | exact absurd rfl h

theorem RegFile.get_set (f : RegFile) (p q : PReg) (v : Word) :
    (f.set p v).get q = if q = p then v else f.get q := by
  by_cases h : q = p
  · subst h; simp
  · simp [h, RegFile.get_set_other f v h]

@[simp] theorem Spsrs.get_set_same (f : Spsrs) (n : SpsrName) (v : Psr) : (f.set n v).get n = v := by
  cases n <;> rfl

theorem Spsrs.get_set_other (f : Spsrs) {n k : SpsrName} (v : Psr) (h : k ≠ n) : (f.set n v).get k = f.get k := by
  cases n <;> cases k <;> first | rfl | exact absurd rfl h

/-- Every mode is read back from its mode bits (R22). -/
@[simp] theorem Mode.ofBits_bits (m : Mode) : Mode.ofBits m.bits = some m := by
  cases m <;> rfl

/-- Only the eleven described values name a mode (R27). -/
theorem Mode.bits_of_ofBits {v : BitVec 5} {m : Mode} (h : Mode.ofBits v = some m) : m.bits = v := by
  revert v
  cases m <;> decide

/-- A register number names one physical register, or the program counter. -/
@[simp] theorem Bank.view_eq_none (k : Bank) (r : Reg) : k.view r = none ↔ r = .r15 := by
  cases r <;> simp [Bank.view]

/-- Different numbers name different registers in one bank (R23). -/
theorem Bank.view_injective {k : Bank} {r q : Reg} {p : PReg} (h : k.view r = some p) (h' : k.view q = some p) :
    r = q := by
  have e : k.view r = k.view q := h.trans h'.symm
  clear h h'
  cases k <;> cases r <;> cases q <;> first | rfl | exact absurd e (by decide)

theorem State.setRegIn_regs (s : State) {k : Bank} {r : Reg} {p : PReg} (v : Word) (h : k.view r = some p) :
    (s.setRegIn k r v).regs = s.regs.set p v := by
  simp [State.setRegIn, h]

@[simp] theorem State.setRegIn_r15 (s : State) (k : Bank) (v : Word) : s.setRegIn k .r15 v = s := rfl

theorem State.setReg_regs (s : State) {r : Reg} {p : PReg} (v : Word) (h : s.cpsr.mode.bank.view r = some p) :
    (s.setReg r v).regs = s.regs.set p v := State.setRegIn_regs s v h

theorem State.reg_of_view (s : State) {r : Reg} {p : PReg} (h : s.cpsr.mode.bank.view r = some p) :
    s.reg r = s.regs.get p := by
  simp [State.reg, h]

@[simp] theorem State.reg_r15 (s : State) : s.reg .r15 = s.pcPlus 8 := rfl

/-- What a register write does to what registers read as. -/
theorem State.reg_setReg (s : State) {r q : Reg} (v : Word) (hr : r ≠ .r15) :
    (s.setReg r v).reg q = if q = r then v else s.reg q := by
  cases hp : s.cpsr.mode.bank.view r with
  | none => exact absurd ((Bank.view_eq_none _ _).1 hp) hr
  | some p =>
    cases hq : s.cpsr.mode.bank.view q with
    | none =>
      have : q = .r15 := (Bank.view_eq_none _ _).1 hq
      subst this
      simp [State.pcPlus, Ne.symm hr]
    | some p' =>
      have e : (s.setReg r v).reg q = (s.regs.set p v).get p' := by
        rw [State.reg_of_view (p := p') _ (by simpa using hq), State.setReg_regs s v hp]
      rw [e, State.reg_of_view s hq, RegFile.get_set]
      by_cases h : q = r
      · subst h
        simp_all
      · have : p' ≠ p := fun e => h (Bank.view_injective (k := s.cpsr.mode.bank) (e ▸ hq) hp)
        simp [h, this]

@[simp] theorem State.reg_setReg_same (s : State) {r : Reg} (v : Word) (hr : r ≠ .r15) : (s.setReg r v).reg r = v := by
  simp [State.reg_setReg s v hr]

/-- What a register write does to the physical registers. -/
theorem State.get_setRegIn (s : State) (k : Bank) (r : Reg) (v : Word) (p : PReg) :
    (s.setRegIn k r v).regs.get p = if k.view r = some p then v else s.regs.get p := by
  cases h : k.view r with
  | none => simp [State.setRegIn, h]
  | some q =>
    rw [State.setRegIn_regs s v h, RegFile.get_set]
    by_cases e : p = q
    · simp [e]
    · simp [e, Ne.symm e]

theorem State.get_setReg (s : State) (r : Reg) (v : Word) (p : PReg) :
    (s.setReg r v).regs.get p = if s.cpsr.mode.bank.view r = some p then v else s.regs.get p :=
  State.get_setRegIn s _ r v p

end Sys2Proof.Machine
end

