-- ==== Sys2Proof/Laws/Ops.lean ====
section
/-! SUPPORT. What each shared operation can do, said once: the opening of a meaning, the program counter, stores,
exceptions and the returns from them. -/

namespace Sys2Proof.Machine

/-! ## The opening of every meaning -/

theorem condExec_ready {c : Cond} {reads : List Reg} {s : State} (h : s.ready c reads) (k : Out) :
    condExec c reads s k = k := by
  obtain ⟨h1, h2, h3⟩ := h
  simp [condExec, h1, h2, h3]

theorem condExec_failed {c : Cond} {s : State} (hc : c ≠ .nv) (hp : condPassed s.cpsr.flags c = false)
    (reads : List Reg) (k : Out) : condExec c reads s k = s.advance := by
  simp [condExec, hc, hp]

@[simp] theorem condExec_nv (reads : List Reg) (s : State) (k : Out) :
    condExec .nv reads s k = .fault .condReserved := rfl

/-- A meaning that goes on has passed its condition and met no hazard, or has failed its condition. -/
theorem condExec_next {c : Cond} {reads : List Reg} {s t : State} {k : Out} (h : condExec c reads s k = .next t) :
    (s.ready c reads ∧ k = .next t) ∨ (c ≠ .nv ∧ condPassed s.cpsr.flags c = false ∧ s.advance = .next t) := by
  unfold condExec at h
  split at h
  · cases h
  · split at h
    · split at h
      · cases h
      · exact .inl ⟨⟨‹_›, ‹_›, by simpa using ‹¬ s.hazard reads = true›⟩, h⟩
    · exact .inr ⟨‹_›, by simpa using ‹¬ condPassed s.cpsr.flags c = true›, h⟩

/-- Without a user-bank LDM just before there is no hazard. -/
theorem State.hazard_of_not_userLdm {s : State} (h : s.userLdm = false) (reads : List Reg) :
    s.hazard reads = false := by
  simp [State.hazard, h]

/-! ## The program counter -/

theorem State.advance_of_canAdvance {s : State} (h : s.canAdvance) :
    s.advance = .next { s with pc := s.pc + 4, userLdm := false, busyWait := false } := by
  obtain ⟨h1, h2⟩ := h
  unfold State.advance
  rw [if_neg h1, if_neg]
  simpa using h2

/-- Going on at A + 4 changes the program counter and the two one-instruction marks, and nothing else. -/
theorem State.advance_next {s t : State} (h : s.advance = .next t) :
    s.canAdvance ∧ t = { s with pc := s.pc + 4, userLdm := false, busyWait := false } := by
  unfold State.advance at h
  split at h
  · cases h
  · split at h
    · cases h
    · rename_i h1 h2
      exact ⟨⟨h1, by simpa using h2⟩, (Host.Outcome.next.inj h).symm⟩

/-- `canAdvance` depends on the program counter and on the width of the mode. -/
theorem State.canAdvance_congr {s u : State} (hp : u.pc = s.pc) (hm : u.cpsr.mode.is26 = s.cpsr.mode.is26) :
    u.canAdvance ↔ s.canAdvance := by
  simp [State.canAdvance, hp, hm]

/-- A written program counter is legal (R31, R392). -/
theorem State.jumpTo_pcLegal (s : State) (v : Word) : (s.jumpTo v).pcLegal := by
  show (v &&& s.cpsr.mode.pcMask) &&& s.cpsr.mode.pcMask = v &&& s.cpsr.mode.pcMask
  rw [BitVec.and_assoc, BitVec.and_self]

/-- A program counter is legal when it is a multiple of 4, and below 2^26 in a 26-bit mode. -/
theorem State.pcLegal_iff {s : State} :
    s.pcLegal ↔ s.pc.toNat % 4 = 0 ∧ (s.cpsr.mode.is26 = true → s.pc.toNat < 2 ^ 26) := by
  unfold State.pcLegal Mode.pcMask
  cases s.cpsr.mode.is26
  · simpa using mask32_eq_self
  · simpa using mask26_eq_self

/-- Advancing keeps the program counter legal. -/
theorem State.pcLegal_advance {s t : State} (hs : s.pcLegal) (h : s.advance = .next t) : t.pcLegal := by
  obtain ⟨⟨h1, h2⟩, rfl⟩ := State.advance_next h
  rw [State.pcLegal_iff] at hs ⊢
  obtain ⟨ha, hb⟩ := hs
  have hlt := s.pc.isLt
  have e1 : s.pc.toNat ≠ 0xFFFFFFFC := fun e => h1 (BitVec.eq_of_toNat_eq e)
  have e4 : (s.pc + 4).toNat = s.pc.toNat + 4 := by
    rw [BitVec.toNat_add]
    show (s.pc.toNat + 4) % 2 ^ 32 = _
    omega
  refine ⟨by simp only [e4]; omega, fun hm => ?_⟩
  have e2 : s.pc.toNat ≠ 0x03FFFFFC := fun e => h2 hm (BitVec.eq_of_toNat_eq e)
  have := hb hm
  simp only [e4]
  omega

/-! ## The invariant -/

/-- An empty prefetch buffer is fresh. -/
theorem State.fresh_of_empty {s : State} (h : s.fetchUnit.buffer = []) : s.fresh := by
  intro e he
  rw [h] at he
  cases he

/-- Whether the prefetch buffer is fresh depends on these fields. -/
theorem State.fresh_congr {s u : State} (hs : s.fresh) (hb : u.fetchUnit.buffer = s.fetchUnit.buffer)
    (hm : u.mem = s.mem) (hk : u.marks = s.marks) (hc : u.cfg = s.cfg) : u.fresh := by
  unfold State.fresh State.loadWord at *
  rw [hb, hm, hk, hc]
  exact hs

/-- Going on at A + 4 keeps the invariant. -/
theorem State.inv_advance {s t : State} (hs : s.inv) (h : s.advance = .next t) : t.inv := by
  refine ⟨State.pcLegal_advance hs.1 h, ?_⟩
  obtain ⟨-, rfl⟩ := State.advance_next h
  exact hs.2

/-- Writing the program counter gives the invariant. -/
theorem State.inv_jumpTo {s : State} (hs : s.canonical) (v : Word) : (s.jumpTo v).inv :=
  ⟨s.jumpTo_pcLegal v, hs, State.fresh_of_empty rfl⟩

theorem State.inv_jump {s t : State} {v : Word} (hs : s.canonical) (h : s.jump v = .next t) : t.inv := by
  cases h
  exact State.inv_jumpTo hs v

/-- A taken branch writes the program counter, and flushes the Prefetch Unit unless it was predicted as taken (R92). -/
theorem State.branch_eq (s : State) (target : Word) :
    s.branch target = .next
      { s.jumpTo target with
        fetchUnit := if s.fetchUnit.prediction = .taken then s.fetchUnit else s.fetchUnit.flushed } := by
  unfold State.branch
  dsimp only
  split <;> rfl

theorem State.inv_branch {s t : State} {target : Word} (hs : s.inv) (h : s.branch target = .next t) : t.inv := by
  rw [State.branch_eq] at h
  cases h
  refine ⟨s.jumpTo_pcLegal target, hs.2.1, ?_⟩
  by_cases hp : s.fetchUnit.prediction = .taken
  · exact State.fresh_congr hs.2.2 (by simp only [hp, if_true]) rfl rfl rfl
  · exact State.fresh_of_empty (by simp only [hp, if_false]; rfl)

/-- Taking an exception gives the invariant: every vector is legal. -/
theorem State.inv_enter {s : State} (hs : s.canonical) (e : Exception) (ret : Word) : (s.enter e ret).inv := by
  refine ⟨?_, hs, State.fresh_of_empty rfl⟩
  show e.vector &&& e.mode.pcMask = e.vector
  cases e <;> rfl

/-- The canonical form depends on memory and on the lists of addresses. -/
theorem State.canonical_congr {s u : State} (hs : s.canonical) (h1 : u.mem = s.mem) (h2 : u.marks = s.marks)
    (h3 : u.ran26 = s.ran26) (h4 : u.ran32 = s.ran32) : u.canonical := by
  unfold State.canonical at *
  rw [h1, h2, h3, h4]
  exact hs

/-- The invariant depends on these fields. -/
theorem State.inv_congr {s u : State} (hs : s.inv) (hp : u.pc = s.pc) (hm : u.cpsr.mode = s.cpsr.mode)
    (h1 : u.mem = s.mem) (h2 : u.marks = s.marks) (h3 : u.ran26 = s.ran26) (h4 : u.ran32 = s.ran32)
    (h5 : u.fetchUnit.buffer = s.fetchUnit.buffer) (h6 : u.cfg = s.cfg) : u.inv := by
  refine ⟨?_, State.canonical_congr hs.2.1 h1 h2 h3 h4, State.fresh_congr hs.2.2 h5 h1 h2 h6⟩
  have := hs.1
  unfold State.pcLegal at *
  rw [hp, hm]
  exact this

/-! ## Stores -/

/-- A store keeps the canonical form. -/
theorem State.canonical_storeBytes {s : State} {a : Nat} {l : List Byte} (hs : s.canonical)
    (ha : a + l.length ≤ 2 ^ 32) : (s.storeBytes a l).canonical :=
  ⟨Memory.wf_writeBytes l hs.1 ha, rising_insertAddrs hs.2.1 ha, hs.2.2⟩

theorem State.canonical_storeWord {s : State} (hs : s.canonical) (a v : Word) : (s.storeWord a v).canonical :=
  State.canonical_storeBytes hs (alignWord_add_four_le a)

theorem State.canonical_storeByte {s : State} (hs : s.canonical) (a : Word) (v : Byte) :
    (s.storeByte a v).canonical :=
  State.canonical_storeBytes hs a.isLt

@[simp] theorem halfBytes_length (big : Bool) (v : Half) : (halfBytes big v).length = 2 := by
  cases big <;> rfl

/-- An even address leaves room for a halfword. -/
theorem even_add_two_le {a : Word} (h : a.getLsbD 0 = false) : a.toNat + 2 ≤ 2 ^ 32 := by
  have hlt := a.isLt
  have : a.toNat % 2 = 0 := by
    have := h
    rw [BitVec.getLsbD, Nat.testBit_zero] at this
    simpa using this
  omega

theorem State.canonical_storeHalf {s : State} (hs : s.canonical) {a : Word} (h : a.getLsbD 0 = false) (v : Half) :
    (s.storeHalf a v).canonical :=
  State.canonical_storeBytes hs (by simpa using even_add_two_le h)

/-- A word reads as before where no byte of it is stored to. -/
theorem State.loadWord_storeBytes {s : State} {a : Nat} {l : List Byte} (hs : Memory.wf s.mem = true)
    (ha : a + l.length ≤ 2 ^ 32) {x : Word}
    (hx : (alignWord x).toNat + 4 ≤ a ∨ a + l.length ≤ (alignWord x).toNat) :
    (s.storeBytes a l).loadWord x = s.loadWord x := by
  have key : ∀ k, k < 4 → Memory.read (Memory.writeBytes s.mem a l) ((alignWord x).toNat + k)
      = Memory.read s.mem ((alignWord x).toNat + k) :=
    fun k hk => Memory.read_writeBytes_outside l hs ha (by omega)
  have k0 := key 0 (by omega)
  rw [Nat.add_zero] at k0
  show joinWord _ _ _ _ _ = joinWord _ _ _ _ _
  rw [State.storeBytes_cfg, State.storeBytes_mem, k0, key 1 (by omega), key 2 (by omega), key 3 (by omega)]

/-- A store keeps the prefetch buffer fresh: a word of it that is stored to is marked. -/
theorem State.fresh_storeBytes {s : State} {a : Nat} {l : List Byte} (hw : Memory.wf s.mem = true) (hs : s.fresh)
    (ha : a + l.length ≤ 2 ^ 32) : (s.storeBytes a l).fresh := by
  intro e he
  obtain h | h | ⟨x, hx, h⟩ := hs e he
  · exact .inl h
  · by_cases ho : l.length = 0 ∨ (alignWord e.addr).toNat + 4 ≤ a ∨ a + l.length ≤ (alignWord e.addr).toNat
    · refine .inr (.inl (h.trans (congrArg some ?_)))
      obtain hl | ho := ho
      · rw [List.eq_nil_of_length_eq_zero hl]
        rfl
      · exact (State.loadWord_storeBytes hw ha ho).symm
    · refine .inr (.inr ⟨max a (alignWord e.addr).toNat, mem_insertAddrs.2 (.inl ?_), ?_⟩) <;> omega
  · exact .inr (.inr ⟨x, mem_insertAddrs.2 (.inr hx), h⟩)

/-- A store keeps the invariant. -/
theorem State.inv_storeBytes {s : State} {a : Nat} {l : List Byte} (hs : s.inv) (ha : a + l.length ≤ 2 ^ 32) :
    (s.storeBytes a l).inv :=
  ⟨hs.1, State.canonical_storeBytes hs.2.1 ha, State.fresh_storeBytes hs.2.1.1 hs.2.2 ha⟩

theorem State.inv_storeWord {s : State} (hs : s.inv) (a v : Word) : (s.storeWord a v).inv :=
  State.inv_storeBytes hs (alignWord_add_four_le a)

theorem State.inv_storeByte {s : State} (hs : s.inv) (a : Word) (v : Byte) : (s.storeByte a v).inv :=
  State.inv_storeBytes hs a.isLt

theorem State.inv_storeHalf {s : State} (hs : s.inv) {a : Word} (h : a.getLsbD 0 = false) (v : Half) :
    (s.storeHalf a v).inv :=
  State.inv_storeBytes hs (by simpa using even_add_two_le h)

/-- A store writes the bytes it is given at consecutive addresses, marks them, and changes nothing else. -/
theorem State.storeBytes_storesOnly {s : State} {a : Nat} {l : List Byte} (hs : Memory.wf s.mem = true)
    (ha : a + l.length ≤ 2 ^ 32) : s.storesOnly (s.storeBytes a l) a l.length :=
  ⟨fun _ hx => Memory.read_writeBytes_outside l hs ha hx, fun _ => mem_insertAddrs⟩

theorem State.storeWord_storesOnly {s : State} (hs : Memory.wf s.mem = true) (a v : Word) :
    s.storesOnly (s.storeWord a v) (alignWord a).toNat 4 :=
  State.storeBytes_storesOnly hs (alignWord_add_four_le a)

theorem State.storeByte_storesOnly {s : State} (hs : Memory.wf s.mem = true) (a : Word) (v : Byte) :
    s.storesOnly (s.storeByte a v) a.toNat 1 :=
  State.storeBytes_storesOnly hs a.isLt

theorem State.storeHalf_storesOnly {s : State} (hs : Memory.wf s.mem = true) {a : Word} (h : a.getLsbD 0 = false)
    (v : Half) : s.storesOnly (s.storeHalf a v) a.toNat 2 := by
  have := State.storeBytes_storesOnly (l := halfBytes s.cfg.bigend v) hs (a := a.toNat) (by simpa using even_add_two_le h)
  rwa [halfBytes_length] at this

/-- The byte at an address reads back after `storeByte`. -/
theorem State.read_storeByte {s : State} (hs : Memory.wf s.mem = true) (a : Word) (v : Byte) :
    Memory.read (s.storeByte a v).mem a.toNat = v :=
  Memory.read_write_same _ v hs

/-- The four bytes that `storeWord` writes. -/
theorem State.read_storeWord {s : State} (hs : Memory.wf s.mem = true) (a v : Word) {k : Nat} (hk : k < 4) :
    Memory.read (s.storeWord a v).mem ((alignWord a).toNat + k) = wordByte s.cfg.bigend v k := by
  have := Memory.read_writeBytes_inside (wordBytes s.cfg.bigend v) hs (alignWord_add_four_le a) (k := k) hk
  rw [show (s.storeWord a v).mem = Memory.writeBytes s.mem (alignWord a).toNat (wordBytes s.cfg.bigend v) from rfl,
    this]
  match k, hk with
  | 0, _ => rfl
  | 1, _ => rfl
  | 2, _ => rfl
  | 3, _ => rfl

/-- The four bytes of a word, joined, are the word (R64). -/
theorem joinWord_wordByte (big : Bool) (v : Word) :
    joinWord big (wordByte big v 0) (wordByte big v 1) (wordByte big v 2) (wordByte big v 3) = v := by
  cases big
  · simp only [joinWord, wordByte, Bool.false_eq_true, if_false]
    ext i hi
    simp only [BitVec.getElem_append, BitVec.getElem_extractLsb']
    have : i < 32 := hi
    interval_cases i <;> rfl
  · simp only [joinWord, wordByte, if_true]
    ext i hi
    simp only [BitVec.getElem_append, BitVec.getElem_extractLsb']
    have : i < 32 := hi
    interval_cases i <;> rfl

/-- The word that `storeWord` writes is the word read back. -/
theorem State.loadWord_storeWord {s : State} (hs : Memory.wf s.mem = true) (a v : Word) :
    (s.storeWord a v).loadWord a = v := by
  have h0 := State.read_storeWord hs a v (k := 0) (by omega)
  have h1 := State.read_storeWord hs a v (k := 1) (by omega)
  have h2 := State.read_storeWord hs a v (k := 2) (by omega)
  have h3 := State.read_storeWord hs a v (k := 3) (by omega)
  show joinWord s.cfg.bigend _ _ _ _ = v
  rw [Nat.add_zero] at h0
  rw [h0, h1, h2, h3, joinWord_wordByte]

/-- The last word of a cache line is returned alone (R101). -/
theorem State.returnsTwo_lastOfLine {s : State} {kind : AccessKind} {a : Word} (hn : s.platform.double.lineWords ≠ 0)
    (h : a.toNat / 4 % s.platform.double.lineWords + 1 = s.platform.double.lineWords) : s.returnsTwo kind a = false := by
  simp [State.returnsTwo, hn, h]

/-- The exchange of a store that does not abort: its request, and the return of the instructions asked for with it. -/
theorem State.storeTransaction_done {s : State} {k : Nat} {ty : RequestType} {a : Access} {v : Word}
    (ha : s.abortsAt a = false) (hk : a.kind = .store) (ht : ty ≠ .none) :
    let x := s.storeTransaction k ty a v
    x.ty = ty ∧ x.addr = a.addr ∧ x.wdata = v ∧ x.data = .none ∧ x.aresp = .done
      ∧ x.instrPrefetch = !(s.parallelWords k).isEmpty ∧ x.rdata = (s.parallelWords k).filterMap Prefetched.word := by
  have hr : (s.aborts.find? (fun r => r.hits a)).isSome = false := by rw [List.isSome_find?]; exact ha
  intro x
  simp only [x, State.storeTransaction]
  split
  · rename_i h
    simp [State.transaction, hr, hk, ht, h]
  · rename_i es h
    simp [State.transaction, hr, hk, ht, ha, List.isEmpty_eq_false_iff.2 h]

/-! ## Exceptions -/

/-- Taking an exception is what R423 says. -/
theorem State.enter_hasTaken (s : State) (e : Exception) (ret : Word) : s.hasTaken (s.enter e ret) e ret :=
  ⟨rfl, rfl, rfl, rfl, rfl, RegFile.get_set_same _ _ _, Spsrs.get_set_same _ _ _,
    fun _ h => RegFile.get_set_other _ _ h, fun _ h => Spsrs.get_set_other _ _ h⟩

/-- A return from an exception that goes on: the mode has an SPSR that names a mode, a 26-bit mode is entered inside 64
Mbytes only, and the SPSR and the address are what the state receives. -/
theorem State.exceptionReturn_next {s t : State} {v : Word} (h : s.exceptionReturn v = .next t) :
    ∃ n m, s.cpsr.mode.spsr = some n ∧ Mode.ofBits (s.spsrs.get n).m = some m
      ∧ (m.is26 = true → s.pc.extractLsb' 26 6 = 0#6 ∧ v.extractLsb' 26 6 = 0#6)
      ∧ t = State.jumpTo
          { s with cpsr := { flags := (s.spsrs.get n).flags, i := (s.spsrs.get n).i, f := (s.spsrs.get n).f, mode := m } }
          v := by
  unfold State.exceptionReturn at h
  split at h
  · cases h
  · split at h
    · cases h
    · split at h
      · cases h
      · rename_i n hn _ m hm hx
        refine ⟨n, m, hn, hm, fun h26 => ?_, (Host.Outcome.next.inj h).symm⟩
        simpa [h26] using hx

theorem State.inv_exceptionReturn {s t : State} {v : Word} (hs : s.canonical) (h : s.exceptionReturn v = .next t) :
    t.inv := by
  obtain ⟨n, m, -, -, -, rfl⟩ := State.exceptionReturn_next h
  exact ⟨State.jumpTo_pcLegal _ v, hs, State.fresh_of_empty rfl⟩

@[simp] theorem State.writePsr26_regs (s : State) (v : Word) : (s.writePsr26 v).regs = s.regs := by
  unfold State.writePsr26; split <;> rfl
@[simp] theorem State.writePsr26_pc (s : State) (v : Word) : (s.writePsr26 v).pc = s.pc := by
  unfold State.writePsr26; split <;> rfl
@[simp] theorem State.writePsr26_spsrs (s : State) (v : Word) : (s.writePsr26 v).spsrs = s.spsrs := by
  unfold State.writePsr26; split <;> rfl
@[simp] theorem State.writePsr26_mem (s : State) (v : Word) : (s.writePsr26 v).mem = s.mem := by
  unfold State.writePsr26; split <;> rfl
@[simp] theorem State.writePsr26_marks (s : State) (v : Word) : (s.writePsr26 v).marks = s.marks := by
  unfold State.writePsr26; split <;> rfl
@[simp] theorem State.writePsr26_ran26 (s : State) (v : Word) : (s.writePsr26 v).ran26 = s.ran26 := by
  unfold State.writePsr26; split <;> rfl
@[simp] theorem State.writePsr26_ran32 (s : State) (v : Word) : (s.writePsr26 v).ran32 = s.ran32 := by
  unfold State.writePsr26; split <;> rfl
@[simp] theorem State.writePsr26_lines (s : State) (v : Word) : (s.writePsr26 v).lines = s.lines := by
  unfold State.writePsr26; split <;> rfl
@[simp] theorem State.writePsr26_coproc (s : State) (v : Word) : (s.writePsr26 v).coproc = s.coproc := by
  unfold State.writePsr26; split <;> rfl
@[simp] theorem State.writePsr26_pending (s : State) (v : Word) : (s.writePsr26 v).pending = s.pending := by
  unfold State.writePsr26; split <;> rfl
@[simp] theorem State.writePsr26_aborts (s : State) (v : Word) : (s.writePsr26 v).aborts = s.aborts := by
  unfold State.writePsr26; split <;> rfl
@[simp] theorem State.writePsr26_platform (s : State) (v : Word) : (s.writePsr26 v).platform = s.platform := by
  unfold State.writePsr26; split <;> rfl
@[simp] theorem State.writePsr26_fetchUnit (s : State) (v : Word) : (s.writePsr26 v).fetchUnit = s.fetchUnit := by
  unfold State.writePsr26; split <;> rfl
@[simp] theorem State.writePsr26_cfg (s : State) (v : Word) : (s.writePsr26 v).cfg = s.cfg := by
  unfold State.writePsr26; split <;> rfl
@[simp] theorem State.writePsr26_flags (s : State) (v : Word) : (s.writePsr26 v).cpsr.flags = Flags.ofWord v := by
  unfold State.writePsr26; split <;> rfl

@[simp] theorem Mode.is26_of26 (m1 m0 : Bool) : (Mode.of26 m1 m0).is26 = true := by
  cases m1 <;> cases m0 <;> rfl

/-- A combined PC/PSR word written in a 26-bit mode leaves a 26-bit mode. -/
theorem State.writePsr26_is26 {s : State} (h : s.cpsr.mode.is26 = true) (v : Word) :
    (s.writePsr26 v).cpsr.mode.is26 = true := by
  unfold State.writePsr26
  split
  · simp
  · exact h

theorem State.canonical_writePsr26 {s : State} (hs : s.canonical) (v : Word) : (s.writePsr26 v).canonical :=
  State.canonical_congr hs (by simp) (by simp) (by simp) (by simp)

/-- R15 with S = 1: the 26-bit and the 32-bit reading. -/
theorem State.writePcAndPsr_next {s t : State} {v : Word} (h : s.writePcAndPsr v = .next t) :
    (s.cpsr.mode.is26 = true ∧ t = (s.writePsr26 v).jumpTo v)
      ∨ (s.cpsr.mode.is26 = false ∧ s.exceptionReturn v = .next t) := by
  unfold State.writePcAndPsr at h
  split at h
  · exact .inl ⟨‹_›, (Host.Outcome.next.inj h).symm⟩
  · exact .inr ⟨by simpa using ‹¬ s.cpsr.mode.is26 = true›, h⟩

theorem State.inv_writePcAndPsr {s t : State} {v : Word} (hs : s.canonical) (h : s.writePcAndPsr v = .next t) :
    t.inv := by
  obtain ⟨-, rfl⟩ | ⟨-, h⟩ := State.writePcAndPsr_next h
  · exact State.inv_jumpTo (State.canonical_writePsr26 hs v) v
  · exact State.inv_exceptionReturn hs h


/-- The data structures right after reset are in canonical form, and the prefetch buffer is empty. -/
theorem State.reset_canonical : State.reset.canonical := by
  refine ⟨?_, ?_, ?_, ?_⟩ <;> rfl

theorem State.reset_fresh : State.reset.fresh := State.fresh_of_empty rfl

end Sys2Proof.Machine
end

