-- ==== Sys2Proof/Laws/Frame.lean ====
section
/-! SUPPORT. States that agree on everything but registers, memory, outputs and the two one-instruction marks, and what
a read gives on states that agree. -/

namespace Sys2Proof.Machine

/-- `t` has the program counter, the status registers, the platform and the parameters of `s`. -/
structure Plain (s t : State) : Prop where
  pc : t.pc = s.pc
  cpsr : t.cpsr = s.cpsr
  spsrs : t.spsrs = s.spsrs
  ran26 : t.ran26 = s.ran26
  ran32 : t.ran32 = s.ran32
  lines : t.lines = s.lines
  coproc : t.coproc = s.coproc
  pending : t.pending = s.pending
  aborts : t.aborts = s.aborts
  platform : t.platform = s.platform
  fetchUnit : t.fetchUnit = s.fetchUnit
  cfg : t.cfg = s.cfg

theorem Plain.refl (s : State) : Plain s s := ⟨rfl, rfl, rfl, rfl, rfl, rfl, rfl, rfl, rfl, rfl, rfl, rfl⟩

theorem Plain.trans {s t u : State} (h : Plain s t) (k : Plain t u) : Plain s u :=
  ⟨k.1.trans h.1, k.2.trans h.2, k.3.trans h.3, k.4.trans h.4, k.5.trans h.5, k.6.trans h.6, k.7.trans h.7,
    k.8.trans h.8, k.9.trans h.9, k.10.trans h.10, k.11.trans h.11, k.12.trans h.12⟩

theorem Plain.setRegIn {s t : State} (h : Plain s t) (k : Bank) (r : Reg) (v : Word) : Plain s (t.setRegIn k r v) := by
  constructor <;> simp [h.pc, h.cpsr, h.spsrs, h.ran26, h.ran32, h.lines, h.coproc, h.pending, h.aborts, h.platform,
    h.fetchUnit, h.cfg]

theorem Plain.setReg {s t : State} (h : Plain s t) (r : Reg) (v : Word) : Plain s (t.setReg r v) := h.setRegIn _ r v

theorem Plain.emit {s t : State} (h : Plain s t) (o : Output) : Plain s (t.emit o) :=
  ⟨h.1, h.2, h.3, h.4, h.5, h.6, h.7, h.8, h.9, h.10, h.11, h.12⟩

theorem Plain.request {s t : State} (h : Plain s t) (ty : RequestType) (a : Access) (v : Word) :
    Plain s (t.request ty a v) := h.emit _

/-- A store's exchange changes, but for what the Prefetch Unit has taken with it, the outputs alone. -/
theorem Plain.storeRequest {s t : State} (k : Nat) (h : Plain s (t.ask k)) (ty : RequestType) (a : Access) (v : Word) :
    Plain s (t.storeRequest k ty a v) := h.emit _

theorem Plain.storeAborted {s t : State} (h : Plain s t) (k : Nat) (ty : RequestType) (a : Access) (v : Word) :
    Plain s (t.storeAborted k ty a v) := h.emit _

theorem Plain.drawn {s t : State} (h : Plain s t) : Plain s t.drawn :=
  ⟨h.1, h.2, h.3, h.4, h.5, h.6, h.7, h.8, h.9, h.10, h.11, h.12⟩

theorem Plain.storeBytes {s t : State} (h : Plain s t) (a : Nat) (l : List Byte) : Plain s (t.storeBytes a l) :=
  ⟨h.1, h.2, h.3, h.4, h.5, h.6, h.7, h.8, h.9, h.10, h.11, h.12⟩

theorem Plain.keepsSystem {s t : State} (h : Plain s t) : s.keepsSystem t :=
  ⟨h.spsrs, h.ran26, h.ran32, h.lines, h.coproc, h.pending, h.aborts, h.platform, .inl h.fetchUnit, h.cfg⟩

theorem Plain.keepsControl {s t : State} (h : Plain s t) : s.keepsControl t := by
  simp [State.keepsControl, h.cpsr]

theorem Plain.canAdvance_iff {s t : State} (h : Plain s t) : t.canAdvance ↔ s.canAdvance :=
  State.canAdvance_congr h.pc (by rw [h.cpsr])

/-- The canonical form goes over to a state with the same memory and marks. -/
theorem Plain.canonical {s t : State} (h : Plain s t) (hs : s.canonical) (hm : t.mem = s.mem) (hk : t.marks = s.marks) :
    t.canonical :=
  State.canonical_congr hs hm hk h.ran26 h.ran32

/-- A legal program counter stays legal. -/
theorem Plain.pcLegal {s t : State} (h : Plain s t) (hs : s.pcLegal) : t.pcLegal := by
  unfold State.pcLegal at *
  rw [h.pc, h.cpsr]
  exact hs

/-- A plain change followed by going on at A + 4 is `goesOnTo`. -/
theorem Plain.goesOnTo {s u t : State} (h : Plain s u) {written : List Reg} (hk : s.keepsRegs u written)
    (ht : u.advance = .next t) : s.goesOnTo t written := by
  obtain ⟨-, rfl⟩ := State.advance_next ht
  exact ⟨by show u.pc + 4 = _; rw [h.pc], hk, h.keepsControl, h.keepsSystem, h.fetchUnit⟩

/-! ## Reads on states that agree -/

theorem State.reg_congr {s t : State} {r : Reg} (hr : r ≠ .r15) (hm : t.cpsr.mode = s.cpsr.mode)
    (hf : t.regs = s.regs) : t.reg r = s.reg r := by
  cases hp : s.cpsr.mode.bank.view r with
  | none => exact absurd ((Bank.view_eq_none _ _).1 hp) hr
  | some p => rw [State.reg_of_view s hp, State.reg_of_view (p := p) t (by rw [hm]; exact hp), hf]

/-- Only R15 reads differently as Rm or as stored data (R30, R405). -/
theorem State.regM_eq_reg (s : State) {r : Reg} (h : r ≠ .r15) : s.regM r = s.reg r := by
  unfold State.regM State.reg
  cases hv : s.cpsr.mode.bank.view r with
  | some p => rfl
  | none => exact absurd ((Bank.view_eq_none _ _).1 hv) h

theorem State.loadWord_congr {s t : State} (hm : t.mem = s.mem) (hc : t.cfg = s.cfg) (a : Word) :
    t.loadWord a = s.loadWord a := by
  simp [State.loadWord, hm, hc]

theorem State.loadHalf_congr {s t : State} (hm : t.mem = s.mem) (hc : t.cfg = s.cfg) (a : Word) :
    t.loadHalf a = s.loadHalf a := by
  simp [State.loadHalf, hm, hc]

/-- A register write keeps every register that it does not name. -/
theorem State.keepsRegs_setReg (s : State) {r : Reg} (v : Word) {written : List Reg} (h : r ∈ written) :
    s.keepsRegs (s.setReg r v) written := by
  intro p hp
  rw [State.get_setReg, if_neg (hp r h)]

/-! ## Address bits -/

theorem getLsbD_zero_of_even {a : Word} (h : a.toNat % 2 = 0) : a.getLsbD 0 = false := by
  rw [BitVec.getLsbD, Nat.testBit_zero]; simp [h]

theorem getLsbD_zero_of_odd {a : Word} (h : a.toNat % 2 = 1) : a.getLsbD 0 = true := by
  rw [BitVec.getLsbD, Nat.testBit_zero]; simp [h]

/-- Bits 1 and 0 are clear at a multiple of 4. -/
theorem low_bits_eq_zero {a : Word} : a.extractLsb' 0 2 = 0#2 ↔ a.toNat % 4 = 0 := by
  rw [← BitVec.toNat_inj]
  simp [BitVec.extractLsb'_toNat]

/-- Bits 31 to 26 are clear below 2^26. -/
theorem top_bits_eq_zero {a : Word} : a.extractLsb' 26 6 = 0#6 ↔ a.toNat < 2 ^ 26 := by
  rw [← BitVec.toNat_inj]
  have := a.isLt
  simp [BitVec.extractLsb'_toNat, Nat.shiftRight_eq_div_pow]
  omega

end Sys2Proof.Machine
end

