-- ==== Sys2Proof/Laws/Alu.lean ====
section
/-! SUPPORT. The adder, and what the shared operations of data processing, the multiplies and the status registers can
do when they go on. -/

namespace Sys2Proof.Machine

/-! ## The adder -/

/-- The result of the adder, modulo 2^32. -/
theorem addC_value (x y : Word) (c : Bool) : (addC x y c).value = x + y + bitWord c := by
  apply BitVec.eq_of_toNat_eq
  cases c <;> simp [addC, bitWord, BitVec.toNat_add]

/-- The carry of the adder: the exact unsigned sum does not fit. -/
theorem addC_c (x y : Word) (c : Bool) : (addC x y c).c = decide (2 ^ 32 ≤ x.toNat + y.toNat + c.toNat) := rfl

/-- The overflow of the adder: the exact signed sum does not fit. -/
theorem addC_v (x y : Word) (c : Bool) :
    (addC x y c).v = decide (x.toInt + y.toInt + (c.toNat : Int) < -2 ^ 31
      ∨ 2 ^ 31 ≤ x.toInt + y.toInt + (c.toNat : Int)) := by
  have e : (addC x y c).value = BitVec.ofInt 32 (x.toInt + y.toInt + (c.toNat : Int)) := by
    rw [addC_value, BitVec.ofInt_add, BitVec.ofInt_add, BitVec.ofInt_toInt, BitVec.ofInt_toInt]
    cases c <;> rfl
  show decide (x.toInt + y.toInt + (c.toNat : Int) ≠ (addC x y c).value.toInt) = _
  rw [e, BitVec.toInt_ofInt, decide_eq_decide, Int.bmod_def]
  omega

/-! ## Data processing -/

/-- An instruction that writes a result and goes on: its condition failed, or the result goes where Rd and S say. -/
theorem dpWrite_next {c : Cond} {f : Bool} {rd : Reg} {rn : Option Reg} {o : Operand2} {op : AluIn → AluOut}
    {s t : State} (h : dpWrite c f rd rn o op s = .next t) :
    (c ≠ .nv ∧ condPassed s.cpsr.flags c = false ∧ s.advance = .next t)
    ∨ (s.ready c (rn.toList ++ operand2Reads o) ∧ r15InRegisterShift rn.toList o = false
      ∧ ((rd = .r15 ∧ f = true ∧ s.writePcAndPsr (op (dpInput s rn o)).value = .next t)
        ∨ (rd = .r15 ∧ f = false ∧ t = s.jumpTo (op (dpInput s rn o)).value)
        ∨ (rd ≠ .r15 ∧ f = true
          ∧ ((s.setReg rd (op (dpInput s rn o)).value).setFlags (op (dpInput s rn o)).flags).advance = .next t)
        ∨ (rd ≠ .r15 ∧ f = false ∧ (s.setReg rd (op (dpInput s rn o)).value).advance = .next t))) := by
  obtain ⟨hr, hk⟩ | hf := condExec_next h
  · refine .inr ⟨hr, ?_⟩
    split at hk
    · cases hk
    · refine ⟨by simpa using ‹¬ r15InRegisterShift rn.toList o = true›, ?_⟩
      by_cases hrd : rd = .r15 <;> cases f <;> simp only [hrd, if_true, if_false, Bool.false_eq_true] at hk
      · exact .inr (.inl ⟨hrd, rfl, (Host.Outcome.next.inj hk).symm⟩)
      · exact .inl ⟨hrd, rfl, hk⟩
      · exact .inr (.inr (.inr ⟨hrd, rfl, hk⟩))
      · exact .inr (.inr (.inl ⟨hrd, rfl, hk⟩))
  · exact .inl hf

/-- A compare or test that goes on: its condition failed, or the flags are written. -/
theorem dpTest_next {c : Cond} {rn : Reg} {o : Operand2} {op : AluIn → AluOut} {s t : State}
    (h : dpTest c rn o op s = .next t) :
    (c ≠ .nv ∧ condPassed s.cpsr.flags c = false ∧ s.advance = .next t)
    ∨ (s.ready c (rn :: operand2Reads o) ∧ r15InRegisterShift [rn] o = false
      ∧ (s.setFlags (op (dpInput s (some rn) o)).flags).advance = .next t) := by
  obtain ⟨hr, hk⟩ | hf := condExec_next h
  · refine .inr ⟨hr, ?_⟩
    split at hk
    · cases hk
    · exact ⟨by simpa using ‹¬ r15InRegisterShift [rn] o = true›, hk⟩
  · exact .inl hf

/-- A P form that goes on: its condition failed, or it ran in a 26-bit mode and wrote the PSR bits. -/
theorem dpPsr_next {c : Cond} {rn : Reg} {o : Operand2} {op : AluIn → AluOut} {s t : State}
    (h : dpPsr c rn o op s = .next t) :
    (c ≠ .nv ∧ condPassed s.cpsr.flags c = false ∧ s.advance = .next t)
    ∨ (s.ready c (rn :: operand2Reads o) ∧ s.cpsr.mode.is26 = true ∧ r15InRegisterShift [rn] o = false
      ∧ (s.writePsr26 (op (dpInput s (some rn) o)).value).advance = .next t) := by
  obtain ⟨hr, hk⟩ | hf := condExec_next h
  · refine .inr ⟨hr, ?_⟩
    split at hk
    · split at hk
      · cases hk
      · exact ⟨‹_›, by simpa using ‹¬ r15InRegisterShift [rn] o = true›, hk⟩
    · cases hk
  · exact .inl hf

/-! ## The status registers -/

/-- MRS that goes on: its condition failed, or Rd received the PSR that was named, with free reserved bits. -/
theorem execMrs_next {c : Cond} {spsr : Bool} {rd : Reg} {s t : State} (h : execMrs c spsr rd s = .next t) :
    (c ≠ .nv ∧ condPassed s.cpsr.flags c = false ∧ s.advance = .next t)
    ∨ (s.ready c [] ∧ rd ≠ .r15
      ∧ ∃ p, s.namedPsr spsr = some p ∧ (s.drawn.setReg rd (p.word s.free)).advance = .next t) := by
  obtain ⟨hr, hk⟩ | hf := condExec_next h
  · refine .inr ⟨hr, ?_⟩
    split at hk
    · cases hk
    · split at hk
      · cases hk
      · exact ⟨‹_›, _, ‹_›, hk⟩
  · exact .inl hf

/-- A write of the control field that goes on: the mode exists, and the limits of the 26-bit modes are met. -/
theorem State.msrControl_next {s t : State} {g : Flags} {v : Word} (h : s.msrControl g v = .next t) :
    ∃ m, Mode.ofBits (v.extractLsb' 0 5) = some m ∧ (s.cpsr.mode.is26 = true → s.pc ≠ 0x03FFFFFC#32)
      ∧ (m.is26 = true → s.pc.extractLsb' 26 6 = 0#6)
      ∧ State.advance { s with cpsr := { flags := g, i := v.getLsbD 7, f := v.getLsbD 6, mode := m } } = .next t := by
  unfold State.msrControl at h
  split at h
  · cases h
  · split at h
    · cases h
    · split at h
      · cases h
      · rename_i m hm h1 h2
        exact ⟨m, hm, by simpa using h1, by simpa using h2, h⟩

/-- MSR that goes on: its condition failed, it wrote the SPSR of its mode, the control field, or the flags alone. -/
theorem execMsr_next {c : Cond} {spsr : Bool} {mask : BitVec 4} {src : MsrSource} {s t : State}
    (h : execMsr c spsr mask src s = .next t) :
    (c ≠ .nv ∧ condPassed s.cpsr.flags c = false ∧ s.advance = .next t)
    ∨ (s.ready c (msrReads src) ∧ msrReads src ≠ [.r15]
      ∧ ((∃ n, spsr = true ∧ s.cpsr.mode.spsr = some n
            ∧ State.advance { s with spsrs := s.spsrs.set n ((s.spsrs.get n).masked mask (s.msrValue src)) } = .next t)
        ∨ (spsr = false ∧ mask.getLsbD 0 = true ∧ s.cpsr.mode.privileged = true
            ∧ s.msrControl (if mask.getLsbD 3 then Flags.ofWord (s.msrValue src) else s.cpsr.flags) (s.msrValue src)
              = .next t)
        ∨ (spsr = false ∧ ¬ (mask.getLsbD 0 = true ∧ s.cpsr.mode.privileged = true)
            ∧ (s.setFlags (if mask.getLsbD 3 then Flags.ofWord (s.msrValue src) else s.cpsr.flags)).advance
              = .next t))) := by
  obtain ⟨hr, hk⟩ | hf := condExec_next h
  · refine .inr ⟨hr, ?_⟩
    split at hk
    · cases hk
    · refine ⟨‹_›, ?_⟩
      dsimp only at hk
      split at hk
      · split at hk
        · cases hk
        · exact .inl ⟨_, ‹_›, ‹_›, hk⟩
      · have hs : spsr = false := by simpa using ‹¬ spsr = true›
        generalize hg : (if mask.getLsbD 3 = true then Flags.ofWord (s.msrValue src) else s.cpsr.flags) = g at hk ⊢
        split at hk
        · rename_i hm
          rw [Bool.and_eq_true] at hm
          exact .inr (.inl ⟨hs, hm.1, hm.2, hk⟩)
        · rename_i hm
          rw [Bool.and_eq_true] at hm
          exact .inr (.inr ⟨hs, hm, hk⟩)
  · exact .inl hf

/-! ## Multiplies -/

/-- MUL or MLA that goes on: its condition failed, or Rd received the result. -/
theorem mulWrite_next {c : Cond} {f : Bool} {rd rn rs rm : Reg} {reads : List Reg} {result : Word} {s t : State}
    (h : mulWrite c f rd rn rs rm reads result s = .next t) :
    (c ≠ .nv ∧ condPassed s.cpsr.flags c = false ∧ s.advance = .next t)
    ∨ (s.ready c reads ∧ rd ≠ .r15 ∧ rn ≠ .r15 ∧ rs ≠ .r15 ∧ rm ≠ .r15 ∧ rd ≠ rm
      ∧ ((f = true ∧ ((s.drawn.setReg rd result).setFlags
            (mulFlags s.cpsr.flags result (s.free.getLsbD 0))).advance = .next t)
        ∨ (f = false ∧ (s.setReg rd result).advance = .next t))) := by
  obtain ⟨hr, hk⟩ | hf := condExec_next h
  · refine .inr ⟨hr, ?_⟩
    split at hk
    · cases hk
    · split at hk
      · cases hk
      · rename_i h15 hne
        simp only [List.contains_cons, List.contains_nil, Bool.or_false, Bool.or_eq_true, beq_iff_eq, not_or] at h15
        refine ⟨Ne.symm h15.1, Ne.symm h15.2.1, Ne.symm h15.2.2.1, Ne.symm h15.2.2.2, hne, ?_⟩
        cases f
        · exact .inr ⟨rfl, hk⟩
        · exact .inl ⟨rfl, hk⟩
  · exact .inl hf

/-- A long multiply that goes on: its condition failed, or RdHi and RdLo received the result. -/
theorem mullWrite_next {c : Cond} {f : Bool} {rdHi rdLo rs rm : Reg} {reads : List Reg} {p : BitVec 64} {s t : State}
    (h : mullWrite c f rdHi rdLo rs rm reads p s = .next t) :
    (c ≠ .nv ∧ condPassed s.cpsr.flags c = false ∧ s.advance = .next t)
    ∨ (s.ready c reads ∧ rdHi ≠ .r15 ∧ rdLo ≠ .r15 ∧ rs ≠ .r15 ∧ rm ≠ .r15 ∧ rdHi ≠ rdLo ∧ rdHi ≠ rm ∧ rdLo ≠ rm
      ∧ ((f = true ∧ (((s.drawn.setReg rdLo (p.extractLsb' 0 32)).setReg rdHi (p.extractLsb' 32 32)).setFlags
            (mullFlags p (s.free.getLsbD 0) (s.free.getLsbD 1))).advance = .next t)
        ∨ (f = false
          ∧ ((s.setReg rdLo (p.extractLsb' 0 32)).setReg rdHi (p.extractLsb' 32 32)).advance = .next t))) := by
  obtain ⟨hr, hk⟩ | hf := condExec_next h
  · refine .inr ⟨hr, ?_⟩
    split at hk
    · cases hk
    · split at hk
      · cases hk
      · rename_i h15 hne
        simp only [List.contains_cons, List.contains_nil, Bool.or_false, Bool.or_eq_true, beq_iff_eq, not_or] at h15
        simp only [not_or] at hne
        refine ⟨Ne.symm h15.1, Ne.symm h15.2.1, Ne.symm h15.2.2.1, Ne.symm h15.2.2.2, hne.1, hne.2.1, hne.2.2, ?_⟩
        cases f
        · exact .inr ⟨rfl, hk⟩
        · exact .inl ⟨rfl, hk⟩
  · exact .inl hf

end Sys2Proof.Machine
end

