-- ==== Sys2Proof/Laws/Decode.lean ====
section
/-! SUPPORT. The fields of an encoding and what they name. -/

namespace Sys2Proof

@[simp] theorem Cond.ofBits_bits (c : Cond) : Cond.ofBits c.bits = c := by cases c <;> rfl
@[simp] theorem Cond.bits_ofBits (v : BitVec 4) : (Cond.ofBits v).bits = v := by revert v; decide
@[simp] theorem Reg.ofBits_bits (r : Reg) : Reg.ofBits r.bits = r := by cases r <;> rfl
@[simp] theorem Reg.bits_ofBits (v : BitVec 4) : (Reg.ofBits v).bits = v := by revert v; decide
@[simp] theorem ShiftType.ofBits_bits (ty : ShiftType) : ShiftType.ofBits ty.bits = ty := by cases ty <;> rfl
@[simp] theorem ShiftType.bits_ofBits (v : BitVec 2) : (ShiftType.ofBits v).bits = v := by revert v; decide
@[simp] theorem Index.ofBits_p_w (idx : Index) : Index.ofBits idx.p idx.w = idx := by cases idx <;> rfl
@[simp] theorem Index.p_ofBits (p w : Bool) : (Index.ofBits p w).p = p := by cases p <;> cases w <;> rfl

/-- The two halves of a word, and a word made of two halves. -/
theorem split_word (w : Word) : w.extractLsb' 28 4 ++ w.extractLsb' 0 28 = w := by
  apply BitVec.eq_of_getLsbD_eq
  intro i hi
  simp only [BitVec.getLsbD_append, BitVec.getLsbD_extractLsb']
  split
  · simp_all
  · rw [show 28 + (i - 28) = i by omega]
    simp
    omega

theorem cond_of_append (c : BitVec 4) (b : BitVec 28) : (c ++ b).extractLsb' 28 4 = c := by
  apply BitVec.eq_of_getLsbD_eq
  intro i hi
  rw [BitVec.getLsbD_extractLsb', BitVec.getLsbD_append]
  simp [hi]

theorem body_of_append (c : BitVec 4) (b : BitVec 28) : (c ++ b).extractLsb' 0 28 = b := by
  apply BitVec.eq_of_getLsbD_eq
  intro i hi
  rw [BitVec.getLsbD_extractLsb', BitVec.getLsbD_append]
  simp [hi]

/-- The instruction of an encoded body under a condition. -/
theorem decode_append (c : Cond) (b : BitVec 28) : decode (c.bits ++ b) = decodeBody c b := by
  unfold decode
  rw [cond_of_append, body_of_append, Cond.ofBits_bits]

end Sys2Proof
end

