-- ==== Sys2Proof/Laws/Block.lean ====
section
/-! SUPPORT. Register lists, and what the operations of a block transfer do. -/

namespace Sys2Proof.Machine

/-! ## Register lists -/

theorem transfersFrom_length (a : Word) (l : List Reg) : (transfersFrom a l).length = l.length := by
  induction l generalizing a with
  | nil => rfl
  | cons r l ih => simp [transfersFrom, ih]

theorem transfersFrom_fst (a : Word) (l : List Reg) : (transfersFrom a l).map Prod.fst = l := by
  induction l generalizing a with
  | nil => rfl
  | cons r l ih => simp [transfersFrom, ih]

/-- The k-th transfer is of the k-th register, 4k bytes on. -/
theorem transfersFrom_getElem? (a : Word) (l : List Reg) (k : Nat) :
    (transfersFrom a l)[k]? = (l[k]?).map (fun r => (r, a + BitVec.ofNat 32 (4 * k))) := by
  induction l generalizing a k with
  | nil => simp [transfersFrom]
  | cons r l ih =>
    cases k with
    | zero => simp [transfersFrom]
    | succ k =>
      simp only [transfersFrom, List.getElem?_cons_succ, ih]
      congr 1; funext q; congr 1
      rw [BitVec.add_assoc]; congr 1
      apply BitVec.eq_of_toNat_eq
      simp [BitVec.toNat_add]
      omega

/-- A register list names the registers whose bits are set. -/
theorem mem_listRegs (list : BitVec 16) (r : Reg) : r ∈ listRegs list ↔ list.getLsbD r.bits.toNat = true := by
  unfold listRegs inList
  rw [List.mem_filter]
  exact ⟨fun h => h.2, fun h => ⟨by cases r <;> decide, h⟩⟩

theorem inList_iff (list : BitVec 16) (r : Reg) : inList list r = true ↔ r ∈ listRegs list := (mem_listRegs list r).symm

theorem listRegs_length_le (list : BitVec 16) : (listRegs list).length ≤ 16 := by
  unfold listRegs
  exact (List.length_filter_le _ _).trans (by decide)

theorem listRegs_sorted (list : BitVec 16) : (listRegs list).Pairwise (fun r q => r.bits.toNat < q.bits.toNat) := by
  unfold listRegs
  exact List.Pairwise.filter _ (by decide)

theorem listRegs_nodup (list : BitVec 16) : (listRegs list).Nodup :=
  (listRegs_sorted list).imp (fun h => by rintro rfl; omega)

/-- Only the empty list names no register. -/
theorem listRegs_ne_nil {list : BitVec 16} (h : list ≠ 0) : listRegs list ≠ [] := by
  intro hn
  apply h
  apply BitVec.eq_of_getLsbD_eq
  intro i hi
  have none_set : ∀ r : Reg, list.getLsbD r.bits.toNat = false := by
    intro r
    cases hh : list.getLsbD r.bits.toNat with
    | false => rfl
    | true => have := (mem_listRegs list r).2 hh; rw [hn] at this; simp at this
  have hi' := none_set (Reg.ofBits (BitVec.ofNat 4 i))
  rw [Reg.bits_ofBits, BitVec.toNat_ofNat, Nat.mod_eq_of_lt (by omega)] at hi'
  rw [hi']
  simp

/-- R15 is the last of a list that names it. -/
theorem listRegs_getLast_r15 {list : BitVec 16} (h : .r15 ∈ listRegs list) : (listRegs list).getLast? = some .r15 := by
  have hs := listRegs_sorted list
  cases hl : (listRegs list).getLast? with
  | none => simp at hl; rw [hl] at h; simp at h
  | some x =>
    congr 1
    obtain ⟨l, hl2⟩ := List.getLast?_eq_some_iff.1 hl
    rw [hl2] at h hs
    simp only [List.mem_append, List.mem_singleton] at h
    rcases h with h | h
    · have := (List.pairwise_append.1 hs).2.2 _ h x (by simp)
      exfalso
      have h15 : Reg.r15.bits.toNat = 15 := rfl
      have := x.bits.isLt
      omega
    · exact h.symm

/-! ## The transfers of a list -/

theorem State.blockTransfers_length (s : State) (p up : Bool) (rn : Reg) (list : BitVec 16) :
    (s.blockTransfers p up rn list).length = (listRegs list).length := transfersFrom_length _ _

theorem State.blockTransfers_fst (s : State) (p up : Bool) (rn : Reg) (list : BitVec 16) :
    (s.blockTransfers p up rn list).map Prod.fst = listRegs list := transfersFrom_fst _ _

theorem State.blockTransfers_getElem? (s : State) (p up : Bool) (rn : Reg) {list : BitVec 16} {k : Nat} {r : Reg}
    (h : (listRegs list)[k]? = some r) :
    (s.blockTransfers p up rn list)[k]? = some (r, s.blockAddress p up rn list k) := by
  unfold State.blockTransfers
  rw [transfersFrom_getElem?, h]
  rfl

theorem State.mem_blockTransfers {s : State} {p up : Bool} {rn : Reg} {list : BitVec 16} {ra : Reg × Word}
    (h : ra ∈ s.blockTransfers p up rn list) :
    ∃ k, (listRegs list)[k]? = some ra.1 ∧ ra.2 = s.blockAddress p up rn list k ∧ k < (listRegs list).length := by
  obtain ⟨k, hk⟩ := List.mem_iff_getElem?.1 h
  unfold State.blockTransfers at hk
  rw [transfersFrom_getElem?] at hk
  cases hh : (listRegs list)[k]? with
  | none => rw [hh] at hk; simp at hk
  | some r =>
    rw [hh] at hk; simp at hk; subst hk
    exact ⟨k, hh, rfl, (List.getElem?_eq_some_iff.1 hh).1⟩

/-- The words of a list lie in different aligned words. -/
theorem State.blockTransfers_distinct (s : State) (p up : Bool) (rn : Reg) (list : BitVec 16) :
    (s.blockTransfers p up rn list).Pairwise (fun x y => x.2.toNat / 4 ≠ y.2.toNat / 4) := by
  rw [List.pairwise_iff_getElem]
  intro i j hi hj hij
  have hl := s.blockTransfers_length p up rn list
  have h16 := listRegs_length_le list
  have get : ∀ n (hn : n < (s.blockTransfers p up rn list).length),
      (s.blockTransfers p up rn list)[n].2 = s.blockAddress p up rn list n := by
    intro n hn
    have := s.blockTransfers_getElem? p up rn (List.getElem?_eq_getElem (hl ▸ hn))
    rw [List.getElem?_eq_getElem hn] at this
    simpa using congrArg Prod.snd (Option.some.inj this)
  rw [get i hi, get j hj]
  unfold State.blockAddress
  generalize blockStart p up (s.reg rn) (listRegs list).length = x
  have := x.isLt
  rw [BitVec.toNat_add, BitVec.toNat_add, BitVec.toNat_ofNat, BitVec.toNat_ofNat]
  omega

/-! ## Requests and aborts -/

theorem State.loadRequests_plain (s : State) (k : Nat) (ts : List (Reg × Word)) :
    Plain s (s.loadRequests k ts) ∧ (s.loadRequests k ts).regs = s.regs
      ∧ (s.loadRequests k ts).mem = s.mem ∧ (s.loadRequests k ts).marks = s.marks
      ∧ (s.loadRequests k ts).freeCount = s.freeCount := by
  fun_induction State.loadRequests s k ts with
  | case1 s => exact ⟨Plain.refl s, rfl, rfl, rfl, rfl⟩
  | case2 => exact ⟨(Plain.refl _).request _ _ _, rfl, rfl, rfl, rfl⟩
  | case3 => exact ⟨(Plain.refl _).emit _, rfl, rfl, rfl, rfl⟩
  | case4 _ _ _ _ _ _ _ _ _ _ _ _ ih => exact ⟨((Plain.refl _).emit _).trans ih.1, ih.2⟩
  | case5 _ _ _ _ _ _ _ _ _ _ _ _ ih => exact ⟨((Plain.refl _).emit _).trans ih.1, ih.2⟩

/-- What the Prefetch Unit takes does not depend on the outputs. -/
theorem State.askFrom_emit (s : State) (o : Output) (k n : Nat) : (s.emit o).askFrom k n = (s.askFrom k n).emit o := by
  induction n generalizing s k with
  | zero => rfl
  | succ n ih => exact ih (s.ask k) (k + 1)

/-- The exchanges of a store multiple: the Prefetch Unit takes what is returned with each store before the first that
aborts, and the outputs grow. -/
theorem State.storeRequests_plain (s : State) (value : Reg → Word) (k : Nat) (ts : List (Reg × Word)) :
    Plain (s.askFrom k (s.blockDone .store ts).length) (s.storeRequests value k ts)
      ∧ (s.storeRequests value k ts).regs = s.regs
      ∧ (s.storeRequests value k ts).mem = s.mem ∧ (s.storeRequests value k ts).marks = s.marks := by
  induction ts generalizing s k with
  | nil => exact ⟨Plain.refl s, rfl, rfl, rfl⟩
  | cons ra ts ih =>
    by_cases h : s.abortsAt (s.access false .store .word false ra.2) = true
    · have e : s.blockDone .store (ra :: ts) = [] := by simp [State.blockDone, h]
      rw [State.storeRequests, e]
      simp only [h, if_true, List.length_nil]
      exact ⟨(Plain.refl _).emit _, rfl, rfl, rfl⟩
    · have e : s.blockDone .store (ra :: ts) = ra :: s.blockDone .store ts := by simp [State.blockDone, h]
      rw [State.storeRequests, e]
      simp only [h, List.length_cons]
      obtain ⟨h1, h2⟩ := ih (s.storeRequest k (if k = 0 then .store (!ts.isEmpty) else .storeS (!ts.isEmpty))
        (s.access false .store .word false ra.2) (value ra.1)) (k + 1)
      refine ⟨?_, h2⟩
      refine Plain.trans ?_ h1
      rw [State.storeRequest, State.askFrom_emit]
      exact (Plain.refl _).emit _

/-- Where no access aborts, every transfer is done. -/
theorem State.blockDone_all {s : State} {kind : AccessKind} {p up : Bool} {rn : Reg} {list : BitVec 16}
    (h : s.noBlockAbort kind p up rn list) :
    s.blockDone kind (s.blockTransfers p up rn list) = s.blockTransfers p up rn list := by
  unfold State.blockDone
  rw [List.takeWhile_eq_self_iff]
  intro ra hra
  obtain ⟨k, -, h2, h3⟩ := State.mem_blockTransfers hra
  rw [h2, h k h3]
  rfl

/-- Where access number `k` is the first to abort, the transfers before it are done. -/
theorem State.blockDone_take {s : State} {kind : AccessKind} {p up : Bool} {rn : Reg} {list : BitVec 16} {k : Nat}
    (hk : k < (listRegs list).length)
    (h1 : s.abortsAt (s.access false kind .word false (s.blockAddress p up rn list k)) = true)
    (h2 : ∀ j, j < k → s.abortsAt (s.access false kind .word false (s.blockAddress p up rn list j)) = false) :
    s.blockDone kind (s.blockTransfers p up rn list) = (s.blockTransfers p up rn list).take k := by
  have hl := s.blockTransfers_length p up rn list
  unfold State.blockDone
  conv_lhs => rw [← List.take_append_drop k (s.blockTransfers p up rn list)]
  have hall : ∀ x ∈ (s.blockTransfers p up rn list).take k,
      (!s.abortsAt (s.access false kind .word false x.2)) = true := by
    intro x hx
    obtain ⟨j, hj⟩ := List.mem_iff_getElem?.1 hx
    rw [List.getElem?_take] at hj
    split at hj
    · rename_i hlt
      have hj2 := s.blockTransfers_getElem? p up rn (list := list) (List.getElem?_eq_getElem (show j < _ by omega))
      rw [hj] at hj2
      cases hj2
      simp [h2 j hlt]
    · cases hj
  rw [List.takeWhile_append_of_pos hall]
  have hd : (s.blockTransfers p up rn list).drop k
      = (s.blockTransfers p up rn list)[k]'(by omega) :: (s.blockTransfers p up rn list).drop (k + 1) :=
    List.drop_eq_getElem_cons (by omega)
  have hg : (s.blockTransfers p up rn list)[k]'(by omega) = ((listRegs list)[k], s.blockAddress p up rn list k) := by
    have := s.blockTransfers_getElem? p up rn (List.getElem?_eq_getElem hk)
    rw [List.getElem?_eq_getElem (by omega)] at this
    exact Option.some.inj this
  rw [hd, hg, List.takeWhile_cons]
  simp [h1]

/-! ## Loads -/

theorem State.loadRegs_plain (s : State) (k : Bank) (ts : List (Reg × Word)) :
    Plain s (s.loadRegs k ts) ∧ (s.loadRegs k ts).mem = s.mem ∧ (s.loadRegs k ts).marks = s.marks := by
  induction ts generalizing s with
  | nil => exact ⟨Plain.refl s, rfl, rfl⟩
  | cons ra ts ih =>
    obtain ⟨r, a⟩ := ra
    obtain ⟨h1, h2, h3⟩ := ih (s.setRegIn k r (s.loadWord a))
    exact ⟨((Plain.refl s).setRegIn _ _ _).trans h1, h2.trans (by simp), h3.trans (by simp)⟩

/-- A register that the list does not name keeps its value. -/
theorem State.loadRegs_other (s : State) (k : Bank) {ts : List (Reg × Word)} {p : PReg}
    (h : ∀ ra ∈ ts, k.view ra.1 ≠ some p) : (s.loadRegs k ts).regs.get p = s.regs.get p := by
  induction ts generalizing s with
  | nil => rfl
  | cons ra ts ih =>
    obtain ⟨r, a⟩ := ra
    refine (ih _ (fun x hx => h x (by simp [hx]))).trans ?_
    rw [State.get_setRegIn, if_neg (h (r, a) (by simp))]

/-- A register of the list receives its word. -/
theorem State.loadRegs_get (s : State) {k : Bank} {ts : List (Reg × Word)} (hn : (ts.map Prod.fst).Nodup) {i : Nat}
    {r : Reg} {a : Word} {p : PReg} (h : ts[i]? = some (r, a)) (hv : k.view r = some p) :
    (s.loadRegs k ts).regs.get p = s.loadWord a := by
  induction ts generalizing s i with
  | nil => simp at h
  | cons ra ts ih =>
    obtain ⟨x0, a0⟩ := ra
    simp only [List.map_cons, List.nodup_cons] at hn
    cases i with
    | zero =>
      simp at h; obtain ⟨rfl, rfl⟩ := h
      refine (State.loadRegs_other (s.setRegIn k x0 (s.loadWord a0)) k ?_).trans ?_
      · intro ra hra hh
        have := Bank.view_injective hh hv
        exact hn.1 (this ▸ List.mem_map_of_mem hra)
      · rw [State.get_setRegIn, if_pos hv]
    | succ i =>
      exact (ih _ hn.2 (by simpa using h)).trans (State.loadWord_congr (by simp) (by simp) _)

theorem State.loadSome_plain (s : State) (k : Bank) (base : Option PReg) (which : Word) (ts : List (Reg × Word)) :
    Plain s (s.loadSome k base which ts) ∧ (s.loadSome k base which ts).mem = s.mem
      ∧ (s.loadSome k base which ts).marks = s.marks := by
  induction ts generalizing s with
  | nil => exact ⟨Plain.refl s, rfl, rfl⟩
  | cons ra ts ih =>
    obtain ⟨r, a⟩ := ra
    unfold State.loadSome
    split
    · obtain ⟨h1, h2, h3⟩ := ih (s.setRegIn k r (s.loadWord a))
      exact ⟨((Plain.refl s).setRegIn _ _ _).trans h1, h2.trans (by simp), h3.trans (by simp)⟩
    · exact ih s

/-- A register before the aborting one keeps its value or receives its word; the base keeps its value. -/
theorem State.loadSome_get (s : State) (k : Bank) (base : Option PReg) (which : Word) (ts : List (Reg × Word))
    (q : PReg) :
    (s.loadSome k base which ts).regs.get q = s.regs.get q
    ∨ (some q ≠ base ∧ ∃ ra ∈ ts, k.view ra.1 = some q
        ∧ (s.loadSome k base which ts).regs.get q = s.loadWord ra.2) := by
  induction ts generalizing s with
  | nil => exact .inl rfl
  | cons ra ts ih =>
    obtain ⟨r, a⟩ := ra
    unfold State.loadSome
    split
    · rename_i hc
      simp only [Bool.and_eq_true, bne_iff_ne] at hc
      rcases ih (s.setRegIn k r (s.loadWord a)) with h | ⟨h1, ra, h2, h3, h4⟩
      · rw [h, State.get_setRegIn]
        by_cases hv : k.view r = some q
        · rw [if_pos hv]
          exact .inr ⟨by rw [← hv]; exact hc.2, (r, a), by simp, hv, rfl⟩
        · rw [if_neg hv]
          exact .inl rfl
      · refine .inr ⟨h1, ra, by simp [h2], h3, ?_⟩
        rw [h4]
        exact State.loadWord_congr (by simp) (by simp) _
    · rcases ih s with h | ⟨h1, ra, h2, h3, h4⟩
      · exact .inl h
      · exact .inr ⟨h1, ra, by simp [h2], h3, h4⟩

/-- The end of an LDM: R15 receives its word, with the PSR where S = 1, or execution goes on. -/
theorem State.finishLoad_eq (s u : State) (psr p up : Bool) (rn : Reg) {list : BitVec 16} (h : list ≠ 0) :
    u.finishLoad psr list (s.blockTransfers p up rn list) =
      if .r15 ∈ listRegs list then
        (if psr then u.writePcAndPsr (u.loadWord (s.blockAddress p up rn list ((listRegs list).length - 1)))
         else u.jump (u.loadWord (s.blockAddress p up rn list ((listRegs list).length - 1))))
      else (if psr then markUserLdm u.advance else u.advance) := by
  have hn := listRegs_ne_nil h
  have hl : (listRegs list).length - 1 < (listRegs list).length := by
    have := List.length_pos_iff.2 hn
    omega
  obtain ⟨r, h1, h2⟩ : ∃ r, (listRegs list).getLast? = some r
      ∧ (s.blockTransfers p up rn list).getLast?
        = some (r, s.blockAddress p up rn list ((listRegs list).length - 1)) := by
    refine ⟨(listRegs list)[(listRegs list).length - 1], ?_, ?_⟩
    · rw [List.getLast?_eq_getElem?, List.getElem?_eq_getElem hl]
    · rw [List.getLast?_eq_getElem?, State.blockTransfers_length]
      exact State.blockTransfers_getElem? _ _ _ _ (List.getElem?_eq_getElem hl)
  unfold State.finishLoad
  rw [h2]
  by_cases h15 : .r15 ∈ listRegs list
  · have := listRegs_getLast_r15 h15
    rw [this] at h1; cases h1
    rw [if_pos h15]
  · have hr : r ≠ .r15 := by
      rintro rfl
      exact h15 (List.mem_of_getLast? h1)
    rw [if_neg h15]
    have hu : userBank true psr list = psr := by
      have : inList list .r15 = false := by
        rw [← Bool.not_eq_true, inList_iff]
        exact h15
      simp [userBank, this]
    rw [hu]
    cases r <;> first | exact absurd rfl hr | rfl

/-- The mark of R322 changes one field of a next state. -/
theorem markUserLdm_next {o : Out} {t : State} (h : markUserLdm o = .next t) :
    ∃ u, o = .next u ∧ t = { u with userLdm := true } := by
  cases o with
  | next u => exact ⟨u, rfl, (Host.Outcome.next.inj h).symm⟩
  | fault x => cases h
  | refused x => cases h

/-- An LDM that goes on: its condition failed, it took the data abort, or it loaded the whole list. -/
theorem execLdm_next {c : Cond} {p up psr w : Bool} {rn : Reg} {list : BitVec 16} {s t : State}
    (h : execLdm c p up psr w rn list s = .next t) :
    let k := blockBank true psr list s.cpsr.mode
    let ts := s.blockTransfers p up rn list
    let done := s.blockDone .load ts
    let u := s.loadRequests 0 ts
    (c ≠ .nv ∧ condPassed s.cpsr.flags c = false ∧ s.advance = .next t)
    ∨ (s.ready c [rn] ∧ blockStop true psr w rn list s.cpsr.mode = none
      ∧ ((done.length < ts.length
            ∧ t = (u.drawn.loadSome k (s.cpsr.mode.bank.view rn) s.free done).enter .dataAbort (s.pc + 8))
        ∨ (¬ done.length < ts.length
            ∧ ((if w then u.setReg rn (blockFinal up (s.reg rn) ts.length) else u).loadRegs k ts).finishLoad psr list ts
              = .next t))) := by
  intro k ts done u
  obtain ⟨hr, hk⟩ | hf := condExec_next h
  · refine .inr ⟨hr, ?_⟩
    split at hk
    · cases hk
    · refine ⟨‹_›, ?_⟩
      dsimp only at hk
      split at hk
      · exact .inl ⟨‹_›, (Host.Outcome.next.inj hk).symm⟩
      · exact .inr ⟨‹_›, hk⟩
  · exact .inl hf

/-! ## Stores -/

/-- The words of a list are stored, each at its aligned word; no other byte changes. -/
theorem State.storeWords_spec {s : State} (value : Reg → Word) (ts : List (Reg × Word)) (hs : Memory.wf s.mem = true) :
    let u := s.storeWords value ts
    Plain s u ∧ u.regs = s.regs ∧ Memory.wf u.mem = true
    ∧ (∀ x : Nat, (∀ ra ∈ ts, x / 4 ≠ ra.2.toNat / 4) → Memory.read u.mem x = Memory.read s.mem x)
    ∧ (∀ x : Nat, x ∈ u.marks ↔ (∃ ra ∈ ts, x / 4 = ra.2.toNat / 4) ∨ x ∈ s.marks)
    ∧ (ts.Pairwise (fun x y => x.2.toNat / 4 ≠ y.2.toNat / 4) → ∀ ra ∈ ts, u.loadWord ra.2 = value ra.1) := by
  induction ts generalizing s with
  | nil => exact ⟨Plain.refl s, rfl, hs, fun _ _ => rfl, fun x => by simp [State.storeWords], fun _ ra h => by simp at h⟩
  | cons ra ts ih =>
    obtain ⟨r, a⟩ := ra
    have hw : Memory.wf (s.storeWord a (value r)).mem = true := Memory.wf_writeBytes _ hs (alignWord_add_four_le a)
    have so := State.storeWord_storesOnly hs a (value r)
    rw [alignWord_toNat] at so
    obtain ⟨h1, h2, h3, h4, h5, h6⟩ := ih hw
    refine ⟨((Plain.refl s).storeBytes _ _).trans h1, h2, h3, ?_, ?_, ?_⟩
    · intro x hx
      refine (h4 x (fun ra hra => hx ra (by simp [hra]))).trans (so.1 x ?_)
      have := hx (r, a) (by simp)
      simp only at this
      omega
    · intro x
      refine (h5 x).trans ?_
      rw [so.2 x]
      have e : (a.toNat / 4 * 4 ≤ x ∧ x < a.toNat / 4 * 4 + 4) ↔ x / 4 = a.toNat / 4 := by omega
      rw [e]
      simp only [List.exists_mem_cons_iff]
      rw [or_left_comm, or_assoc]
    · intro hp ra hra
      rw [List.pairwise_cons] at hp
      rcases List.mem_cons.1 hra with rfl | hra
      · have later : ∀ k, k < 4 → Memory.read ((s.storeWord a (value r)).storeWords value ts).mem ((alignWord a).toNat + k)
            = Memory.read (s.storeWord a (value r)).mem ((alignWord a).toNat + k) := by
          intro k hk
          apply h4
          intro rb hrb
          have := hp.1 rb hrb
          rw [alignWord_toNat]
          simp only at this
          omega
        have e : ((s.storeWord a (value r)).storeWords value ts).loadWord a = (s.storeWord a (value r)).loadWord a := by
          unfold State.loadWord Memory.readWord
          simp only []
          rw [show ((s.storeWord a (value r)).storeWords value ts).cfg = (s.storeWord a (value r)).cfg from h1.cfg]
          have t0 := later 0 (by omega)
          simp only [Nat.add_zero] at t0
          rw [t0, later 1 (by omega), later 2 (by omega), later 3 (by omega)]
        show ((s.storeWord a (value r)).storeWords value ts).loadWord a = _
        rw [e, State.loadWord_storeWord hs]
      · exact h6 hp.2 ra hra

/-- Storing the words of a list keeps the canonical form. -/
theorem State.canonical_storeWords {s : State} (hs : s.canonical) (value : Reg → Word) (ts : List (Reg × Word)) :
    (s.storeWords value ts).canonical := by
  induction ts generalizing s with
  | nil => exact hs
  | cons ra ts ih => exact ih (State.canonical_storeWord hs _ _)

/-- Storing the words of a list keeps the invariant. -/
theorem State.inv_storeWords {s : State} (hs : s.inv) (value : Reg → Word) (ts : List (Reg × Word)) :
    (s.storeWords value ts).inv := by
  induction ts generalizing s with
  | nil => exact hs
  | cons ra ts ih => exact ih (State.inv_storeWord hs _ _)

/-- An STM that goes on: its condition failed, or it stored the words before the first abort and took it, or it stored
the whole list. -/
theorem execStm_next {c : Cond} {p up psr w : Bool} {rn : Reg} {list : BitVec 16} {s t : State}
    (h : execStm c p up psr w rn list s = .next t) :
    let ts := s.blockTransfers p up rn list
    let done := s.blockDone .store ts
    let value := s.stmValue psr w rn list
    let d := if baseNotSpecified w rn list then s.drawn else s
    let u := (d.storeRequests value 0 ts).storeWords value done
    (c ≠ .nv ∧ condPassed s.cpsr.flags c = false ∧ s.advance = .next t)
    ∨ (s.ready c (rn :: listRegs list) ∧ blockStop false psr w rn list s.cpsr.mode = none
      ∧ ((done.length < ts.length ∧ t = u.enter .dataAbort (s.pc + 8))
        ∨ (¬ done.length < ts.length
            ∧ (if w then u.setReg rn (blockFinal up (s.reg rn) ts.length) else u).advance = .next t))) := by
  intro ts done value d u
  obtain ⟨hr, hk⟩ | hf := condExec_next h
  · refine .inr ⟨hr, ?_⟩
    split at hk
    · cases hk
    · refine ⟨‹_›, ?_⟩
      dsimp only at hk
      split at hk
      · exact .inl ⟨‹_›, (Host.Outcome.next.inj hk).symm⟩
      · exact .inr ⟨‹_›, hk⟩
  · exact .inl hf

end Sys2Proof.Machine
end

