-- ==== Sys2Proof/Laws/PerInstr.lean ====
section
/-! SUPPORT. The family ConditionField: the encoding of every instruction carries its condition in bits 31 to 28 and its
body in bits 27 to 0 (spec/30_encoding.md R111), so the decoder reads its body under its condition. -/

namespace Sys2Proof.Laws

/-- The word of an instruction is its condition and its body, and its decoding is that of its body. -/
def ConditionField.Statement (i : Instr) : Prop :=
  (encode i).extractLsb' 28 4 = i.cond.bits ∧ (encode i).extractLsb' 0 28 = encodeBody i
  ∧ decode (encode i) = decodeBody i.cond (encodeBody i)

/-- A word made of a condition and a body. -/
theorem encode_split (i : Instr) : ConditionField.Statement i :=
  ⟨cond_of_append _ _, body_of_append _ _, decode_append _ _⟩

namespace ConditionField

theorem and (c : Cond) (f : Bool) (rd rn : Reg) (op2 : Operand2) :
    Statement (.and c f rd rn op2) := encode_split _
theorem eor (c : Cond) (f : Bool) (rd rn : Reg) (op2 : Operand2) :
    Statement (.eor c f rd rn op2) := encode_split _
theorem sub (c : Cond) (f : Bool) (rd rn : Reg) (op2 : Operand2) :
    Statement (.sub c f rd rn op2) := encode_split _
theorem rsb (c : Cond) (f : Bool) (rd rn : Reg) (op2 : Operand2) :
    Statement (.rsb c f rd rn op2) := encode_split _
theorem add (c : Cond) (f : Bool) (rd rn : Reg) (op2 : Operand2) :
    Statement (.add c f rd rn op2) := encode_split _
theorem adc (c : Cond) (f : Bool) (rd rn : Reg) (op2 : Operand2) :
    Statement (.adc c f rd rn op2) := encode_split _
theorem sbc (c : Cond) (f : Bool) (rd rn : Reg) (op2 : Operand2) :
    Statement (.sbc c f rd rn op2) := encode_split _
theorem rsc (c : Cond) (f : Bool) (rd rn : Reg) (op2 : Operand2) :
    Statement (.rsc c f rd rn op2) := encode_split _
theorem orr (c : Cond) (f : Bool) (rd rn : Reg) (op2 : Operand2) :
    Statement (.orr c f rd rn op2) := encode_split _
theorem bic (c : Cond) (f : Bool) (rd rn : Reg) (op2 : Operand2) :
    Statement (.bic c f rd rn op2) := encode_split _
theorem mov (c : Cond) (f : Bool) (rd rn : Reg) (op2 : Operand2) :
    Statement (.mov c f rd rn op2) := encode_split _
theorem mvn (c : Cond) (f : Bool) (rd rn : Reg) (op2 : Operand2) :
    Statement (.mvn c f rd rn op2) := encode_split _
theorem tst (c : Cond) (rd rn : Reg) (op2 : Operand2) :
    Statement (.tst c rd rn op2) := encode_split _
theorem teq (c : Cond) (rd rn : Reg) (op2 : Operand2) :
    Statement (.teq c rd rn op2) := encode_split _
theorem cmp (c : Cond) (rd rn : Reg) (op2 : Operand2) :
    Statement (.cmp c rd rn op2) := encode_split _
theorem cmn (c : Cond) (rd rn : Reg) (op2 : Operand2) :
    Statement (.cmn c rd rn op2) := encode_split _
theorem tstp (c : Cond) (rn : Reg) (op2 : Operand2) :
    Statement (.tstp c rn op2) := encode_split _
theorem teqp (c : Cond) (rn : Reg) (op2 : Operand2) :
    Statement (.teqp c rn op2) := encode_split _
theorem cmpp (c : Cond) (rn : Reg) (op2 : Operand2) :
    Statement (.cmpp c rn op2) := encode_split _
theorem cmnp (c : Cond) (rn : Reg) (op2 : Operand2) :
    Statement (.cmnp c rn op2) := encode_split _
theorem mrs (c : Cond) (spsr : Bool) (rd : Reg) :
    Statement (.mrs c spsr rd) := encode_split _
theorem msr (c : Cond) (spsr : Bool) (mask : BitVec 4) (src : MsrSource) :
    Statement (.msr c spsr mask src) := encode_split _
theorem mul (c : Cond) (f : Bool) (rd rn rs rm : Reg) :
    Statement (.mul c f rd rn rs rm) := encode_split _
theorem mla (c : Cond) (f : Bool) (rd rn rs rm : Reg) :
    Statement (.mla c f rd rn rs rm) := encode_split _
theorem umull (c : Cond) (f : Bool) (rdHi rdLo rs rm : Reg) :
    Statement (.umull c f rdHi rdLo rs rm) := encode_split _
theorem umlal (c : Cond) (f : Bool) (rdHi rdLo rs rm : Reg) :
    Statement (.umlal c f rdHi rdLo rs rm) := encode_split _
theorem smull (c : Cond) (f : Bool) (rdHi rdLo rs rm : Reg) :
    Statement (.smull c f rdHi rdLo rs rm) := encode_split _
theorem smlal (c : Cond) (f : Bool) (rdHi rdLo rs rm : Reg) :
    Statement (.smlal c f rdHi rdLo rs rm) := encode_split _
theorem ldr (c : Cond) (idx : Index) (up : Bool) (rn rd : Reg) (off : TransferOffset) :
    Statement (.ldr c idx up rn rd off) := encode_split _
theorem ldrb (c : Cond) (idx : Index) (up : Bool) (rn rd : Reg) (off : TransferOffset) :
    Statement (.ldrb c idx up rn rd off) := encode_split _
theorem str (c : Cond) (idx : Index) (up : Bool) (rn rd : Reg) (off : TransferOffset) :
    Statement (.str c idx up rn rd off) := encode_split _
theorem strb (c : Cond) (idx : Index) (up : Bool) (rn rd : Reg) (off : TransferOffset) :
    Statement (.strb c idx up rn rd off) := encode_split _
theorem ldrt (c : Cond) (up : Bool) (rn rd : Reg) (off : TransferOffset) :
    Statement (.ldrt c up rn rd off) := encode_split _
theorem ldrbt (c : Cond) (up : Bool) (rn rd : Reg) (off : TransferOffset) :
    Statement (.ldrbt c up rn rd off) := encode_split _
theorem strt (c : Cond) (up : Bool) (rn rd : Reg) (off : TransferOffset) :
    Statement (.strt c up rn rd off) := encode_split _
theorem strbt (c : Cond) (up : Bool) (rn rd : Reg) (off : TransferOffset) :
    Statement (.strbt c up rn rd off) := encode_split _
theorem ldrh (c : Cond) (idx : Index) (up : Bool) (rn rd : Reg) (off : HalfOffset) :
    Statement (.ldrh c idx up rn rd off) := encode_split _
theorem ldrsb (c : Cond) (idx : Index) (up : Bool) (rn rd : Reg) (off : HalfOffset) :
    Statement (.ldrsb c idx up rn rd off) := encode_split _
theorem ldrsh (c : Cond) (idx : Index) (up : Bool) (rn rd : Reg) (off : HalfOffset) :
    Statement (.ldrsh c idx up rn rd off) := encode_split _
theorem strh (c : Cond) (idx : Index) (up : Bool) (rn rd : Reg) (off : HalfOffset) :
    Statement (.strh c idx up rn rd off) := encode_split _
theorem ldm (c : Cond) (p up psr w : Bool) (rn : Reg) (list : BitVec 16) :
    Statement (.ldm c p up psr w rn list) := encode_split _
theorem stm (c : Cond) (p up psr w : Bool) (rn : Reg) (list : BitVec 16) :
    Statement (.stm c p up psr w rn list) := encode_split _
theorem swp (c : Cond) (rn rd rm : Reg) :
    Statement (.swp c rn rd rm) := encode_split _
theorem swpb (c : Cond) (rn rd rm : Reg) :
    Statement (.swpb c rn rd rm) := encode_split _
theorem b (c : Cond) (offset : BitVec 24) :
    Statement (.b c offset) := encode_split _
theorem bl (c : Cond) (offset : BitVec 24) :
    Statement (.bl c offset) := encode_split _
theorem swi (c : Cond) (comment : BitVec 24) :
    Statement (.swi c comment) := encode_split _
theorem cdp (c : Cond) (opc crn crd num : BitVec 4) (info : BitVec 3) (crm : BitVec 4) :
    Statement (.cdp c opc crn crd num info crm) := encode_split _
theorem ldc (c : Cond) (p up n w : Bool) (rn : Reg) (crd num : BitVec 4) (offset : BitVec 8) :
    Statement (.ldc c p up n w rn crd num offset) := encode_split _
theorem stc (c : Cond) (p up n w : Bool) (rn : Reg) (crd num : BitVec 4) (offset : BitVec 8) :
    Statement (.stc c p up n w rn crd num offset) := encode_split _
theorem mrc (c : Cond) (opc : BitVec 3) (crn : BitVec 4) (rd : Reg) (num : BitVec 4) (info : BitVec 3) (crm : BitVec 4) :
    Statement (.mrc c opc crn rd num info crm) := encode_split _
theorem mcr (c : Cond) (opc : BitVec 3) (crn : BitVec 4) (rd : Reg) (num : BitVec 4) (info : BitVec 3) (crm : BitVec 4) :
    Statement (.mcr c opc crn rd num info crm) := encode_split _
theorem undefinedA (c : Cond) (bits : BitVec 28) :
    Statement (.undefinedA c bits) := encode_split _
theorem undefinedB (c : Cond) (bits : BitVec 28) :
    Statement (.undefinedB c bits) := encode_split _
theorem undefinedC (c : Cond) (bits : BitVec 28) :
    Statement (.undefinedC c bits) := encode_split _
theorem undefinedD (c : Cond) (bits : BitVec 28) :
    Statement (.undefinedD c bits) := encode_split _
theorem undefinedE (c : Cond) (bits : BitVec 28) :
    Statement (.undefinedE c bits) := encode_split _
theorem reservedMrs (c : Cond) (bits : BitVec 28) :
    Statement (.reservedMrs c bits) := encode_split _
theorem reservedMsr (c : Cond) (bits : BitVec 28) :
    Statement (.reservedMsr c bits) := encode_split _
theorem reservedSwp (c : Cond) (bits : BitVec 28) :
    Statement (.reservedSwp c bits) := encode_split _
theorem reservedHreg (c : Cond) (bits : BitVec 28) :
    Statement (.reservedHreg c bits) := encode_split _

end ConditionField

end Sys2Proof.Laws
end

