-- ==== Sys2Proof/Laws/Platform.lean ====
section
/-! SUPPORT. What a step boundary can do: registers, status and parameters stay; memory changes only where
another agent writes or a device byte reacts, and keeps its canonical form. -/

namespace Sys2Proof.Machine

/-- A fold of updates that keep something keeps it. -/
theorem foldl_keeps {α β γ : Type} (g : β → γ) {f : β → α → β} (h : ∀ b a, g (f b a) = g b) (l : List α) (b : β) :
    g (l.foldl f b) = g b := by
  induction l generalizing b with
  | nil => rfl
  | cons a l ih => exact (ih (f b a)).trans (h b a)

/-- A fold of updates that keep a property keeps it. -/
theorem foldl_induct {α β : Type} (P : β → Prop) {f : β → α → β} (h : ∀ b a, P b → P (f b a)) (l : List α) (b : β)
    (hb : P b) : P (l.foldl f b) := by
  induction l generalizing b with
  | nil => exact hb
  | cons a l ih => exact ih (f b a) (h b a hb)

/-! ## What stays -/

@[simp] theorem State.react_regs (s : State) (o : Output) : (s.react o).regs = s.regs := by
  cases o with
  | access t => exact foldl_keeps State.regs (State.deviceReacts_regs t) _ s
  | cpInstruct _ _ | cpExecute _ | cpWrite _ _ => rfl
@[simp] theorem State.react_pc (s : State) (o : Output) : (s.react o).pc = s.pc := by
  cases o with
  | access t => exact foldl_keeps State.pc (State.deviceReacts_pc t) _ s
  | cpInstruct _ _ | cpExecute _ | cpWrite _ _ => rfl
@[simp] theorem State.react_cpsr (s : State) (o : Output) : (s.react o).cpsr = s.cpsr := by
  cases o with
  | access t => exact foldl_keeps State.cpsr (State.deviceReacts_cpsr t) _ s
  | cpInstruct _ _ | cpExecute _ | cpWrite _ _ => rfl
@[simp] theorem State.react_spsrs (s : State) (o : Output) : (s.react o).spsrs = s.spsrs := by
  cases o with
  | access t => exact foldl_keeps State.spsrs (State.deviceReacts_spsrs t) _ s
  | cpInstruct _ _ | cpExecute _ | cpWrite _ _ => rfl
@[simp] theorem State.react_ran26 (s : State) (o : Output) : (s.react o).ran26 = s.ran26 := by
  cases o with
  | access t => exact foldl_keeps State.ran26 (State.deviceReacts_ran26 t) _ s
  | cpInstruct _ _ | cpExecute _ | cpWrite _ _ => rfl
@[simp] theorem State.react_ran32 (s : State) (o : Output) : (s.react o).ran32 = s.ran32 := by
  cases o with
  | access t => exact foldl_keeps State.ran32 (State.deviceReacts_ran32 t) _ s
  | cpInstruct _ _ | cpExecute _ | cpWrite _ _ => rfl
@[simp] theorem State.react_userLdm (s : State) (o : Output) : (s.react o).userLdm = s.userLdm := by
  cases o with
  | access t => exact foldl_keeps State.userLdm (State.deviceReacts_userLdm t) _ s
  | cpInstruct _ _ | cpExecute _ | cpWrite _ _ => rfl
@[simp] theorem State.react_busyWait (s : State) (o : Output) : (s.react o).busyWait = s.busyWait := by
  cases o with
  | access t => exact foldl_keeps State.busyWait (State.deviceReacts_busyWait t) _ s
  | cpInstruct _ _ | cpExecute _ | cpWrite _ _ => rfl
@[simp] theorem State.react_coproc (s : State) (o : Output) : (s.react o).coproc = s.coproc := by
  cases o with
  | access t => exact foldl_keeps State.coproc (State.deviceReacts_coproc t) _ s
  | cpInstruct _ _ | cpExecute _ | cpWrite _ _ => rfl
@[simp] theorem State.react_pending (s : State) (o : Output) : (s.react o).pending = s.pending := by
  cases o with
  | access t => exact foldl_keeps State.pending (State.deviceReacts_pending t) _ s
  | cpInstruct _ _ | cpExecute _ | cpWrite _ _ => rfl
@[simp] theorem State.react_freeCount (s : State) (o : Output) : (s.react o).freeCount = s.freeCount := by
  cases o with
  | access t => exact foldl_keeps State.freeCount (State.deviceReacts_freeCount t) _ s
  | cpInstruct _ _ | cpExecute _ | cpWrite _ _ => rfl
@[simp] theorem State.react_cfg (s : State) (o : Output) : (s.react o).cfg = s.cfg := by
  cases o with
  | access t => exact foldl_keeps State.cfg (State.deviceReacts_cfg t) _ s
  | cpInstruct _ _ | cpExecute _ | cpWrite _ _ => rfl
@[simp] theorem State.react_aborts (s : State) (o : Output) : (s.react o).aborts = s.aborts := by
  cases o with
  | access t => exact foldl_keeps State.aborts (State.deviceReacts_aborts t) _ s
  | cpInstruct _ _ | cpExecute _ | cpWrite _ _ => rfl

@[simp] theorem State.react_fetchUnit (s : State) (o : Output) : (s.react o).fetchUnit = s.fetchUnit := by
  cases o with
  | access t => exact foldl_keeps State.fetchUnit (State.deviceReacts_fetchUnit t) _ s
  | cpInstruct _ _ | cpExecute _ | cpWrite _ _ => rfl

@[simp] theorem State.beginStep_regs (s : State) : s.beginStep.regs = s.regs :=
  (foldl_keeps State.regs State.fetchAhead_regs _ _).trans
    ((foldl_keeps State.regs State.outsideWrite_regs _ _).trans (foldl_keeps State.regs State.react_regs _ s))
@[simp] theorem State.beginStep_pc (s : State) : s.beginStep.pc = s.pc :=
  (foldl_keeps State.pc State.fetchAhead_pc _ _).trans
    ((foldl_keeps State.pc State.outsideWrite_pc _ _).trans (foldl_keeps State.pc State.react_pc _ s))
@[simp] theorem State.beginStep_cpsr (s : State) : s.beginStep.cpsr = s.cpsr :=
  (foldl_keeps State.cpsr State.fetchAhead_cpsr _ _).trans
    ((foldl_keeps State.cpsr State.outsideWrite_cpsr _ _).trans (foldl_keeps State.cpsr State.react_cpsr _ s))
@[simp] theorem State.beginStep_spsrs (s : State) : s.beginStep.spsrs = s.spsrs :=
  (foldl_keeps State.spsrs State.fetchAhead_spsrs _ _).trans
    ((foldl_keeps State.spsrs State.outsideWrite_spsrs _ _).trans (foldl_keeps State.spsrs State.react_spsrs _ s))
@[simp] theorem State.beginStep_ran26 (s : State) : s.beginStep.ran26 = s.ran26 :=
  (foldl_keeps State.ran26 State.fetchAhead_ran26 _ _).trans
    ((foldl_keeps State.ran26 State.outsideWrite_ran26 _ _).trans (foldl_keeps State.ran26 State.react_ran26 _ s))
@[simp] theorem State.beginStep_ran32 (s : State) : s.beginStep.ran32 = s.ran32 :=
  (foldl_keeps State.ran32 State.fetchAhead_ran32 _ _).trans
    ((foldl_keeps State.ran32 State.outsideWrite_ran32 _ _).trans (foldl_keeps State.ran32 State.react_ran32 _ s))
@[simp] theorem State.beginStep_userLdm (s : State) : s.beginStep.userLdm = s.userLdm :=
  (foldl_keeps State.userLdm State.fetchAhead_userLdm _ _).trans
    ((foldl_keeps State.userLdm State.outsideWrite_userLdm _ _).trans (foldl_keeps State.userLdm State.react_userLdm _ s))
@[simp] theorem State.beginStep_busyWait (s : State) : s.beginStep.busyWait = s.busyWait :=
  (foldl_keeps State.busyWait State.fetchAhead_busyWait _ _).trans
    ((foldl_keeps State.busyWait State.outsideWrite_busyWait _ _).trans (foldl_keeps State.busyWait State.react_busyWait _ s))
@[simp] theorem State.beginStep_pending (s : State) : s.beginStep.pending = s.pending :=
  (foldl_keeps State.pending State.fetchAhead_pending _ _).trans
    ((foldl_keeps State.pending State.outsideWrite_pending _ _).trans (foldl_keeps State.pending State.react_pending _ s))
@[simp] theorem State.beginStep_freeCount (s : State) : s.beginStep.freeCount = s.freeCount :=
  (foldl_keeps State.freeCount State.fetchAhead_freeCount _ _).trans
    ((foldl_keeps State.freeCount State.outsideWrite_freeCount _ _).trans (foldl_keeps State.freeCount State.react_freeCount _ s))
@[simp] theorem State.beginStep_cfg (s : State) : s.beginStep.cfg = s.cfg :=
  (foldl_keeps State.cfg State.fetchAhead_cfg _ _).trans
    ((foldl_keeps State.cfg State.outsideWrite_cfg _ _).trans (foldl_keeps State.cfg State.react_cfg _ s))
@[simp] theorem State.beginStep_lines (s : State) : s.beginStep.lines = s.lines.tail :=
  foldl_keeps State.lines State.fetchAhead_lines _ _
/-- The coprocessors change by themselves where the platform says so (R377). -/
theorem State.beginStep_coproc (s : State) : s.beginStep.coproc = s.platformStep.coproc.getD s.coproc :=
  foldl_keeps State.coproc State.fetchAhead_coproc _ _
/-- The accesses that abort change where the platform says so (R77). -/
theorem State.beginStep_aborts (s : State) : s.beginStep.aborts = s.platformStep.aborts.getD s.aborts :=
  foldl_keeps State.aborts State.fetchAhead_aborts _ _
theorem State.beginStep_platform (s : State) : s.beginStep.platform = s.settle.platform :=
  foldl_keeps State.platform State.fetchAhead_platform _ _
theorem State.beginStep_buffers (s : State) :
    s.beginStep.platform.buffers = s.platformStep.buffers.getD s.platform.buffers := by
  rw [State.beginStep_platform]
  rfl
theorem State.beginStep_double (s : State) :
    s.beginStep.platform.double = s.platformStep.double.getD s.platform.double := by
  rw [State.beginStep_platform]
  rfl
theorem State.beginStep_predictOn (s : State) :
    s.beginStep.platform.predictOn = s.platformStep.predictOn.getD s.platform.predictOn := by
  rw [State.beginStep_platform]
  rfl
theorem State.beginStep_mem (s : State) : s.beginStep.mem = s.settle.mem :=
  foldl_keeps State.mem State.fetchAhead_mem _ _
theorem State.beginStep_marks (s : State) : s.beginStep.marks = s.settle.marks :=
  foldl_keeps State.marks State.fetchAhead_marks _ _

/-! ## Memory -/

/-- A write from outside keeps the canonical form. -/
theorem State.canonical_outsideWrite {s : State} (hs : s.canonical) (c : Host.Cell) : (s.outsideWrite c).canonical :=
  State.canonical_storeBytes hs (by have := Nat.mod_lt c.1 (Nat.two_pow_pos 32); simp only [List.length_singleton]; omega)

theorem State.canonical_deviceReacts {s : State} (hs : s.canonical) (t : Transaction) (d : DeviceByte) :
    (State.deviceReacts t s d).canonical := by
  unfold State.deviceReacts
  split
  · exact hs
  · split
    · exact State.canonical_outsideWrite hs _
    · exact hs

theorem State.canonical_react {s : State} (hs : s.canonical) (o : Output) : (s.react o).canonical := by
  cases o with
  | access t => exact foldl_induct State.canonical (fun _ _ h => State.canonical_deviceReacts h t _) _ s hs
  | cpInstruct _ _ | cpExecute _ | cpWrite _ _ => exact hs

/-- A step boundary keeps the canonical form. -/
theorem State.canonical_beginStep {s : State} (hs : s.canonical) : s.beginStep.canonical := by
  have h1 : (s.outputs.foldl State.react s).canonical :=
    foldl_induct State.canonical (fun _ _ h => State.canonical_react h _) _ s hs
  have h2 := foldl_induct State.canonical (f := State.outsideWrite) (fun _ c h => State.canonical_outsideWrite h c) s.platformStep.writes _ h1
  exact State.canonical_congr (s := s.platformStep.writes.foldl State.outsideWrite (s.outputs.foldl State.react s)) h2
    s.beginStep_mem s.beginStep_marks
    (foldl_keeps State.ran26 State.fetchAhead_ran26 _ _) (foldl_keeps State.ran32 State.fetchAhead_ran32 _ _)

/-! ## The prefetch buffer -/

/-- A word of a buffer into which words are put was there or is one of them. -/
theorem FetchUnit.mem_push {es : List Prefetched} {f : FetchUnit} {e : Prefetched}
    (h : e ∈ (es.foldl FetchUnit.push f).buffer) : e ∈ f.buffer ∨ e ∈ es := by
  induction es generalizing f with
  | nil => exact .inl h
  | cons x es ih =>
    obtain h | h := ih h
    · unfold FetchUnit.push at h
      split at h
      · obtain h | h := List.mem_append.1 h
        · exact .inl h
        · exact .inr (List.mem_cons.2 (.inl (List.mem_singleton.1 h)))
      · exact .inl h
    · exact .inr (List.mem_cons_of_mem x h)

/-- The words of a fetch are those in memory, or the mark of its abort. -/
theorem State.mem_fetchAnswer {s : State} {a : Access} {e : Prefetched} (h : e ∈ s.fetchAnswer a) :
    e.word = none ∨ e.word = some (s.loadWord e.addr) := by
  unfold State.fetchAnswer at h
  split at h
  · obtain rfl := List.mem_singleton.1 h
    exact .inl rfl
  · obtain rfl | h := List.mem_cons.1 h
    · exact .inr rfl
    · split at h
      · obtain rfl := List.mem_singleton.1 h
        exact .inr rfl
      · cases h

/-- A word is predicted when it is fetched (R94). -/
theorem State.prediction_fetchAnswer {s : State} {a : Access} {e : Prefetched} (h : e ∈ s.fetchAnswer a) :
    e.prediction = s.predict e.word := by
  unfold State.fetchAnswer at h
  split at h
  · obtain rfl := List.mem_singleton.1 h
    rfl
  · obtain rfl | h := List.mem_cons.1 h
    · rfl
    · split at h
      · obtain rfl := List.mem_singleton.1 h
        rfl
      · cases h

/-- The prediction that goes to the Core with the word at the program counter. -/
theorem State.requestFetch_prediction (s : State) :
    s.requestFetch.fetchUnit.prediction =
      match s.buffered with
      | some e => e.prediction
      | none => s.predict s.presented := by
  cases h : s.buffered <;> simp only [State.requestFetch, h]
  refine (foldl_keeps FetchUnit.prediction (fun f e => ?_) _ _).trans rfl
  unfold FetchUnit.push
  split <;> rfl

/-- Putting words of memory, or marks of aborts, into a fresh buffer leaves it fresh. -/
theorem State.fresh_pushWords {s : State} (hs : s.fresh) {es : List Prefetched}
    (he : ∀ e ∈ es, e.word = none ∨ e.word = some (s.loadWord e.addr)) : (s.pushWords es).fresh := by
  intro e hm
  obtain h | h := FetchUnit.mem_push hm
  · exact hs e h
  · exact (he e h).imp_right .inl

/-- A fetch ahead keeps the invariant. -/
theorem State.inv_fetchAhead {s : State} (hs : s.inv) (p : FetchAhead) : (s.fetchAhead p).inv := by
  unfold State.fetchAhead
  dsimp only
  split
  · exact hs
  · split
    · exact State.inv_congr hs rfl rfl rfl rfl rfl rfl rfl rfl
    · exact ⟨hs.1, hs.2.1, State.fresh_pushWords (s := s.fetchRequest _ _) hs.2.2 (fun _ h => State.mem_fetchAnswer h)⟩

/-- Taking the word at the program counter keeps the invariant. -/
theorem State.inv_requestFetch {s : State} (hs : s.inv) : s.requestFetch.inv := by
  unfold State.requestFetch
  split
  · exact ⟨hs.1, hs.2.1, fun e h => hs.2.2 e (List.mem_of_mem_tail h)⟩
  · exact ⟨hs.1, hs.2.1, State.fresh_pushWords (s := State.fetchRequest
      { s with fetchUnit := { s.fetchUnit.flushed with prediction := s.predict s.presented } } _ _)
      (State.fresh_of_empty rfl) (fun _ h => State.mem_fetchAnswer (List.mem_of_mem_tail h))⟩

/-- Taking what is returned with stores keeps the invariant. -/
theorem State.inv_ask {s : State} (hs : s.inv) (k : Nat) : (s.ask k).inv := by
  refine ⟨hs.1, hs.2.1, State.fresh_pushWords (s := s) (es := s.parallelWords k) hs.2.2 (fun e h => ?_)⟩
  unfold State.parallelWords at h
  split at h
  · cases h
  · dsimp only at h
    split at h
    · exact State.mem_fetchAnswer h
    · cases h

theorem State.inv_askFrom {s : State} (hs : s.inv) (k n : Nat) : (s.askFrom k n).inv := by
  induction n generalizing s k with
  | zero => exact hs
  | succ n ih => exact ih (State.inv_ask hs k) (k + 1)

theorem State.inv_storeRequest {s : State} (hs : s.inv) (k : Nat) (ty : RequestType) (a : Access) (v : Word) :
    (s.storeRequest k ty a v).inv :=
  State.inv_congr (State.inv_ask hs k) rfl rfl rfl rfl rfl rfl rfl rfl

/-- What the Prefetch Unit presents where the buffer has not the word at the program counter: the mark of an abort, or
the word in memory. -/
theorem State.presented_of_not_buffered {s : State} (h : s.buffered = none) :
    s.presented = if s.abortsAt s.fetchAccess then none else some (s.loadWord s.pc) := by
  rw [State.presented, h]

/-- The word of the buffer is what the Prefetch Unit presents, and no request is made for it (R93). -/
theorem State.presented_of_buffered {s : State} {e : Prefetched} (h : s.buffered = some e) :
    s.presented = e.word ∧ s.requestFetch.outputs = s.outputs := by
  rw [State.presented, State.requestFetch, h]
  exact ⟨rfl, rfl⟩

/-- The oldest word of the buffer, where it is that of the program counter, is one of its words. -/
theorem State.buffered_mem {s : State} {e : Prefetched} (h : s.buffered = some e) :
    e ∈ s.fetchUnit.buffer ∧ e.addr = s.pc := by
  unfold State.buffered at h
  split at h
  · cases h
  · rename_i x l hl
    split at h
    · cases h
      exact ⟨by rw [hl]; exact List.mem_cons_self .., ‹_›⟩
    · cases h

/-- The word presented is the word in memory, unless a byte of it was written since the last IMB (R89, R90). -/
theorem State.presented_eq {s : State} (hs : s.fresh) (hm : s.modified = false) {w : Word}
    (h : s.presented = some w) : w = s.loadWord s.pc := by
  cases hb : s.buffered with
  | none =>
    rw [State.presented_of_not_buffered hb] at h
    split at h
    · cases h
    · exact (Option.some.inj h).symm
  | some e =>
    rw [(State.presented_of_buffered hb).1] at h
    obtain ⟨he, ha⟩ := State.buffered_mem hb
    obtain h1 | h1 | ⟨x, hx, h1⟩ := hs e he
    · rw [h1] at h
      cases h
    · rw [h1, ha] at h
      exact (Option.some.inj h).symm
    · rw [ha] at h1
      exact absurd hm (by
        simp only [State.modified, Bool.not_eq_false, List.any_eq_true, Bool.and_eq_true, decide_eq_true_eq]
        exact ⟨x, hx, h1⟩)

/-! ## The step boundary -/

/-- A write from outside keeps the invariant. -/
theorem State.inv_outsideWrite {s : State} (hs : s.inv) (c : Host.Cell) : (s.outsideWrite c).inv :=
  State.inv_storeBytes hs (by have := Nat.mod_lt c.1 (Nat.two_pow_pos 32); simp only [List.length_singleton]; omega)

theorem State.inv_react {s : State} (hs : s.inv) (o : Output) : (s.react o).inv := by
  cases o with
  | access t =>
    refine State.inv_congr (s := s.platform.devices.foldl (State.deviceReacts t) s) ?_ rfl rfl rfl rfl rfl rfl rfl rfl
    refine foldl_induct State.inv (fun u d h => ?_) _ s hs
    unfold State.deviceReacts
    split
    · exact h
    · split
      · exact State.inv_outsideWrite h _
      · exact h
  | cpInstruct _ _ | cpExecute _ | cpWrite _ _ => exact hs

/-- A step boundary keeps the invariant. -/
theorem State.inv_beginStep {s : State} (hs : s.inv) : s.beginStep.inv := by
  refine foldl_induct State.inv (fun _ p h => State.inv_fetchAhead h p) _ _ ?_
  have h : (s.platformStep.writes.foldl State.outsideWrite (s.outputs.foldl State.react s)).inv :=
    foldl_induct State.inv (fun _ c h => State.inv_outsideWrite h c) _ _
      (foldl_induct State.inv (fun _ o h => State.inv_react h o) _ s hs)
  have hf : (s.platformStep.writes.foldl State.outsideWrite (s.outputs.foldl State.react s)).fetchUnit = s.fetchUnit :=
    (foldl_keeps State.fetchUnit State.outsideWrite_fetchUnit _ _).trans
      (foldl_keeps State.fetchUnit State.react_fetchUnit _ s)
  refine ⟨h.1, h.2.1, ?_⟩
  by_cases hx : s.platformStep.starved
  · exact State.fresh_of_empty (by simp only [State.settle, hx, if_true, FetchUnit.flushed])
  · exact State.fresh_congr h.2.2 (by simp only [State.settle, hx, hf]; rfl) rfl rfl rfl

/-- Without fetches ahead a boundary leaves what the Prefetch Unit holds, but that a starved one is flushed (R92). -/
theorem State.beginStep_fetchUnit {s : State} (h : s.platformStep.ahead = []) :
    s.beginStep.fetchUnit = if s.platformStep.starved then s.fetchUnit.flushed else s.fetchUnit := by
  rw [State.beginStep, h]
  rfl

/-- A write from outside changes its own byte and no other. -/
theorem State.read_outsideWrite {s : State} (hs : Memory.wf s.mem = true) (c : Host.Cell) (x : Nat) :
    Memory.read (s.outsideWrite c).mem x = if x = c.1 % 2 ^ 32 then c.2 else Memory.read s.mem x := by
  show Memory.read (Memory.write s.mem (c.1 % 2 ^ 32) c.2) x = _
  split
  · subst x
    exact Memory.read_write_same _ _ hs
  · exact Memory.read_write_other c.2 hs ‹_›
/-- A write from outside marks its own byte and no other (R89). -/
theorem State.mem_marks_outsideWrite (s : State) (c : Host.Cell) (x : Nat) :
    x ∈ (s.outsideWrite c).marks ↔ x = c.1 % 2 ^ 32 ∨ x ∈ s.marks := by
  show x ∈ insertAddrs (c.1 % 2 ^ 32) 1 s.marks ↔ _
  rw [mem_insertAddrs]
  have : c.1 % 2 ^ 32 ≤ x ∧ x < c.1 % 2 ^ 32 + 1 ↔ x = c.1 % 2 ^ 32 := by omega
  rw [this]

/-- `u` has, at the byte `x`, the memory and the mark of `s`. -/
def State.sameByte (s u : State) (x : Nat) : Prop :=
  u.canonical ∧ Memory.read u.mem x = Memory.read s.mem x ∧ (x ∈ u.marks ↔ x ∈ s.marks)

theorem State.sameByte_outsideWrite {s u : State} {x : Nat} (h : s.sameByte u x) {c : Host.Cell}
    (hc : c.1 % 2 ^ 32 ≠ x) : s.sameByte (u.outsideWrite c) x := by
  obtain ⟨h1, h2, h3⟩ := h
  refine ⟨State.canonical_outsideWrite h1 c, ?_, ?_⟩
  · rw [State.read_outsideWrite h1.1, if_neg (Ne.symm hc), h2]
  · rw [State.mem_marks_outsideWrite, h3]
    exact or_iff_right (Ne.symm hc)

/-- Where no device byte stands, an exchange changes nothing. -/
theorem State.sameByte_react {s u : State} {x : Nat} (h : s.sameByte u x)
    (hd : ∀ d ∈ u.platform.devices, d.addr % 2 ^ 32 ≠ x) (o : Output) :
    s.sameByte (u.react o) x ∧ ∀ d ∈ (u.react o).platform.devices, d.addr % 2 ^ 32 ≠ x := by
  cases o with
  | cpInstruct _ _ | cpExecute _ | cpWrite _ _ => exact ⟨h, hd⟩
  | access t =>
    have fold : ∀ (l : List DeviceByte) (v : State), s.sameByte v x → (∀ d ∈ l, d.addr % 2 ^ 32 ≠ x) →
        s.sameByte (l.foldl (State.deviceReacts t) v) x := by
      intro l
      induction l with
      | nil => exact fun v hv _ => hv
      | cons d l ih =>
        intro v hv hl
        refine ih _ ?_ (fun e he => hl e (List.mem_cons_of_mem d he))
        unfold State.deviceReacts
        split
        · exact hv
        · split
          · exact State.sameByte_outsideWrite hv (hl d (List.mem_cons_self ..))
          · exact hv
    refine ⟨fold _ u h hd, ?_⟩
    intro d hm
    obtain ⟨e, he, rfl⟩ := List.mem_map.1 (show d ∈ u.platform.devices.map (DeviceByte.after t) from by
      have := foldl_keeps State.platform (State.deviceReacts_platform t) u.platform.devices u
      simpa only [State.react, this] using hm)
    have : (e.after t).addr = e.addr := by unfold DeviceByte.after; split <;> rfl
    rw [this]
    exact hd e he

/-- A byte that no other agent writes and where no device byte stands is as it was. -/
theorem State.beginStep_sameByte {s : State} (hs : s.canonical) {x : Nat}
    (hw : ∀ c ∈ s.platformStep.writes, c.1 % 2 ^ 32 ≠ x) (hd : ∀ d ∈ s.platform.devices, d.addr % 2 ^ 32 ≠ x) :
    s.sameByte s.beginStep x := by
  have h1 : ∀ (l : List Output) (u : State), s.sameByte u x → (∀ d ∈ u.platform.devices, d.addr % 2 ^ 32 ≠ x) →
      s.sameByte (l.foldl State.react u) x := by
    intro l
    induction l with
    | nil => exact fun u hu _ => hu
    | cons o l ih =>
      intro u hu hd
      obtain ⟨h, h'⟩ := State.sameByte_react hu hd o
      exact ih _ h h'
  have h2 : ∀ (l : List Host.Cell) (u : State), s.sameByte u x → (∀ c ∈ l, c.1 % 2 ^ 32 ≠ x) →
      s.sameByte (l.foldl State.outsideWrite u) x := by
    intro l
    induction l with
    | nil => exact fun u hu _ => hu
    | cons c l ih =>
      intro u hu hl
      exact ih _ (State.sameByte_outsideWrite hu (hl c (List.mem_cons_self ..)))
        (fun e he => hl e (List.mem_cons_of_mem c he))
  have := h2 s.platformStep.writes _ (h1 s.outputs s ⟨hs, rfl, Iff.rfl⟩ hd) hw
  refine ⟨State.canonical_beginStep hs, ?_, ?_⟩
  · rw [State.beginStep_mem]; exact this.2.1
  · rw [State.beginStep_marks]; exact this.2.2

/-- Where the platform does nothing and has no device bytes, memory and marks are as they were. -/
theorem State.beginStep_quiet {s : State} (hw : s.platformStep.writes = []) (hd : s.platform.devices = []) :
    s.beginStep.mem = s.mem ∧ s.beginStep.marks = s.marks := by
  have one : ∀ (u : State) (o : Output), u.platform.devices = [] →
      (u.react o).mem = u.mem ∧ (u.react o).marks = u.marks ∧ (u.react o).platform.devices = [] := by
    intro u o h
    cases o with
    | cpInstruct _ _ | cpExecute _ | cpWrite _ _ => exact ⟨rfl, rfl, h⟩
    | access t => simp [State.react, h]
  have all : ∀ (l : List Output) (u : State), u.platform.devices = [] →
      (l.foldl State.react u).mem = u.mem ∧ (l.foldl State.react u).marks = u.marks := by
    intro l
    induction l with
    | nil => exact fun _ _ => ⟨rfl, rfl⟩
    | cons o l ih =>
      intro u h
      obtain ⟨h1, h2, h3⟩ := one u o h
      obtain ⟨h4, h5⟩ := ih _ h3
      exact ⟨h4.trans h1, h5.trans h2⟩
  rw [State.beginStep_mem, State.beginStep_marks]
  unfold State.settle
  rw [hw]
  exact all s.outputs s hd

/-- The last byte that another agent writes to an address is there. -/
theorem State.beginStep_written {s : State} (hs : s.canonical) {before after : List Host.Cell} {c : Host.Cell}
    (hw : s.platformStep.writes = before ++ c :: after) (ha : ∀ d ∈ after, d.1 % 2 ^ 32 ≠ c.1 % 2 ^ 32) :
    Memory.read s.beginStep.mem (c.1 % 2 ^ 32) = c.2 ∧ c.1 % 2 ^ 32 ∈ s.beginStep.marks := by
  rw [State.beginStep_mem, State.beginStep_marks]
  unfold State.settle
  rw [hw, List.foldl_append, List.foldl_cons]
  have h1 : (s.outputs.foldl State.react s).canonical :=
    foldl_induct State.canonical (fun _ _ h => State.canonical_react h _) _ s hs
  have h2 := foldl_induct State.canonical (f := State.outsideWrite) (fun _ c h => State.canonical_outsideWrite h c) before _ h1
  generalize before.foldl State.outsideWrite (s.outputs.foldl State.react s) = u at h2
  suffices ∀ (l : List Host.Cell) (v : State), v.canonical → (∀ d ∈ l, d.1 % 2 ^ 32 ≠ c.1 % 2 ^ 32) →
      Memory.read v.mem (c.1 % 2 ^ 32) = c.2 → c.1 % 2 ^ 32 ∈ v.marks →
      Memory.read (l.foldl State.outsideWrite v).mem (c.1 % 2 ^ 32) = c.2
        ∧ c.1 % 2 ^ 32 ∈ (l.foldl State.outsideWrite v).marks by
    refine this after _ (State.canonical_outsideWrite h2 c) ha ?_ ?_
    · rw [State.read_outsideWrite h2.1, if_pos rfl]
    · rw [State.mem_marks_outsideWrite]; exact .inl rfl
  intro l
  induction l with
  | nil => exact fun _ _ _ h h' => ⟨h, h'⟩
  | cons d l ih =>
    intro v hv hl h h'
    have hd := hl d (List.mem_cons_self ..)
    refine ih _ (State.canonical_outsideWrite hv d) (fun e he => hl e (List.mem_cons_of_mem d he)) ?_ ?_
    · rw [State.read_outsideWrite hv.1, if_neg (Ne.symm hd), h]
    · rw [State.mem_marks_outsideWrite]; exact .inr h'
/-! ## What a step can do -/

/-- The instruction of a word: the two stops, or its meaning. -/
theorem State.runWord_next {s t : State} {w : Word} (h : s.runWord w = .next t) :
    s.modified = false ∧ s.mixedWidth = false ∧ exec (decode w) (s.issue (decode w) w) = .next t := by
  unfold State.runWord at h
  split at h
  · cases h
  · split at h
    · cases h
    · exact ⟨by simpa using ‹¬ s.modified = true›, by simpa using ‹¬ s.mixedWidth = true›, h⟩

/-- A step that goes on: reset, an interrupt, a prefetch abort, the instruction that busy-waits, or the fetched one. -/
theorem step_next {s t : State} (h : step s = .next t) :
    (s.levels.reset = true ∧ t = s.beginStep.takeReset)
    ∨ (s.levels.reset = false
      ∧ ((s.cpsr.f = false ∧ t = s.beginStep.abandon.enter .fiq (s.pc + 4))
        ∨ (s.cpsr.i = false ∧ t = s.beginStep.abandon.enter .irq (s.pc + 4))
        ∨ (∃ w, s.beginStep.waiting = some w ∧ exec (decode w) s.beginStep = .next t)
        ∨ (s.beginStep.presented = none
            ∧ t = s.beginStep.requestFetch.enter .prefetchAbort (s.pc + 4))
        ∨ (∃ w, s.beginStep.presented = some w
            ∧ exec (decode w) (s.beginStep.requestFetch.issue (decode w) w) = .next t))) := by
  unfold step at h
  split at h
  · exact .inl ⟨‹_›, (Host.Outcome.next.inj h).symm⟩
  · refine .inr ⟨by simpa using ‹¬ s.levels.reset = true›, ?_⟩
    split at h
    · rename_i hf
      simp only [Bool.and_eq_true, Bool.not_eq_true'] at hf
      exact .inl ⟨hf.2, (Host.Outcome.next.inj h).symm⟩
    · split at h
      · rename_i hi
        simp only [Bool.and_eq_true, Bool.not_eq_true'] at hi
        exact .inr (.inl ⟨hi.2, (Host.Outcome.next.inj h).symm⟩)
      · refine .inr (.inr ?_)
        unfold State.runNext at h
        split at h
        · exact .inl ⟨_, ‹_›, h⟩
        · split at h
          · exact .inr (.inl ⟨‹_›, by simpa using (Host.Outcome.next.inj h).symm⟩)
          · exact .inr (.inr ⟨_, ‹_›, (State.runWord_next h).2.2⟩)

end Sys2Proof.Machine
end

