-- ==== Sys2Proof/Laws/Transfer.lean ====
section
/-! SUPPORT. What the shared operations of the single, halfword and swap transfers and of the coprocessor transfers can
do. -/

namespace Sys2Proof.Machine

/-! ## Operand combinations -/

theorem writesBack_iff {idx : Index} : writesBack idx = true ↔ idx ≠ .offset := by
  cases idx <;> simp [writesBack]

/-- A transfer whose operands are allowed does not stop on them. -/
theorem transferStop_of_allowed {load narrow : Bool} {idx : Index} {rn rd : Reg} {rm : Option Reg}
    (h : transferAllowed load narrow idx rn rd rm) : transferStop load narrow idx rn rd rm = none := by
  obtain ⟨h1, h2, h3, h4, h5⟩ := h
  unfold transferStop
  cases idx <;> simp_all [writesBack] <;> cases load <;> cases narrow <;> simp_all

/-- A transfer whose operands are not allowed stops on them. -/
theorem transferStop_of_not_allowed {load narrow : Bool} {idx : Index} {rn rd : Reg} {rm : Option Reg}
    (h : ¬ transferAllowed load narrow idx rn rd rm) : ∃ x, transferStop load narrow idx rn rd rm = some x := by
  by_contra hc
  apply h
  have hn : transferStop load narrow idx rn rd rm = none := by
    cases hh : transferStop load narrow idx rn rd rm with
    | none => rfl
    | some x => exact absurd ⟨x, hh⟩ hc
  unfold transferStop at hn
  unfold transferAllowed
  cases idx <;> cases load <;> cases narrow <;> simp_all [writesBack] <;> grind

/-! ## Loads and stores -/

/-- The state in which a load writes Rd: the access requested, the base written back. -/
def State.afterLoadBase (s : State) (ty : RequestType) (acc : Access) (idx : Index) (rn : Reg) (base : Word) : State :=
  if writesBack idx then (s.request ty acc 0).setReg rn base else s.request ty acc 0

/-- The state of `afterLoadBase` has the memory of `s`, and its registers but for the base. -/
theorem State.afterLoadBase_plain (s : State) (ty : RequestType) (acc : Access) (idx : Index) (rn : Reg) (base : Word) :
    Plain s (s.afterLoadBase ty acc idx rn base) ∧ (s.afterLoadBase ty acc idx rn base).mem = s.mem
      ∧ (s.afterLoadBase ty acc idx rn base).marks = s.marks
      ∧ s.keepsRegs (s.afterLoadBase ty acc idx rn base) (writtenBase idx rn) := by
  unfold State.afterLoadBase
  split
  · rename_i h
    refine ⟨((Plain.refl s).request _ _ _).setReg _ _, by simp, by simp, ?_⟩
    intro p hp
    rw [State.get_setReg, State.request_cpsr, if_neg (hp rn (by simp [writtenBase, writesBack_iff.1 h])),
      State.request_regs]
  · exact ⟨(Plain.refl s).request _ _ _, by simp, by simp, fun p _ => by simp⟩

/-- The base that `afterLoadBase` leaves. -/
theorem State.afterLoadBase_base (s : State) (ty : RequestType) (acc : Access) {idx : Index} {rn : Reg} (base : Word)
    (hi : idx ≠ .offset) (hr : rn ≠ .r15) : (s.afterLoadBase ty acc idx rn base).reg rn = base := by
  unfold State.afterLoadBase
  rw [if_pos (writesBack_iff.2 hi), State.reg_setReg_same _ _ hr]

/-- A load whose operands are allowed: the data abort, or the value to Rd after the base. -/
theorem loadTransfer_allowed {width : Width} {ty : RequestType} {narrow user : Bool}
    {value : State → Word → State × Word} {c : Cond} {idx : Index} {up : Bool} {rn rd : Reg} {rm : Option Reg}
    {offset : Word} {s : State} (hr : s.ready c (rn :: rm.toList)) (ha : transferAllowed true narrow idx rn rd rm)
    (h15 : rd = .r15 → (transferAddress idx up (s.reg rn) offset).toNat % 4 = 0) :
    let addr := transferAddress idx up (s.reg rn) offset
    let acc := s.access user .load width false addr
    let r := value (s.afterLoadBase ty acc idx rn (modifiedBase up (s.reg rn) offset)) addr
    loadTransfer width ty narrow user value c idx up rn rd rm offset s =
      if s.abortsAt acc then .next ((s.request ty acc 0).enter .dataAbort (s.pc + 8))
      else if rd = .r15 then r.1.jump r.2 else (r.1.setReg rd r.2).advance := by
  intro addr acc r
  rw [loadTransfer, condExec_ready hr, transferStop_of_allowed ha]
  have n1 : ¬ ((rd == .r15 && addr.extractLsb' 0 2 != 0#2) = true) := by
    intro h
    simp only [Bool.and_eq_true, beq_iff_eq, bne_iff_ne] at h
    exact h.2 (low_bits_eq_zero.2 (h15 h.1))
  simp only [addr] at n1
  simp only [if_neg n1]
  rfl

/-- A load that goes on: its condition failed, it took the data abort, or it loaded. -/
theorem loadTransfer_next {width : Width} {ty : RequestType} {narrow user : Bool}
    {value : State → Word → State × Word} {c : Cond} {idx : Index} {up : Bool} {rn rd : Reg} {rm : Option Reg}
    {offset : Word} {s t : State} (h : loadTransfer width ty narrow user value c idx up rn rd rm offset s = .next t) :
    let addr := transferAddress idx up (s.reg rn) offset
    let acc := s.access user .load width false addr
    let r := value (s.afterLoadBase ty acc idx rn (modifiedBase up (s.reg rn) offset)) addr
    (c ≠ .nv ∧ condPassed s.cpsr.flags c = false ∧ s.advance = .next t)
    ∨ (s.ready c (rn :: rm.toList) ∧ transferAllowed true narrow idx rn rd rm ∧ (rd = .r15 → addr.toNat % 4 = 0)
      ∧ ((s.abortsAt acc = true ∧ t = (s.request ty acc 0).enter .dataAbort (s.pc + 8))
        ∨ (s.abortsAt acc = false ∧ rd = .r15 ∧ t = r.1.jumpTo r.2)
        ∨ (s.abortsAt acc = false ∧ rd ≠ .r15 ∧ (r.1.setReg rd r.2).advance = .next t))) := by
  intro addr acc r
  have h0 := h
  obtain ⟨hr, hk⟩ | hf := condExec_next h
  · refine .inr ?_
    by_cases ha : transferAllowed true narrow idx rn rd rm
    · by_cases h15 : rd = .r15 → addr.toNat % 4 = 0
      · rw [loadTransfer_allowed hr ha h15] at h0
        refine ⟨hr, ha, h15, ?_⟩
        split at h0
        · exact .inl ⟨‹_›, (Host.Outcome.next.inj h0).symm⟩
        · have hab : s.abortsAt acc = false := Bool.not_eq_true _ ▸ ‹¬ s.abortsAt acc = true›
          split at h0
          · exact .inr (.inl ⟨hab, ‹_›, (Host.Outcome.next.inj h0).symm⟩)
          · exact .inr (.inr ⟨hab, ‹_›, h0⟩)
      · exfalso
        rw [transferStop_of_allowed ha] at hk
        push Not at h15
        have n1 : (rd == .r15 && addr.extractLsb' 0 2 != 0#2) = true := by
          simp only [Bool.and_eq_true, beq_iff_eq, bne_iff_ne]
          exact ⟨h15.1, fun h => h15.2 (low_bits_eq_zero.1 h)⟩
        simp only [addr] at n1
        simp only [if_pos n1] at hk
        cases hk
    · exfalso
      obtain ⟨x, hx⟩ := transferStop_of_not_allowed ha
      rw [hx] at hk
      cases hk
  · exact .inl hf

/-- A store whose operands are allowed: the data abort, or the value to memory and then the base. -/
theorem storeTransfer_allowed {width : Width} {ty : RequestType} {narrow user : Bool} {bus : Word → Word}
    {put : State → Word → Word → State} {c : Cond} {idx : Index} {up : Bool} {rn rd : Reg} {rm : Option Reg}
    {offset : Word} {s : State} (hr : s.ready c (rd :: rn :: rm.toList))
    (ha : transferAllowed false narrow idx rn rd rm)
    (h15 : rd = .r15 → (transferAddress idx up (s.reg rn) offset).toNat % 4 = 0)
    (hh : width = .half → (transferAddress idx up (s.reg rn) offset).toNat % 2 = 0) :
    let addr := transferAddress idx up (s.reg rn) offset
    let acc := s.access user .store width false addr
    let u := put (s.storeRequest 0 ty acc (bus (s.regM rd))) addr (s.regM rd)
    storeTransfer width ty narrow user bus put c idx up rn rd rm offset s =
      if s.abortsAt acc then .next ((s.storeAborted 0 ty acc (bus (s.regM rd))).enter .dataAbort (s.pc + 8))
      else (if writesBack idx then u.setReg rn (modifiedBase up (s.reg rn) offset) else u).advance := by
  intro addr acc u
  rw [storeTransfer, condExec_ready hr, transferStop_of_allowed ha]
  have n1 : ¬ ((rd == .r15 && addr.extractLsb' 0 2 != 0#2) = true) := by
    intro h
    simp only [Bool.and_eq_true, beq_iff_eq, bne_iff_ne] at h
    exact h.2 (low_bits_eq_zero.2 (h15 h.1))
  have n2 : ¬ ((width == .half && addr.getLsbD 0) = true) := by
    intro h
    simp only [Bool.and_eq_true, beq_iff_eq] at h
    rw [getLsbD_zero_of_even (hh h.1)] at h
    simp at h
  simp only [addr] at n1 n2
  simp only [if_neg n1, if_neg n2]
  rfl

/-- A store that goes on: its condition failed, it took the data abort, or it stored. -/
theorem storeTransfer_next {width : Width} {ty : RequestType} {narrow user : Bool} {bus : Word → Word}
    {put : State → Word → Word → State} {c : Cond} {idx : Index} {up : Bool} {rn rd : Reg} {rm : Option Reg}
    {offset : Word} {s t : State}
    (h : storeTransfer width ty narrow user bus put c idx up rn rd rm offset s = .next t) :
    let addr := transferAddress idx up (s.reg rn) offset
    let acc := s.access user .store width false addr
    let u := put (s.storeRequest 0 ty acc (bus (s.regM rd))) addr (s.regM rd)
    (c ≠ .nv ∧ condPassed s.cpsr.flags c = false ∧ s.advance = .next t)
    ∨ (s.ready c (rd :: rn :: rm.toList) ∧ transferAllowed false narrow idx rn rd rm
      ∧ (rd = .r15 → addr.toNat % 4 = 0) ∧ (width = .half → addr.toNat % 2 = 0)
      ∧ ((s.abortsAt acc = true
          ∧ t = (s.storeAborted 0 ty acc (bus (s.regM rd))).enter .dataAbort (s.pc + 8))
        ∨ (s.abortsAt acc = false
          ∧ (if writesBack idx then u.setReg rn (modifiedBase up (s.reg rn) offset) else u).advance = .next t))) := by
  intro addr acc u
  have h0 := h
  obtain ⟨hr, hk⟩ | hf := condExec_next h
  · refine .inr ?_
    by_cases ha : transferAllowed false narrow idx rn rd rm
    · rw [transferStop_of_allowed ha] at hk
      by_cases h15 : rd = .r15 → addr.toNat % 4 = 0
      · have n1 : ¬ ((rd == .r15 && addr.extractLsb' 0 2 != 0#2) = true) := by
          intro h
          simp only [Bool.and_eq_true, beq_iff_eq, bne_iff_ne] at h
          exact h.2 (low_bits_eq_zero.2 (h15 h.1))
        simp only [addr] at n1
        simp only [if_neg n1] at hk
        by_cases hh : width = .half → addr.toNat % 2 = 0
        · rw [storeTransfer_allowed hr ha h15 hh] at h0
          refine ⟨hr, ha, h15, hh, ?_⟩
          split at h0
          · exact .inl ⟨‹_›, (Host.Outcome.next.inj h0).symm⟩
          · exact .inr ⟨Bool.not_eq_true _ ▸ ‹¬ s.abortsAt acc = true›, h0⟩
        · exfalso
          push Not at hh
          have n2 : (width == .half && addr.getLsbD 0) = true := by
            simp only [Bool.and_eq_true, beq_iff_eq]
            exact ⟨hh.1, getLsbD_zero_of_odd (by omega)⟩
          simp only [addr] at n2
          simp only [if_pos n2] at hk
          cases hk
      · exfalso
        push Not at h15
        have n1 : (rd == .r15 && addr.extractLsb' 0 2 != 0#2) = true := by
          simp only [Bool.and_eq_true, beq_iff_eq, bne_iff_ne]
          exact ⟨h15.1, fun h => h15.2 (low_bits_eq_zero.1 h)⟩
        simp only [addr] at n1
        simp only [if_pos n1] at hk
        cases hk
    · exfalso
      obtain ⟨x, hx⟩ := transferStop_of_not_allowed ha
      rw [hx] at hk
      cases hk
  · exact .inl hf

/-- The values of the loads draw at most one free word and change nothing else. -/
theorem wordValue_state (u : State) (a : Word) : (wordValue u a).1 = u := rfl
theorem byteValue_state (u : State) (a : Word) : (byteValue u a).1 = u := rfl
theorem signedByteValue_state (u : State) (a : Word) : (signedByteValue u a).1 = u := rfl
theorem halfValue_state (extend : Half → Word) (u : State) (a : Word) :
    (halfValue extend u a).1 = if a.getLsbD 0 then u.drawn else u := by
  unfold halfValue
  split <;> rfl

/-! ## Swap -/

/-- A swap that goes on: its condition failed, the read or the write took the data abort, or memory and Rd are
exchanged. -/
theorem swap_next {width : Width} {readTy writeTy : RequestType} {bus : Word → Word} {value : State → Word → Word}
    {put : State → Word → Word → State} {c : Cond} {rn rd rm : Reg} {s t : State}
    (h : swap width readTy writeTy bus value put c rn rd rm s = .next t) :
    let addr := s.reg rn
    let racc := s.access false .load width true addr
    let wacc := s.access false .store width true addr
    let t0 := s.request readTy racc 0
    let u := t0.storeRequest 0 writeTy wacc (bus (s.reg rm))
    let ua := t0.storeAborted 0 writeTy wacc (bus (s.reg rm))
    (c ≠ .nv ∧ condPassed s.cpsr.flags c = false ∧ s.advance = .next t)
    ∨ (s.ready c [rn, rm] ∧ rn ≠ .r15 ∧ rd ≠ .r15 ∧ rm ≠ .r15
      ∧ ((s.abortsAt racc = true ∧ t = t0.enter .dataAbort (s.pc + 8))
        ∨ (s.abortsAt racc = false ∧ s.abortsAt wacc = true ∧ t = ua.enter .dataAbort (s.pc + 8))
        ∨ (s.abortsAt racc = false ∧ s.abortsAt wacc = false
          ∧ ((put u addr (s.reg rm)).setReg rd (value s addr)).advance = .next t))) := by
  intro addr racc wacc t0 u ua
  obtain ⟨hr, hk⟩ | hf := condExec_next h
  · refine .inr ⟨hr, ?_⟩
    split at hk
    · cases hk
    · rename_i h15
      simp only [List.contains_cons, List.contains_nil, Bool.or_false, Bool.or_eq_true, beq_iff_eq, not_or] at h15
      refine ⟨Ne.symm h15.1, Ne.symm h15.2.1, Ne.symm h15.2.2, ?_⟩
      dsimp only at hk
      split at hk
      · exact .inl ⟨‹_›, (Host.Outcome.next.inj hk).symm⟩
      · have h1 : s.abortsAt racc = false := Bool.not_eq_true _ ▸ ‹¬ s.abortsAt racc = true›
        split at hk
        · exact .inr (.inl ⟨h1, ‹_›, (Host.Outcome.next.inj hk).symm⟩)
        · exact .inr (.inr ⟨h1, Bool.not_eq_true _ ▸ ‹¬ s.abortsAt wacc = true›, hk⟩)
  · exact .inl hf

/-! ## Coprocessors -/

/-- A cycle without request changes the outputs alone. -/
theorem State.noRequest_plain (s : State) (v : Word) : Plain s (s.noRequest v) := (Plain.refl s).emit _

/-- A busy-wait cycle of MCR changes the outputs, and with Rd = R15 draws a free word. -/
theorem State.mcrWait_plain (s : State) (rd : Reg) : Plain s (s.mcrWait rd) := by
  constructor <;> simp

/-! What the coprocessors answer (R377, R379), and what an executed instruction changes of them. -/

/-- An absent coprocessor bounces (R379). -/
theorem Coproc.respond_absent {p : Coproc} {bits : BitVec 26} (h : bits.extractLsb' 8 4 ∉ p.present)
    (privileged : Bool) : p.respond bits privileged = CoprocAnswer.bounce := by
  rw [Coproc.respond, if_neg (by simpa using h)]

/-- One that is present answers as the first rule says that speaks of the instruction, or bounces. -/
theorem Coproc.respond_present {p : Coproc} {bits : BitVec 26} (h : bits.extractLsb' 8 4 ∈ p.present)
    (privileged : Bool) :
    p.respond bits privileged = CoprocAnswer.bounce
      ∨ ∃ r ∈ p.rules, r.applies p bits privileged = true ∧ p.respond bits privileged = r.answer := by
  rw [Coproc.respond, if_pos (by simpa using h)]
  cases hr : p.rules.find? (·.applies p bits privileged) with
  | none => exact .inl rfl
  | some r => exact .inr ⟨r, List.mem_of_find?_eq_some hr, by simpa using List.find?_some hr, rfl⟩

/-- An answer without effects leaves the coprocessors as they are. -/
theorem Coproc.execute_of_no_effects (p : Coproc) {a : CoprocAnswer} (h : a.effects = []) (v : Word) :
    p.execute a v = p := by
  rw [Coproc.execute, h]
  rfl

/-- The register that takes the transferred word holds it afterwards. -/
theorem Coproc.reg_execute {p : Coproc} {a : CoprocAnswer} {k : Nat} (h : a.effects = [{ reg := k, value := none }])
    (hk : k < p.regs.length) (v : Word) : (p.execute a v).reg k = v := by
  simp [Coproc.reg, Coproc.execute, h, List.getD_eq_getElem?_getD, hk]

/-- An MRC or MCR that goes on: its condition failed, it was bounced, it waits, or it was accepted. -/
theorem coprocTransfer_next {c : Cond} {reads : List Reg} {bits : BitVec 26} {wait : State → State}
    {accepted : State → CoprocAnswer → Out} {s t : State}
    (h : coprocTransfer c reads bits wait accepted s = .next t) :
    let a := s.coprocAnswer bits
    (c ≠ .nv ∧ condPassed s.cpsr.flags c = false ∧ s.advance = .next t)
    ∨ (s.ready c reads
      ∧ ((a.busy = some 0 ∧ a.accept = false ∧ s.bounced = .next t)
        ∨ (a.busy ≠ some 0
            ∧ t = { wait (s.emit (.cpExecute true)) with pending := a.later, busyWait := true, userLdm := false })
        ∨ (a.busy = some 0 ∧ a.accept = true ∧ accepted (s.emit (.cpExecute true)) a = .next t))) := by
  intro a
  obtain ⟨hr, hk⟩ | hf := condExec_next h
  · refine .inr ⟨hr, ?_⟩
    dsimp only at hk
    split at hk
    · exact .inr (.inl ⟨‹_›, (Host.Outcome.next.inj hk).symm⟩)
    · have hb : a.busy = some 0 := Decidable.not_not.1 ‹_›
      split at hk
      · exact .inr (.inr ⟨hb, ‹_›, hk⟩)
      · exact .inl ⟨hb, Bool.not_eq_true _ ▸ ‹¬ _›, hk⟩
  · exact .inl hf

end Sys2Proof.Machine
end

