-- ==== Sys2Proof/Tests/Slice0.lean ====
section
/-! SUPPORT. The tests: ill-formed terms, one word for each constructor written from the formats of spec/30_encoding.md,
single steps from the vectors of spec/95_test_vectors.md and spec/96_test_vectors_part2.md (a theorem's last part is the
vector's id; a test without an id is worked by hand from the rule it names), the state after reset, and a state for each
statement that meets all its hypotheses. -/

namespace Sys2Proof.Tests

open Sys2Proof.Machine

/-! ## Ill-formed terms: each check refuses one (spec/30_encoding.md R127, R130, R131) -/

theorem test_wf_tst_r15 : Instr.wf (.tst .al .r15 .r0 (.imm 0 0)) = false := by decide
theorem test_wf_teq_r15 : Instr.wf (.teq .al .r15 .r0 (.imm 0 0)) = false := by decide
theorem test_wf_cmp_r15 : Instr.wf (.cmp .al .r15 .r0 (.imm 0 0)) = false := by decide
theorem test_wf_cmn_r15 : Instr.wf (.cmn .al .r15 .r0 (.imm 0 0)) = false := by decide
theorem test_wf_undefinedA : Instr.wf (.undefinedA .al 0x6000000) = false := by decide
theorem test_wf_undefinedB : Instr.wf (.undefinedB .al 0x1000000) = false := by decide
theorem test_wf_undefinedC : Instr.wf (.undefinedC .al 0x0000090) = false := by decide
theorem test_wf_undefinedD : Instr.wf (.undefinedD .al 0x1400090) = false := by decide
theorem test_wf_undefinedE : Instr.wf (.undefinedE .al 0x01000B0) = false := by decide
theorem test_wf_reservedMrs : Instr.wf (.reservedMrs .al 0x10F0000) = false := by decide
theorem test_wf_reservedMsr : Instr.wf (.reservedMsr .al 0x129F000) = false := by decide
theorem test_wf_reservedSwp : Instr.wf (.reservedSwp .al 0x1000090) = false := by decide
theorem test_wf_reservedHreg : Instr.wf (.reservedHreg .al 0x19000B0) = false := by decide

/-! ## Decoding: fields from bit 31 down, as R112 draws them -/

theorem test_decode_and :
    decode 0b1110_00_0_0000_1_0001_0000_00010_01_0_0011#32 = .and .al true .r0 .r1 (.shiftImm .r3 .lsr 2) := by decide
theorem test_decode_eor :
    decode 0b0000_00_1_0001_0_0010_0011_0100_11111111#32 = .eor .eq false .r3 .r2 (.imm 4 255) := by decide
theorem test_decode_sub :
    decode 0b0001_00_0_0010_1_1110_1111_0101_0_11_1_0110#32 = .sub .ne true .r15 .r14 (.shiftReg .r6 .ror .r5) := by decide
theorem test_decode_rsb :
    decode 0b0010_00_1_0011_0_0100_0101_0000_00000000#32 = .rsb .cs false .r5 .r4 (.imm 0 0) := by decide
theorem test_decode_add :
    decode 0b0011_00_0_0100_1_0110_0111_11111_10_0_1000#32 = .add .cc true .r7 .r6 (.shiftImm .r8 .asr 31) := by decide
theorem test_decode_adc :
    decode 0b0100_00_0_0101_0_1001_1010_1011_0_00_1_1100#32 = .adc .mi false .r10 .r9 (.shiftReg .r12 .lsl .r11) := by decide
theorem test_decode_sbc :
    decode 0b0101_00_0_0110_1_1101_1110_00000_11_0_1111#32 = .sbc .pl true .r14 .r13 (.shiftImm .r15 .ror 0) := by decide
theorem test_decode_rsc :
    decode 0b0110_00_1_0111_0_1111_0000_1111_00000001#32 = .rsc .vs false .r0 .r15 (.imm 15 1) := by decide
theorem test_decode_tst :
    decode 0b0111_00_0_1000_1_0001_0010_00001_00_0_0011#32 = .tst .vc .r2 .r1 (.shiftImm .r3 .lsl 1) := by decide
theorem test_decode_teq :
    decode 0b1000_00_1_1001_1_0100_0000_0001_00000010#32 = .teq .hi .r0 .r4 (.imm 1 2) := by decide
theorem test_decode_cmp :
    decode 0b1001_00_0_1010_1_0101_0000_0110_0_01_1_0111#32 = .cmp .ls .r0 .r5 (.shiftReg .r7 .lsr .r6) := by decide
theorem test_decode_cmn :
    decode 0b1010_00_1_1011_1_1000_0000_0000_10000000#32 = .cmn .ge .r0 .r8 (.imm 0 128) := by decide
theorem test_decode_tstp : decode 0b1011_00_1_1000_1_0001_1111_0000_00000001#32 = .tstp .lt .r1 (.imm 0 1) := by decide
theorem test_decode_teqp :
    decode 0b1100_00_0_1001_1_0010_1111_00000_00_0_0011#32 = .teqp .gt .r2 (.shiftImm .r3 .lsl 0) := by decide
theorem test_decode_cmpp : decode 0b1101_00_1_1010_1_0100_1111_0010_00000011#32 = .cmpp .le .r4 (.imm 2 3) := by decide
theorem test_decode_cmnp : decode 0b1111_00_1_1011_1_0101_1111_0000_00000000#32 = .cmnp .nv .r5 (.imm 0 0) := by decide
theorem test_decode_orr :
    decode 0b1110_00_0_1100_0_1010_1001_00000_01_0_1011#32 = .orr .al false .r9 .r10 (.shiftImm .r11 .lsr 0) := by decide
theorem test_decode_mov :
    decode 0b1110_00_0_1101_1_0000_1111_00000_00_0_1110#32 = .mov .al true .r15 .r0 (.shiftImm .r14 .lsl 0) := by decide
theorem test_decode_bic :
    decode 0b1110_00_1_1110_0_1100_1101_0011_01010101#32 = .bic .al false .r13 .r12 (.imm 3 0x55) := by decide
theorem test_decode_mvn :
    decode 0b1110_00_1_1111_1_0111_0001_0000_00000000#32 = .mvn .al true .r1 .r7 (.imm 0 0) := by decide
theorem test_decode_mrs : decode 0b1110_00010_1_00_1111_0110_000000000000#32 = .mrs .al true .r6 := by decide
theorem test_decode_msr_reg :
    decode 0b1110_00010_0_10_1001_1111_00000000_0101#32 = .msr .al false 9 (.reg .r5) := by decide
theorem test_decode_msr_imm :
    decode 0b1110_00110_1_10_1000_1111_0010_11110000#32 = .msr .al true 8 (.imm 2 0xF0) := by decide
theorem test_decode_mul :
    decode 0b1110_000000_0_1_0001_0010_0011_1001_0100#32 = .mul .al true .r1 .r2 .r3 .r4 := by decide
theorem test_decode_mla :
    decode 0b1110_000000_1_0_0101_0110_0111_1001_1000#32 = .mla .al false .r5 .r6 .r7 .r8 := by decide
theorem test_decode_umull :
    decode 0b1110_00001_0_0_1_0001_0010_0011_1001_0100#32 = .umull .al true .r1 .r2 .r3 .r4 := by decide
theorem test_decode_umlal :
    decode 0b1110_00001_0_1_0_0101_0110_0111_1001_1000#32 = .umlal .al false .r5 .r6 .r7 .r8 := by decide
theorem test_decode_smull :
    decode 0b1110_00001_1_0_1_1001_1010_1011_1001_1100#32 = .smull .al true .r9 .r10 .r11 .r12 := by decide
theorem test_decode_smlal :
    decode 0b1110_00001_1_1_0_0001_0010_0011_1001_0100#32 = .smlal .al false .r1 .r2 .r3 .r4 := by decide
theorem test_decode_ldr :
    decode 0b1110_01_0_1_0_0_1_1_0001_0010_100000000001#32 = .ldr .al .pre false .r1 .r2 (.imm 0x801) := by decide
theorem test_decode_ldrb :
    decode 0b1110_01_1_1_1_1_0_1_0011_0100_00010_10_0_0101#32 = .ldrb .al .offset true .r3 .r4 (.reg .r5 .asr 2) := by decide
theorem test_decode_str :
    decode 0b1110_01_0_0_1_0_0_0_0110_0111_000000000100#32 = .str .al .post true .r6 .r7 (.imm 4) := by decide
theorem test_decode_strb :
    decode 0b1110_01_0_1_1_1_1_0_1000_1001_000000000001#32 = .strb .al .pre true .r8 .r9 (.imm 1) := by decide
theorem test_decode_ldrt :
    decode 0b1110_01_0_0_1_0_1_1_0001_0010_000000000100#32 = .ldrt .al true .r1 .r2 (.imm 4) := by decide
theorem test_decode_ldrbt :
    decode 0b1110_01_1_0_0_1_1_1_0011_0100_00001_01_0_0101#32 = .ldrbt .al false .r3 .r4 (.reg .r5 .lsr 1) := by decide
theorem test_decode_strt :
    decode 0b1110_01_0_0_0_0_1_0_0110_0111_000000001000#32 = .strt .al false .r6 .r7 (.imm 8) := by decide
theorem test_decode_strbt :
    decode 0b1110_01_0_0_1_1_1_0_1000_1001_000000000000#32 = .strbt .al true .r8 .r9 (.imm 0) := by decide
theorem test_decode_ldrh :
    decode 0b1110_000_1_1_1_0_1_0001_0010_1010_1_01_1_0101#32 = .ldrh .al .offset true .r1 .r2 (.imm 0xA5) := by decide
theorem test_decode_ldrsb :
    decode 0b1110_000_1_0_0_1_1_0011_0100_0000_1_10_1_0101#32 = .ldrsb .al .pre false .r3 .r4 (.reg .r5) := by decide
theorem test_decode_ldrsh :
    decode 0b1110_000_0_1_1_0_1_0110_0111_0000_1_11_1_0010#32 = .ldrsh .al .post true .r6 .r7 (.imm 2) := by decide
theorem test_decode_strh :
    decode 0b1110_000_1_1_0_0_0_1000_1001_0000_1_01_1_1010#32 = .strh .al .offset true .r8 .r9 (.reg .r10) := by decide
theorem test_decode_ldm :
    decode 0b1110_100_1_0_1_0_1_1101_1000000000000010#32 = .ldm .al true false true false .r13 0x8002 := by decide
theorem test_decode_stm :
    decode 0b1110_100_0_1_0_1_0_0001_0000000000001100#32 = .stm .al false true false true .r1 0x000C := by decide
theorem test_decode_swp : decode 0b1110_00010_0_00_0001_0010_0000_1001_0011#32 = .swp .al .r1 .r2 .r3 := by decide
theorem test_decode_swpb : decode 0b1110_00010_1_00_0100_0101_0000_1001_0110#32 = .swpb .al .r4 .r5 .r6 := by decide
theorem test_decode_b : decode 0b1110_101_0_111111111111111111111110#32 = .b .al 0xFFFFFE := by decide
theorem test_decode_bl : decode 0b0001_101_1_000000000000000000000001#32 = .bl .ne 1 := by decide
theorem test_decode_swi : decode 0b1110_1111_111100000000000000000000#32 = .swi .al 0xF00000 := by decide
theorem test_decode_cdp : decode 0b1110_1110_0001_0010_0011_0100_101_0_0110#32 = .cdp .al 1 2 3 4 5 6 := by decide
theorem test_decode_ldc :
    decode 0b1110_110_1_0_1_0_1_0001_0010_0011_00000100#32 = .ldc .al true false true false .r1 2 3 4 := by decide
theorem test_decode_stc :
    decode 0b1110_110_0_1_0_1_0_0101_0110_0111_10000000#32 = .stc .al false true false true .r5 6 7 0x80 := by decide
theorem test_decode_mrc : decode 0b1110_1110_001_1_0010_0011_0100_101_1_0110#32 = .mrc .al 1 2 .r3 4 5 6 := by decide
theorem test_decode_mcr : decode 0b1110_1110_111_0_0000_1111_0001_010_1_0011#32 = .mcr .al 7 0 .r15 1 2 3 := by decide
theorem test_decode_undefinedA :
    decode 0b1110_011_11111111000000001111_1_0000#32 = .undefinedA .al 0x7FE01F0 := by decide
theorem test_decode_undefinedB :
    decode 0b1110_00010_0_0_0_0000_0000_0000_0110_0000#32 = .undefinedB .al 0x1000060 := by decide
theorem test_decode_undefinedC :
    decode 0b1110_000001_0_0_0000_0000_0000_1001_0000#32 = .undefinedC .al 0x0400090 := by decide
theorem test_decode_undefinedD :
    decode 0b1110_0001_0001_0000_0000_0000_1001_0000#32 = .undefinedD .al 0x1100090 := by decide
theorem test_decode_undefinedE :
    decode 0b1110_000_1_1_1_0_0_0001_0000_0000_1_10_1_0000#32 = .undefinedE .al 0x1C100D0 := by decide
theorem test_decode_reservedMrs :
    decode 0b1110_00010_0_00_1111_0000_0000_0000_0101#32 = .reservedMrs .al 0x10F0005 := by decide
theorem test_decode_reservedMsr :
    decode 0b1110_00110_0_10_1001_1110_0000_00000000#32 = .reservedMsr .al 0x329E000 := by decide
theorem test_decode_reservedSwp :
    decode 0b1110_00010_0_00_0010_0000_1111_1001_0001#32 = .reservedSwp .al 0x1020F91 := by decide
theorem test_decode_reservedHreg :
    decode 0b1110_000_1_1_0_0_1_0001_0010_0001_1_01_1_0011#32 = .reservedHreg .al 0x19121B3 := by decide
theorem test_decode_truncated : decodeBytes false [0x01, 0x02, 0x03] = .error .truncated := by decide

/-! ## Single steps -/

/-- The default start state of spec/95_test_vectors.md section 1. -/
def start : State := { State.reset with pc := 0x00008000 }
/-- A register. -/
def put (p : PReg) (v : Word) (s : State) : State := { s with regs := s.regs.set p v }
/-- A mode. -/
def inMode (m : Mode) (s : State) : State := { s with cpsr := { s.cpsr with mode := m } }
/-- I and F clear. -/
def unmasked (s : State) : State := { s with cpsr := { s.cpsr with i := false, f := false } }
/-- The flags. -/
def flags (n z c v : Bool) (s : State) : State := s.setFlags { n := n, z := z, c := c, v := v }
/-- An SPSR. -/
def spsr (n : SpsrName) (v : Word) (s : State) : State := { s with spsrs := s.spsrs.set n (Psr.ofWord v) }
/-- A word in memory. -/
def word (a v : Word) (s : State) : State :=
  { s with mem := Memory.writeBytes s.mem (alignWord a).toNat (wordBytes s.cfg.bigend v) }
/-- BIGEND HIGH. -/
def big (s : State) : State := { s with cfg := { s.cfg with bigend := true } }
/-- Every access to the addresses from `lo` up to `hi` aborts. -/
def abortAt (lo hi : Nat) (s : State) : State :=
  { s with aborts := [{ external := false, lo := lo, hi := hi, width := none, kind := none, privileged := none,
                        twentySixBit := none, locked := none }] }
/-- An answer of the coprocessors without effect on them. -/
def answered (busy : Option Nat) (accept : Bool) (v : Word) : CoprocAnswer :=
  { busy := busy, accept := accept, data := .fixed v, effects := [] }
/-- Coprocessors 2 and 6 answer every instruction so. -/
def answer (busy : Option Nat) (accept : Bool) (v : Word) (s : State) : State :=
  { s with coproc := { present := [2, 6], regs := [], rules :=
      [{ mask := 0, bits := 0, privileged := none, tests := [], answer := answered busy accept v }] } }
/-- Coprocessor 2 takes the word of an MCR from a privileged mode into its register. -/
def takesWord : CoprocRule :=
  { mask := 0x3100F10, bits := 0x2000210, privileged := some true, tests := [],
    answer := { answered (some 0) true 0 with effects := [{ reg := 0, value := none }] } }
/-- It gives its register to an MRC from a privileged mode where that holds an odd word. -/
def givesWord : CoprocRule :=
  { mask := 0x3100F10, bits := 0x2100210, privileged := some true, tests := [{ reg := 0, mask := 1, value := 1 }],
    answer := { answered (some 0) true 0 with data := .reg 0 } }
/-- Coprocessor 2 with one register, which holds `v`. -/
def holding (v : Word) (s : State) : State :=
  { s with coproc := { present := [2], regs := [v], rules := [takesWord, givesWord] } }
/-- What the platform does at the next step boundary. -/
def platformDoes (writes : List Host.Cell) (s : State) : State :=
  { s with platform := { s.platform with steps :=
      [{ writes := writes, aborts := none, buffers := none, double := none, coproc := none, predictOn := none, starved := false, ahead := [] }] } }
/-- A fetch that the Prefetch Unit makes ahead at the next step boundary. -/
def fetches (a : FetchAhead) (s : State) : State :=
  { s with platform := { s.platform with steps :=
      [{ writes := [], aborts := none, buffers := none, double := none, coproc := none, predictOn := none, starved := false, ahead := [a] }] } }
/-- PredictOn HIGH. -/
def predicting (s : State) : State := { s with platform := { s.platform with predictOn := true } }
/-- PredictOn is switched at the next step boundary. -/
def switches (level : Bool) (s : State) : State :=
  { s with platform := { s.platform with steps :=
      [{ writes := [], aborts := none, buffers := none, double := none, coproc := none, predictOn := some level, starved := false, ahead := [] }] } }
/-- The Prefetch Unit is starved at the next step boundary. -/
def starve (s : State) : State :=
  { s with platform := { s.platform with steps :=
      [{ writes := [], aborts := none, buffers := none, double := none, coproc := none, predictOn := none, starved := true, ahead := [] }] } }
/-- What the word buffers have. -/
def buffers (iExhausted : Bool) (dExhausted parallel : List Bool) (s : State) : State :=
  { s with platform := { s.platform with
      buffers := { iExhausted := iExhausted, dExhausted := dExhausted, parallel := parallel } } }
/-- The prefetch buffer holds one word, or the mark of an abort. -/
def prefetched (a : Word) (w : Option Word) (s : State) : State :=
  { s with fetchUnit := { s.fetchUnit with buffer := [{ addr := a, word := w, prediction := .notPredicted }] } }
/-- The prefetch buffer holds B 0x8004 at 0x8000, with this prediction, and MOV R0,#1 at 0x8004. -/
def thread (p : Prediction) (s : State) : State :=
  { s with fetchUnit := { s.fetchUnit with buffer :=
      [{ addr := 0x8000, word := some 0xEAFFFFFF, prediction := p },
       { addr := 0x8004, word := some 0xE3A00001, prediction := .notPredicted }] } }
/-- A device byte. -/
def device (x : Nat) (shows : List Byte) (s : State) : State :=
  { s with platform := { s.platform with devices := [{ addr := x, shows := shows }] } }
/-- The memory system returns two words, but one where they do not lie in one cache line of `n` words. -/
def lines (n : Nat) (s : State) : State :=
  { s with platform := { s.platform with double := { enabled := true, lineWords := n, lone := [] } } }
/-- The memory system returns two words where it can. -/
def double (s : State) : State := lines 0 s
/-- The requests of the last step, oldest first. -/
def requests (s : State) : List RequestType :=
  s.outputs.filterMap (fun o => match o with
    | .access t => some t.ty
    | .cpInstruct _ _ | .cpExecute _ | .cpWrite _ _ => none)
/-- The addresses shown to the memory system in the last step, oldest first. -/
def addresses (s : State) : List Word :=
  s.outputs.filterMap (fun o => match o with
    | .access t => some t.addr
    | .cpInstruct _ _ | .cpExecute _ | .cpWrite _ _ => none)
/-- The RETURN responses of the last step, oldest first. -/
def responses (s : State) : List ReturnResponse :=
  s.outputs.filterMap (fun o => match o with
    | .access t => some t.rresp
    | .cpInstruct _ _ | .cpExecute _ | .cpWrite _ _ => none)
/-- Whether an outcome is a next state with a property. -/
def holds (o : Out) (p : State → Bool) : Bool :=
  match o with
  | .next t => p t
  | .fault _ => false
  | .refused _ => false
/-- Whether an outcome is this fault. -/
def faults (o : Out) (x : Fault) : Bool :=
  match o with
  | .next _ => false
  | .fault y => decide (y = x)
  | .refused _ => false
/-- The step that runs a word. -/
def run (w : Nat) (s : State) : Out := step (s.withFetchWord 32 w)

theorem test_tstp_Z1 :
    holds (run 0xE313F103 (inMode .svc26 (put .r3 0xffffffff start)))
      (fun t => t.cpsr.mode == .usr26 && t.cpsr.flags == ⟨true, true, false, false⟩) = true := by decide
theorem test_teqp_Z2 :
    holds (run 0xE331F000 (unmasked (flags true true true true (inMode .svc26 (put .r1 0xc000003 start)))))
      (fun t => t.cpsr.mode == .svc26 && t.cpsr.flags == ⟨false, false, false, false⟩) = true := by decide
theorem test_teqp_Z3 :
    holds (run 0xE331F000 (unmasked (inMode .usr26 (put .r1 0xf0000003 start))))
      (fun t => t.cpsr.flags == ⟨true, true, true, true⟩) = true := by decide
theorem test_cmpp_Z4 :
    holds (run 0xE352F001 (unmasked (inMode .usr26 (put .r2 0x50000001 start))))
      (fun t => t.cpsr.flags == ⟨false, true, false, true⟩) = true := by decide
theorem test_cmnp_Z5 :
    holds (run 0xE170F001 (inMode .fiq26 (put .r1 0x8000002 (put .r0 0x80000000 start))))
      (fun t => t.cpsr.mode == .irq26 && t.cpsr.flags == ⟨true, false, false, false⟩) = true := by decide
theorem test_and_DP1 :
    holds (run 0xE0110002 (flags false false true true (put .r2 0xff00ff0 (put .r1 0xff00ff00 start))))
      (fun t => t.regs.r0 == 0xf000f00 && t.cpsr.flags == ⟨false, false, true, true⟩) = true := by decide
theorem test_and_DP2 :
    holds (run 0xE0110202 (put .r2 0x10000000 (put .r1 0xf start)))
      (fun t => t.regs.r0 == 0x0 && t.cpsr.flags == ⟨false, true, true, false⟩) = true := by decide
theorem test_eor_DP3 :
    holds (run 0xE0310001 (put .r1 0x12345678 start))
      (fun t => t.regs.r0 == 0x0 && t.cpsr.flags == ⟨false, true, false, false⟩) = true := by decide
theorem test_sub_DP7 :
    holds (run 0xE0510002 (put .r2 0x1 (put .r1 0x80000000 start)))
      (fun t => t.regs.r0 == 0x7fffffff && t.cpsr.flags == ⟨false, false, true, true⟩) = true := by decide
theorem test_sub_DP44 :
    holds (run 0xE25EF004 (inMode .irq (spsr .irq 0x80000053 (put .r14irq 0x9008 start))))
      (fun t => t.cpsr.mode == .svc && t.cpsr.flags == ⟨true, false, false, false⟩ && t.pc == 0x9004) = true := by decide
theorem test_rsb_DP10 :
    holds (run 0xE2710000 (put .r1 0x80000000 start))
      (fun t => t.regs.r0 == 0x80000000 && t.cpsr.flags == ⟨true, false, false, true⟩) = true := by decide
theorem test_add_DP12 :
    holds (run 0xE0910002 (put .r2 0x1 (put .r1 0x7fffffff start)))
      (fun t => t.regs.r0 == 0x80000000 && t.cpsr.flags == ⟨true, false, false, true⟩) = true := by decide
theorem test_add_DP14 : holds (run 0xE28F0004 start) (fun t => t.regs.r0 == 0x800c) = true := by decide
theorem test_adc_DP17 :
    holds (run 0xE0B10002 (flags false false true false (put .r1 0x7fffffff start)))
      (fun t => t.regs.r0 == 0x80000000 && t.cpsr.flags == ⟨true, false, false, true⟩) = true := by decide
theorem test_sbc_DP19 :
    holds (run 0xE0D10002 (put .r2 0x2 (put .r1 0x5 start)))
      (fun t => t.regs.r0 == 0x2 && t.cpsr.flags == ⟨false, false, true, false⟩) = true := by decide
theorem test_rsc_DP24 :
    holds (run 0xE2F10000 start)
      (fun t => t.regs.r0 == 0xffffffff && t.cpsr.flags == ⟨true, false, false, false⟩) = true := by decide
theorem test_tst_DP26 :
    holds (run 0xE3110102 (put .r1 0xffffffff start))
      (fun t => t.cpsr.flags == ⟨true, false, true, false⟩) = true := by decide
theorem test_teq_DP28 :
    holds (run 0xE1310002 (put .r1 0x80000000 start))
      (fun t => t.cpsr.flags == ⟨true, false, false, false⟩) = true := by decide
theorem test_cmp_DP30 :
    holds (run 0xE1510002 (put .r2 0x7fffffff (put .r1 0x80000000 start)))
      (fun t => t.cpsr.flags == ⟨false, false, true, true⟩) = true := by decide
theorem test_cmn_DP33 :
    holds (run 0xE1710002 (put .r2 0x7fffffff (put .r1 0x7fffffff start)))
      (fun t => t.cpsr.flags == ⟨true, false, false, true⟩) = true := by decide
theorem test_orr_DP34 :
    holds (run 0xE1910002 (put .r2 0x1 (put .r1 0x80000000 start)))
      (fun t => t.regs.r0 == 0x80000001 && t.cpsr.flags == ⟨true, false, false, false⟩) = true := by decide
theorem test_mov_A12 :
    holds (run 0xE1B0F00E (inMode .irq (spsr .irq 0x60000010 (put .r14irq 0x9000 start))))
      (fun t => t.cpsr.mode == .usr && t.cpsr.flags == ⟨false, true, true, false⟩ && t.pc == 0x9000) = true := by decide
theorem test_mov_A70 :
    holds (run 0xE1B00281 (put .r1 0xc000001 start))
      (fun t => t.regs.r0 == 0x80000020 && t.cpsr.flags == ⟨true, false, true, false⟩) = true := by decide
theorem test_bic_DP38 :
    holds (run 0xE3C1001F (put .r1 0x600000d3 start))
      (fun t => t.regs.r0 == 0x600000c0) = true := by decide
theorem test_mvn_DP39 :
    holds (run 0xE3F00000 start)
      (fun t => t.regs.r0 == 0xffffffff && t.cpsr.flags == ⟨true, false, false, false⟩) = true := by decide
theorem test_msr_A17 :
    holds (run 0xE129F001 (unmasked (inMode .usr (put .r1 0x600000d1 start))))
      (fun t => t.cpsr.flags == ⟨false, true, true, false⟩) = true := by decide
theorem test_msr_A21 :
    holds (run 0xE129F001 (inMode .sys (put .r1 0x600000d1 start)))
      (fun t => t.cpsr.mode == .fiq && t.cpsr.flags == ⟨false, true, true, false⟩) = true := by decide
theorem test_mul_M4 :
    holds (run 0xE0110392 (flags false false true true (put .r3 0x2 (put .r2 0x40000000 start))))
      (fun t => t.regs.r1 == 0x80000000 && t.cpsr.flags.n == true && t.cpsr.flags.v == true) = true := by decide
theorem test_mla_M7 :
    holds (run 0xE0314392 (put .r4 0xfffffff1 (put .r3 0x5 (put .r2 0x3 start))))
      (fun t => t.regs.r1 == 0x0 && t.cpsr.flags.n == false && t.cpsr.flags.v == false) = true := by decide
theorem test_umull_M15 :
    holds (run 0xE0910392 (put .r3 0xffffffff (put .r2 0xffffffff start)))
      (fun t => t.regs.r0 == 0x1 && t.regs.r1 == 0xfffffffe && t.cpsr.flags.z == false) = true := by decide
theorem test_umlal_M16 :
    holds (run 0xE0A10392 (put .r3 0x1 (put .r2 0x1 (put .r0 0xffffffff start))))
      (fun t => t.regs.r0 == 0x0 && t.regs.r1 == 0x1) = true := by decide
theorem test_smull_M18 :
    holds (run 0xE0C10392 (put .r3 0x14 (put .r2 0xfffffff6 start)))
      (fun t => t.regs.r0 == 0xffffff38 && t.regs.r1 == 0xffffffff) = true := by decide
theorem test_smlal_M22 :
    holds (run 0xE0F10392 (put .r3 0x1 (put .r2 0xffffffff (put .r1 0x80000000 start))))
      (fun t => t.regs.r0 == 0xffffffff && t.regs.r1 == 0x7fffffff && t.cpsr.flags.z == false) = true := by decide
theorem test_swp_W5 :
    holds (run 0xE1020091 (word 0x00004000 0xcafef00d (put .r2 0x4001 (put .r1 0x11111111 start))))
      (fun t => t.regs.r0 == 0xdcafef0 && t.loadWord 0x00004000 == 0x11111111) = true := by decide
theorem test_swp_W6 :
    holds (run 0xE1020091 (abortAt 0x4000 0x4004 (put .r2 0x4000 (put .r1 0x11111111 (put .r0 0x5 start)))))
      (fun t => t.regs.r14abt == 0x8008 && t.spsrs.abt == Psr.ofWord 0xd3 && t.pc == 0x10) = true := by decide
theorem test_swpb_W3 :
    holds (run 0xE1442093 (word 0x00004000 0xab00 (put .r4 0x4001 (put .r3 0x12345678 start))))
      (fun t => t.regs.r2 == 0xab && Memory.read t.mem 0x00004001 == 0x78) = true := by decide
theorem test_ldrh_A43 :
    holds (run 0xE13210B3 (word 0x00002000 0xbeef0000 (put .r3 0xe (put .r2 0x2010 start))))
      (fun t => t.regs.r1 == 0xbeef && t.regs.r2 == 0x2002) = true := by decide
theorem test_ldrh_H3 :
    holds (run 0xE1D100B0 (word 0x00001000 0x8001f234 (big (put .r1 0x1000 start))))
      (fun t => t.regs.r0 == 0x8001) = true := by decide
theorem test_ldrsb_A45 :
    holds (run 0xE0528DDF (word 0x00002100 0x80 (put .r2 0x2100 start)))
      (fun t => t.regs.r2 == 0x2021 && t.regs.r8 == 0xffffff80) = true := by decide
theorem test_ldrsh_H5 :
    holds (run 0xE1D100F0 (word 0x00001000 0x8001f234 (put .r1 0x1000 start)))
      (fun t => t.regs.r0 == 0xfffff234) = true := by decide
theorem test_strh_H15 :
    holds (run 0xE1C100B2 (put .r1 0x2000 (put .r0 0xaabbccdd start)))
      (fun t => Memory.read t.mem 0x00002002 == 0xdd && Memory.read t.mem 0x00002003 == 0xcc) = true := by decide
theorem test_strh_H17 : faults (run 0xE1C100B1 (put .r1 0x2000 (put .r0 0xaabbccdd start))) .strhOdd = true := by decide
theorem test_ldr_L4 :
    holds (run 0xE5910000 (word 0x00001004 0x55667788 (word 0x00001000 0x11223344 (put .r1 0x1003 start))))
      (fun t => t.regs.r0 == 0x22334411) = true := by decide
theorem test_ldrt_L35 :
    holds (run 0xE4B10004 (word 0x00001004 0x55667788 (word 0x00001000 0x11223344 (put .r1 0x1000 start))))
      (fun t => t.regs.r0 == 0x11223344 && t.regs.r1 == 0x1004) = true := by decide
theorem test_ldrb_L10 :
    holds (run 0xE5D10003 (word 0x00001004 0x55667788 (word 0x00001000 0x11223344 (big (put .r1 0x1000 start)))))
      (fun t => t.regs.r0 == 0x44) = true := by decide
theorem test_str_A38 :
    holds (run 0xE6821004 (put .r4 0x10 (put .r2 0x2000 (put .r1 0xaabbccdd start))))
      (fun t => t.regs.r2 == 0x2010 && t.loadWord 0x00002000 == 0xaabbccdd) = true := by decide
theorem test_str_L23 :
    holds (run 0xE5810000 (put .r1 0x2002 (put .r0 0xaabbccdd start)))
      (fun t => t.loadWord 0x00002000 == 0xaabbccdd) = true := by decide
theorem test_strb_L26 :
    holds (run 0xE5C10001 (big (put .r1 0x2000 (put .r0 0x12345678 start))))
      (fun t => Memory.read t.mem 0x00002001 == 0x78) = true := by decide
theorem test_strbt_L36 :
    holds (run 0xE4E10001 (put .r1 0x2003 (put .r0 0x1ff start)))
      (fun t => t.regs.r1 == 0x2004 && Memory.read t.mem 0x00002003 == 0xff) = true := by decide
theorem test_ldm_K9 :
    holds (run 0xE930000E (word 0x00001010 0xb0 (word 0x0000100C 0xac (word 0x00001008 0xa8 (word 0x00001004 0xa4 (word 0x00001000 0xa0 (put .r0 0x1010 start)))))))
      (fun t => t.regs.r0 == 0x1004 && t.regs.r1 == 0xa4 && t.regs.r3 == 0xac) = true := by decide
theorem test_ldm_A51 :
    holds (run 0xE8FD8000 (word 0x00001000 0x9000 (inMode .irq (spsr .irq 0x40000010 (put .r13irq 0x1000 start)))))
      (fun t => t.regs.r13irq == 0x1004 && t.cpsr.mode == .usr && t.pc == 0x9000) = true := by decide
theorem test_stm_A69 :
    holds (run 0xE92000A2 (put .r7 0x77 (put .r5 0x55 (put .r1 0x11 (put .r0 0x1000 start)))))
      (fun t => t.regs.r0 == 0xff4 && t.loadWord 0x00000FF4 == 0x11 && t.loadWord 0x00000FFC == 0x77) = true := by decide
theorem test_b_B2 : holds (run 0xEAFFFFFA start) (fun t => t.pc == 0x7ff0) = true := by decide
theorem test_bl_B10 :
    holds (run 0xEB00003E (inMode .fiq start))
      (fun t => t.regs.r14fiq == 0x8004 && t.pc == 0x8100) = true := by decide
theorem test_ldc_A62 :
    holds (run 0xED9F2102 (unmasked (inMode .usr start)))
      (fun t => t.regs.r14und == 0x8004 && t.spsrs.und == Psr.ofWord 0x10 && t.pc == 0x4) = true := by decide
theorem test_stc_A63 :
    holds (run 0x0DE53206 (unmasked (flags false true false false (inMode .usr (put .r5 0x1000 start)))))
      (fun t => t.regs.r14und == 0x8004 && t.spsrs.und == Psr.ofWord 0x40000010 && t.pc == 0x4) = true := by decide
theorem test_cdp_A61 :
    holds (run 0x0E521243 (unmasked (flags false true false false (inMode .usr start))))
      (fun t => t.regs.r14und == 0x8004 && t.spsrs.und == Psr.ofWord 0x40000010 && t.pc == 0x4) = true := by decide
theorem test_mrc_A64 :
    holds (run 0xEEB53216 (answer (some 0) true 0xc5 start))
      (fun t => t.regs.r3 == 0xc5) = true := by decide
theorem test_mrc_X10 :
    holds (run 0xEEB5F216 (answer (some 0) true 0x60000000 (flags true false false true start)))
      (fun t => t.cpsr.flags == ⟨false, true, true, false⟩) = true := by decide
theorem test_mcr_X11 :
    holds (run 0xEE064617 (answer (some 0) true 0x0 (put .r4 0x12345678 start)))
      (fun t => t.outputs.contains (.cpWrite 0x2064617 0x12345678)) = true := by decide
theorem test_swi_X4 :
    holds (run 0xEFF00000 (inMode .sys { start with cpsr := { start.cpsr with i := false } }))
      (fun t => t.regs.r14svc == 0x8004 && t.spsrs.svc == Psr.ofWord 0x5f && t.pc == 0x8) = true := by decide
theorem test_undefinedA_X15 :
    holds (run 0xE7FFFFFF (inMode .und (put .r14und 0x1111 start)))
      (fun t => t.regs.r14und == 0x8004 && t.spsrs.und == Psr.ofWord 0xdb && t.pc == 0x4) = true := by decide
theorem test_undefinedE_H26 :
    holds (run 0xE1C100D0 (put .r1 0x1000 start))
      (fun t => t.regs.r14und == 0x8004 && t.spsrs.und == Psr.ofWord 0xd3 && t.pc == 0x4) = true := by decide
theorem test_reservedMrs_PS20 : faults (run 0xE10F0005 start) .reservedMrs = true := by decide
theorem test_reservedSwp_W9 : faults (run 0xE1020F91 (put .r2 0x4000 (put .r1 0x1 start))) .reservedSwp = true := by decide

/-! Worked by hand from the rule named. -/

/-- R223: bits 31 to 28, 7, 6 and 4 to 0 of SPSR_irq; the read goes on at A + 4. -/
theorem test_mrs_A32 : (Psr.ofWord 0x30000010).word 0 = 0x30000010 := by decide
theorem test_mrs_goes_on : holds (run 0xE14F2000 (inMode .irq start)) (fun t => t.pc == 0x8004) = true := by decide
/-- R262, R276: LDRBT R0,[R1],#-1 loads the byte at the base and then writes the base back. -/
theorem test_ldrbt : holds (run 0xE4710001 (put .r1 0x1003 (word 0x1000 0xAB000000 start)))
    (fun t => t.regs.r0 == 0xAB && t.regs.r1 == 0x1002) = true := by decide
/-- R277: STRT R0,[R1],#4. -/
theorem test_strt : holds (run 0xE4A10004 (put .r1 0x2000 (put .r0 7 start)))
    (fun t => t.regs.r1 == 0x2004 && t.loadWord 0x2000 == 7) = true := by decide
/-- R370, R372: classes B, C and D trap where they are trapped, and stop where they are not. -/
theorem test_undefinedB : holds (run 0xE1000060 start) (fun t => t.pc == 4 && t.regs.r14und == 0x8004) = true := by decide
theorem test_undefinedC : holds (run 0xE0400090 start) (fun t => t.pc == 4 && t.cpsr.mode == .und) = true := by decide
theorem test_undefinedD : holds (run 0xE1100090 start) (fun t => t.pc == 4 && t.cpsr.mode == .und) = true := by decide
theorem test_undefinedD_not_trapping :
    faults (run 0xE1100090 { start with cfg := { start.cfg with undefClassesBtoE := false } })
      .undefinedDNotTrapping = true := by decide
/-- R128, R130. -/
theorem test_reservedMsr : faults (run 0xE329E000 start) .reservedMsr = true := by decide
theorem test_reservedHreg : faults (run 0xE19121B3 start) .reservedHreg = true := by decide
/-- R369: one busy-wait cycle leaves MRC R3 in Execute. -/
theorem test_mrc_waits : holds (run 0xEEB53216 (answer (some 1) true 42 start)) (fun t => t.pc == 0x8000 && t.busyWait) = true := by
  decide
/-- R369, R382: a busy-wait without end holds MCR in Execute, without another fetch (R98 AREQ_NONE), R4 on VAddress in
each cycle. -/
theorem test_mcr_waits : holds (run 0xEE064617 (answer none true 0 (put .r4 0x1234 start)))
    (fun t => requests t == [.fetch, .none] && addresses t == [0x8000, 0x1234]
      && holds (step t) (fun u =>
        u.pc == 0x8000 && u.busyWait && requests u == [.none] && addresses u == [0x1234])) = true := by decide
/-- R377: what an MCR writes decides what an MRC is answered: MRC p2 bounces while the register is 0; after MCR p2,0,R4
it is accepted and reads R4. -/
theorem test_mrc_private_state : holds (run 0xEEB53216 (holding 0 start)) (fun t => t.pc == 4) = true := by decide
theorem test_mcr_then_mrc :
    holds (run 0xEE054216 (holding 0 (put .r4 0x1235 (word 0x8004 0xEEB53216 start))))
      (fun t => t.pc == 0x8004 && t.coproc.regs == [0x1235]
        && holds (step t) (fun u => u.pc == 0x8008 && u.regs.r3 == 0x1235)) = true := by decide
/-- R376, R377, R379: the answer depends on the privilege and on I[25:0]; CP# 3 is absent. -/
theorem test_mrc_unprivileged : holds (run 0xEEB53216 (holding 7 (inMode .usr start))) (fun t => t.pc == 4) = true := by
  decide
theorem test_mrc_absent : holds (run 0xEEB53316 (answer (some 0) true 42 start)) (fun t => t.pc == 4) = true := by decide
/-- R98, R101: a fetch that follows the last is sequential, and one that came as the second of two is not asked again. -/
theorem test_fetch_sequential : holds (run 0xE3A00001 start)
    (fun t => requests t == [.fetch] && responses t == [.instr1]
      && holds (step t) (fun u => requests u == [.fetchS])) = true := by decide
theorem test_fetch_double : holds (run 0xE3A00001 (double start))
    (fun t => responses t == [.instr2] && holds (step t) (fun u => requests u == [])) = true := by decide
/-- R101: the last word of a cache line comes alone, to a fetch and to LDM R1, {R2, R3, R4, R5} from the last word of a
line of four, which then asks for the other three. -/
theorem test_fetch_line : holds (run 0xE3A00001 (lines 4 { start with pc := 0x800C })) (fun t =>
    responses t == [.instr1] && holds (step t) (fun u => requests u == [.fetchS] && responses u == [.instr2])) = true := by
  decide
theorem test_ldm_line : holds (run 0xE891003C (lines 4 (put .r1 0x100C start))) (fun t =>
    requests t == [.fetch, .load true, .loadS true, .loadS false]
      && responses t == [.instr2, .data1, .data2, .data1]) = true := by decide
/-- R101: from a step boundary on, one word is returned at 0x1000. -/
theorem test_ldm_lone : holds (step { (word 0x8000 0xE891000C (put .r1 0x1000 (double start))) with
      platform := { (double start).platform with steps :=
        [{ writes := [], aborts := none, buffers := none, coproc := none, predictOn := none, starved := false, ahead := [],
           double := some { enabled := true, lineWords := 0, lone := [(.load, 0x1000)] } }] } })
    (fun t => responses t == [.instr2, .data1, .data1]) = true := by decide
/-- R92: a branch to A + 4 drops the second word, which is asked for again. -/
theorem test_b_flushes : holds (run 0xEAFFFFFF (double start))
    (fun t => t.pc == 0x8004 && holds (step t) (fun u => requests u == [.fetch])) = true := by decide
/-- R92, R94: the same branch, predicted as taken, does not flush: the second word is run from the buffer. -/
theorem test_b_predicted : holds (run 0xEAFFFFFF (double (predicting start)))
    (fun t => t.pc == 0x8004 && holds (step t) (fun u => requests u == [])) = true := by decide
/-- R43, R94: B to the next word but one comes as the second word of a fetch and is predicted as taken then. -/
theorem test_predicted_at_fetch : holds (run 0xE3A00001 (double (predicting (word 0x8004 0xEA000000 start))))
    (fun t => t.fetchUnit.buffer == [{ addr := 0x8004, word := some 0xEA000000, prediction := .taken }]) = true := by decide
/-- R494: after a switch of PredictOn to LOW the thread that was prefetched goes on: a branch predicted as taken before
does not flush the word at its target. One that was not predicted flushes after a switch to HIGH. -/
theorem test_predict_off : holds (step (switches false (predicting (thread .taken start))))
    (fun t => t.pc == 0x8004 && !t.platform.predictOn && t.fetchUnit.buffer.length == 1
      && holds (step t) (fun u => u.regs.r0 == 1 && requests u == [])) = true := by decide
theorem test_predict_on : holds (step (switches true (thread .notPredicted start)))
    (fun t => t.pc == 0x8004 && t.platform.predictOn && t.fetchUnit.buffer == []) = true := by decide
/-- R93: MOV R0,#1 is run from the prefetch buffer, without a request; after a store to it (R89) the step stops. -/
theorem test_prefetched : holds (step (prefetched 0x8000 (some 0xE3A00001) start))
    (fun t => t.regs.r0 == 1 && requests t == [] && t.fetchUnit.buffer == []) = true := by decide
theorem test_prefetched_marked :
    faults (step (prefetched 0x8000 (some 0xE3A00001) { start with marks := [0x8003] })) .modifiedCode = true := by decide
/-- R93: a word of another address is dropped. R92: starvation flushes. Each time the word is fetched from memory. -/
theorem test_prefetched_elsewhere :
    holds (step (prefetched 0x8004 (some 0xE3A00001) (word 0x8000 0xE3A00002 start)))
      (fun t => t.regs.r0 == 2 && addresses t == [0x8000]) = true := by decide
theorem test_starved : holds (step (starve (prefetched 0x8000 (some 0xE3A00001) (word 0x8000 0xE3A00002 start))))
    (fun t => t.regs.r0 == 2 && requests t == [.fetch]) = true := by decide
/-- R432: the mark of an abort that lies in the prefetch buffer is taken when it is run, and not before. -/
theorem test_prefetched_abort : holds (step (prefetched 0x8000 none start)) (fun t => t.pc == 0x0C && requests t == []) = true := by
  decide
/-- R393, R95: in a 26-bit mode the Prefetch Unit passes 0x03FFFFFC; an abort there is a mark in the buffer. -/
theorem test_fetch_past_26 :
    holds (step (fetches { addr := 0x04000000, speculative := true, supplied := true, iExhausted := true }
        (abortAt 0x04000000 0x04000004 (word 0x03FFFFFC 0xE3A0F000 (inMode .svc26 { start with pc := 0x03FFFFFC })))))
      (fun t => t.pc == 0 && addresses t == [0x04000000, 0x03FFFFFC] && requests t == [.spec, .fetch]) = true := by decide
/-- R97: a sequential word that is in the instruction buffer is asked for by its return alone, unless IExhausted has
become HIGH. -/
theorem test_fetch_buffered :
    holds (run 0xE3A00001 (buffers false [] [] start))
      (fun t => requests t == [.fetch]
        && holds (step t) (fun u => requests u == [.none] && responses u == [.instr1])) = true := by decide
theorem test_fetch_exhausted :
    holds (run 0xE3A00001 (buffers false [] [] start))
      (fun t => holds (step { t with platform := { t.platform with steps :=
          [{ writes := [], aborts := none, buffers := some WordBuffers.exhausted, double := none, coproc := none,
             predictOn := none, starved := false, ahead := [] }] } })
        (fun u => requests u == [.fetchS])) = true := by decide
/-- R97: LDM R1, {R2, R3, R4}: DExhausted is HIGH for the second word and LOW for the third. -/
theorem test_ldm_buffered : holds (run 0xE891001C (buffers true [true, false] [] (put .r1 0x1000 start)))
    (fun t => requests t == [.fetch, .load true, .loadS true, .none]) = true := by decide
/-- R97: the Parallel request: STR R0,[R1] with the return of the next instruction, MOV R0,#1, which is then run from the
prefetch buffer; where the store aborts, nothing is returned (R101). -/
theorem test_str_parallel :
    holds (run 0xE5810000 (buffers true [] [true] (word 0x8004 0xE3A00001 (put .r1 0x1000 start))))
      (fun t => requests t == [.fetch, .store false] && responses t == [.instr1, .instr1]
        && t.fetchUnit.buffer == [{ addr := 0x8004, word := some 0xE3A00001, prediction := .notPredicted }]
        && holds (step t) (fun u => requests u == [] && u.regs.r0 == 1)) = true := by decide
theorem test_str_parallel_abort :
    holds (run 0xE5810000 (buffers true [] [true] (abortAt 0x1000 0x1001 (put .r1 0x1000 start))))
      (fun t => responses t == [.instr1, .nothing] && t.fetchUnit.buffer == [] && t.pc == 0x10) = true := by decide
/-- R98, R323: STM R1, {R2, R3, R4} whose second word aborts has shown that more follow, and asks no more. -/
theorem test_stm_requests : holds (run 0xE881001C (abortAt 0x1004 0x1005 (put .r1 0x1000 start)))
    (fun t => requests t == [.fetch, .store true, .storeS true] && t.pc == 0x10) = true := by decide
/-- R78, R101: a load that is aborted from outside. -/
theorem test_ldr_external : holds (run 0xE5910000 { put .r1 0x1000 start with aborts :=
      [{ external := true, lo := 0x1000, hi := 0x1004, width := none, kind := none, privileged := none,
         twentySixBit := none, locked := none }] })
    (fun t => responses t == [.instr1, .extAbortD] && t.pc == 0x10) = true := by decide
/-- R376: what the coprocessors are told of MOV and of CDP. -/
theorem test_mov_announced : holds (run 0xE3A00001 start)
    (fun t => t.outputs.contains (.cpInstruct none true)) = true := by decide
theorem test_cdp_announced : holds (run 0x0E521243 (flags false true false false (inMode .usr start)))
    (fun t => t.outputs.contains (.cpInstruct (some 0x2521243) false) && t.outputs.contains (.cpExecute false))
      = true := by decide
/-- R75, R77: a device byte changes after an access to it, and another agent's write is found at the step boundary. -/
theorem test_ldrb_device : holds (run 0xE5D10000 (device 0x1000 [7, 8] (put .r1 0x1000 start)))
    (fun t => t.regs.r0 == 0
      && holds (step t) (fun u => Memory.read u.mem 0x1000 == 7 && Memory.read u.mem 0x1001 == 0)) = true := by decide
/-- R67: LDRH R0,[R1] from an odd address is performed on the aligned halfword that contains it (log entry 34). -/
theorem test_ldrh_device : ∀ x ∈ [0x1000, 0x1001, 0x1002],
    holds (run 0xE1D100B0 (device x [7] (put .r1 0x1001 start)))
      (fun t => holds (step t) (fun u => Memory.read u.mem x == if x = 0x1002 then 0 else 7)) = true := by decide
theorem test_other_agent : holds (step (platformDoes [(0x1000, 7), (0x1000, 9)] start))
    (fun t => Memory.read t.mem 0x1000 == 9) = true := by decide
/-- R152: MOVEQ R0,#1 with Z clear is skipped. R129: condition 1111 stops. -/
theorem test_condition_fails : holds (run 0x03A00001 start) (fun t => t.regs.r0 == 0 && t.pc == 0x8004) = true := by decide
theorem test_condition_reserved : faults (run 0xF3A00001 start) .condReserved = true := by decide
/-- R440, R453: an enabled FIQ is taken before an enabled IRQ, with A + 4 in R14_fiq. -/
theorem test_fiq_first : holds (step { unmasked start with lines := [{ reset := false, fiq := true, irq := true }] })
    (fun t => t.pc == 0x1C && t.regs.r14fiq == 0x8004 && t.cpsr.mode == .fiq) = true := by decide
/-- R89: STR R0,[PC,#-4] writes the next word, which then must not be run. -/
theorem test_modified_code : holds (run 0xE50F0004 start) (fun t => faults (step t) .modifiedCode) = true := by decide

/-! ## Reset (spec/70_reset_and_hazards.md R481) -/

theorem test_reset_pc : State.reset.pc = 0 := by decide
theorem test_reset_mode : State.reset.cpsr.mode = .svc := by decide
theorem test_reset_masks : State.reset.cpsr.i = true ∧ State.reset.cpsr.f = true := by decide
theorem test_reset_memory : Memory.wf State.reset.mem = true := by decide

/-! ## Witnesses: for each statement with hypotheses, states and operands that meet them, at the ends of each clause -/

/-- A state with lines asserted at the next boundary, interrupts enabled. -/
def asserted (reset fiq irq : Bool) : State := { unmasked start with lines := [{ reset := reset, fiq := fiq, irq := irq }] }
/-- The state just after a user-bank LDM in Supervisor mode. -/
def afterUserLdm : State := { start with userLdm := true }
/-- A 26-bit User-mode state at the highest address that can go on. -/
def low26 : State := { inMode .usr26 start with pc := 0x03FFFFF8 }
/-- A state that returns to User mode, from IRQ mode. -/
def returning (m : Word) : State := spsr .irq m (inMode .irq start)

theorem witness_DecodeEncode : Instr.wf (.tst .al .r14 .r0 (.imm 0 0)) = true ∧ Instr.wf (.undefinedE .nv 0x1C100D0) = true := by
  decide
theorem witness_StepRunsDecoded :
    let s := start.withFetchWord 32 0xE3A00001
    s.levels.reset = false ∧ (s.levels.fiq && !s.cpsr.f) = false ∧ (s.levels.irq && !s.cpsr.i) = false
      ∧ s.beginStep.waiting = none ∧ s.beginStep.presented = some 0xE3A00001
      ∧ s.beginStep.modified = false ∧ s.beginStep.mixedWidth = false := by decide
/-- The word is fetched, or its fetch aborts; it is in the buffer, a word or a mark; no fetch is made ahead. -/
theorem witness_StepRunsDecoded_presented :
    (∀ s ∈ [start, abortAt 0x8000 0x8001 start, prefetched 0x8004 none start],
      s.beginStep.buffered = none ∧ s.platformStep.ahead = [])
    ∧ (∀ w, (prefetched 0x8000 w start).beginStep.buffered = some { addr := 0x8000, word := w, prediction := .notPredicted })
    ∧ (starve start).platformStep.ahead = [] ∧ (starve start).platformStep.starved = true :=
  ⟨by decide, fun _ => rfl, rfl, rfl⟩
theorem witness_StepRunsDecoded_fresh :
    let s := prefetched 0x8000 (some 0xE3A00001) (word 0x8000 0xE3A00001 start)
    s.inv ∧ s.beginStep.modified = false ∧ s.beginStep.presented = some 0xE3A00001 :=
  ⟨⟨by unfold State.pcLegal; decide, by unfold State.canonical; decide,
    fun _ h => by rw [List.mem_singleton.1 h]; exact .inr (.inl (by decide))⟩, by decide, by decide⟩
theorem witness_StepRunsDecoded_waiting :
    let s := { start with busyWait := true, fetchUnit := { FetchUnit.empty with ir := some 0xEE064617 } }
    s.levels.reset = false ∧ (s.levels.fiq && !s.cpsr.f) = false ∧ (s.levels.irq && !s.cpsr.i) = false
      ∧ s.beginStep.waiting = some 0xEE064617 := by decide
theorem witness_StepRunsDecoded_platform :
    (start.platformStep.writes = [] ∧ start.platform.devices = [])
    ∧ (let s := platformDoes [(0x1000, 7), (0xFFFFFFFF, 8), (0x100001000, 9)] start
       s.canonical ∧ (∀ c ∈ s.platformStep.writes, c.1 % 2 ^ 32 ≠ 0x1001)
        ∧ (∀ d ∈ s.platform.devices, d.addr % 2 ^ 32 ≠ 0x1001)
        ∧ s.platformStep.writes = [(0x1000, 7)] ++ (0xFFFFFFFF, 8) :: [(0x100001000, 9)]
        ∧ (∀ d ∈ [((0x100001000 : Nat), (9 : Byte))], d.1 % 2 ^ 32 ≠ 0xFFFFFFFF % 2 ^ 32)
        ∧ s.platformStep.writes = [(0x1000, 7), (0xFFFFFFFF, 8)] ++ (0x100001000, 9) :: []) := by
  unfold State.canonical; decide
/-- The load of one word, as the memory system sees it. -/
def loadAt (a : Word) : Transaction := start.transaction (.load false) (start.access false .load .word false a) 0 .one [0]
/-- A device byte just after that load. -/
def afterLoad (a : Word) : State := { device 0xFFFFFFFF [7, 8] start with outputs := [.access (loadAt a)] }
theorem witness_StepRunsDecoded_device :
    (∀ a, (afterLoad a).canonical ∧ (afterLoad a).platform.devices = [{ addr := 0xFFFFFFFF, shows := 7 :: [8] }]
      ∧ (afterLoad a).platformStep.writes = [] ∧ (afterLoad a).outputs = [.access (loadAt a)])
    ∧ 0xFFFFFFFF < 2 ^ 32 ∧ (loadAt 0xFFFFFFFC).touches 0xFFFFFFFF = true
    ∧ (loadAt 0xFFFFFFF8).touches 0xFFFFFFFF = false ∧ (loadAt 0).touches 0xFFFFFFFF = false :=
  ⟨fun _ => ⟨⟨rfl, rfl, rfl, rfl⟩, rfl, rfl, rfl⟩, by decide, rfl, rfl, rfl⟩
theorem witness_StepKeepsInvariant :
    State.reset.inv ∧ goesOn (step State.reset) ∧ low26.inv ∧ goesOn (step low26) :=
  ⟨⟨by unfold State.pcLegal; decide, by unfold State.canonical; decide, fun _ h => nomatch h⟩, ⟨_, rfl⟩,
    ⟨by unfold State.pcLegal; decide, by unfold State.canonical; decide, fun _ h => nomatch h⟩, ⟨_, rfl⟩⟩
theorem witness_ResetLine : (asserted true true true).levels.reset = true := by decide
theorem witness_InterruptAndPrefetchAbort :
    ((asserted false true true).levels.reset = false ∧ (asserted false true true).levels.fiq = true
      ∧ (asserted false true true).cpsr.f = false)
    ∧ (let s := { asserted false true true with cpsr := { start.cpsr with i := false } }
       (s.levels.fiq && !s.cpsr.f) = false ∧ s.levels.irq = true ∧ s.cpsr.i = false ∧ s.levels.reset = false)
    ∧ (∀ s ∈ [abortAt 0x8000 0x8001 start, prefetched 0x8000 none start],
       s.levels.reset = false ∧ (s.levels.fiq && !s.cpsr.f) = false ∧ (s.levels.irq && !s.cpsr.i) = false
         ∧ s.beginStep.waiting = none ∧ s.beginStep.presented = none) := by decide
theorem witness_UnsafeCodeStops_marked : ∀ k ∈ [0x8000, 0x8003],
    let s := { start with marks := [k] }
    s.levels.reset = false ∧ (s.levels.fiq && !s.cpsr.f) = false ∧ (s.levels.irq && !s.cpsr.i) = false
      ∧ s.beginStep.waiting = none ∧ s.beginStep.presented ≠ none
      ∧ ∃ a ∈ s.beginStep.marks, (alignWord s.pc).toNat ≤ a ∧ a < (alignWord s.pc).toNat + 4 := by decide
theorem witness_UnsafeCodeStops_mixed :
    let s := { start with marks := [0x7FFF, 0x8004], ran26 := [0x8000] }
    s.levels.reset = false ∧ (s.levels.fiq && !s.cpsr.f) = false ∧ (s.levels.irq && !s.cpsr.i) = false
      ∧ s.beginStep.waiting = none ∧ s.beginStep.presented ≠ none
      ∧ (∀ a ∈ s.beginStep.marks, a < (alignWord s.pc).toNat ∨ (alignWord s.pc).toNat + 4 ≤ a)
      ∧ s.pc.toNat ∈ (if s.cpsr.mode.is26 then s.ran32 else s.ran26) := by decide
theorem witness_ConditionGate :
    (Instr.cond (.b .eq 0) ≠ .nv ∧ condPassed start.cpsr.flags (Instr.cond (.b .eq 0)) = false ∧ start.canAdvance)
      ∧ Instr.cond (.b .nv 0) = .nv := by
  unfold State.canAdvance; decide
theorem witness_UserBankHazard :
    let i : Instr := .mov .al false .r0 .r0 (.shiftImm .r13 .lsl 0)
    i.cond ≠ .nv ∧ condPassed afterUserLdm.cpsr.flags i.cond = true ∧ afterUserLdm.userLdm = true
      ∧ ∃ r ∈ instrReads i, afterUserLdm.cpsr.mode.bankedReg r = true := by decide
theorem witness_CompareThenCondition :
    start.ready .al [.r1, .r2] ∧ r15InRegisterShift [.r1] (.shiftImm .r2 .lsl 0) = false ∧ Reg.r0 ≠ .r15
      ∧ start.canAdvance := by
  unfold State.ready State.canAdvance; decide
theorem witness_BranchResult :
    start.ready .al [] ∧ low26.ready .al [] ∧ (predicting start).ready .al [] := by
  unfold State.ready; decide
theorem witness_ShifterByRegister :
    ((start.reg .r3).extractLsb' 0 8).toNat = 0 ∧ (((put .r3 0xFFFFFFFF start).reg .r3).extractLsb' 0 8).toNat = 255 := by
  decide
theorem witness_ShifterByImmediate : (1#5).toNat ≠ 0 ∧ (31#5).toNat ≠ 0 := by decide
theorem witness_DataProcessingResult : ∀ op ∈ [DpOp.and, .sub, .mov, .mvn],
    start.ready .al (op.rnRead .r15 ++ operand2Reads (.imm 0 255))
      ∧ r15InRegisterShift (op.rnRead .r15) (.imm 0 255) = false ∧ Reg.r14 ≠ .r15 ∧ start.canAdvance := by
  unfold State.ready State.canAdvance; decide
theorem witness_TestResult :
    start.ready .al [.r1, .r2, .r3] ∧ r15InRegisterShift [.r1] (.shiftReg .r2 .asr .r3) = false ∧ Reg.r0 ≠ .r15
      ∧ start.canAdvance := by
  unfold State.ready State.canAdvance; decide
theorem witness_ResultToPc :
    start.ready .al (DpOp.add.rnRead .r15 ++ operand2Reads (.imm 0 4))
      ∧ r15InRegisterShift (DpOp.add.rnRead .r15) (.imm 0 4) = false := by
  unfold State.ready; decide
theorem witness_ReturnFromException :
    let o : Operand2 := .imm 0 4
    ((returning 0x60000010).ready .al (DpOp.sub.rnRead .r14 ++ operand2Reads o)
      ∧ r15InRegisterShift (DpOp.sub.rnRead .r14) o = false ∧ (returning 0x60000010).cpsr.mode.is26 = false
      ∧ (returning 0x60000010).cpsr.mode.spsr = some .irq
      ∧ ((returning 0x60000010).spsrs.get .irq).m = Mode.usr.bits ∧ Mode.usr.is26 = false)
    ∧ (let s := put .r14irq 0x04000003 (returning 0x00000003)
       s.ready .al (DpOp.sub.rnRead .r14 ++ operand2Reads o) ∧ s.cpsr.mode.is26 = false
      ∧ s.cpsr.mode.spsr = some .irq ∧ (s.spsrs.get .irq).m = Mode.svc26.bits ∧ Mode.svc26.is26 = true
      ∧ s.pc.toNat < 2 ^ 26 ∧ s.dpValue .sub .r14 o = 0x03FFFFFF ∧ (s.dpValue .sub .r14 o).toNat < 2 ^ 26) := by
  unfold State.ready; decide
theorem witness_ResultToPcPsr26 : ∀ s ∈ [low26, inMode .svc26 start],
    s.ready .al (DpOp.mov.rnRead .r0 ++ operand2Reads (.shiftImm .r14 .lsl 0))
      ∧ r15InRegisterShift (DpOp.mov.rnRead .r0) (.shiftImm .r14 .lsl 0) = false ∧ s.cpsr.mode.is26 = true := by
  unfold State.ready; decide
theorem witness_PFormResult :
    (low26.ready .al [.r1] ∧ low26.cpsr.mode.is26 = true ∧ r15InRegisterShift [.r1] (.imm 0 0) = false ∧ low26.canAdvance)
    ∧ start.ready .al [.r1] ∧ start.cpsr.mode.is26 = false := by
  unfold State.ready State.canAdvance; decide
theorem witness_DataProcessingStops :
    (start.ready .al (DpOp.add.rnRead .r0 ++ operand2Reads (.shiftReg .r15 .lsl .r1))
      ∧ ∃ rm ty rs, Operand2.shiftReg .r15 .lsl .r1 = .shiftReg rm ty rs
        ∧ (rm = .r15 ∨ rs = .r15 ∨ .r15 ∈ DpOp.add.rnRead .r0))
    ∧ ((inMode .sys start).ready .al (DpOp.mov.rnRead .r0 ++ operand2Reads (.imm 0 0))
      ∧ r15InRegisterShift (DpOp.mov.rnRead .r0) (.imm 0 0) = false ∧ (inMode .sys start).cpsr.mode = .sys)
    ∧ ((returning 0x00000004).ready .al (DpOp.mov.rnRead .r0 ++ operand2Reads (.imm 0 0))
      ∧ (returning 0x00000004).cpsr.mode.is26 = false ∧ (returning 0x00000004).cpsr.mode.spsr = some .irq
      ∧ ∀ m ∈ [Mode.usr, .fiq, .irq, .svc, .abt, .und, .sys, .usr26, .fiq26, .irq26, .svc26],
          m.bits ≠ ((returning 0x00000004).spsrs.get .irq).m) := by
  refine ⟨⟨by unfold State.ready; decide, .r15, .lsl, .r1, rfl, .inl rfl⟩, ?_, ?_⟩ <;> unfold State.ready <;> decide
theorem witness_DataProcessingStops_enter26 :
    ∀ s ∈ [{ returning 3 with pc := 0x04000000 }, put .r14irq 0x04000000 (returning 3)],
      let o : Operand2 := .shiftImm .r14 .lsl 0
      s.ready .al (DpOp.mov.rnRead .r0 ++ operand2Reads o) ∧ r15InRegisterShift (DpOp.mov.rnRead .r0) o = false
        ∧ s.cpsr.mode.is26 = false ∧ s.cpsr.mode.spsr = some .irq ∧ Mode.svc26.bits = (s.spsrs.get .irq).m
        ∧ Mode.svc26.is26 = true ∧ (2 ^ 26 ≤ s.pc.toNat ∨ 2 ^ 26 ≤ (s.dpValue .mov .r0 o).toNat) := by
  unfold State.ready; decide
theorem witness_DataProcessingStops_tests : ∀ s ∈ [start, low26],
    ∀ p ∈ [(Reg.r15, Reg.r1, Reg.r2), (.r0, .r15, .r2), (.r0, .r1, .r15)],
      s.ready .al (p.1 :: operand2Reads (.shiftReg p.2.1 .ror p.2.2))
        ∧ (∃ rm ty rs, Operand2.shiftReg p.2.1 .ror p.2.2 = .shiftReg rm ty rs
            ∧ (rm = .r15 ∨ rs = .r15 ∨ p.1 = .r15))
        ∧ start.cpsr.mode.is26 = false ∧ low26.cpsr.mode.is26 = true := by
  intro s hs p hp
  refine ⟨?_, ⟨p.2.1, .ror, p.2.2, rfl, ?_⟩, by decide, by decide⟩
  · revert s p; unfold State.ready; decide
  · revert p; decide
theorem witness_MrsResult :
    start.ready .al [] ∧ Reg.r14 ≠ .r15 ∧ start.canAdvance
      ∧ start.cpsr.mode.spsr = some .svc := by
  unfold State.ready State.canAdvance; decide
theorem witness_MsrCpsrResult :
    let s := put .r1 0x00000003 { start with pc := 0x03FFFFF8 }
    s.ready .al (msrReads (.reg .r1)) ∧ MsrSource.reg .r1 ≠ .reg .r15 ∧ s.cpsr.mode.privileged = true ∧ s.canAdvance
      ∧ (9#4).getLsbD 0 = true ∧ (s.msrValue (.reg .r1)).extractLsb' 0 5 = Mode.svc26.bits
      ∧ s.pc.toNat < 0x03FFFFFC ∧ (8#4).getLsbD 0 = false := by
  unfold State.ready State.canAdvance; decide
theorem witness_MsrUserResult :
    low26.ready .al (msrReads (.imm 2 0xF0)) ∧ MsrSource.imm 2 0xF0 ≠ .reg .r15 ∧ low26.cpsr.mode.privileged = false
      ∧ low26.canAdvance := by
  unfold State.ready State.canAdvance; decide
theorem witness_MsrSpsrResult :
    start.ready .al (msrReads (.reg .r14)) ∧ MsrSource.reg .r14 ≠ .reg .r15 ∧ start.cpsr.mode.spsr = some .svc
      ∧ start.canAdvance := by
  unfold State.ready State.canAdvance; decide
theorem witness_PsrTransferStops :
    start.ready .al [] ∧ start.ready .al [.r15]
    ∧ ((inMode .sys start).ready .al [] ∧ Reg.r0 ≠ .r15 ∧ (inMode .sys start).cpsr.mode.spsr = none)
    ∧ ((inMode .usr start).ready .al (msrReads (.reg .r0)) ∧ MsrSource.reg .r0 ≠ .reg .r15
      ∧ (inMode .usr start).cpsr.mode.spsr = none)
    ∧ (let s := put .r0 4 start
       s.ready .al (msrReads (.reg .r0)) ∧ s.cpsr.mode.privileged = true ∧ (1#4).getLsbD 0 = true
        ∧ ∀ m ∈ [Mode.usr, .fiq, .irq, .svc, .abt, .und, .sys, .usr26, .fiq26, .irq26, .svc26],
            m.bits ≠ (s.msrValue (.reg .r0)).extractLsb' 0 5)
    ∧ (let s := put .r0 3 { start with pc := 0x04000000 }
       s.ready .al (msrReads (.reg .r0)) ∧ s.cpsr.mode.privileged = true
        ∧ Mode.svc26.bits = (s.msrValue (.reg .r0)).extractLsb' 0 5 ∧ Mode.svc26.is26 = true
        ∧ 2 ^ 26 ≤ s.pc.toNat) := by
  unfold State.ready; decide
theorem witness_MultiplyResult :
    Reg.r1 ≠ .r15 ∧ Reg.r0 ≠ .r15 ∧ Reg.r3 ≠ .r15 ∧ Reg.r2 ≠ .r15 ∧ Reg.r1 ≠ .r2 ∧ start.canAdvance
      ∧ start.ready .al [.r2, .r3] ∧ start.ready .al [.r2, .r3, .r0] := by
  unfold State.ready State.canAdvance; decide
theorem witness_LongMultiplyResult :
    Reg.r1 ≠ .r15 ∧ Reg.r0 ≠ .r15 ∧ Reg.r3 ≠ .r15 ∧ Reg.r2 ≠ .r15 ∧ Reg.r1 ≠ .r0 ∧ Reg.r1 ≠ .r2 ∧ Reg.r0 ≠ .r2
      ∧ start.canAdvance ∧ start.ready .al [.r2, .r3] ∧ start.ready .al [.r2, .r3, .r1, .r0] := by
  unfold State.ready State.canAdvance; decide
theorem witness_MultiplyStops :
    start.ready .al [.r2, .r3] ∧ start.ready .al [.r2, .r3, .r15] ∧ start.ready .al [.r2, .r3, .r2, .r15]
      ∧ start.ready .al [.r2, .r3, .r0] ∧ start.ready .al [.r2, .r3, .r2, .r0] ∧ Reg.r2 ≠ .r15 ∧ Reg.r0 ≠ .r15
      ∧ Reg.r3 ≠ .r15 := by
  unfold State.ready; decide
theorem witness_StoresWriteBytes :
    Memory.wf start.mem = true ∧ (0xFFFFFFFE#32).toNat % 2 = 0 ∧ (0x00000000#32).toNat % 2 = 0 := by decide
/-- R1 at the last word, R2 = 1, in a mode that can go on. -/
def addressed : State := put .r1 0xFFFFFFFC (put .r2 1 start)
theorem witness_LdrResult :
    addressed.ready .al [.r1] ∧ Reg.r0 ≠ .r15 ∧ addressed.canAdvance
      ∧ transferAllowed true false .pre .r1 .r0 none ∧ transferAllowed true true .pre .r1 .r0 none
      ∧ addressed.abortsAt (addressed.access false .load .word false
          (transferAddress .pre true (addressed.reg .r1) (addressed.transferOffset (.imm 4)))) = false
      ∧ addressed.abortsAt (addressed.access false .load .byte false
          (transferAddress .pre true (addressed.reg .r1) (addressed.transferOffset (.imm 4)))) = false := by
  unfold State.ready State.canAdvance transferAllowed; decide
theorem witness_LdrPcResult :
    addressed.ready .al [.r1] ∧ transferAllowed true false .post .r1 .r15 none
      ∧ (transferAddress .post true (addressed.reg .r1) (addressed.transferOffset (.imm 4))).toNat % 4 = 0
      ∧ addressed.abortsAt (addressed.access false .load .word false
          (transferAddress .post true (addressed.reg .r1) (addressed.transferOffset (.imm 4)))) = false := by
  unfold State.ready transferAllowed; decide
theorem witness_UserLoadResult :
    addressed.ready .al [.r1, .r2] ∧ transferAllowed true false .post .r1 .r0 (some .r2) ∧ Reg.r0 ≠ .r15
      ∧ addressed.canAdvance ∧ transferAllowed true false .post .r1 .r15 (some .r2) ∧ (addressed.reg .r1).toNat % 4 = 0
      ∧ transferAllowed true true .post .r1 .r0 (some .r2)
      ∧ addressed.abortsAt { addressed.access true .load .word false (addressed.reg .r1) with privileged := false } = false
      ∧ addressed.abortsAt { addressed.access true .load .byte false (addressed.reg .r1) with privileged := false }
          = false := by
  unfold State.ready State.canAdvance transferAllowed; and_intros <;> decide
theorem witness_StrResult :
    addressed.ready .al [.r15, .r1] ∧ addressed.canAdvance ∧ Memory.wf addressed.mem = true
      ∧ transferAllowed false false .pre .r1 .r15 none
      ∧ (transferAddress .pre true (addressed.reg .r1) (addressed.transferOffset (.imm 4))).toNat % 4 = 0
      ∧ addressed.abortsAt (addressed.access false .store .word false
          (transferAddress .pre true (addressed.reg .r1) (addressed.transferOffset (.imm 4)))) = false
      ∧ addressed.ready .al [.r0, .r1] ∧ transferAllowed false true .pre .r1 .r0 none
      ∧ addressed.abortsAt (addressed.access false .store .byte false
          (transferAddress .pre true (addressed.reg .r1) (addressed.transferOffset (.imm 4)))) = false := by
  unfold State.ready State.canAdvance transferAllowed; decide
theorem witness_UserStoreResult :
    addressed.ready .al [.r15, .r1] ∧ addressed.canAdvance ∧ Memory.wf addressed.mem = true
      ∧ transferAllowed false false .post .r1 .r15 none ∧ (addressed.reg .r1).toNat % 4 = 0
      ∧ addressed.abortsAt { addressed.access true .store .word false (addressed.reg .r1) with privileged := false } = false
      ∧ addressed.ready .al [.r1, .r1] ∧ transferAllowed false true .post .r1 .r1 none
      ∧ addressed.abortsAt { addressed.access true .store .byte false (addressed.reg .r1) with privileged := false }
          = false := by
  unfold State.ready State.canAdvance transferAllowed; decide
theorem witness_HalfLoadResult : ∀ offset ∈ [(0#8), 1],
    addressed.ready .al [.r1] ∧ transferAllowed true true .offset .r1 .r1 none ∧ addressed.canAdvance
      ∧ addressed.abortsAt (addressed.access false .load .half false
          (transferAddress .offset true (addressed.reg .r1) (addressed.halfOffset (.imm offset)))) = false
      ∧ addressed.abortsAt (addressed.access false .load .byte false
          (transferAddress .offset true (addressed.reg .r1) (addressed.halfOffset (.imm offset)))) = false := by
  unfold State.ready State.canAdvance transferAllowed; decide
theorem witness_StrhResult :
    addressed.ready .al [.r0, .r1] ∧ transferAllowed false true .offset .r1 .r0 none
      ∧ (transferAddress .offset true (addressed.reg .r1) (addressed.halfOffset (.imm 2))).toNat % 2 = 0
      ∧ addressed.canAdvance ∧ Memory.wf addressed.mem = true
      ∧ addressed.abortsAt (addressed.access false .store .half false
          (transferAddress .offset true (addressed.reg .r1) (addressed.halfOffset (.imm 2)))) = false
      ∧ (transferAddress .offset true (addressed.reg .r1) (addressed.halfOffset (.imm 3))).toNat % 2 = 1 := by
  unfold State.ready State.canAdvance transferAllowed; decide
/-- R1 at an address whose accesses abort. -/
def aborting : State := abortAt 0x1000 0x1001 (put .r1 0x1000 start)
theorem witness_TransferAbort :
    aborting.ready .al [.r1] ∧ aborting.ready .al [.r0, .r1] ∧ aborting.ready .al [.r15, .r1]
      ∧ transferAllowed true false .post .r1 .r15 none ∧ transferAllowed true true .post .r1 .r0 none
      ∧ transferAllowed false false .post .r1 .r15 none ∧ transferAllowed false true .post .r1 .r0 none
      ∧ (transferAddress .post true (aborting.reg .r1) (aborting.transferOffset (.imm 4))).toNat % 4 = 0
      ∧ (transferAddress .post true (aborting.reg .r1) (aborting.halfOffset (.imm 4))).toNat % 2 = 0
      ∧ ∀ kind ∈ [AccessKind.load, .store], ∀ width ∈ [Width.byte, .half, .word], ∀ user ∈ [false, true],
          aborting.abortsAt (aborting.access user kind width false (aborting.reg .r1)) = true := by
  unfold State.ready transferAllowed; and_intros <;> decide
theorem witness_TransferStops :
    Cond.al ≠ .nv ∧ condPassed start.cpsr.flags .al = true ∧ ¬ transferAllowed true false .pre .r15 .r0 none
      ∧ ¬ transferAllowed true true .offset .r1 .r15 none ∧ ¬ transferAllowed false false .post .r1 .r0 (some .r1)
      ∧ ¬ transferAllowed false true .offset .r1 .r0 (some .r15) ∧ ¬ transferAllowed true false .post .r1 .r1 none
      ∧ ¬ transferAllowed true true .post .r1 .r1 none ∧ ¬ transferAllowed false true .post .r15 .r0 none
      ∧ (transferAddress .offset true (addressed.reg .r1) (addressed.transferOffset (.imm 3))).toNat % 4 ≠ 0
      ∧ ((put .r1 1 start).reg .r1).toNat % 4 ≠ 0 := by
  unfold transferAllowed; and_intros <;> decide
theorem witness_LdmResult :
    start.ready .al [.r0] ∧ (0x8002#16) ≠ 0 ∧ Reg.r0 ≠ .r15 ∧ .r0 ∉ listRegs 0x8002 ∧ .r15 ∉ listRegs 0x7FFF
      ∧ start.canAdvance ∧ start.noBlockAbort .load true true .r0 0x8002
      ∧ start.noBlockAbort .load false false .r0 0x7FFF := by
  unfold State.ready State.canAdvance State.noBlockAbort; decide
theorem witness_LdmReturnResult :
    let s := word 0 0x03FFFFFC (returning 0x00000003)
    s.ready .al [.r0] ∧ Reg.r0 ≠ .r15 ∧ .r0 ∉ listRegs 0x8000 ∧ .r15 ∈ listRegs 0x8000
      ∧ s.noBlockAbort .load false true .r0 0x8000 ∧ s.cpsr.mode.is26 = false ∧ s.cpsr.mode.spsr = some .irq
      ∧ (s.spsrs.get .irq).m = Mode.svc26.bits ∧ Mode.svc26.is26 = true ∧ s.pc.toNat < 2 ^ 26
      ∧ (s.loadWord (s.blockAddress false true .r0 0x8000 ((listRegs 0x8000).length - 1))).toNat < 2 ^ 26 := by
  unfold State.ready State.noBlockAbort; decide
theorem witness_Ldm26Result : ∀ s ∈ [low26, inMode .svc26 start],
    s.ready .al [.r0] ∧ Reg.r0 ≠ .r15 ∧ .r0 ∉ listRegs 0xFFFE ∧ .r15 ∈ listRegs 0xFFFE
      ∧ s.noBlockAbort .load true true .r0 0xFFFE ∧ s.cpsr.mode.is26 = true := by
  unfold State.ready State.noBlockAbort; decide
theorem witness_UserBankTransfer :
    (0x7FFF#16) ≠ 0 ∧ Reg.r0 ≠ .r15 ∧ start.cpsr.mode.spsr ≠ none ∧ start.canAdvance ∧ start.ready .al [.r0]
      ∧ .r15 ∉ listRegs 0x7FFF ∧ start.noBlockAbort .load true true .r0 0x7FFF
      ∧ start.ready .al (.r0 :: listRegs 0xFFFF) ∧ start.noBlockAbort .store true false .r0 0xFFFF
      ∧ Memory.wf start.mem = true := by
  unfold State.ready State.canAdvance State.noBlockAbort; decide
theorem witness_StmResult :
    start.ready .al (.r0 :: listRegs 0xFFFF) ∧ (0xFFFF#16) ≠ 0 ∧ Reg.r0 ≠ .r15 ∧ start.canAdvance
      ∧ start.noBlockAbort .store true false .r0 0xFFFF ∧ Memory.wf start.mem = true := by
  unfold State.ready State.canAdvance State.noBlockAbort; decide
theorem witness_BlockAbort :
    let s := abortAt 0x1008 0x1009 (put .r0 0x1000 start)
    Reg.r0 ≠ .r15 ∧ 2 < (listRegs 0x8006).length ∧ s.ready .al [.r0] ∧ .r0 ∉ listRegs 0x8006
      ∧ s.cpsr.mode.spsr ≠ none ∧ .r15 ∈ listRegs 0x8006
      ∧ s.abortsAt (s.access false .load .word false (s.blockAddress false true .r0 0x8006 2)) = true
      ∧ (∀ j, j < 2 → s.abortsAt (s.access false .load .word false (s.blockAddress false true .r0 0x8006 j)) = false)
      ∧ s.ready .al (.r0 :: listRegs 0x8006) ∧ Memory.wf s.mem = true
      ∧ s.abortsAt (s.access false .store .word false (s.blockAddress false true .r0 0x8006 2)) = true
      ∧ (∀ j, j < 2 → s.abortsAt (s.access false .store .word false (s.blockAddress false true .r0 0x8006 j)) = false)
      ∧ (let u := inMode .usr26 s
         u.cpsr.mode = .usr26 ∧ u.ready .al [.r0]
           ∧ u.abortsAt (u.access false .load .word false (u.blockAddress false true .r0 0x8006 2)) = true) := by
  unfold State.ready; decide
theorem witness_BlockStops :
    start.ready .al (.r0 :: listRegs 0) ∧ start.ready .al (.r15 :: listRegs 1) ∧ (1#16) ≠ 0 ∧ Reg.r0 ≠ .r15
      ∧ ((inMode .usr start).ready .al (.r0 :: listRegs 1) ∧ (inMode .usr start).cpsr.mode = .usr)
      ∧ ((inMode .sys start).ready .al (.r0 :: listRegs 1) ∧ (inMode .sys start).cpsr.mode = .sys)
      ∧ (low26.ready .al (.r0 :: listRegs 1) ∧ low26.cpsr.mode = .usr26 ∧ .r15 ∉ listRegs 1)
      ∧ (start.ready .al (.r0 :: listRegs 1) ∧ start.cpsr.mode.spsr ≠ none ∧ .r0 ∈ listRegs 1)
      ∧ (start.ready .al (.r0 :: listRegs 0x8001) ∧ low26.ready .al (.r0 :: listRegs 0x8001) ∧ .r0 ∈ listRegs 0x8001
        ∧ .r15 ∈ listRegs 0x8001) := by
  unfold State.ready; decide
theorem witness_BlockStops_return :
    let mode4 := returning 0x00000004
    ((mode4.ready .al (.r0 :: listRegs 0x8000) ∧ .r0 ∉ listRegs 0x8000 ∧ .r15 ∈ listRegs 0x8000
      ∧ mode4.noBlockAbort .load false true .r0 0x8000 ∧ mode4.cpsr.mode.is26 = false
      ∧ mode4.cpsr.mode.spsr = some .irq)
      ∧ ∀ m ∈ [Mode.usr, .fiq, .irq, .svc, .abt, .und, .sys, .usr26, .fiq26, .irq26, .svc26],
          m.bits ≠ (mode4.spsrs.get .irq).m)
    ∧ ∀ s ∈ [{ returning 3 with pc := 0x04000000 }, word 0 0x04000000 (returning 3)],
        s.ready .al (.r0 :: listRegs 0x8000) ∧ s.noBlockAbort .load false true .r0 0x8000 ∧ s.cpsr.mode.is26 = false
          ∧ s.cpsr.mode.spsr = some .irq ∧ Mode.svc26.bits = (s.spsrs.get .irq).m ∧ Mode.svc26.is26 = true
          ∧ (2 ^ 26 ≤ s.pc.toNat
            ∨ 2 ^ 26 ≤ (s.loadWord (s.blockAddress false true .r0 0x8000 ((listRegs 0x8000).length - 1))).toNat) := by
  unfold State.ready State.noBlockAbort; decide
theorem witness_SwapResult :
    addressed.ready .al [.r1, .r2] ∧ Reg.r1 ≠ .r15 ∧ Reg.r2 ≠ .r15 ∧ addressed.canAdvance
      ∧ Memory.wf addressed.mem = true
      ∧ ∀ kind ∈ [AccessKind.load, .store], ∀ width ∈ [Width.byte, .word],
          addressed.abortsAt (addressed.access false kind width true (addressed.reg .r1)) = false := by
  unfold State.ready State.canAdvance; decide
theorem witness_SwapAbortsAndStops :
    let s := abortAt 0x1000 0x1004 (put .r1 0x1003 start)
    s.ready .al [.r1, .r2] ∧ Reg.r1 ≠ .r15 ∧ Reg.r0 ≠ .r15 ∧ Reg.r2 ≠ .r15
      ∧ (∀ kind ∈ [AccessKind.load, .store], ∀ width ∈ [Width.byte, .word],
          s.abortsAt (s.access false kind width true (s.reg .r1)) = true)
      ∧ start.ready .al [.r15, .r2] ∧ start.ready .al [.r1, .r15] := by
  unfold State.ready; decide
theorem witness_SoftwareInterrupt : start.ready .al [] ∧ low26.ready .al [] := by unfold State.ready; decide
theorem witness_CoprocessorTrap : start.ready .al [] ∧ (inMode .usr start).ready .al [] := by
  unfold State.ready; decide
theorem witness_MrcAccepted :
    let s := holding 7 start
    let bits := (encode (.mrc .al 5 5 .r3 2 0 6)).extractLsb' 0 26
    s.ready .al [] ∧ s.canAdvance ∧ (s.coprocAnswer bits).busy = some 0 ∧ (s.coprocAnswer bits).accept = true
      ∧ (s.coprocAnswer bits).effects = [] := by
  unfold State.ready State.canAdvance; decide
theorem witness_McrAccepted :
    let s := holding 7 start
    (∀ rd ∈ [Reg.r4, .r15], s.ready .al [rd]
        ∧ let a := s.coprocAnswer ((encode (.mcr .al 0 5 rd 2 0 6)).extractLsb' 0 26)
          a.busy = some 0 ∧ a.accept = true ∧ a.effects = [{ reg := 0, value := none }])
      ∧ 0 < s.coproc.regs.length ∧ Reg.r4 ≠ .r15 ∧ s.canAdvance := by
  unfold State.ready State.canAdvance; decide
theorem witness_McrAccepted_no_effects :
    let s := answer (some 0) true 0 start
    let a := s.coprocAnswer ((encode (.mcr .al 0 6 .r4 6 0 7)).extractLsb' 0 26)
    s.ready .al [.r4] ∧ s.canAdvance ∧ a.busy = some 0 ∧ a.accept = true ∧ a.effects = [] := by
  unfold State.ready State.canAdvance; decide
/-- MRC p2 and MCR p2: absent, spoken of by no rule, by the second rule, bounced, busy, busy without end, in busy-wait. -/
theorem witness_CoprocessorBounceAndWait :
    ∀ i ∈ [Instr.mrc .al 5 5 .r3 2 0 6, .mcr .al 5 5 .r3 2 0 6],
      let bits := (encode i).extractLsb' 0 26
      start.ready .al [] ∧ start.ready .al [.r3] ∧ start.busyWait = false ∧ 2#4 ∉ start.coproc.present
      ∧ (∀ r ∈ (holding 7 (inMode .usr start)).coproc.rules,
          r.applies (holding 7 (inMode .usr start)).coproc bits false = false)
      ∧ ((answer (some 0) false 7 start).coprocAnswer bits).busy = some 0
      ∧ ((answer (some 0) false 7 start).coprocAnswer bits).accept = false
      ∧ ((answer (some 1) true 7 start).coprocAnswer bits).busy = some 1
      ∧ ((answer none true 7 start).coprocAnswer bits).busy = none
      ∧ (let s := { start with busyWait := true, pending := answered none true 7 }
         s.ready .al [] ∧ s.ready .al [.r3] ∧ (s.coprocAnswer bits).busy = none) := by
  unfold State.ready; decide
theorem witness_CoprocessorBounceAndWait_rules :
    let s := holding 7 start
    let bits := (encode (.mrc .al 5 5 .r3 2 0 6)).extractLsb' 0 26
    s.busyWait = false ∧ s.coproc.rules = [takesWord] ++ givesWord :: [] ∧ 2#4 ∈ s.coproc.present
      ∧ takesWord.applies s.coproc bits s.cpsr.mode.privileged = false
      ∧ givesWord.applies s.coproc bits s.cpsr.mode.privileged = true := by decide
theorem witness_UndefinedAndReserved :
    start.ready .al [] ∧ start.cfg.undefClassesBtoE = true
      ∧ (let s := { start with cfg := { start.cfg with undefClassesBtoE := false } }
         s.ready .al [] ∧ s.cfg.undefClassesBtoE = false) := by
  unfold State.ready; decide
theorem witness_ExceptionRoundTrip :
    (0x03FFFFFC#32) &&& low26.cpsr.mode.pcMask = 0x03FFFFFC ∧ (0xFFFFFFFC#32) &&& start.cpsr.mode.pcMask = 0xFFFFFFFC := by
  decide
theorem witness_UserModeConfined :
    (low26.cpsr.mode.privileged = false ∧ low26.levels.reset = false ∧ goesOn (step low26))
    ∧ (let s := { asserted false true false with cpsr := { start.cpsr with f := false, mode := .usr } }
       s.cpsr.mode.privileged = false ∧ s.levels.reset = false ∧ goesOn (step s)) :=
  ⟨⟨by decide, by decide, ⟨_, rfl⟩⟩, by decide, by decide, ⟨_, rfl⟩⟩

theorem witness_NothingRunsPastTheTop :
    let top32 := { start with pc := 0xFFFFFFFC }
    let top26 := { low26 with pc := 0x03FFFFFC }
    ∀ s ∈ [top32, top26], ¬ s.canAdvance ∧ goesOn (exec (.b .al 0) s)
      ∧ (Instr.cond (.mov .eq false .r0 .r0 (.imm 0 0)) ≠ .nv
        ∧ condPassed s.cpsr.flags (Instr.cond (.mov .eq false .r0 .r0 (.imm 0 0))) = false)
      ∧ s.ready .al (DpOp.add.rnRead .r1 ++ operand2Reads (.imm 0 0))
      ∧ r15InRegisterShift (DpOp.add.rnRead .r1) (.imm 0 0) = false ∧ Reg.r0 ≠ .r15
      ∧ s.ready .al (.r1 :: operand2Reads (.imm 0 0)) ∧ r15InRegisterShift [.r1] (.imm 0 0) = false := by
  intro top32 top26 s hs
  refine ⟨?_, ?_, ?_⟩
  · revert s; unfold State.canAdvance; decide
  · rcases List.mem_cons.mp hs with rfl | h
    · exact ⟨_, rfl⟩
    · rcases List.mem_cons.mp h with rfl | h
      · exact ⟨_, rfl⟩
      · cases h
  · revert s; unfold State.ready; decide

end Sys2Proof.Tests
end

section
/-! PROOFS. The stops of MRS, MSR, LDM and STM (O27, O49): each reads its stop off the meaning once the condition has
passed. -/

namespace Sys2Proof.Machine

/-! ## Modes and mode numbers -/

/-- A value that is the mode bits of no mode names none (R27). -/
theorem Mode.ofBits_eq_none {v : BitVec 5} (h : ∀ m : Mode, m.bits ≠ v) : Mode.ofBits v = none :=
  Option.eq_none_iff_forall_ne_some.2 fun m hm => h m (Mode.bits_of_ofBits hm)

/-- The mode bits of a mode name it (R22). -/
theorem Mode.ofBits_eq_some {v : BitVec 5} {m : Mode} (h : m.bits = v) : Mode.ofBits v = some m := by
  rw [← h, Mode.ofBits_bits]

/-- Only the two unprivileged modes and System mode lack an SPSR (R38). -/
theorem Mode.spsr_ne_none {m : Mode} (h : m.spsr ≠ none) : m ≠ .usr ∧ m ≠ .sys ∧ m ≠ .usr26 := by
  refine ⟨?_, ?_, ?_⟩ <;> rintro rfl <;> exact h rfl

/-- An address of 2^26 or above has a bit set in bits 31 to 26. -/
theorem top_bits_ne_zero {a : Word} (h : 2 ^ 26 ≤ a.toNat) : a.extractLsb' 26 6 ≠ 0#6 :=
  fun hz => absurd (top_bits_eq_zero.1 hz) (Nat.not_lt.2 h)

/-- An instruction that may read some registers may read fewer. -/
theorem State.ready_of_subset {s : State} {c : Cond} {reads fewer : List Reg} (h : s.ready c reads)
    (hs : fewer ⊆ reads) : s.ready c fewer := by
  obtain ⟨hc, hp, hz⟩ := h
  refine ⟨hc, hp, ?_⟩
  simp only [State.hazard, Bool.and_eq_false_iff, List.any_eq_false] at hz ⊢
  exact hz.imp_right fun hz r hr => hz r (hs hr)

/-! ## MRS and MSR -/

/-- Only R15 as a register operand makes MSR read R15 alone (R224). -/
theorem msrReads_eq_r15 {src : MsrSource} : msrReads src = [.r15] ↔ src = .reg .r15 := by
  cases src <;> simp [msrReads]

/-- MRS, its condition passed and Rd not R15, of an SPSR that the mode does not have (R38). -/
theorem execMrs_noSpsr {s : State} {c : Cond} {rd : Reg} (hr : s.ready c []) (hd : rd ≠ .r15)
    (hn : s.cpsr.mode.spsr = none) : execMrs c true rd s = .fault .noSpsr := by
  rw [execMrs, condExec_ready hr, if_neg hd]
  simp [State.namedPsr, hn]

/-- MSR to an SPSR that the mode does not have (R38). -/
theorem execMsr_noSpsr {s : State} {c : Cond} {mask : BitVec 4} {src : MsrSource} (hr : s.ready c (msrReads src))
    (hd : src ≠ .reg .r15) (hn : s.cpsr.mode.spsr = none) : execMsr c true mask src s = .fault .noSpsr := by
  rw [execMsr, condExec_ready hr, if_neg (mt msrReads_eq_r15.1 hd)]
  simp [hn]

/-- MSR to the control field of the CPSR in a privileged mode is `msrControl` (R224). -/
theorem execMsr_control {s : State} {c : Cond} {mask : BitVec 4} {src : MsrSource} (hr : s.ready c (msrReads src))
    (hd : src ≠ .reg .r15) (hp : s.cpsr.mode.privileged = true) (hm : mask.getLsbD 0 = true) :
    execMsr c false mask src s
      = s.msrControl (if mask.getLsbD 3 then Flags.ofWord (s.msrValue src) else s.cpsr.flags) (s.msrValue src) := by
  rw [execMsr, condExec_ready hr, if_neg (mt msrReads_eq_r15.1 hd)]
  simp [hp, hm]

/-- A mode number outside the eleven is not written (R27). -/
theorem State.msrControl_invalidMode {s : State} {g : Flags} {v : Word} (h : ∀ m : Mode, m.bits ≠ v.extractLsb' 0 5) :
    s.msrControl g v = .fault .invalidMode := by
  rw [State.msrControl, Mode.ofBits_eq_none h]

/-- A 26-bit mode is not entered by MSR at an address of 2^26 or above (R406). -/
theorem State.msrControl_enter26Outside {s : State} {g : Flags} {v : Word} {m : Mode}
    (hb : m.bits = v.extractLsb' 0 5) (h26 : m.is26 = true) (hpc : 2 ^ 26 ≤ s.pc.toNat) :
    s.msrControl g v = .fault .enter26Outside := by
  have hlow : s.pc ≠ 0x03FFFFFC#32 := by
    intro e
    rw [e] at hpc
    exact absurd hpc (by decide)
  rw [State.msrControl, Mode.ofBits_eq_some hb]
  simp [hlow, h26, top_bits_ne_zero hpc]

/-- Settles O27: each stop is the first test that its operands fail in the meaning of MRS or MSR. -/
theorem psrTransferStops : Obligations.PsrTransferStops := by
  intro s c spsr rd mask src
  refine ⟨fun hr => ?_, fun hr => ?_, fun hr hd hn => execMrs_noSpsr hr hd hn,
    fun hr hd hn => execMsr_noSpsr hr hd hn, fun hr hd hp hm => ⟨fun hb => ?_, fun m hb h26 hpc => ?_⟩⟩
  · exact (condExec_ready hr _).trans (if_pos rfl)
  · exact (condExec_ready hr _).trans (if_pos rfl)
  · exact (execMsr_control hr hd hp hm).trans (State.msrControl_invalidMode hb)
  · exact (execMsr_control hr hd hp hm).trans (State.msrControl_enter26Outside hb h26 hpc)

/-! ## LDM and STM -/

/-- LDM stops on a forbidden form. -/
theorem execLdm_stop {s : State} {c : Cond} {p up psr w : Bool} {rn : Reg} {list : BitVec 16} {x : Fault}
    (hr : s.ready c [rn]) (hx : blockStop true psr w rn list s.cpsr.mode = some x) :
    exec (.ldm c p up psr w rn list) s = .fault x := by
  rw [exec, execLdm, condExec_ready hr, hx]

/-- STM stops on a forbidden form. -/
theorem execStm_stop {s : State} {c : Cond} {p up psr w : Bool} {rn : Reg} {list : BitVec 16} {x : Fault}
    (hr : s.ready c (rn :: listRegs list)) (hx : blockStop false psr w rn list s.cpsr.mode = some x) :
    exec (.stm c p up psr w rn list) s = .fault x := by
  rw [exec, execStm, condExec_ready hr, hx]

/-- A list that names a register is not empty. -/
theorem list_ne_zero {list : BitVec 16} {r : Reg} (h : r ∈ listRegs list) : list ≠ 0 := by
  rintro rfl
  simp [mem_listRegs] at h

/-- STM with S = 1 transfers the User bank (R321). -/
@[simp] theorem userBank_store (list : BitVec 16) : userBank false true list = true := rfl

/-- With S = 0 the User bank is not transferred (R321). -/
@[simp] theorem userBank_psr_false (load : Bool) (list : BitVec 16) : userBank load false list = false := rfl

/-- LDM with S = 1 transfers the User bank unless R15 is in the list (R321). -/
theorem userBank_load (list : BitVec 16) : userBank true true list = !inList list .r15 := rfl

theorem userBank_load_of_not_mem {list : BitVec 16} (h : .r15 ∉ listRegs list) : userBank true true list = true := by
  rw [userBank_load, Bool.not_eq_true', ← Bool.not_eq_true, inList_iff]
  exact h

theorem userBank_load_of_mem {list : BitVec 16} (h : .r15 ∈ listRegs list) : userBank true true list = false := by
  rw [userBank_load, (inList_iff list .r15).2 h]
  rfl

section
variable {load psr w : Bool} {rn : Reg} {list : BitVec 16} {m : Mode}

theorem blockStop_emptyList : blockStop load psr w rn 0 m = some .emptyList := rfl

theorem blockStop_baseR15 (hl : list ≠ 0) : blockStop load psr w .r15 list m = some .blockBaseR15 := by
  rw [blockStop, if_neg hl, if_pos rfl]

theorem blockStop_userMode (hl : list ≠ 0) (hn : rn ≠ .r15)
    (hm : m = .usr ∨ m = .sys ∨ m = .usr26 ∧ userBank load true list = true) :
    blockStop load true w rn list m = some .blockUserMode := by
  rw [blockStop, if_neg hl, if_neg hn, if_pos]
  obtain rfl | rfl | ⟨rfl, hu⟩ := hm
  · rfl
  · rfl
  · simp [hu]

theorem blockStop_userBankWriteback (hl : list ≠ 0) (hn : rn ≠ .r15) (hm : m.spsr ≠ none)
    (hu : userBank load true list = true) : blockStop load true true rn list m = some .userBankWriteback := by
  obtain ⟨h1, h2, h3⟩ := Mode.spsr_ne_none hm
  rw [blockStop, if_neg hl, if_neg hn]
  simp [hu, h1, h2, h3]

/-- The mode is no obstacle to a transfer that is not of the User bank. -/
theorem blockStop_mode_ok (hu : userBank load psr list = false)
    (hm : psr = false ∨ m.spsr ≠ none ∨ m = .usr26) :
    (psr && (m == .usr || m == .sys || (m == .usr26 && userBank load psr list))) = false := by
  obtain rfl | hm | rfl := hm
  · rfl
  · obtain ⟨h1, h2, -⟩ := Mode.spsr_ne_none hm
    simp [hu, h1, h2]
  · simp [hu]

theorem blockStop_writebackBase (hn : rn ≠ .r15) (hb : rn ∈ listRegs list) (hu : userBank true psr list = false)
    (hm : psr = false ∨ m.spsr ≠ none ∨ m = .usr26) :
    blockStop true psr true rn list m = some .ldmWritebackBase := by
  have hi := (inList_iff list rn).2 hb
  rw [blockStop, if_neg (list_ne_zero hb), if_neg hn, blockStop_mode_ok hu hm]
  simp [hu, hi]

/-- The forms of LDM that are not of the User bank and are allowed. -/
theorem blockStop_none (hl : list ≠ 0) (hn : rn ≠ .r15) (hb : w = true → rn ∉ listRegs list)
    (hu : userBank true psr list = false) (hm : psr = false ∨ m.spsr ≠ none ∨ m = .usr26) :
    blockStop true psr w rn list m = none := by
  have hi : w = true → inList list rn = false := fun hw => by
    rw [← Bool.not_eq_true, inList_iff]
    exact hb hw
  rw [blockStop, if_neg hl, if_neg hn, blockStop_mode_ok hu hm]
  cases w <;> simp [hu, hi]

end

/-- The state in which an LDM has loaded its whole list: the accesses made, the base written back, the registers
loaded. -/
def State.ldmLoaded (s : State) (p up psr w : Bool) (rn : Reg) (list : BitVec 16) : State :=
  let ts := s.blockTransfers p up rn list
  let t := s.loadRequests 0 ts
  (if w then t.setReg rn (blockFinal up (s.reg rn) ts.length) else t).loadRegs (blockBank true psr list s.cpsr.mode) ts

/-- Loading a list changes registers and outputs alone. -/
theorem State.ldmLoaded_plain (s : State) (p up psr w : Bool) (rn : Reg) (list : BitVec 16) :
    Plain s (s.ldmLoaded p up psr w rn list) ∧ (s.ldmLoaded p up psr w rn list).mem = s.mem := by
  obtain ⟨hp, -, hm, -⟩ := s.loadRequests_plain 0 (s.blockTransfers p up rn list)
  unfold State.ldmLoaded
  dsimp only
  split
  · obtain ⟨hq, hm', -⟩ := State.loadRegs_plain
      ((s.loadRequests 0 (s.blockTransfers p up rn list)).setReg rn
        (blockFinal up (s.reg rn) (s.blockTransfers p up rn list).length))
      (blockBank true psr list s.cpsr.mode) (s.blockTransfers p up rn list)
    exact ⟨(hp.setReg _ _).trans hq, by rw [hm', State.setReg_mem, hm]⟩
  · obtain ⟨hq, hm', -⟩ := State.loadRegs_plain (s.loadRequests 0 (s.blockTransfers p up rn list))
      (blockBank true psr list s.cpsr.mode) (s.blockTransfers p up rn list)
    exact ⟨hp.trans hq, hm'.trans hm⟩

/-- An allowed LDM none of whose accesses aborts loads its list and ends. -/
theorem execLdm_loaded {s : State} {c : Cond} {p up psr w : Bool} {rn : Reg} {list : BitVec 16} (hr : s.ready c [rn])
    (hx : blockStop true psr w rn list s.cpsr.mode = none) (ha : s.noBlockAbort .load p up rn list) :
    execLdm c p up psr w rn list s
      = (s.ldmLoaded p up psr w rn list).finishLoad psr list (s.blockTransfers p up rn list) := by
  rw [execLdm, condExec_ready hr, hx]
  simp only [State.blockDone_all ha, lt_irrefl, if_false]
  rfl

/-- An LDM with S = 1 and R15, in a 32-bit mode with an SPSR, whose accesses do not abort, ends as a return from an
exception to the word loaded last (R320). -/
theorem execLdm_return {s : State} {c : Cond} {p up w : Bool} {rn : Reg} {list : BitVec 16} (hr : s.ready c [rn])
    (hn : rn ≠ .r15) (hb : w = true → rn ∉ listRegs list) (h15 : .r15 ∈ listRegs list)
    (ha : s.noBlockAbort .load p up rn list) (h32 : s.cpsr.mode.is26 = false) (hs : s.cpsr.mode.spsr ≠ none) :
    execLdm c p up true w rn list s = (s.ldmLoaded p up true w rn list).exceptionReturn
      (s.loadWord (s.blockAddress p up rn list ((listRegs list).length - 1))) := by
  have hl := list_ne_zero h15
  have hx : blockStop true true w rn list s.cpsr.mode = none :=
    blockStop_none hl hn hb (userBank_load_of_mem h15) (.inr (.inl hs))
  obtain ⟨hp, hm⟩ := s.ldmLoaded_plain p up true w rn list
  rw [execLdm_loaded hr hx ha, State.finishLoad_eq s _ true p up rn hl, if_pos h15, if_pos rfl,
    State.writePcAndPsr, hp.cpsr, h32, State.loadWord_congr hm hp.cfg]
  rfl

/-- A return to a mode that does not exist stops (R27). -/
theorem State.exceptionReturn_invalidMode {s : State} {n : SpsrName} {v : Word} (hn : s.cpsr.mode.spsr = some n)
    (hm : ∀ m : Mode, m.bits ≠ (s.spsrs.get n).m) : s.exceptionReturn v = .fault .invalidMode := by
  simp [State.exceptionReturn, hn, Mode.ofBits_eq_none hm]

/-- A return into a 26-bit mode from or to an address of 2^26 or above stops (R406; log entry 13). -/
theorem State.exceptionReturn_enter26Outside {s : State} {n : SpsrName} {m : Mode} {v : Word}
    (hn : s.cpsr.mode.spsr = some n) (hm : m.bits = (s.spsrs.get n).m) (h26 : m.is26 = true)
    (hv : 2 ^ 26 ≤ s.pc.toNat ∨ 2 ^ 26 ≤ v.toNat) : s.exceptionReturn v = .fault .enter26Outside := by
  have hx : (m.is26 && (s.pc.extractLsb' 26 6 != 0#6 || v.extractLsb' 26 6 != 0#6)) = true := by
    simpa [h26] using hv.imp top_bits_ne_zero top_bits_ne_zero
  simp only [State.exceptionReturn, hn, Mode.ofBits_eq_some hm, hx, if_true]

/-- Settles O49: each form stops on the branch of `blockStop` that names it, and a return by LDM on the two stops of
`State.exceptionReturn`. -/
theorem blockStops : Obligations.BlockStops := by
  intro s c p up psr w rn list hr
  have hb : s.ready c [rn] := State.ready_of_subset hr (by simp)
  refine ⟨?_, ?_, ?_, ?_, ?_, ?_, ?_⟩
  · rintro rfl
    exact ⟨execLdm_stop hb blockStop_emptyList, execStm_stop hr blockStop_emptyList⟩
  · rintro hl rfl
    exact ⟨execLdm_stop hb (blockStop_baseR15 hl), execStm_stop hr (blockStop_baseR15 hl)⟩
  · intro hl hn hm
    have hm' {load} : s.cpsr.mode = .usr ∨ s.cpsr.mode = .sys
        ∨ s.cpsr.mode = .usr26 ∧ userBank load true list = true := hm.imp_right .inl
    exact ⟨execLdm_stop hb (blockStop_userMode hl hn hm'), execStm_stop hr (blockStop_userMode hl hn hm')⟩
  · intro hl hn hm
    exact ⟨execStm_stop hr (blockStop_userMode hl hn (.inr (.inr ⟨hm, userBank_store list⟩))), fun h15 =>
      execLdm_stop hb (blockStop_userMode hl hn (.inr (.inr ⟨hm, userBank_load_of_not_mem h15⟩)))⟩
  · intro hl hn hm
    exact ⟨execStm_stop hr (blockStop_userBankWriteback hl hn hm (userBank_store list)), fun h15 =>
      execLdm_stop hb (blockStop_userBankWriteback hl hn hm (userBank_load_of_not_mem h15))⟩
  · intro _ hn hi
    exact ⟨execLdm_stop hb (blockStop_writebackBase hn hi (userBank_psr_false true list) (.inl rfl)), fun h15 hm =>
      execLdm_stop hb (blockStop_writebackBase hn hi (userBank_load_of_mem h15) (.inr hm))⟩
  · intro n hn hi h15 ha h32 hs
    have hret := execLdm_return hb hn hi h15 ha h32 (by simp [hs])
    obtain ⟨hp, -⟩ := s.ldmLoaded_plain p up true w rn list
    rw [← hp.cpsr] at hs
    rw [← hp.spsrs, ← hp.pc]
    exact ⟨fun hm => hret.trans (State.exceptionReturn_invalidMode hs hm),
      fun m hm h26 hv => hret.trans (State.exceptionReturn_enter26Outside hs hm h26 hv)⟩

end Sys2Proof.Machine
end

section
/-! PROOFS. How an instruction that goes on ends, said once for all 61 (`exec_end`) and carried to a step (`step_end`);
from it that User mode is confined (O59) and that nothing runs past the top of the address space (O60). -/

namespace Sys2Proof.Machine

/-! ## What User mode must not change -/

/-- From User mode or usr26, `u` has I, F, the mode, every SPSR and every register that User mode does not see as in
`s` (spec/10_state.md R39). Of a privileged `s` it says nothing. -/
def State.confines (s u : State) : Prop :=
  s.cpsr.mode.privileged = false →
    s.keepsControl u ∧ u.spsrs = s.spsrs ∧ ∀ q, (∀ r, Bank.usr.view r ≠ some q) → u.regs.get q = s.regs.get q

/-- User mode and usr26 see the User bank (R22). -/
theorem Mode.bank_of_not_privileged {m : Mode} (h : m.privileged = false) : m.bank = .usr := by
  revert h
  cases m <;> decide

/-- A mode with an SPSR is privileged (R22, R38). -/
theorem Mode.privileged_of_spsr {m : Mode} {n : SpsrName} (h : m.spsr = some n) : m.privileged = true := by
  revert h
  cases m <;> simp [Mode.spsr, Mode.privileged]

theorem State.confines_of_privileged {s u : State} (h : s.cpsr.mode.privileged = true) : s.confines u :=
  fun hp => absurd (h.symm.trans hp) (by decide)

theorem State.confines_of_eq {s u : State} (hc : u.cpsr = s.cpsr) (hs : u.spsrs = s.spsrs) (hr : u.regs = s.regs) :
    s.confines u :=
  fun _ => ⟨by simp [State.keepsControl, hc], hs, fun q _ => by rw [hr]⟩

theorem State.confines.trans {s u v : State} (h : s.confines u) (k : u.confines v) : s.confines v := by
  intro hp
  obtain ⟨⟨hi, hf, hm⟩, hs, hr⟩ := h hp
  obtain ⟨⟨hi', hf', hm'⟩, hs', hr'⟩ := k (by rw [hm]; exact hp)
  exact ⟨⟨hi'.trans hi, hf'.trans hf, hm'.trans hm⟩, hs'.trans hs, fun q hq => (hr' q hq).trans (hr q hq)⟩

theorem State.confines_advance {s t : State} (h : s.advance = .next t) : s.confines t := by
  obtain ⟨-, rfl⟩ := State.advance_next h
  exact State.confines_of_eq rfl rfl rfl

theorem State.confines_jumpTo (s : State) (v : Word) : s.confines (s.jumpTo v) := State.confines_of_eq rfl rfl rfl

theorem State.confines_setFlags (s : State) (g : Flags) : s.confines (s.setFlags g) :=
  fun _ => ⟨⟨rfl, rfl, rfl⟩, rfl, fun _ _ => rfl⟩

/-- A register that User mode writes is one that it sees. -/
theorem State.confines_setReg (s : State) (r : Reg) (v : Word) : s.confines (s.setReg r v) := by
  intro hp
  refine ⟨by simp [State.keepsControl], by simp, fun q hq => ?_⟩
  rw [State.get_setReg, Mode.bank_of_not_privileged hp, if_neg (hq r)]

/-- Of a combined PC/PSR word usr26 writes the flags alone (R397). -/
theorem State.confines_writePsr26 (s : State) (v : Word) : s.confines (s.writePsr26 v) := by
  intro hp
  have e : s.writePsr26 v = s.setFlags (Flags.ofWord v) := by simp [State.writePsr26, hp]
  rw [e]
  exact s.confines_setFlags _ hp

/-- A mode without an SPSR does not return from an exception. -/
theorem State.confines_writePcAndPsr {s t : State} {v : Word} (h : s.writePcAndPsr v = .next t) : s.confines t := by
  obtain ⟨-, rfl⟩ | ⟨-, h⟩ := State.writePcAndPsr_next h
  · exact (s.confines_writePsr26 v).trans (State.confines_jumpTo _ v)
  · obtain ⟨n, -, hn, -⟩ := State.exceptionReturn_next h
    exact State.confines_of_privileged (Mode.privileged_of_spsr hn)

/-! ## The work of an instruction before its end -/

/-- `u` is at the instruction of `s`, in a mode of the same width, and has changed nothing that User mode must not
change. -/
structure Working (s u : State) : Prop where
  pc : u.pc = s.pc
  width : u.cpsr.mode.is26 = s.cpsr.mode.is26
  confined : s.confines u

namespace Working

variable {s u v : State}

theorem of_eq (hp : u.pc = s.pc) (hc : u.cpsr = s.cpsr) (hs : u.spsrs = s.spsrs) (hr : u.regs = s.regs) :
    Working s u :=
  ⟨hp, by rw [hc], State.confines_of_eq hc hs hr⟩

theorem refl (s : State) : Working s s := of_eq rfl rfl rfl rfl

theorem trans (h : Working s u) (k : Working u v) : Working s v :=
  ⟨k.pc.trans h.pc, k.width.trans h.width, h.confined.trans k.confined⟩

theorem setReg (h : Working s u) (r : Reg) (x : Word) : Working s (u.setReg r x) :=
  h.trans ⟨by simp, by simp, u.confines_setReg r x⟩

theorem emit (h : Working s u) (o : Output) : Working s (u.emit o) := h.trans (of_eq rfl rfl rfl rfl)

theorem drawn (h : Working s u) : Working s u.drawn := h.trans (of_eq rfl rfl rfl rfl)

theorem request (h : Working s u) (ty : RequestType) (a : Access) (x : Word) : Working s (u.request ty a x) := h.emit _

theorem storeAborted (h : Working s u) (k : Nat) (ty : RequestType) (a : Access) (x : Word) :
    Working s (u.storeAborted k ty a x) := h.emit _

theorem storeRequest (h : Working s u) (k : Nat) (ty : RequestType) (a : Access) (x : Word) :
    Working s (u.storeRequest k ty a x) := h.trans (of_eq rfl rfl rfl rfl)

theorem storeBytes (h : Working s u) (a : Nat) (l : List Byte) : Working s (u.storeBytes a l) :=
  h.trans (of_eq rfl rfl rfl rfl)

theorem setFlags (h : Working s u) (g : Flags) : Working s (u.setFlags g) :=
  h.trans ⟨rfl, rfl, u.confines_setFlags g⟩

theorem writePsr26 (h : Working s u) (h26 : u.cpsr.mode.is26 = true) (x : Word) : Working s (u.writePsr26 x) :=
  h.trans ⟨by simp, by rw [State.writePsr26_is26 h26, h26], u.confines_writePsr26 x⟩

theorem of_plain (h : Plain s u) (hr : s.cpsr.mode.privileged = false →
    ∀ q, (∀ r, Bank.usr.view r ≠ some q) → u.regs.get q = s.regs.get q) : Working s u :=
  ⟨h.pc, by rw [h.cpsr], fun hp => ⟨h.keepsControl, h.spsrs, hr hp⟩⟩

theorem canAdvance_iff (h : Working s u) : u.canAdvance ↔ s.canAdvance := State.canAdvance_congr h.pc h.width

end Working

/-! ## How an instruction ends -/

/-- How an instruction that starts in `s` and goes on in `t` has ended; `writesPc` says that it is one that writes the
program counter. -/
inductive StepEnd (writesPc : Bool) (s t : State) : Prop
  /-- It goes on in sequence. -/
  | sequel (top : s.canAdvance) (confined : s.confines t)
  /-- It has written the program counter. -/
  | jump (writes : writesPc = true) (confined : s.confines t)
  /-- It busy-waits. -/
  | wait (busy : t.busyWait = true) (pc : t.pc = s.pc) (confined : s.confines t)
  /-- It has taken an exception, in the state `u`. -/
  | exception (u : State) (e : Exception) (ret : Word) (taken : t = u.enter e ret) (cpsr : u.cpsr = s.cpsr)
      (confined : s.confines u)

namespace StepEnd

variable {w : Bool} {s u t : State}

theorem of_advance (ht : u.advance = .next t) (h : Working s u) : StepEnd w s t :=
  .sequel (h.canAdvance_iff.1 (State.advance_next ht).1) (h.confined.trans (State.confines_advance ht))

/-- A cancelled instruction goes on in sequence (R152). -/
theorem of_cancelled {c : Cond} (h : c ≠ .nv ∧ condPassed s.cpsr.flags c = false ∧ s.advance = .next t) :
    StepEnd w s t :=
  of_advance h.2.2 (.refl s)

theorem of_enter {e : Exception} {ret : Word} (h : Working s u) (hc : u.cpsr = s.cpsr) :
    StepEnd w s (u.enter e ret) :=
  .exception u e ret rfl hc h.confined

/-- What a state does that agrees with `s` is what `s` does. -/
theorem of_working (h : Working s u) (hc : u.cpsr = s.cpsr) (he : StepEnd w u t) : StepEnd w s t := by
  cases he with
  | sequel top k => exact .sequel (h.canAdvance_iff.1 top) (h.confined.trans k)
  | jump writes k => exact .jump writes (h.confined.trans k)
  | wait busy pc k => exact .wait busy (pc.trans h.pc) (h.confined.trans k)
  | exception v e ret taken cpsr k => exact .exception v e ret taken (cpsr.trans hc) (h.confined.trans k)

end StepEnd

section
variable {b : Bool} {c : Cond} {s t : State}

/-- An instruction ends as a cancelled one or as its meaning does. -/
theorem condExec_end {reads : List Reg} {k : Out} (hk : k = .next t → StepEnd b s t)
    (h : condExec c reads s k = .next t) : StepEnd b s t := by
  obtain ⟨-, h⟩ | h := condExec_next h
  · exact hk h
  · exact .of_cancelled h

/-! ## Data processing, the status registers, the multiplies -/

theorem dpWrite_end {f : Bool} {rd : Reg} {rn : Option Reg} {o : Operand2} {op : AluIn → AluOut}
    (h : dpWrite c f rd rn o op s = .next t) : StepEnd (rd == .r15) s t := by
  obtain h | ⟨-, -, ⟨hd, -, h⟩ | ⟨hd, -, rfl⟩ | ⟨-, -, h⟩ | ⟨-, -, h⟩⟩ := dpWrite_next h
  · exact .of_cancelled h
  · exact .jump (by simp [hd]) (State.confines_writePcAndPsr h)
  · exact .jump (by simp [hd]) (s.confines_jumpTo _)
  · exact .of_advance h (((Working.refl s).setReg _ _).setFlags _)
  · exact .of_advance h ((Working.refl s).setReg _ _)

theorem dpTest_end {rn : Reg} {o : Operand2} {op : AluIn → AluOut} (h : dpTest c rn o op s = .next t) :
    StepEnd b s t := by
  obtain h | ⟨-, -, h⟩ := dpTest_next h
  · exact .of_cancelled h
  · exact .of_advance h ((Working.refl s).setFlags _)

theorem dpPsr_end {rn : Reg} {o : Operand2} {op : AluIn → AluOut} (h : dpPsr c rn o op s = .next t) :
    StepEnd b s t := by
  obtain h | ⟨-, h26, -, h⟩ := dpPsr_next h
  · exact .of_cancelled h
  · exact .of_advance h ((Working.refl s).writePsr26 h26 _)

theorem execMrs_end {spsr : Bool} {rd : Reg} (h : execMrs c spsr rd s = .next t) : StepEnd b s t := by
  obtain h | ⟨-, -, p, -, h⟩ := execMrs_next h
  · exact .of_cancelled h
  · exact .of_advance h ((Working.refl s).drawn.setReg _ _)

/-- A write of the control field may change the width of the mode, but not past the top of either width. -/
theorem State.msrControl_canAdvance {g : Flags} {v : Word} (h : s.msrControl g v = .next t) : s.canAdvance := by
  obtain ⟨m, -, h26, -, h⟩ := State.msrControl_next h
  exact ⟨(State.advance_next h).1.1, h26⟩

theorem execMsr_end {spsr : Bool} {mask : BitVec 4} {src : MsrSource} (h : execMsr c spsr mask src s = .next t) :
    StepEnd b s t := by
  obtain h | ⟨-, -, ⟨n, -, hn, h⟩ | ⟨-, -, hp, h⟩ | ⟨-, -, h⟩⟩ := execMsr_next h
  · exact .of_cancelled h
  · exact .of_advance h ⟨rfl, rfl, State.confines_of_privileged (Mode.privileged_of_spsr hn)⟩
  · exact .sequel (State.msrControl_canAdvance h) (State.confines_of_privileged hp)
  · exact .of_advance h ((Working.refl s).setFlags _)

theorem mulWrite_end {f : Bool} {rd rn rs rm : Reg} {reads : List Reg} {result : Word}
    (h : mulWrite c f rd rn rs rm reads result s = .next t) : StepEnd b s t := by
  obtain h | ⟨-, -, -, -, -, -, ⟨-, h⟩ | ⟨-, h⟩⟩ := mulWrite_next h
  · exact .of_cancelled h
  · exact .of_advance h (((Working.refl s).drawn.setReg _ _).setFlags _)
  · exact .of_advance h ((Working.refl s).setReg _ _)

theorem mullWrite_end {f : Bool} {rdHi rdLo rs rm : Reg} {reads : List Reg} {p : BitVec 64}
    (h : mullWrite c f rdHi rdLo rs rm reads p s = .next t) : StepEnd b s t := by
  obtain h | ⟨-, -, -, -, -, -, -, -, ⟨-, h⟩ | ⟨-, h⟩⟩ := mullWrite_next h
  · exact .of_cancelled h
  · exact .of_advance h ((((Working.refl s).drawn.setReg _ _).setReg _ _).setFlags _)
  · exact .of_advance h (((Working.refl s).setReg _ _).setReg _ _)

/-! ## Single transfers and the swap -/

theorem State.afterLoadBase_working (s : State) (ty : RequestType) (acc : Access) (idx : Index) (rn : Reg)
    (base : Word) : Working s (s.afterLoadBase ty acc idx rn base) := by
  unfold State.afterLoadBase
  split
  · exact ((Working.refl s).request _ _ _).setReg _ _
  · exact (Working.refl s).request _ _ _

/-- A load: `hv` says that its value changes the state no more than by a free word. -/
theorem loadTransfer_end {width : Width} {ty : RequestType} {narrow user : Bool} {value : State → Word → State × Word}
    {idx : Index} {up : Bool} {rn rd : Reg} {rm : Option Reg} {offset : Word}
    (hv : ∀ u a, Working u (value u a).1)
    (h : loadTransfer width ty narrow user value c idx up rn rd rm offset s = .next t) :
    StepEnd (!narrow && rd == .r15) s t := by
  obtain h | ⟨-, ⟨-, -, hn, -⟩, -, ⟨-, rfl⟩ | ⟨-, hd, rfl⟩ | ⟨-, -, h⟩⟩ := loadTransfer_next h
  · exact .of_cancelled h
  · exact .of_enter ((Working.refl s).request _ _ _) rfl
  · have hn' : narrow = false := by
      rw [← Bool.not_eq_true]
      exact fun e => hn e hd
    exact .jump (by simp [hn', hd])
      (((s.afterLoadBase_working ..).trans (hv _ _)).confined.trans (State.confines_jumpTo _ _))
  · exact .of_advance h (((s.afterLoadBase_working ..).trans (hv _ _)).setReg _ _)

theorem wordValue_working (u : State) (a : Word) : Working u (wordValue u a).1 := .refl u

theorem byteValue_working (u : State) (a : Word) : Working u (byteValue u a).1 := .refl u

theorem signedByteValue_working (u : State) (a : Word) : Working u (signedByteValue u a).1 := .refl u

theorem halfValue_working (extend : Half → Word) (u : State) (a : Word) : Working u (halfValue extend u a).1 := by
  rw [halfValue_state]
  split
  · exact (Working.refl u).drawn
  · exact .refl u

theorem State.storeWord_working (u : State) (a v : Word) : Working u (u.storeWord a v) :=
  (Working.refl u).storeBytes _ _

theorem putByte_working (u : State) (a v : Word) : Working u (putByte u a v) := (Working.refl u).storeBytes _ _

theorem putHalf_working (u : State) (a v : Word) : Working u (putHalf u a v) := (Working.refl u).storeBytes _ _

/-- A store: `hput` says that what it puts to memory changes no register. -/
theorem storeTransfer_end {width : Width} {ty : RequestType} {narrow user : Bool} {bus : Word → Word}
    {put : State → Word → Word → State} {idx : Index} {up : Bool} {rn rd : Reg} {rm : Option Reg} {offset : Word}
    (hput : ∀ u a v, Working u (put u a v))
    (h : storeTransfer width ty narrow user bus put c idx up rn rd rm offset s = .next t) : StepEnd b s t := by
  obtain h | ⟨-, -, -, -, ⟨-, rfl⟩ | ⟨-, h⟩⟩ := storeTransfer_next h
  · exact .of_cancelled h
  · exact .of_enter ((Working.refl s).storeAborted _ _ _ _) rfl
  · split at h
    · exact .of_advance h ((((Working.refl s).storeRequest _ _ _ _).trans (hput _ _ _)).setReg _ _)
    · exact .of_advance h (((Working.refl s).storeRequest _ _ _ _).trans (hput _ _ _))

theorem swap_end {width : Width} {readTy writeTy : RequestType} {bus : Word → Word} {value : State → Word → Word}
    {put : State → Word → Word → State} {rn rd rm : Reg} (hput : ∀ u a v, Working u (put u a v))
    (h : swap width readTy writeTy bus value put c rn rd rm s = .next t) : StepEnd b s t := by
  obtain h | ⟨-, -, -, -, ⟨-, rfl⟩ | ⟨-, -, rfl⟩ | ⟨-, -, h⟩⟩ := swap_next h
  · exact .of_cancelled h
  · exact .of_enter ((Working.refl s).request _ _ _) rfl
  · exact .of_enter (((Working.refl s).request _ _ _).storeAborted _ _ _ _) rfl
  · exact .of_advance h
      (((((Working.refl s).request _ _ _).storeRequest _ _ _ _).trans (hput _ _ _)).setReg _ _)

theorem execSwp_end {rn rd rm : Reg} (h : execSwp c rn rd rm s = .next t) : StepEnd b s t := by
  rw [execSwp] at h
  exact swap_end State.storeWord_working h

theorem execSwpb_end {rn rd rm : Reg} (h : execSwpb c rn rd rm s = .next t) : StepEnd b s t := by
  rw [execSwpb] at h
  exact swap_end putByte_working h

/-! ## Block transfers -/

/-- User mode and usr26 transfer the User bank. -/
theorem blockBank_of_not_privileged {load psr : Bool} {list : BitVec 16} {m : Mode} (h : m.privileged = false) :
    blockBank load psr list m = .usr := by
  unfold blockBank
  split
  · rfl
  · exact Mode.bank_of_not_privileged h

/-- Loading registers of bank `k`, which is the User bank where the mode is unprivileged. -/
theorem State.loadRegs_working (s : State) {k : Bank} (hk : s.cpsr.mode.privileged = false → k = .usr)
    (ts : List (Reg × Word)) : Working s (s.loadRegs k ts) := by
  refine .of_plain (s.loadRegs_plain k ts).1 fun hp q hq => ?_
  exact s.loadRegs_other k fun ra _ => by rw [hk hp]; exact hq ra.1

theorem State.loadSome_working (s : State) {k : Bank} (hk : s.cpsr.mode.privileged = false → k = .usr)
    (base : Option PReg) (which : Word) (ts : List (Reg × Word)) : Working s (s.loadSome k base which ts) := by
  refine .of_plain (s.loadSome_plain k base which ts).1 fun hp q hq => ?_
  obtain h | ⟨-, ra, -, hv, -⟩ := s.loadSome_get k base which ts q
  · exact h
  · rw [hk hp] at hv
    exact absurd hv (hq ra.1)

/-- An allowed block transfer has a list. -/
theorem list_ne_zero_of_blockStop {load psr w : Bool} {rn : Reg} {list : BitVec 16} {m : Mode}
    (h : blockStop load psr w rn list m = none) : list ≠ 0 := by
  rintro rfl
  rw [blockStop_emptyList] at h
  cases h

/-- An LDM that has loaded its list: R15 last, or in sequence, with the mark of R322 after a User bank transfer. -/
theorem State.finishLoad_end {u : State} {psr p up : Bool} {rn : Reg} {list : BitVec 16} (hl : list ≠ 0)
    (hu : Working s u) (h : u.finishLoad psr list (s.blockTransfers p up rn list) = .next t) :
    StepEnd (inList list .r15) s t := by
  rw [State.finishLoad_eq s u psr p up rn hl] at h
  split at h
  · have hw := (inList_iff list .r15).2 ‹_›
    split at h
    · exact .jump hw (hu.confined.trans (State.confines_writePcAndPsr h))
    · cases h
      exact .jump hw (hu.confined.trans (u.confines_jumpTo _))
  · split at h
    · obtain ⟨v, hv, rfl⟩ := markUserLdm_next h
      exact .sequel (hu.canAdvance_iff.1 (State.advance_next hv).1)
        ((hu.confined.trans (State.confines_advance hv)).trans (State.confines_of_eq rfl rfl rfl))
    · exact .of_advance h hu

theorem execLdm_end {p up psr w : Bool} {rn : Reg} {list : BitVec 16} (h : execLdm c p up psr w rn list s = .next t) :
    StepEnd (inList list .r15) s t := by
  obtain ⟨hq, hregs, -⟩ := s.loadRequests_plain 0 (s.blockTransfers p up rn list)
  have hu : Working s (s.loadRequests 0 (s.blockTransfers p up rn list)) := .of_eq hq.pc hq.cpsr hq.spsrs hregs
  have hk {u : State} (hu : u.cpsr = s.cpsr) (hp : u.cpsr.mode.privileged = false) :
      blockBank true psr list s.cpsr.mode = .usr := blockBank_of_not_privileged (by rwa [hu] at hp)
  obtain h | ⟨-, hx, ⟨-, rfl⟩ | ⟨-, h⟩⟩ := execLdm_next h
  · exact .of_cancelled h
  · refine .of_enter (hu.drawn.trans (State.loadSome_working _ ?_ _ _ _))
      ((State.loadSome_plain _ _ _ _ _).1.cpsr.trans hq.cpsr)
    exact hk hq.cpsr
  · refine State.finishLoad_end (list_ne_zero_of_blockStop hx) ?_ h
    split
    · exact (hu.setReg _ _).trans (State.loadRegs_working _ (hk (by simp [hq.cpsr])) _)
    · exact hu.trans (State.loadRegs_working _ (hk hq.cpsr) _)

/-- The exchanges and the words of an STM change no register and no status register. -/
theorem State.storeMultiple_working (s : State) (value : Reg → Word) (k : Nat) (ts done : List (Reg × Word)) :
    Working s ((s.storeRequests value k ts).storeWords value done)
      ∧ ((s.storeRequests value k ts).storeWords value done).cpsr = s.cpsr := by
  obtain ⟨hq, hregs, -⟩ := s.storeRequests_plain value k ts
  have hr : Working s (s.storeRequests value k ts) :=
    .of_eq (by simp [hq.pc]) (by simp [hq.cpsr]) (by simp [hq.spsrs]) hregs
  have hw (u : State) : Working u (u.storeWords value done) ∧ (u.storeWords value done).cpsr = u.cpsr := by
    induction done generalizing u with
    | nil => exact ⟨.refl u, rfl⟩
    | cons ra rest ih =>
      obtain ⟨h, hc⟩ := ih (u.storeWord ra.2 (value ra.1))
      exact ⟨(u.storeWord_working _ _).trans h, hc⟩
  exact ⟨hr.trans (hw _).1, (hw _).2.trans (by simp [hq.cpsr])⟩

theorem execStm_end {p up psr w : Bool} {rn : Reg} {list : BitVec 16} (h : execStm c p up psr w rn list s = .next t) :
    StepEnd b s t := by
  have hd : Working s (if baseNotSpecified w rn list then s.drawn else s)
      ∧ (if baseNotSpecified w rn list then s.drawn else s).cpsr = s.cpsr := by
    split
    · exact ⟨(Working.refl s).drawn, rfl⟩
    · exact ⟨.refl s, rfl⟩
  obtain ⟨hu, hc⟩ := State.storeMultiple_working (if baseNotSpecified w rn list then s.drawn else s)
    (s.stmValue psr w rn list) 0 (s.blockTransfers p up rn list) (s.blockDone .store (s.blockTransfers p up rn list))
  obtain h | ⟨-, -, ⟨-, rfl⟩ | ⟨-, h⟩⟩ := execStm_next h
  · exact .of_cancelled h
  · exact .of_enter (hd.1.trans hu) (hc.trans hd.2)
  · split at h
    · exact .of_advance h ((hd.1.trans hu).setReg _ _)
    · exact .of_advance h (hd.1.trans hu)

/-! ## Branches, traps and the coprocessor instructions -/

theorem State.confines_branch {target : Word} (h : s.branch target = .next t) : s.confines t := by
  rw [State.branch_eq] at h
  cases h
  exact State.confines_of_eq rfl rfl rfl

theorem execB_end {offset : BitVec 24} (h : execB c offset s = .next t) : StepEnd true s t :=
  condExec_end (fun h => .jump rfl (State.confines_branch h)) h

theorem execBl_end {offset : BitVec 24} (h : execBl c offset s = .next t) : StepEnd true s t :=
  condExec_end (fun h => .jump rfl ((s.confines_setReg _ _).trans (State.confines_branch h))) h

theorem execSwi_end {comment : BitVec 24} (h : execSwi c comment s = .next t) : StepEnd b s t := by
  refine condExec_end (fun h => ?_) h
  cases h
  exact .of_enter (.of_eq rfl rfl rfl rfl) rfl

theorem State.trapUndefined_end (h : s.trapUndefined = .next t) : StepEnd b s t := by
  cases h
  exact .of_enter (.refl s) rfl

theorem State.bounced_end (h : s.bounced = .next t) : StepEnd b s t := by
  cases h
  exact .of_enter ((Working.refl s).emit _) rfl

theorem undefinedBtoE_end {x : Fault} (h : undefinedBtoE c x s = .next t) : StepEnd b s t := by
  refine condExec_end (fun h => ?_) h
  split at h
  · exact State.trapUndefined_end h
  · cases h

/-- MRC or MCR: `hwait` says what a cycle of busy-wait keeps, `hacc` how an accepted one ends. -/
theorem coprocTransfer_end {reads : List Reg} {bits : BitVec 26} {wait : State → State}
    {accepted : State → CoprocAnswer → Out} (hwait : ∀ u, Working u (wait u))
    (hacc : ∀ u a, accepted u a = .next t → StepEnd b u t)
    (h : coprocTransfer c reads bits wait accepted s = .next t) : StepEnd b s t := by
  have hgo : Working s (s.emit (.cpExecute true)) := (Working.refl s).emit _
  obtain h | ⟨-, ⟨-, -, h⟩ | ⟨-, rfl⟩ | ⟨-, -, h⟩⟩ := coprocTransfer_next h
  · exact .of_cancelled h
  · exact State.bounced_end h
  · have hw := hgo.trans (hwait _)
    exact .wait rfl hw.pc (hw.confined.trans (State.confines_of_eq rfl rfl rfl))
  · exact .of_working hgo rfl (hacc _ _ h)

theorem execMrc_end {opc : BitVec 3} {crn : BitVec 4} {rd : Reg} {num : BitVec 4} {info : BitVec 3} {crm : BitVec 4}
    (h : execMrc c opc crn rd num info crm s = .next t) : StepEnd b s t := by
  refine coprocTransfer_end (fun u => (Working.refl u).emit _) (fun u a h => ?_) h
  have hu {v} : Working u (u.coprocExecute a v) := .of_eq rfl rfl rfl rfl
  dsimp only at h
  split at h
  · exact .of_advance h (hu.setFlags _)
  · exact .of_advance h (hu.setReg _ _)

theorem execMcr_end {opc : BitVec 3} {crn : BitVec 4} {rd : Reg} {num : BitVec 4} {info : BitVec 3} {crm : BitVec 4}
    (h : execMcr c opc crn rd num info crm s = .next t) : StepEnd b s t := by
  simp only [execMcr] at h
  refine coprocTransfer_end (fun u => ?_) (fun u a h => ?_) h
  · exact .of_eq (u.mcrWait_plain rd).pc (u.mcrWait_plain rd).cpsr (u.mcrWait_plain rd).spsrs (by simp)
  · have hu {v} : Working u (u.coprocExecute a v) := .of_eq rfl rfl rfl rfl
    split at h
    · cases h
    · exact .of_advance h ((hu.emit _).emit _)

end

/-! ## All 61 instructions -/

/-- How an instruction that goes on ends. -/
theorem exec_end {i : Instr} {s t : State} (h : exec i s = .next t) : StepEnd (instrWritesPc i) s t := by
  cases i with
  | and | eor | sub | rsb | add | adc | sbc | rsc | orr | bic | mov | mvn => exact dpWrite_end h
  | tst | teq | cmp | cmn => exact dpTest_end h
  | tstp | teqp | cmpp | cmnp => exact dpPsr_end h
  | mrs => exact execMrs_end h
  | msr => exact execMsr_end h
  | mul | mla => exact mulWrite_end h
  | umull | umlal | smull | smlal => exact mullWrite_end h
  | ldr | ldrt => exact loadTransfer_end wordValue_working h
  | ldrb | ldrbt => exact loadTransfer_end byteValue_working h
  | ldrsb => exact loadTransfer_end signedByteValue_working h
  | ldrh | ldrsh => exact loadTransfer_end (halfValue_working _) h
  | str | strt => exact storeTransfer_end State.storeWord_working h
  | strb | strbt => exact storeTransfer_end putByte_working h
  | strh => exact storeTransfer_end putHalf_working h
  | ldm => exact execLdm_end h
  | stm => exact execStm_end h
  | swp => exact execSwp_end h
  | swpb => exact execSwpb_end h
  | b => exact execB_end h
  | bl => exact execBl_end h
  | swi c comment => exact execSwi_end (comment := comment) h
  | cdp | ldc | stc => exact condExec_end State.bounced_end h
  | mrc => exact execMrc_end h
  | mcr => exact execMcr_end h
  | undefinedA => exact condExec_end State.trapUndefined_end h
  | undefinedB | undefinedC | undefinedD | undefinedE => exact undefinedBtoE_end h
  | reservedMrs | reservedMsr | reservedSwp | reservedHreg => exact condExec_end (fun h => by cases h) h

/-- Every meaning opens with the test of its condition, and then reads its registers (R151, R322). -/
theorem exec_eq_condExec (i : Instr) (s : State) : ∃ k, exec i s = condExec i.cond (instrReads i) s k := by
  cases i <;> exact ⟨_, rfl⟩

/-- A cancelled instruction goes on in sequence (R152). -/
theorem exec_failed {i : Instr} {s : State} (hc : i.cond ≠ .nv) (hp : condPassed s.cpsr.flags i.cond = false) :
    exec i s = s.advance := by
  obtain ⟨k, hk⟩ := exec_eq_condExec i s
  rw [hk, condExec_failed hc hp]

/-! ## A step -/

/-- A step without reset that goes on ends as an instruction does: an interrupt and a prefetch abort are exceptions, and
a step boundary, a fetch and the announcement to the coprocessors change nothing that an instruction must not. -/
theorem step_end {s t : State} (hr : s.levels.reset = false) (h : step s = .next t) : ∃ w, StepEnd w s t := by
  have hs : Working s s.beginStep := .of_eq (by simp) (by simp) (by simp) (by simp)
  have ha : Working s s.beginStep.abandon := .of_eq (by simp) (by simp) (by simp) (by simp)
  have hf : Working s s.beginStep.requestFetch := .of_eq (by simp) (by simp) (by simp) (by simp)
  obtain ⟨h1, -⟩ | ⟨-, ⟨-, rfl⟩ | ⟨-, rfl⟩ | ⟨w, -, h⟩ | ⟨-, rfl⟩ | ⟨w, -, h⟩⟩ := step_next h
  · rw [hr] at h1
    cases h1
  · exact ⟨false, .of_enter ha (by simp)⟩
  · exact ⟨false, .of_enter ha (by simp)⟩
  · exact ⟨_, .of_working hs (by simp) (exec_end h)⟩
  · exact ⟨false, .of_enter hf (by simp)⟩
  · exact ⟨_, .of_working (hf.trans (.of_eq (by simp) (by simp) (by simp) (by simp))) (by simp) (exec_end h)⟩

/-- What stays in User mode and is confined. -/
theorem State.confines.stays {s t : State} (h : s.confines t) (hp : s.cpsr.mode.privileged = false) :
    t.cpsr.mode.privileged = false ∧ s.keepsControl t ∧ t.spsrs = s.spsrs
      ∧ ∀ q, (∀ r, Bank.usr.view r ≠ some q) → t.regs.get q = s.regs.get q := by
  obtain ⟨hk, hrest⟩ := h hp
  exact ⟨by rw [hk.2.2]; exact hp, hk, hrest⟩

/-- Settles O59: the three ends of a step that take no exception stay confined, and what an exception changes is said by
`State.enter_hasTaken`. -/
theorem userModeConfined : Obligations.UserModeConfined := by
  intro s t hp hreset h
  obtain ⟨w, he⟩ := step_end hreset h
  cases he with
  | sequel _ k => exact .inl (k.stays hp)
  | jump _ k => exact .inl (k.stays hp)
  | wait _ _ k => exact .inl (k.stays hp)
  | exception u e ret ht hc k =>
    subst ht
    obtain ⟨-, hspsrs, hregs⟩ := k hp
    obtain ⟨hmode, hi, -, -, hpc, -, hsaved, hothers, hspsr⟩ := u.enter_hasTaken e ret
    refine .inr ⟨e, hmode, hi, hpc, hsaved.trans (by rw [hc]), fun n hn => (hspsr n hn).trans (by rw [hspsrs]),
      fun q hq hu => (hothers q hq).trans (hregs q hu)⟩

/-! ## The top of the address space -/

/-- Past the top there is nothing to go on to (R32, R393). -/
theorem State.advance_of_not_canAdvance {s : State} (h : ¬ s.canAdvance) : s.advance = .fault s.topFault := by
  unfold State.advance State.topFault
  split
  · rfl
  · have h26 : (s.cpsr.mode.is26 && s.pc == 0x03FFFFFC#32) = true := by
      simpa [State.canAdvance, ‹¬ s.pc = 0xFFFFFFFC#32›] using h
    rw [if_pos h26]

/-- An instruction at the top that ends in sequence stops, whatever it has changed before. -/
theorem Working.advance_of_not_canAdvance {s u : State} (h : Working s u) (hs : ¬ s.canAdvance) :
    u.advance = .fault s.topFault := by
  rw [State.advance_of_not_canAdvance (mt h.canAdvance_iff.1 hs), State.topFault, State.topFault, h.pc]

section
variable {c : Cond} {o : Operand2} {op : AluIn → AluOut} {s : State}

theorem dpWrite_top {f : Bool} {rd : Reg} {rn : Option Reg} (hs : ¬ s.canAdvance)
    (hr : s.ready c (rn.toList ++ operand2Reads o)) (hsh : r15InRegisterShift rn.toList o = false) (hd : rd ≠ .r15) :
    dpWrite c f rd rn o op s = .fault s.topFault := by
  rw [dpWrite, condExec_ready hr, hsh]
  simp only [Bool.false_eq_true, if_false, if_neg hd]
  split
  · exact (((Working.refl s).setReg _ _).setFlags _).advance_of_not_canAdvance hs
  · exact ((Working.refl s).setReg _ _).advance_of_not_canAdvance hs

theorem dpTest_top {rn : Reg} (hs : ¬ s.canAdvance) (hr : s.ready c (rn :: operand2Reads o))
    (hsh : r15InRegisterShift [rn] o = false) : dpTest c rn o op s = .fault s.topFault := by
  rw [dpTest, condExec_ready hr, hsh]
  exact ((Working.refl s).setFlags _).advance_of_not_canAdvance hs

end

/-- The twelve instructions that write a result are one operation, with Rn where they read it. -/
theorem DpOp.exec_instr (op : DpOp) (c : Cond) (f : Bool) (rd rn : Reg) (o : Operand2) (s : State) :
    ∃ (r : Option Reg) (alu : AluIn → AluOut),
      exec (op.instr c f rd rn o) s = dpWrite c f rd r o alu s ∧ r.toList = op.rnRead rn := by
  cases op <;> exact ⟨_, _, rfl, rfl⟩

/-- Settles O60: at the top the one end of an instruction that needs a next address is excluded, and what would go on in
sequence stops under the name of the top. -/
theorem nothingRunsPastTheTop : Obligations.NothingRunsPastTheTop := by
  intro s hs
  refine ⟨fun i t h => ?_, fun i hc hp => ?_, fun op c f rd rn o hr hsh hd => ?_, fun c rd rn o hr hsh i hi => ?_⟩
  · cases exec_end h with
    | sequel top _ => exact absurd top hs
    | jump writes _ => exact .inl writes
    | wait busy hpc _ => exact .inr (.inr ⟨busy, hpc⟩)
    | exception u e ret ht hc _ =>
      subst ht
      obtain ⟨hmode, hi, -, -, hpc, -, hsaved, -⟩ := u.enter_hasTaken e ret
      exact .inr (.inl ⟨e, hmode, hi, hpc, hsaved.trans (by rw [hc])⟩)
  · exact (exec_failed hc hp).trans (State.advance_of_not_canAdvance hs)
  · obtain ⟨r, alu, he, hn⟩ := op.exec_instr c f rd rn o s
    rw [← hn] at hr hsh
    exact he.trans (dpWrite_top hs hr hsh hd)
  · simp only [List.mem_cons, List.not_mem_nil, or_false] at hi
    obtain rfl | rfl | rfl | rfl := hi <;> exact dpTest_top hs hr hsh

end Sys2Proof.Machine
end

section
/-! PROOFS. A cancelled instruction and the reserved condition (O10), and the branches with the prediction of their words
(O13). -/

namespace Sys2Proof.Machine

/-! ## The condition -/

/-- The reserved condition stops every instruction (R129). -/
theorem exec_reserved {i : Instr} (s : State) (hc : i.cond = .nv) : exec i s = .fault .condReserved := by
  obtain ⟨k, hk⟩ := exec_eq_condExec i s
  rw [hk, hc, condExec_nv]

/-- Settles O10: every meaning opens with the test of its condition (`exec_eq_condExec`), so a cancelled instruction is
an advance and nothing more. -/
theorem conditionGate : Obligations.ConditionGate := by
  intro i s
  refine ⟨fun hc hp hs => ?_, exec_reserved s⟩
  have ht := State.advance_of_canAdvance hs
  exact ⟨_, (exec_failed hc hp).trans ht, (Plain.refl s).goesOnTo (fun _ _ => rfl) ht, ⟨fun _ => rfl, rfl⟩, rfl, rfl,
    rfl⟩

/-! ## The branch target and the link -/

/-- The offset with two zero bits below it is four times the offset (R115). -/
theorem toInt_shiftedOffset (offset : BitVec 24) : (offset ++ 0b00#2).toInt = 4 * offset.toInt := by
  rw [BitVec.toInt_append_zero]
  rfl

/-- The branch target in integers: A + 8 and four times the signed offset, modulo 2^32 (R115, R161). -/
theorem State.branchTarget_eq (s : State) (offset : BitVec 24) :
    s.branchTarget offset = BitVec.ofInt 32 ((s.pc.toNat : Int) + 8 + 4 * offset.toInt) := by
  rw [State.branchTarget, BitVec.signExtend, toInt_shiftedOffset, BitVec.ofInt_add, BitVec.ofInt_add,
    BitVec.ofInt_natCast, BitVec.ofNat_toNat, BitVec.setWidth_eq]
  rfl

/-- In a 32-bit mode the link is the address alone (R30, R405). -/
theorem State.pcWithPsr_of_not_is26 {s : State} (h : s.cpsr.mode.is26 = false) (k : Word) :
    s.pcWithPsr k = s.pc + k := by
  simp [State.pcWithPsr, State.pcPlus, h]

/-! ## A taken branch -/

/-- A branch taken after a plain change goes to its target, and changes nothing besides; it flushes the Prefetch Unit
unless it was predicted as taken (R92). -/
theorem Plain.branch {s u : State} (h : Plain s u) {written : List Reg} (hk : s.keepsRegs u written) (target : Word) :
    ∃ t, u.branch target = .next t ∧ s.goesTo t written target
      ∧ t.fetchUnit = (if s.fetchUnit.prediction = .taken then s.fetchUnit else s.fetchUnit.flushed)
      ∧ t.regs = u.regs ∧ t.cpsr = u.cpsr ∧ t.mem = u.mem ∧ t.marks = u.marks := by
  refine ⟨_, u.branch_eq target, ⟨?_, hk, h.keepsControl, h.spsrs, ?_⟩, ?_, rfl, rfl, rfl, rfl⟩
  · show target &&& u.cpsr.mode.pcMask = _
    rw [h.cpsr]
  · refine ⟨h.ran26, h.ran32, h.lines, h.coproc, h.pending, h.aborts, h.platform, ?_, h.cfg⟩
    dsimp only
    rw [h.fetchUnit]
    exact ite_eq_or_eq _ _ _
  · dsimp only
    rw [h.fetchUnit]

/-! ## The prediction of a branch -/

/-- The fields of a word with a condition, four further bits and a 24-bit offset. -/
theorem branchWord_fields (c op : BitVec 4) (offset : BitVec 24) :
    (c ++ (op ++ offset)).extractLsb' 28 4 = c ∧ (c ++ (op ++ offset)).extractLsb' 24 4 = op
      ∧ (c ++ (op ++ offset)).extractLsb' 25 3 = op.extractLsb' 1 3
      ∧ (c ++ (op ++ offset)).getLsbD 23 = offset.getLsbD 23 := by
  refine ⟨cond_of_append c _, ?_, ?_, ?_⟩
  · rw [BitVec.extractLsb'_append_eq_of_add_le (by decide), BitVec.extractLsb'_append_eq_left]
  · rw [BitVec.extractLsb'_append_eq_of_add_le (by decide), BitVec.extractLsb'_append_eq_of_le (by decide)]
  · rw [BitVec.getLsbD_append, BitVec.getLsbD_append]
    rfl

/-- The field of the condition always (R150). -/
theorem Cond.bits_eq_al {c : Cond} : c.bits = 0b1110#4 ↔ c = .al := by cases c <;> decide

/-- The field of the reserved condition (R129). -/
theorem Cond.bits_eq_nv {c : Cond} : c.bits = 0b1111#4 ↔ c = .nv := by cases c <;> decide

/-- With PredictOn HIGH a B is predicted taken where it is always taken or goes backward, else not taken (R94). -/
theorem State.predict_b (s : State) {c : Cond} (hc : c ≠ .nv) (offset : BitVec 24) :
    s.predict (some (encode (.b c offset)))
      = if s.platform.predictOn then if c = .al ∨ offset.getLsbD 23 = true then .taken else .notTaken
        else .notPredicted := by
  obtain ⟨hcond, hop, hclass, hsign⟩ := branchWord_fields c.bits 0b1010#4 offset
  have hw : encode (.b c offset) = c.bits ++ (0b1010#4 ++ offset) := rfl
  simp only [State.predict, hw, hcond, hop, hclass, hsign]
  cases s.platform.predictOn with
  | false => simp
  | true => simp [Cond.bits_eq_al, Cond.bits_eq_nv, hc]

/-- With PredictOn HIGH a BL is predicted taken where it is always taken, and else not predicted (R94). -/
theorem State.predict_bl (s : State) {c : Cond} (hc : c ≠ .nv) (offset : BitVec 24) :
    s.predict (some (encode (.bl c offset)))
      = if s.platform.predictOn = true ∧ c = .al then .taken else .notPredicted := by
  obtain ⟨hcond, hop, hclass, hsign⟩ := branchWord_fields c.bits 0b1011#4 offset
  have hw : encode (.bl c offset) = c.bits ++ (0b1011#4 ++ offset) := rfl
  simp only [State.predict, hw, hcond, hop, hclass, hsign]
  cases s.platform.predictOn with
  | false => simp
  | true => by_cases hal : c = .al <;> simp [Cond.bits_eq_al, Cond.bits_eq_nv, hc, hal]

/-! ## B and BL -/

/-- Settles O13: B is a branch and BL a branch after a write of R14, both to the target of `State.branchTarget_eq`. -/
theorem branchResult : Obligations.BranchResult := by
  intro s c offset hr
  dsimp only
  rw [← State.branchTarget_eq]
  refine ⟨?_, ?_, fun _ _ => State.prediction_fetchAnswer, s.predict_b hr.1 offset, s.predict_bl hr.1 offset⟩
  · obtain ⟨t, ht, hgoes, hfetch, -, hcpsr, hmem, hmarks⟩ :=
      (Plain.refl s).branch (written := []) (fun _ _ => rfl) (s.branchTarget offset)
    exact ⟨t, (condExec_ready hr _).trans ht, hgoes, ⟨fun _ => by rw [hmem], hmarks⟩, by rw [hcpsr], hfetch⟩
  · obtain ⟨t, ht, hgoes, hfetch, hregs, hcpsr, hmem, hmarks⟩ :=
      ((Plain.refl s).setReg .r14 (s.pcWithPsr 4)).branch (s.keepsRegs_setReg _ (List.mem_singleton.2 rfl))
        (s.branchTarget offset)
    have hlink : t.reg .r14 = s.pcWithPsr 4 := by
      rw [State.reg_congr (by decide) (by rw [hcpsr]) hregs, State.reg_setReg_same _ _ (by decide)]
    exact ⟨t, (condExec_ready hr _).trans ht, hgoes, ⟨fun _ => by simp [hmem], by simp [hmarks]⟩, by simp [hcpsr],
      hlink, fun h => hlink.trans (State.pcWithPsr_of_not_is26 h 4), hfetch⟩

end Sys2Proof.Machine
end

section
/-! PROOFS. Modified code, and code run in the other mode width, is not run (O9). -/

namespace Sys2Proof.Machine

/-! ## The two stops -/

/-- A marked byte stands in the instruction word (R89). -/
theorem State.modified_iff (s : State) :
    s.modified = true ↔ ∃ a ∈ s.marks, (alignWord s.pc).toNat ≤ a ∧ a < (alignWord s.pc).toNat + 4 := by
  simp [State.modified]

/-- No marked byte stands in the instruction word. -/
theorem State.modified_eq_false_iff (s : State) :
    s.modified = false ↔ ∀ a ∈ s.marks, a < (alignWord s.pc).toNat ∨ (alignWord s.pc).toNat + 4 ≤ a := by
  simp only [← Bool.not_eq_true, s.modified_iff, not_exists, not_and, not_lt, or_iff_not_imp_left]

/-- The address stands among those executed in the other width (R406). -/
theorem State.mixedWidth_iff (s : State) :
    s.mixedWidth = true ↔ s.pc.toNat ∈ (if s.cpsr.mode.is26 then s.ran32 else s.ran26) := by
  unfold State.mixedWidth
  split <;> exact List.contains_iff_mem

/-- Taking the word changes no mark (R89). -/
@[simp] theorem State.requestFetch_modified (s : State) : s.requestFetch.modified = s.modified := by
  simp [State.modified]

/-- Taking the word changes no address note (R406). -/
@[simp] theorem State.requestFetch_mixedWidth (s : State) : s.requestFetch.mixedWidth = s.mixedWidth := by
  simp [State.mixedWidth]

/-- The marks are looked at first, whatever the word is (R89; log entry 9). -/
theorem State.runWord_modified {s : State} (h : s.modified = true) (w : Word) : s.runWord w = .fault .modifiedCode :=
  if_pos h

/-- Of an unmarked word the address notes are looked at, before its condition (R406; log entry 10). -/
theorem State.runWord_mixedWidth {s : State} (hm : s.modified = false) (h : s.mixedWidth = true) (w : Word) :
    s.runWord w = .fault .mixedWidthCode := by
  simp [State.runWord, hm, h]

/-! ## The step that runs a presented word -/

/-- With no line taken the step goes on from the boundary to the instruction (R153). -/
theorem step_eq_runNext {s : State} (hr : s.levels.reset = false) (hf : (s.levels.fiq && !s.cpsr.f) = false)
    (hi : (s.levels.irq && !s.cpsr.i) = false) : step s = s.beginStep.runNext := by
  simp [step, hr, hf, hi]

/-- With no busy-wait, the word that the Prefetch Unit presents is taken and run (R93). -/
theorem State.runNext_presented {s : State} {w : Word} (hw : s.waiting = none) (hp : s.presented = some w) :
    s.runNext = s.requestFetch.runWord w := by
  simp only [State.runNext, hw, hp]

/-- Settles O9: the step runs the presented word, `State.runWord` asks for the two stops before anything else, and
taking the word changes neither the marks nor the address notes that they look at. -/
theorem unsafeCodeStops : Obligations.UnsafeCodeStops := by
  intro s hr hf hi b hwait hpres
  obtain ⟨w, hw⟩ := Option.ne_none_iff_exists'.1 hpres
  have hstep : step s = b.requestFetch.runWord w :=
    (step_eq_runNext hr hf hi).trans (State.runNext_presented hwait hw)
  have hpc : b.pc = s.pc := s.beginStep_pc
  rw [hstep, ← hpc]
  refine ⟨fun hmarked => ?_, fun hclean hran => ?_⟩
  · have hm : b.modified = true := b.modified_iff.2 hmarked
    exact State.runWord_modified (b.requestFetch_modified.trans hm) w
  · have hm : b.modified = false := b.modified_eq_false_iff.2 hclean
    have hx : b.mixedWidth = true := b.mixedWidth_iff.2 (by simpa [b] using hran)
    exact State.runWord_mixedWidth (b.requestFetch_modified.trans hm) (b.requestFetch_mixedWidth.trans hx) w

end Sys2Proof.Machine
end

section
/-! PROOFS. Operand 2 by an immediate amount and as a rotated immediate (O15). -/

namespace Sys2Proof.Machine

/-! ## The shifts as arithmetic and bit by bit -/

/-- A rotation to the right takes each bit from `r` places further up, around the word (R175, R177). -/
theorem getLsbD_rotateRight_word (m : Word) (r : Nat) {k : Nat} (hk : k < 32) :
    (m.rotateRight r).getLsbD k = m.getLsbD ((k + r) % 32) := by
  rw [BitVec.getLsbD_rotateRight]
  by_cases h : k < 32 - r % 32
  · have e : (k + r) % 32 = r % 32 + k := by omega
    simp [h, e]
  · have e : (k + r) % 32 = k - (32 - r % 32) := by omega
    simp [h, hk, e]

section
variable {m : Word} {n : Nat} {c : Bool}

/-- LSL by 1 to 31 (R172). -/
theorem shiftBy_lsl (h0 : n ≠ 0) (hn : n < 32) : shiftBy .lsl m n c = (m <<< n, m.getLsbD (32 - n)) := by
  simp [shiftBy, h0, hn]

/-- LSR by 1 to 31 (R173). -/
theorem shiftBy_lsr (h0 : n ≠ 0) (hn : n < 32) : shiftBy .lsr m n c = (m >>> n, m.getLsbD (n - 1)) := by
  simp [shiftBy, h0, hn]

/-- ASR by 1 to 31 (R174). -/
theorem shiftBy_asr (h0 : n ≠ 0) (hn : n < 32) : shiftBy .asr m n c = (m.sshiftRight n, m.getLsbD (n - 1)) := by
  simp [shiftBy, h0, hn]

/-- ROR by 1 to 31 (R175). -/
theorem shiftBy_ror (h0 : n ≠ 0) (hn : n < 32) : shiftBy .ror m n c = (m.rotateRight n, m.getLsbD (n - 1)) := by
  simp [shiftBy, h0, Nat.mod_eq_of_lt hn]

end

/-- An arithmetic shift by 31 copies the sign bit to every place. -/
theorem sshiftRight_31 (m : Word) : m.sshiftRight 31 = if m.getLsbD 31 then 0xFFFFFFFF#32 else 0 := by
  have hmsb : m.msb = m.getLsbD 31 := BitVec.msb_eq_getLsbD_last m
  apply BitVec.eq_of_getLsbD_eq
  intro k hk
  have hbit : (m.sshiftRight 31).getLsbD k = m.getLsbD 31 := by
    rw [BitVec.getLsbD_sshiftRight, hmsb]
    obtain rfl | hpos := Nat.eq_zero_or_pos k
    · simp
    · have h : ¬ 31 + k < 32 := by omega
      simp [h, hk]
  have hones : (0xFFFFFFFF#32).getLsbD k = true :=
    BitVec.getLsbD_allOnes.trans (decide_eq_true hk)
  rw [hbit]
  cases m.getLsbD 31 <;> simp [hones]

/-- RRX puts the carry above bits 31 to 1 (R176). -/
theorem getLsbD_rrx (m : Word) (c : Bool) {k : Nat} (hk : k < 32) :
    (rrx m c).1.getLsbD k = if k = 31 then c else m.getLsbD (k + 1) := by
  show (BitVec.ofBool c ++ m.extractLsb' 1 31).getLsbD k = _
  rw [BitVec.getLsbD_append]
  by_cases h : k = 31
  · simp [h]
  · have hlt : k < 31 := by omega
    simp [h, hlt, Nat.add_comm]

/-! ## The amount field -/

/-- An amount field that is not 0 is the amount (R172 to R175). -/
theorem shiftByField_of_ne_zero (ty : ShiftType) (m : Word) {amount : BitVec 5} (h : amount.toNat ≠ 0) (c : Bool) :
    shiftByField ty m amount c = shiftBy ty m amount.toNat c :=
  if_neg fun e => h (by rw [e]; rfl)

/-- LSL by the field is a multiplication modulo 2^32, for the field 0 too (R171, R172). -/
theorem shiftByField_lsl_toNat (m : Word) (amount : BitVec 5) (c : Bool) :
    (shiftByField .lsl m amount c).1.toNat = m.toNat * 2 ^ amount.toNat % 2 ^ 32 := by
  by_cases h : amount.toNat = 0
  · have hz : amount = 0 := BitVec.eq_of_toNat_eq h
    simp [shiftByField, hz, Nat.mod_eq_of_lt m.isLt]
  · rw [shiftByField_of_ne_zero _ _ h, shiftBy_lsl h amount.isLt, BitVec.toNat_shiftLeft, Nat.shiftLeft_eq]

/-- Settles O15: an amount field that is not 0 is a shift by 1 to 31, the field 0 is said shift by shift, and the
rotated immediate is `getLsbD_rotateRight_word` on eight bits. -/
theorem shifterByImmediate : Obligations.ShifterByImmediate := by
  intro s rm amount rotate imm8 m n
  refine ⟨shiftByField_lsl_toNat _ _ _, rfl, fun h0 => ?_, rfl, ?_, rfl, fun k hk => getLsbD_rrx _ _ hk,
    fun k hk => ?_, rfl⟩
  · have hn : n < 32 := amount.isLt
    have hfield (ty : ShiftType) : s.operand2 (.shiftImm rm ty amount) = shiftBy ty m n s.cpsr.flags.c :=
      shiftByField_of_ne_zero ty m h0 _
    simp only [hfield, shiftBy_lsl h0 hn, shiftBy_lsr h0 hn, shiftBy_asr h0 hn, shiftBy_ror h0 hn, and_true]
    refine ⟨?_, ?_, fun k hk => getLsbD_rotateRight_word m n hk⟩
    · rw [BitVec.toNat_ushiftRight, Nat.shiftRight_eq_div_pow]
    · rw [BitVec.toInt_sshiftRight, Int.shiftRight_eq_div_pow, Nat.cast_pow, Nat.cast_ofNat]
  · rw [← sshiftRight_31]
    rfl
  · show ((imm8.setWidth 32).rotateRight (2 * rotate.toNat)).getLsbD k = _
    rw [getLsbD_rotateRight_word _ _ hk, BitVec.getLsbD_setWidth,
      decide_eq_true (Nat.mod_lt _ (by decide)), Bool.true_and]

end Sys2Proof.Machine
end

section
/-! PROOFS. The operations of the ALU as the table of spec/42_data_processing.md R170 writes them; from it the tests
(O17) and the results written to the program counter (O18). -/

namespace Sys2Proof.Machine

/-! ## The adder as a subtracter -/

/-- The complement of a word as a signed number. -/
theorem toInt_not_word (y : Word) : (~~~y).toInt = -y.toInt - 1 := by
  have hlt := y.isLt
  rw [BitVec.toInt_eq_toNat_cond, BitVec.toInt_eq_toNat_cond, BitVec.toNat_not]
  split <;> split <;> omega

/-- Adding the complement subtracts, and one more where the carry is clear (R179; log entry 24). -/
theorem addC_not_value (x y : Word) (c : Bool) : (addC x (~~~y) c).value = x - y + bitWord c - 1 := by
  rw [addC_value, BitVec.not_eq_neg_add]
  show x + (-y - 1#32) + bitWord c = x - y + bitWord c - 1#32
  ring

/-- The carry is set where the subtraction does not borrow (R179). -/
theorem addC_not_c (x y : Word) (c : Bool) : (addC x (~~~y) c).c = decide (y.toNat + (!c).toNat ≤ x.toNat) := by
  have hx := x.isLt
  have hy := y.isLt
  rw [addC_c, decide_eq_decide, BitVec.toNat_not]
  cases c <;> simp only [Bool.not_false, Bool.not_true, Bool.toNat_false, Bool.toNat_true] <;> omega

/-- The overflow is that of the exact signed difference (R179). -/
theorem addC_not_v (x y : Word) (c : Bool) :
    (addC x (~~~y) c).v = decide (x.toInt - y.toInt + (c.toNat : Int) - 1 < -2 ^ 31
      ∨ 2 ^ 31 ≤ x.toInt - y.toInt + (c.toNat : Int) - 1) := by
  have e : x.toInt + (~~~y).toInt + (c.toNat : Int) = x.toInt - y.toInt + (c.toNat : Int) - 1 := by
    rw [toInt_not_word]
    omega
  rw [addC_v, e]

/-! ## The twelve operations -/

/-- The operation of the ALU that the model runs for each of the twelve (`DpOp.exec_instr_alu`). -/
def DpOp.alu : DpOp → AluIn → AluOut
  | .and => aluAnd | .eor => aluEor | .sub => aluSub | .rsb => aluRsb | .add => aluAdd | .adc => aluAdc
  | .sbc => aluSbc | .rsc => aluRsc | .orr => aluOrr | .mov => aluMov | .bic => aluBic | .mvn => aluMvn

/-- Each of the twelve is the one operation `dpWrite` with its own operation of the ALU, and with Rn where it reads
it. -/
theorem DpOp.exec_instr_alu (op : DpOp) (c : Cond) (f : Bool) (rd rn : Reg) (o : Operand2) (s : State) :
    exec (op.instr c f rd rn o) s = dpWrite c f rd (op.rnRead rn).head? o op.alu s := by
  cases op <;> rfl

@[simp] theorem DpOp.toList_head?_rnRead (op : DpOp) (rn : Reg) : (op.rnRead rn).head?.toList = op.rnRead rn := by
  cases op <;> rfl

/-- The result is that of R170's table: the adder with its carry 0 adds, with its carry 1 and a complement subtracts. -/
theorem DpOp.alu_value (op : DpOp) (x : AluIn) : (op.alu x).value = op.value x.op1 x.op2 x.c := by
  cases op
  case and | eor | orr | mov | bic | mvn => rfl
  case adc => exact addC_value _ _ _
  case sbc | rsc => exact addC_not_value _ _ _
  case add => exact (addC_value _ _ false).trans (BitVec.add_zero _)
  case sub | rsb => exact (addC_not_value _ _ true).trans (BitVec.add_sub_cancel _ _)

/-- The flags of the ALU are those of R179 to R181. -/
theorem DpOp.alu_flags (op : DpOp) (x : AluIn) :
    (op.alu x).flags = op.flags x.op1 x.op2 x.shiftCarry x.c x.v := by
  have hc : (op.alu x).c = if op.isLogical then x.shiftCarry else op.carryOut x.op1 x.op2 x.c := by
    cases op
    case and | eor | orr | mov | bic | mvn | add | adc => rfl
    case sbc | rsc => exact addC_not_c _ _ _
    case sub | rsb => exact addC_not_c _ _ true
  have hv : (op.alu x).v = if op.isLogical then x.v
      else decide (op.exact x.op1 x.op2 x.c < -2 ^ 31 ∨ 2 ^ 31 ≤ op.exact x.op1 x.op2 x.c) := by
    cases op
    case and | eor | orr | mov | bic | mvn => rfl
    case adc => exact addC_v _ _ _
    case sbc | rsc => exact addC_not_v _ _ _
    case add => exact (addC_v _ _ false).trans (by rw [Bool.toNat_false, Nat.cast_zero, add_zero]; rfl)
    case sub | rsb =>
      exact (addC_not_v _ _ true).trans (by rw [Bool.toNat_true, Nat.cast_one, add_sub_cancel_right]; rfl)
  rw [AluOut.flags, hc, hv, op.alu_value]
  rfl

/-- The result on the operands that an instruction names; MOV and MVN do not look at Rn. -/
theorem DpOp.alu_dpInput_value (op : DpOp) (s : State) (rn : Reg) (o : Operand2) :
    (op.alu (dpInput s (op.rnRead rn).head? o)).value = s.dpValue op rn o := by
  rw [op.alu_value]
  cases op <;> rfl

/-- The flags on the operands that an instruction names; those of MOV and MVN do not look at Rn. -/
theorem DpOp.alu_dpInput_flags (op : DpOp) (s : State) (rn : Reg) (o : Operand2) :
    (op.alu (dpInput s (op.rnRead rn).head? o)).flags = s.dpFlags op rn o := by
  rw [op.alu_flags]
  cases op <;> rfl

/-! ## The two ends -/

/-- Writing the flags and going on at A + 4 changes nothing else. -/
theorem State.setFlags_advance {s : State} (h : s.canAdvance) (g : Flags) :
    ∃ t, (s.setFlags g).advance = .next t ∧ t.cpsr.flags = g ∧ s.goesOnTo t [] ∧ s.keepsMemory t :=
  ⟨_, State.advance_of_canAdvance ((State.canAdvance_congr rfl rfl).2 h), rfl,
    ⟨rfl, fun _ _ => rfl, ⟨rfl, rfl, rfl⟩, ⟨rfl, rfl, rfl, rfl, rfl, rfl, rfl, rfl, .inl rfl, rfl⟩, rfl⟩,
    fun _ => rfl, rfl⟩

/-- A write of the program counter changes nothing else but that it flushes the Prefetch Unit (R31, R92). -/
theorem State.jumpTo_goesTo (s : State) (v : Word) : s.goesTo (s.jumpTo v) [] v :=
  ⟨rfl, fun _ _ => rfl, ⟨rfl, rfl, rfl⟩, rfl, rfl, rfl, rfl, rfl, rfl, rfl, rfl, .inr rfl, rfl⟩

section
variable {s : State} {c : Cond} {o : Operand2} {op : AluIn → AluOut}

/-- A test that is ready writes the flags and goes on. -/
theorem dpTest_ready {rn : Reg} (hr : s.ready c (rn :: operand2Reads o)) (hsh : r15InRegisterShift [rn] o = false) :
    dpTest c rn o op s = (s.setFlags (op (dpInput s (some rn) o)).flags).advance := by
  rw [dpTest, condExec_ready hr, hsh]
  rfl

/-- With Rd = R15 and S = 0 the result is written to the program counter (R184). -/
theorem dpWrite_r15 {rn : Option Reg} (hr : s.ready c (rn.toList ++ operand2Reads o))
    (hsh : r15InRegisterShift rn.toList o = false) :
    dpWrite c false .r15 rn o op s = .next (s.jumpTo (op (dpInput s rn o)).value) := by
  rw [dpWrite, condExec_ready hr, hsh]
  rfl

end

/-- Settles O17: each of the four tests is `dpTest` with the operation of the ALU of its result-writing partner. -/
theorem testResult : Obligations.TestResult := by
  intro s c rd rn o hr hsh _ hs p hp
  have hexec : exec p.1 s = dpTest c rn o p.2.alu s ∧ p.2.rnRead rn = [rn] := by
    simp only [List.mem_cons, List.not_mem_nil, or_false] at hp
    obtain rfl | rfl | rfl | rfl := hp <;> exact ⟨rfl, rfl⟩
  obtain ⟨htest, hrn⟩ := hexec
  have hflags : (p.2.alu (dpInput s (some rn) o)).flags = s.dpFlags p.2 rn o := by
    rw [← p.2.alu_dpInput_flags, hrn]
    rfl
  rw [htest, dpTest_ready hr hsh, hflags]
  exact State.setFlags_advance hs _

/-- Settles O18: each of the twelve is `dpWrite`, which with Rd = R15 and S = 0 is a write of the program counter. -/
theorem resultToPc : Obligations.ResultToPc := by
  intro op s c rn o hr hsh
  rw [← op.toList_head?_rnRead rn] at hr hsh
  refine ⟨s.jumpTo (s.dpValue op rn o), ?_, s.jumpTo_goesTo _, ⟨fun _ => rfl, rfl⟩, rfl, rfl⟩
  rw [op.exec_instr_alu, dpWrite_r15 hr hsh, op.alu_dpInput_value]

end Sys2Proof.Machine
end

section
/-! PROOFS. The single and halfword transfers whose access aborts (O40): the data abort is taken in a state that differs
from the one before the access in the exchange on the memory interface alone. -/

namespace Sys2Proof.Machine

/-! ## The data abort -/

/-- The data abort taken after changes that touch no register, no byte and no mark. -/
theorem Plain.abortsData {s u : State} (h : Plain s u) (hr : u.regs = s.regs) (hm : u.mem = s.mem)
    (hk : u.marks = s.marks) : s.abortsData (.next (u.enter .dataAbort (s.pc + 8))) := by
  refine ⟨_, rfl, ?_, ⟨fun a => congrArg (Memory.read · a) hm, hk⟩, h.ran26, h.ran32, h.lines, h.coproc, h.pending,
    h.aborts, h.platform, .inr (congrArg FetchUnit.flushed h.fetchUnit), h.cfg⟩
  have taken := u.enter_hasTaken .dataAbort (s.pc + 8)
  rwa [State.hasTaken, h.cpsr, h.spsrs, hr] at taken

/-! ## The transfers that abort -/

section
variable {width : Width} {ty : RequestType} {narrow user : Bool} {c : Cond} {idx : Index} {up : Bool} {rn rd : Reg}
  {rm : Option Reg} {offset : Word} {s : State}

/-- Only a word transfer can be of R15 (R269, R297). -/
theorem transferAllowed.narrow_eq_false {load : Bool} (ha : transferAllowed load narrow idx rn rd rm)
    (hd : rd = .r15) : narrow = false := by
  obtain ⟨-, -, hnarrow, -, -⟩ := ha
  exact Bool.eq_false_iff.2 fun hn => hnarrow hn hd

/-- A load whose operands are allowed and whose access aborts takes the data abort before it writes a register (R270). -/
theorem loadTransfer_aborts {value : State → Word → State × Word} (hr : s.ready c (rn :: rm.toList))
    (ha : transferAllowed true narrow idx rn rd rm)
    (h15 : narrow = false → rd = .r15 → (transferAddress idx up (s.reg rn) offset).toNat % 4 = 0)
    (hab : s.abortsAt (s.access user .load width false (transferAddress idx up (s.reg rn) offset)) = true) :
    s.abortsData (loadTransfer width ty narrow user value c idx up rn rd rm offset s) := by
  rw [loadTransfer_allowed hr ha (fun hd => h15 (ha.narrow_eq_false hd) hd), if_pos hab]
  exact ((Plain.refl s).request _ _ _).abortsData rfl rfl rfl

/-- A store whose operands are allowed and whose access aborts takes the data abort, with no byte stored and the base as
it was (R270). -/
theorem storeTransfer_aborts {bus : Word → Word} {put : State → Word → Word → State}
    (hr : s.ready c (rd :: rn :: rm.toList)) (ha : transferAllowed false narrow idx rn rd rm)
    (h15 : narrow = false → rd = .r15 → (transferAddress idx up (s.reg rn) offset).toNat % 4 = 0)
    (heven : width = .half → (transferAddress idx up (s.reg rn) offset).toNat % 2 = 0)
    (hab : s.abortsAt (s.access user .store width false (transferAddress idx up (s.reg rn) offset)) = true) :
    s.abortsData (storeTransfer width ty narrow user bus put c idx up rn rd rm offset s) := by
  rw [storeTransfer_allowed hr ha (fun hd => h15 (ha.narrow_eq_false hd) hd) heven, if_pos hab]
  exact ((Plain.refl s).storeAborted _ _ _ _).abortsData rfl rfl rfl

end

/-- Settles O40: each of the seven loads is `loadTransfer` and each of the five stores `storeTransfer`; the T forms are
post-indexed, so that their address is the base. -/
theorem transferAbort : Obligations.TransferAbort := by
  intro s c idx up rn rd off hoff rm a hrm ha
  refine ⟨fun hr => ?loads, fun hr => ?stores, fun hr hok => ?halfLoads, fun hr hok heven hab => ?strh⟩
  case loads =>
    refine ⟨fun hok h15 hab => ?ldr, fun hok hab => ?ldrb, fun hok h15 hab => ?ldrt, fun hok hab => ?ldrbt⟩
    case ldr | ldrt => exact loadTransfer_aborts hr hok (fun _ => h15) hab
    case ldrb | ldrbt => exact loadTransfer_aborts hr hok nofun hab
  case stores =>
    refine ⟨fun hok h15 hab => ?str, fun hok hab => ?strb, fun hok h15 hab => ?strt, fun hok hab => ?strbt⟩
    case str | strt => exact storeTransfer_aborts hr hok (fun _ => h15) nofun hab
    case strb | strbt => exact storeTransfer_aborts hr hok nofun nofun hab
  case halfLoads =>
    refine ⟨fun hab => ⟨?ldrh, ?ldrsh⟩, fun hab => ?ldrsb⟩
    case ldrh | ldrsh | ldrsb => exact loadTransfer_aborts hr hok nofun hab
  case strh => exact storeTransfer_aborts hr hok nofun (fun _ => heven) hab

end Sys2Proof.Machine
end

section
/-! PROOFS. The hazard after a user-bank LDM (O11), and the addresses of a block transfer (O42). -/

namespace Sys2Proof.Machine

/-! ## The hazard after a user-bank LDM -/

/-- A banked register among those that are read meets the hazard. -/
theorem State.hazard_of_mem {s : State} {reads : List Reg} {r : Reg} (hl : s.userLdm = true) (hr : r ∈ reads)
    (hb : s.cpsr.mode.bankedReg r = true) : s.hazard reads = true := by
  rw [State.hazard, hl, Bool.true_and, List.any_eq_true]
  exact ⟨r, hr, hb⟩

theorem condExec_hazard {c : Cond} {reads : List Reg} {s : State} (hc : c ≠ .nv)
    (hp : condPassed s.cpsr.flags c = true) (hz : s.hazard reads = true) (k : Out) :
    condExec c reads s k = .fault .userBankHazard := by
  simp [condExec, hc, hp, hz]

/-- Settles O11: every meaning opens with `condExec` on the registers that the instruction reads (`exec_eq_condExec`), and
one banked register among them is the hazard. -/
theorem userBankHazard : Obligations.UserBankHazard := by
  intro i s hc hp hl ⟨r, hr, hb⟩
  obtain ⟨k, hk⟩ := exec_eq_condExec i s
  exact hk.trans (condExec_hazard hc hp (State.hazard_of_mem hl hr hb) k)

/-! ## The addresses of a block transfer -/

/-- The first word of a block transfer lies at `start` of R312. -/
theorem State.blockAddress_zero (s : State) (p up : Bool) (rn : Reg) (list : BitVec 16) :
    s.blockAddress p up rn list 0 = blockStart p up (s.reg rn) (listRegs list).length := BitVec.add_zero _

/-- The words of a block transfer follow the first, four bytes apart. -/
theorem State.blockAddress_eq_first_add (s : State) (p up : Bool) (rn : Reg) (list : BitVec 16) (k : Nat) :
    s.blockAddress p up rn list k = s.blockAddress p up rn list 0 + BitVec.ofNat 32 (4 * k) := by
  rw [State.blockAddress_zero, State.blockAddress]

theorem State.blockTransfers_snd (s : State) (p up : Bool) (rn : Reg) {list : BitVec 16} {k : Nat}
    (hk : k < (listRegs list).length) :
    ((s.blockTransfers p up rn list)[k]?).map Prod.snd = some (s.blockAddress p up rn list k) := by
  rw [State.blockTransfers_getElem? s p up rn (List.getElem?_eq_getElem hk), Option.map_some]

/-- Settles O42: the transfers pair the sorted list with the addresses from the first word on, and each addressing mode
and each direction is one branch of `blockStart` and of `blockFinal`. -/
theorem blockAddresses : Obligations.BlockAddresses := by
  intro s p up rn list n
  refine ⟨s.blockTransfers_length p up rn list, fun k hk => s.blockTransfers_snd p up rn hk,
    s.blockTransfers_fst p up rn list, mem_listRegs list, listRegs_sorted list, ?ib, ?ia, ?db, ?da,
    s.blockAddress_eq_first_add p up rn list, ?finalUp, ?finalDown⟩
  case ib | ia | db | da => exact s.blockAddress_zero _ _ rn list
  case finalUp | finalDown => rfl

end Sys2Proof.Machine
end

section
/-! PROOFS. The return from an exception, by a data-processing instruction (O19) and by LDM (O44). -/

namespace Sys2Proof.Machine

/-! ## The return from an exception -/

/-- A mode with an SPSR that names a mode returns from an exception: the whole SPSR goes to the CPSR and the address to
the program counter, and nothing else changes but that the Prefetch Unit is flushed (R186, R320, R450). -/
theorem State.exceptionReturn_to {s : State} {n : SpsrName} {m : Mode} {v : Word} (hn : s.cpsr.mode.spsr = some n)
    (hm : (s.spsrs.get n).m = m.bits) (h26 : m.is26 = true → s.pc.toNat < 2 ^ 26 ∧ v.toNat < 2 ^ 26) :
    ∃ t, s.exceptionReturn v = .next t ∧ t.cpsr.toPsr = s.spsrs.get n ∧ t.pc = v &&& m.pcMask ∧ t.regs = s.regs
      ∧ s.keepsSystem t ∧ t.mem = s.mem ∧ t.marks = s.marks := by
  have hin : (m.is26 && (s.pc.extractLsb' 26 6 != 0#6 || v.extractLsb' 26 6 != 0#6)) = false := by
    simpa [top_bits_eq_zero] using h26
  have hgoes : s.exceptionReturn v = .next (State.jumpTo
      { s with cpsr := { flags := (s.spsrs.get n).flags, i := (s.spsrs.get n).i, f := (s.spsrs.get n).f, mode := m } }
      v) := by
    simp only [State.exceptionReturn, hn, Mode.ofBits_eq_some hm.symm, hin, Bool.false_eq_true, if_false]
    rfl
  have hcpsr : Cpsr.toPsr { flags := (s.spsrs.get n).flags, i := (s.spsrs.get n).i, f := (s.spsrs.get n).f, mode := m }
      = s.spsrs.get n := by
    rw [Cpsr.toPsr, ← hm]
  exact ⟨_, hgoes, hcpsr, rfl, rfl, ⟨rfl, rfl, rfl, rfl, rfl, rfl, rfl, rfl, .inr rfl, rfl⟩, rfl, rfl⟩

/-- A mode without an SPSR does not return from an exception (R38). -/
theorem State.exceptionReturn_noSpsr {s : State} (hn : s.cpsr.mode.spsr = none) (v : Word) :
    s.exceptionReturn v = .fault .noSpsr := by
  simp [State.exceptionReturn, hn]

/-- In a 32-bit mode R15 with S = 1 is the return from an exception (R186). -/
theorem State.writePcAndPsr_of_not_is26 {s : State} (h : s.cpsr.mode.is26 = false) (v : Word) :
    s.writePcAndPsr v = s.exceptionReturn v := by
  simp [State.writePcAndPsr, h]

/-- One of the twelve with Rd = R15 and S = 1 in a 32-bit mode returns from an exception to its result (R186). -/
theorem DpOp.exec_return {op : DpOp} {s : State} {c : Cond} {rn : Reg} {o : Operand2}
    (hr : s.ready c (op.rnRead rn ++ operand2Reads o)) (hsh : r15InRegisterShift (op.rnRead rn) o = false)
    (h32 : s.cpsr.mode.is26 = false) :
    exec (op.instr c true .r15 rn o) s = s.exceptionReturn (s.dpValue op rn o) := by
  rw [← op.toList_head?_rnRead rn] at hr hsh
  rw [op.exec_instr_alu, dpWrite, condExec_ready hr, hsh, ← State.writePcAndPsr_of_not_is26 h32,
    ← op.alu_dpInput_value]
  rfl

/-- Settles O19: each of the twelve with Rd = R15 and S = 1 is `State.exceptionReturn` of its result. -/
theorem returnFromException : Obligations.ReturnFromException := by
  intro op s c rn o n m hr hsh h32 hn hm h26
  obtain ⟨t, ht, hcpsr, hpc, hregs, hsys, hmem, hmarks⟩ := State.exceptionReturn_to hn hm h26
  exact ⟨t, (op.exec_return hr hsh h32).trans ht, hcpsr, hpc, hregs, hsys, fun a => by rw [hmem], hmarks⟩

/-! ## The registers that an LDM leaves -/

/-- After a plain change, what keeps the SPSRs and the platform has kept those of the first state. -/
theorem Plain.keepsSystem_trans {s u t : State} (h : Plain s u) (k : u.keepsSystem t) : s.keepsSystem t := by
  obtain ⟨hs, h26, h32, hl, hc, hw, ha, hp, hf, hg⟩ := k
  rw [h.fetchUnit] at hf
  exact ⟨hs.trans h.spsrs, h26.trans h.ran26, h32.trans h.ran32, hl.trans h.lines, hc.trans h.coproc,
    hw.trans h.pending, ha.trans h.aborts, hp.trans h.platform, hf, hg.trans h.cfg⟩

section
variable (s : State) (p up psr w : Bool) (rn : Reg) (list : BitVec 16)

/-- Before its registers are loaded, an LDM has changed the written-back base and the outputs alone. -/
theorem State.ldmLoaded_eq_loadRegs : ∃ u, Plain s u ∧ u.mem = s.mem ∧ u.marks = s.marks
    ∧ (∀ q, u.regs.get q = if w = true ∧ s.cpsr.mode.bank.view rn = some q
        then blockFinal up (s.reg rn) (listRegs list).length else s.regs.get q)
    ∧ s.ldmLoaded p up psr w rn list
      = u.loadRegs (blockBank true psr list s.cpsr.mode) (s.blockTransfers p up rn list) := by
  obtain ⟨hp, hregs, hmem, hmarks, -⟩ := s.loadRequests_plain 0 (s.blockTransfers p up rn list)
  cases w with
  | false => exact ⟨_, hp, hmem, hmarks, fun q => by simp [hregs], rfl⟩
  | true =>
    refine ⟨_, hp.setReg rn (blockFinal up (s.reg rn) (listRegs list).length), by simp [hmem], by simp [hmarks],
      fun q => ?_, ?_⟩
    · simp [State.get_setReg, hregs, hp.cpsr]
    · simp [State.ldmLoaded, State.blockTransfers_length]

theorem State.ldmLoaded_marks : (s.ldmLoaded p up psr w rn list).marks = s.marks := by
  obtain ⟨u, -, -, hmarks, -, he⟩ := s.ldmLoaded_eq_loadRegs p up psr w rn list
  rw [he, (u.loadRegs_plain _ _).2.2, hmarks]

/-- A register that the list does not load keeps its value, but for the base with write-back, which receives the final
address (R312, R315). -/
theorem State.ldmLoaded_unlisted {q : PReg}
    (hq : ∀ r ∈ listRegs list, (blockBank true psr list s.cpsr.mode).view r ≠ some q) :
    (s.ldmLoaded p up psr w rn list).regs.get q = if w = true ∧ s.cpsr.mode.bank.view rn = some q
      then blockFinal up (s.reg rn) (listRegs list).length else s.regs.get q := by
  obtain ⟨u, -, -, -, hget, he⟩ := s.ldmLoaded_eq_loadRegs p up psr w rn list
  rw [he, State.loadRegs_other, hget]
  intro ra hra
  exact hq ra.1 (s.blockTransfers_fst p up rn list ▸ List.mem_map_of_mem hra)

/-- A register of the list receives its word (R315, R321). -/
theorem State.ldmLoaded_listed {k : Nat} {r : Reg} {q : PReg} (hk : (listRegs list)[k]? = some r)
    (hq : (blockBank true psr list s.cpsr.mode).view r = some q) :
    (s.ldmLoaded p up psr w rn list).regs.get q = s.loadWord (s.blockAddress p up rn list k) := by
  obtain ⟨u, hp, hmem, -, -, he⟩ := s.ldmLoaded_eq_loadRegs p up psr w rn list
  have hnodup : ((s.blockTransfers p up rn list).map Prod.fst).Nodup := by
    rw [State.blockTransfers_fst]
    exact listRegs_nodup list
  rw [he, State.loadRegs_get u hnodup (s.blockTransfers_getElem? p up rn hk) hq, State.loadWord_congr hmem hp.cfg]

end

/-- Settles O44: an LDM with R15 in its list transfers the bank of its own mode (`State.ldmLoaded_listed`) and ends as
`State.exceptionReturn` of its last word (`execLdm_return`). -/
theorem ldmReturnResult : Obligations.LdmReturnResult := by
  intro s c p up w rn list n m hr hrn hb h15 ha h32 hn hm v h26
  obtain ⟨hp, hmem⟩ := s.ldmLoaded_plain p up true w rn list
  have hbank : blockBank true true list s.cpsr.mode = s.cpsr.mode.bank := by
    rw [blockBank, userBank_load_of_mem h15]
    rfl
  have hret := execLdm_return hr hrn hb h15 ha h32 (by simp [hn])
  rw [← hp.spsrs] at hm
  rw [← hp.pc] at h26
  obtain ⟨t, ht, hcpsr, hpc, hregs, hsys, hmem', hmarks⟩ := State.exceptionReturn_to (by rw [hp.cpsr, hn]) hm h26
  refine ⟨t, hret.trans ht, fun k r q hk hq => ?listed, fun q hw hq => ?base, hpc, hcpsr.trans (by rw [hp.spsrs]),
    fun q hq => ?other, hp.keepsSystem_trans hsys, fun a => by rw [hmem', hmem], hmarks.trans (s.ldmLoaded_marks ..)⟩
  case listed =>
    rw [hregs]
    exact s.ldmLoaded_listed p up true w rn list hk (by rw [hbank]; exact hq)
  case base =>
    rw [hregs, State.ldmLoaded_unlisted, if_pos ⟨hw, hq⟩]
    intro r hr' hv
    rw [hbank] at hv
    exact hb hw (Bank.view_injective hq hv ▸ hr')
  case other =>
    rw [hregs, State.ldmLoaded_unlisted, if_neg fun h => hq rn (by simp [h.1]) h.2]
    intro r hr'
    rw [hbank]
    exact hq r (by simp [hr'])

end Sys2Proof.Machine
end

section
/-! PROOFS. The combined PC/PSR word of a 26-bit mode written by the P forms (O21), and MSR to the CPSR (O24). -/

namespace Sys2Proof.Machine

/-! ## The combined PC/PSR word -/

/-- M1 and M0 of a combined word are the mode bits of the 26-bit mode that they name (R397). -/
theorem Mode.bits_of26 (v : Word) : (Mode.of26 (v.getLsbD 1) (v.getLsbD 0)).bits = 0b000#3 ++ v.extractLsb' 0 2 := by
  have hlow : v.extractLsb' 0 2 = BitVec.ofBool (v.getLsbD 1) ++ BitVec.ofBool (v.getLsbD 0) := by
    apply BitVec.eq_of_getLsbD_eq
    intro k hk
    rw [BitVec.getLsbD_extractLsb', BitVec.getLsbD_append]
    interval_cases k <;> simp
  rw [hlow]
  cases v.getLsbD 1 <;> cases v.getLsbD 0 <;> rfl

/-- In a privileged mode I, F, M1 and M0 come from the combined word (R397). -/
theorem State.writePsr26_privileged {s : State} (h : s.cpsr.mode.privileged = true) (v : Word) :
    (s.writePsr26 v).cpsr.i = v.getLsbD 27 ∧ (s.writePsr26 v).cpsr.f = v.getLsbD 26
      ∧ (s.writePsr26 v).cpsr.mode.bits = 0b000#3 ++ v.extractLsb' 0 2 := by
  rw [State.writePsr26, if_pos h]
  exact ⟨rfl, rfl, Mode.bits_of26 v⟩

/-- In an unprivileged mode I, F and the mode stay (R397). -/
theorem State.writePsr26_keepsControl {s : State} (h : s.cpsr.mode.privileged = false) (v : Word) :
    s.keepsControl (s.writePsr26 v) := by
  simp [State.writePsr26, State.keepsControl, h]

/-- The combined word written changes no SPSR and nothing of the platform. -/
theorem State.writePsr26_keepsSystem (s : State) (v : Word) : s.keepsSystem (s.writePsr26 v) := by
  simp [State.keepsSystem, State.keepsPlatform]

section
variable {s : State} {c : Cond} {rn : Reg} {o : Operand2} {op : AluIn → AluOut}

/-- A P form in a 26-bit mode writes the PSR bits of its result and goes on (R397). -/
theorem dpPsr_ready (hr : s.ready c (rn :: operand2Reads o)) (h26 : s.cpsr.mode.is26 = true)
    (hsh : r15InRegisterShift [rn] o = false) :
    dpPsr c rn o op s = (s.writePsr26 (op (dpInput s (some rn) o)).value).advance := by
  rw [dpPsr, condExec_ready hr, h26, hsh]
  rfl

/-- In a 32-bit mode the P forms stop (R185). -/
theorem dpPsr_in32 (hr : s.ready c (rn :: operand2Reads o)) (h32 : s.cpsr.mode.is26 = false) :
    dpPsr c rn o op s = .fault .pFormIn32Bit := by
  rw [dpPsr, condExec_ready hr, h32]
  rfl

end

/-- Settles O21: each of the four is `dpPsr` with the operation of the ALU of its result-writing partner, and what it
changes is what `State.writePsr26` changes. -/
theorem pFormResult : Obligations.PFormResult := by
  intro s c rn o hr p hp
  obtain ⟨hexec, hrn⟩ : exec p.1 s = dpPsr c rn o p.2.alu s ∧ p.2.rnRead rn = [rn] := by
    simp only [List.mem_cons, List.not_mem_nil, or_false] at hp
    obtain rfl | rfl | rfl | rfl := hp <;> exact ⟨rfl, rfl⟩
  rw [hexec]
  refine ⟨fun h26 hsh hs => ?_, dpPsr_in32 hr⟩
  intro v
  have hv : (p.2.alu (dpInput s (some rn) o)).value = v := by
    have := p.2.alu_dpInput_value s rn o
    rwa [hrn] at this
  have hs' : (s.writePsr26 v).canAdvance :=
    (State.canAdvance_congr (by simp) (by rw [State.writePsr26_is26 h26, h26])).2 hs
  rw [dpPsr_ready hr h26 hsh, hv]
  exact ⟨_, State.advance_of_canAdvance hs', by simp, State.writePsr26_flags s v,
    fun hp => State.writePsr26_privileged hp v, fun hp => State.writePsr26_keepsControl hp v,
    State.writePsr26_regs s v, s.writePsr26_keepsSystem v, fun _ => by simp, State.writePsr26_marks s v⟩

/-! ## MSR to the CPSR -/

/-- A write of the control field that names a mode, and a 26-bit one only below the top, writes the CPSR and goes on
(R224). -/
theorem State.msrControl_eq {s : State} {g : Flags} {v : Word} {m : Mode} (hs : s.canAdvance)
    (hm : v.extractLsb' 0 5 = m.bits) (h26 : m.is26 = true → s.pc.toNat < 0x03FFFFFC) :
    s.msrControl g v
      = State.advance { s with cpsr := { flags := g, i := v.getLsbD 7, f := v.getLsbD 6, mode := m } } := by
  have htop : (s.cpsr.mode.is26 && s.pc == 0x03FFFFFC#32) = false := by simpa using hs.2
  have hin : (m.is26 && s.pc.extractLsb' 26 6 != 0#6) = false := by
    simpa [top_bits_eq_zero] using fun h => (h26 h).trans (by decide)
  rw [State.msrControl, Mode.ofBits_eq_some hm.symm]
  simp [htop, hin]

/-- MSR to the CPSR that does not select the control field writes the flags field alone (R224). -/
theorem execMsr_flags {s : State} {c : Cond} {mask : BitVec 4} {src : MsrSource} (hr : s.ready c (msrReads src))
    (hd : src ≠ .reg .r15) (hm : mask.getLsbD 0 = false) :
    execMsr c false mask src s
      = (s.setFlags (if mask.getLsbD 3 then Flags.ofWord (s.msrValue src) else s.cpsr.flags)).advance := by
  rw [execMsr, condExec_ready hr, if_neg (mt msrReads_eq_r15.1 hd)]
  simp only [hm, Bool.false_and, Bool.false_eq_true, if_false]

/-- MSR to the CPSR in a privileged mode writes the fields that are selected and goes on; `m` is the mode that it leaves
(R224). -/
theorem execMsr_cpsr {s : State} {c : Cond} {mask : BitVec 4} {src : MsrSource} {m : Mode}
    (hr : s.ready c (msrReads src)) (hd : src ≠ .reg .r15) (hp : s.cpsr.mode.privileged = true) (hs : s.canAdvance)
    (hm : if mask.getLsbD 0
      then (s.msrValue src).extractLsb' 0 5 = m.bits ∧ (m.is26 = true → s.pc.toNat < 0x03FFFFFC)
      else m = s.cpsr.mode) :
    execMsr c false mask src s = State.advance { s with cpsr :=
      { flags := if mask.getLsbD 3 then Flags.ofWord (s.msrValue src) else s.cpsr.flags
        i := if mask.getLsbD 0 then (s.msrValue src).getLsbD 7 else s.cpsr.i
        f := if mask.getLsbD 0 then (s.msrValue src).getLsbD 6 else s.cpsr.f
        mode := m } } := by
  cases hctl : mask.getLsbD 0 with
  | true =>
    simp only [hctl, if_true] at hm ⊢
    obtain ⟨hbits, h26⟩ := hm
    rw [execMsr_control hr hd hp hctl, State.msrControl_eq hs hbits h26]
  | false =>
    simp only [hctl, Bool.false_eq_true, if_false] at hm ⊢
    rw [execMsr_flags hr hd hctl, hm]
    rfl

/-- Settles O24: MSR writes the CPSR alone (`execMsr_cpsr`), and the mode that it leaves can go on. -/
theorem msrCpsrResult : Obligations.MsrCpsrResult := by
  intro s c mask src m hr hd hp hs hm
  have hlow : m.is26 = true → s.pc ≠ 0x03FFFFFC#32 := by
    intro h26 hpc
    split at hm
    · exact absurd (hm.2 h26) (by rw [hpc]; decide)
    · exact hs.2 (hm ▸ h26) hpc
  have hexec := (execMsr_cpsr hr hd hp hs hm).trans (State.advance_of_canAdvance ⟨hs.1, hlow⟩)
  exact ⟨_, hexec, rfl, rfl, rfl, rfl, rfl, rfl, ⟨rfl, rfl, rfl, rfl, rfl, rfl, rfl, rfl, .inl rfl, rfl⟩,
    fun _ => rfl, rfl⟩

end Sys2Proof.Machine
end

section
/-! PROOFS. The stops of data processing (O22). -/

namespace Sys2Proof.Machine

/-- R15 as Rm, as Rs or among the other registers read is R15 in a register-specified shift (R178). -/
theorem r15InRegisterShift_of_r15 {rns : List Reg} {o : Operand2}
    (h : ∃ rm ty rs, o = .shiftReg rm ty rs ∧ (rm = .r15 ∨ rs = .r15 ∨ .r15 ∈ rns)) :
    r15InRegisterShift rns o = true := by
  obtain ⟨rm, ty, rs, rfl, h⟩ := h
  simpa [r15InRegisterShift, or_assoc] using h

section
variable {s : State} {c : Cond} {o : Operand2} {op : AluIn → AluOut}

theorem dpWrite_r15Shift {f : Bool} {rd : Reg} {rn : Option Reg} (hr : s.ready c (rn.toList ++ operand2Reads o))
    (hsh : r15InRegisterShift rn.toList o = true) : dpWrite c f rd rn o op s = .fault .r15RegisterShift := by
  rw [dpWrite, condExec_ready hr, if_pos hsh]

theorem dpTest_r15Shift {rn : Reg} (hr : s.ready c (rn :: operand2Reads o))
    (hsh : r15InRegisterShift [rn] o = true) : dpTest c rn o op s = .fault .r15RegisterShift := by
  rw [dpTest, condExec_ready hr, if_pos hsh]

theorem dpPsr_r15Shift {rn : Reg} (hr : s.ready c (rn :: operand2Reads o)) (h26 : s.cpsr.mode.is26 = true)
    (hsh : r15InRegisterShift [rn] o = true) : dpPsr c rn o op s = .fault .r15RegisterShift := by
  rw [dpPsr, condExec_ready hr, if_pos h26, if_pos hsh]

end

/-- User and System mode are 32-bit modes without an SPSR (R22, R38). -/
theorem Mode.usr_or_sys {m : Mode} (h : m = .usr ∨ m = .sys) : m.is26 = false ∧ m.spsr = none := by
  obtain rfl | rfl := h <;> exact ⟨rfl, rfl⟩

/-- Settles O22: each meaning asks about R15 in a register-specified shift before it has an effect, and the other stops
are those of `State.exceptionReturn`. -/
theorem dataProcessingStops : Obligations.DataProcessingStops := by
  intro op s c f rd rn o
  refine ⟨fun hr => ⟨fun h15 => ?shift, fun hsh hm => ?noSpsr, fun n hsh h32 hn => ⟨fun hm => ?invalid,
    fun m hm h26 hv => ?outside⟩⟩, fun hr h15 => ?tests⟩
  case shift =>
    have hsh := r15InRegisterShift_of_r15 h15
    rw [← op.toList_head?_rnRead rn] at hr hsh
    exact (op.exec_instr_alu c f rd rn o s).trans (dpWrite_r15Shift hr hsh)
  case noSpsr =>
    obtain ⟨h32, hn⟩ := Mode.usr_or_sys hm
    exact (op.exec_return hr hsh h32).trans (State.exceptionReturn_noSpsr hn _)
  case invalid => exact (op.exec_return hr hsh h32).trans (State.exceptionReturn_invalidMode hn hm)
  case outside => exact (op.exec_return hr hsh h32).trans (State.exceptionReturn_enter26Outside hn hm h26 hv)
  case tests =>
    have hsh : r15InRegisterShift [rn] o = true := r15InRegisterShift_of_r15 (by simpa [eq_comm] using h15)
    refine ⟨fun i hi => ?_, fun h26 i hi => ?_⟩ <;> simp only [List.mem_cons, List.not_mem_nil, or_false] at hi
    · obtain rfl | rfl | rfl | rfl := hi <;> exact dpTest_r15Shift hr hsh
    · obtain rfl | rfl | rfl | rfl := hi <;> exact dpPsr_r15Shift hr h26 hsh

end Sys2Proof.Machine
end

section
/-! PROOFS. Every step that goes on keeps the invariant (O5), and the state after reset meets it (O6). -/

namespace Sys2Proof.Machine

/-! ## The operations that keep the invariant -/

theorem State.inv_emit {s : State} (hs : s.inv) (o : Output) : (s.emit o).inv :=
  State.inv_congr hs rfl rfl rfl rfl rfl rfl rfl rfl

theorem State.inv_drawn {s : State} (hs : s.inv) : s.drawn.inv := State.inv_congr hs rfl rfl rfl rfl rfl rfl rfl rfl

theorem State.inv_setFlags {s : State} (hs : s.inv) (g : Flags) : (s.setFlags g).inv :=
  State.inv_congr hs rfl rfl rfl rfl rfl rfl rfl rfl

theorem State.inv_setReg {s : State} (hs : s.inv) (r : Reg) (v : Word) : (s.setReg r v).inv :=
  State.inv_congr hs (by simp) (by simp) (by simp) (by simp) (by simp) (by simp) (by simp) (by simp)

theorem State.inv_coprocExecute {s : State} (hs : s.inv) (a : CoprocAnswer) (v : Word) : (s.coprocExecute a v).inv :=
  State.inv_congr hs rfl rfl rfl rfl rfl rfl rfl rfl

/-- A plain change that leaves memory and the marks keeps the invariant. -/
theorem Plain.inv {s u : State} (h : Plain s u) (hs : s.inv) (hm : u.mem = s.mem) (hk : u.marks = s.marks) : u.inv :=
  State.inv_congr hs h.pc (by rw [h.cpsr]) hm hk h.ran26 h.ran32 (by rw [h.fetchUnit]) h.cfg

/-- A combined PC/PSR word written in a 26-bit mode leaves a 26-bit mode, so that the program counter stays legal. -/
theorem State.inv_writePsr26 {s : State} (hs : s.inv) (h26 : s.cpsr.mode.is26 = true) (v : Word) :
    (s.writePsr26 v).inv := by
  obtain ⟨hpc, hcanon, hfresh⟩ := hs
  rw [State.pcLegal_iff] at hpc
  refine ⟨State.pcLegal_iff.2 ?_, State.canonical_writePsr26 hcanon v,
    State.fresh_congr hfresh (by simp) (by simp) (by simp) (by simp)⟩
  rw [State.writePsr26_pc]
  exact ⟨hpc.1, fun _ => hpc.2 h26⟩

/-- A 26-bit mode is entered by MSR below 2^26 alone (R406). -/
theorem State.inv_msrControl {s t : State} {g : Flags} {v : Word} (hs : s.inv) (h : s.msrControl g v = .next t) :
    t.inv := by
  obtain ⟨m, -, -, hlow, h⟩ := State.msrControl_next h
  obtain ⟨hpc, hcanon, hfresh⟩ := hs
  refine State.inv_advance ?_ h
  exact ⟨State.pcLegal_iff.2 ⟨(State.pcLegal_iff.1 hpc).1, fun h26 => top_bits_eq_zero.1 (hlow h26)⟩, hcanon, hfresh⟩

/-- The address of the instruction is noted below 2^32. -/
theorem State.inv_issue {s : State} (hs : s.inv) (i : Instr) (w : Word) : (s.issue i w).inv := by
  obtain ⟨hpc, ⟨hmem, hmarks, h26, h32⟩, hfresh⟩ := hs
  refine ⟨?_, ⟨by simpa using hmem, by simpa using hmarks, ?_, ?_⟩,
    State.fresh_congr hfresh (by simp) (by simp) (by simp) (by simp)⟩
  · simpa [State.pcLegal] using hpc
  · rw [State.issue_ran26, State.noteRan]
    split
    · exact rising_insertAddr h26 s.pc.isLt
    · exact h26
  · rw [State.issue_ran32, State.noteRan]
    split
    · exact h32
    · exact rising_insertAddr h32 s.pc.isLt

/-- Reset gives the invariant (R481). -/
theorem State.inv_takeReset {s : State} (hs : s.canonical) : s.takeReset.inv := by
  refine ⟨?_, ⟨?_, rfl, rfl, rfl⟩, State.fresh_of_empty rfl⟩
  · show (0 : Word) &&& Mode.svc.pcMask = 0
    rfl
  · show Memory.wf s.abandon.mem = true
    rw [State.abandon_mem]
    exact hs.1

/-! ## The meanings -/

section
variable {c : Cond} {s t : State}

/-- A cancelled instruction keeps the invariant. -/
theorem State.inv_cancelled (hs : s.inv) (h : c ≠ .nv ∧ condPassed s.cpsr.flags c = false ∧ s.advance = .next t) :
    t.inv :=
  State.inv_advance hs h.2.2

theorem condExec_inv {reads : List Reg} {k : Out} (hs : s.inv) (hk : k = .next t → t.inv)
    (h : condExec c reads s k = .next t) : t.inv := by
  obtain ⟨-, h⟩ | h := condExec_next h
  · exact hk h
  · exact State.inv_cancelled hs h

theorem dpWrite_inv {f : Bool} {rd : Reg} {rn : Option Reg} {o : Operand2} {op : AluIn → AluOut} (hs : s.inv)
    (h : dpWrite c f rd rn o op s = .next t) : t.inv := by
  obtain h | ⟨-, -, ⟨-, -, h⟩ | ⟨-, -, rfl⟩ | ⟨-, -, h⟩ | ⟨-, -, h⟩⟩ := dpWrite_next h
  · exact State.inv_cancelled hs h
  · exact State.inv_writePcAndPsr hs.2.1 h
  · exact State.inv_jumpTo hs.2.1 _
  · exact State.inv_advance (State.inv_setFlags (State.inv_setReg hs _ _) _) h
  · exact State.inv_advance (State.inv_setReg hs _ _) h

theorem dpTest_inv {rn : Reg} {o : Operand2} {op : AluIn → AluOut} (hs : s.inv) (h : dpTest c rn o op s = .next t) :
    t.inv := by
  obtain h | ⟨-, -, h⟩ := dpTest_next h
  · exact State.inv_cancelled hs h
  · exact State.inv_advance (State.inv_setFlags hs _) h

theorem dpPsr_inv {rn : Reg} {o : Operand2} {op : AluIn → AluOut} (hs : s.inv) (h : dpPsr c rn o op s = .next t) :
    t.inv := by
  obtain h | ⟨-, h26, -, h⟩ := dpPsr_next h
  · exact State.inv_cancelled hs h
  · exact State.inv_advance (State.inv_writePsr26 hs h26 _) h

theorem execMrs_inv {spsr : Bool} {rd : Reg} (hs : s.inv) (h : execMrs c spsr rd s = .next t) : t.inv := by
  obtain h | ⟨-, -, p, -, h⟩ := execMrs_next h
  · exact State.inv_cancelled hs h
  · exact State.inv_advance (State.inv_setReg (State.inv_drawn hs) _ _) h

theorem execMsr_inv {spsr : Bool} {mask : BitVec 4} {src : MsrSource} (hs : s.inv)
    (h : execMsr c spsr mask src s = .next t) : t.inv := by
  obtain h | ⟨-, -, ⟨n, -, -, h⟩ | ⟨-, -, -, h⟩ | ⟨-, -, h⟩⟩ := execMsr_next h
  · exact State.inv_cancelled hs h
  · refine State.inv_advance ?_ h
    exact State.inv_congr hs rfl rfl rfl rfl rfl rfl rfl rfl
  · exact State.inv_msrControl hs h
  · exact State.inv_advance (State.inv_setFlags hs _) h

theorem mulWrite_inv {f : Bool} {rd rn rs rm : Reg} {reads : List Reg} {result : Word} (hs : s.inv)
    (h : mulWrite c f rd rn rs rm reads result s = .next t) : t.inv := by
  obtain h | ⟨-, -, -, -, -, -, ⟨-, h⟩ | ⟨-, h⟩⟩ := mulWrite_next h
  · exact State.inv_cancelled hs h
  · exact State.inv_advance (State.inv_setFlags (State.inv_setReg (State.inv_drawn hs) _ _) _) h
  · exact State.inv_advance (State.inv_setReg hs _ _) h

theorem mullWrite_inv {f : Bool} {rdHi rdLo rs rm : Reg} {reads : List Reg} {p : BitVec 64} (hs : s.inv)
    (h : mullWrite c f rdHi rdLo rs rm reads p s = .next t) : t.inv := by
  obtain h | ⟨-, -, -, -, -, -, -, -, ⟨-, h⟩ | ⟨-, h⟩⟩ := mullWrite_next h
  · exact State.inv_cancelled hs h
  · exact State.inv_advance
      (State.inv_setFlags (State.inv_setReg (State.inv_setReg (State.inv_drawn hs) _ _) _ _) _) h
  · exact State.inv_advance (State.inv_setReg (State.inv_setReg hs _ _) _ _) h

/-- A load: `hv` says that its value keeps the invariant. -/
theorem loadTransfer_inv {width : Width} {ty : RequestType} {narrow user : Bool} {value : State → Word → State × Word}
    {idx : Index} {up : Bool} {rn rd : Reg} {rm : Option Reg} {offset : Word} (hs : s.inv)
    (hv : ∀ u a, u.inv → (value u a).1.inv)
    (h : loadTransfer width ty narrow user value c idx up rn rd rm offset s = .next t) : t.inv := by
  have hbase (acc base) : (s.afterLoadBase ty acc idx rn base).inv :=
    have hb := s.afterLoadBase_plain ty acc idx rn base
    hb.1.inv hs hb.2.1 hb.2.2.1
  obtain h | ⟨-, -, -, ⟨-, rfl⟩ | ⟨-, -, rfl⟩ | ⟨-, -, h⟩⟩ := loadTransfer_next h
  · exact State.inv_cancelled hs h
  · exact State.inv_enter (State.inv_emit hs _).2.1 _ _
  · exact State.inv_jumpTo (hv _ _ (hbase _ _)).2.1 _
  · exact State.inv_advance (State.inv_setReg (hv _ _ (hbase _ _)) _ _) h

theorem halfValue_inv (extend : Half → Word) (u : State) (a : Word) (hu : u.inv) : (halfValue extend u a).1.inv := by
  rw [halfValue_state]
  split
  · exact State.inv_drawn hu
  · exact hu

/-- A store: `hput` says that what it puts to memory keeps the invariant, a halfword at an even address. -/
theorem storeTransfer_inv {width : Width} {ty : RequestType} {narrow user : Bool} {bus : Word → Word}
    {put : State → Word → Word → State} {idx : Index} {up : Bool} {rn rd : Reg} {rm : Option Reg} {offset : Word}
    (hs : s.inv) (hput : ∀ u a v, (width = .half → a.toNat % 2 = 0) → u.inv → (put u a v).inv)
    (h : storeTransfer width ty narrow user bus put c idx up rn rd rm offset s = .next t) : t.inv := by
  obtain h | ⟨-, -, -, heven, ⟨-, rfl⟩ | ⟨-, h⟩⟩ := storeTransfer_next h
  · exact State.inv_cancelled hs h
  · exact State.inv_enter (State.inv_emit hs _).2.1 _ _
  · have hstored := hput _ _ (s.regM rd) heven (State.inv_storeRequest hs 0 ty
      (s.access user .store width false (transferAddress idx up (s.reg rn) offset)) (bus (s.regM rd)))
    split at h
    · exact State.inv_advance (State.inv_setReg hstored _ _) h
    · exact State.inv_advance hstored h

theorem swap_inv {width : Width} {readTy writeTy : RequestType} {bus : Word → Word} {value : State → Word → Word}
    {put : State → Word → Word → State} {rn rd rm : Reg} (hs : s.inv) (hput : ∀ u a v, u.inv → (put u a v).inv)
    (h : swap width readTy writeTy bus value put c rn rd rm s = .next t) : t.inv := by
  have hread (acc) : (s.request readTy acc 0).inv := State.inv_emit hs _
  obtain h | ⟨-, -, -, -, ⟨-, rfl⟩ | ⟨-, -, rfl⟩ | ⟨-, -, h⟩⟩ := swap_next h
  · exact State.inv_cancelled hs h
  · exact State.inv_enter (hread _).2.1 _ _
  · exact State.inv_enter (State.inv_emit (hread _) _).2.1 _ _
  · exact State.inv_advance (State.inv_setReg (hput _ _ _ (State.inv_storeRequest (hread _) _ _ _ _)) _ _) h

/-- An LDM that has loaded its list ends as a write of the program counter, or in sequence. -/
theorem State.inv_finishLoad {u : State} {psr p up : Bool} {rn : Reg} {list : BitVec 16} (hl : list ≠ 0) (hu : u.inv)
    (h : u.finishLoad psr list (s.blockTransfers p up rn list) = .next t) : t.inv := by
  rw [State.finishLoad_eq s u psr p up rn hl] at h
  split at h
  · split at h
    · exact State.inv_writePcAndPsr hu.2.1 h
    · exact State.inv_jump hu.2.1 h
  · split at h
    · obtain ⟨v, hv, rfl⟩ := markUserLdm_next h
      exact State.inv_congr (State.inv_advance hu hv) rfl rfl rfl rfl rfl rfl rfl rfl
    · exact State.inv_advance hu h

theorem execLdm_inv {p up psr w : Bool} {rn : Reg} {list : BitVec 16} (hs : s.inv)
    (h : execLdm c p up psr w rn list s = .next t) : t.inv := by
  obtain h | ⟨-, hx, ⟨-, rfl⟩ | ⟨-, h⟩⟩ := execLdm_next h
  · exact State.inv_cancelled hs h
  · obtain ⟨hq, -, hmem, hmarks, -⟩ := s.loadRequests_plain 0 (s.blockTransfers p up rn list)
    obtain ⟨hq', hmem', hmarks'⟩ := State.loadSome_plain (s.loadRequests 0 (s.blockTransfers p up rn list)).drawn
      (blockBank true psr list s.cpsr.mode) (s.cpsr.mode.bank.view rn) s.free
      (s.blockDone .load (s.blockTransfers p up rn list))
    exact State.inv_enter (hq'.inv (State.inv_drawn (hq.inv hs hmem hmarks)) hmem' hmarks').2.1 _ _
  · obtain ⟨hq, hmem⟩ := s.ldmLoaded_plain p up psr w rn list
    exact State.inv_finishLoad (list_ne_zero_of_blockStop hx) (hq.inv hs hmem (s.ldmLoaded_marks p up psr w rn list)) h

/-- The exchanges of a store multiple keep the invariant. -/
theorem State.inv_storeRequests (hs : s.inv) (value : Reg → Word) (k : Nat) (ts : List (Reg × Word)) :
    (s.storeRequests value k ts).inv := by
  obtain ⟨hq, -, hmem, hmarks⟩ := s.storeRequests_plain value k ts
  exact hq.inv (State.inv_askFrom hs k _) (by simpa using hmem) (by simpa using hmarks)

theorem execStm_inv {p up psr w : Bool} {rn : Reg} {list : BitVec 16} (hs : s.inv)
    (h : execStm c p up psr w rn list s = .next t) : t.inv := by
  have hd : (if baseNotSpecified w rn list then s.drawn else s).inv := by
    split
    · exact State.inv_drawn hs
    · exact hs
  have hu (value ts done) : (((if baseNotSpecified w rn list then s.drawn else s).storeRequests value 0 ts).storeWords
      value done).inv := State.inv_storeWords (State.inv_storeRequests hd value 0 ts) value done
  obtain h | ⟨-, -, ⟨-, rfl⟩ | ⟨-, h⟩⟩ := execStm_next h
  · exact State.inv_cancelled hs h
  · exact State.inv_enter (hu _ _ _).2.1 _ _
  · split at h
    · exact State.inv_advance (State.inv_setReg (hu _ _ _) _ _) h
    · exact State.inv_advance (hu _ _ _) h

theorem execB_inv {offset : BitVec 24} (hs : s.inv) (h : execB c offset s = .next t) : t.inv :=
  condExec_inv hs (State.inv_branch hs) h

theorem execBl_inv {offset : BitVec 24} (hs : s.inv) (h : execBl c offset s = .next t) : t.inv :=
  condExec_inv hs (State.inv_branch (State.inv_setReg hs _ _)) h

/-- The instruction memory barrier empties the lists of addresses. -/
theorem execSwi_inv {comment : BitVec 24} (hs : s.inv) (h : execSwi c comment s = .next t) : t.inv := by
  refine condExec_inv hs (fun h => ?_) h
  cases h
  have hclear : s.barrier.canonical := ⟨hs.2.1.1, rfl, rfl, rfl⟩
  exact State.inv_enter hclear _ _

theorem State.inv_trapUndefined (hs : s.inv) (h : s.trapUndefined = .next t) : t.inv := by
  cases h
  exact State.inv_enter hs.2.1 _ _

theorem State.inv_bounced (hs : s.inv) (h : s.bounced = .next t) : t.inv :=
  State.inv_trapUndefined (State.inv_emit hs _) h

theorem undefinedBtoE_inv {x : Fault} (hs : s.inv) (h : undefinedBtoE c x s = .next t) : t.inv := by
  refine condExec_inv hs (fun h => ?_) h
  split at h
  · exact State.inv_trapUndefined hs h
  · cases h

/-- MRC or MCR: `hwait` says what a cycle of busy-wait keeps, `hacc` what an accepted one does. -/
theorem coprocTransfer_inv {reads : List Reg} {bits : BitVec 26} {wait : State → State}
    {accepted : State → CoprocAnswer → Out} (hs : s.inv) (hwait : ∀ u, u.inv → (wait u).inv)
    (hacc : ∀ u a, u.inv → accepted u a = .next t → t.inv)
    (h : coprocTransfer c reads bits wait accepted s = .next t) : t.inv := by
  have hgo := State.inv_emit hs (.cpExecute true)
  obtain h | ⟨-, ⟨-, -, h⟩ | ⟨-, rfl⟩ | ⟨-, -, h⟩⟩ := coprocTransfer_next h
  · exact State.inv_cancelled hs h
  · exact State.inv_bounced hs h
  · exact State.inv_congr (hwait _ hgo) rfl rfl rfl rfl rfl rfl rfl rfl
  · exact hacc _ _ hgo h

theorem execMrc_inv {opc : BitVec 3} {crn : BitVec 4} {rd : Reg} {num : BitVec 4} {info : BitVec 3} {crm : BitVec 4}
    (hs : s.inv) (h : execMrc c opc crn rd num info crm s = .next t) : t.inv := by
  refine coprocTransfer_inv hs (fun u hu => State.inv_emit hu _) (fun u a hu h => ?_) h
  dsimp only at h
  split at h
  · exact State.inv_advance (State.inv_setFlags (State.inv_coprocExecute hu _ _) _) h
  · exact State.inv_advance (State.inv_setReg (State.inv_coprocExecute hu _ _) _ _) h

theorem execMcr_inv {opc : BitVec 3} {crn : BitVec 4} {rd : Reg} {num : BitVec 4} {info : BitVec 3} {crm : BitVec 4}
    (hs : s.inv) (h : execMcr c opc crn rd num info crm s = .next t) : t.inv := by
  simp only [execMcr] at h
  refine coprocTransfer_inv hs (fun u hu => (u.mcrWait_plain rd).inv hu (by simp) (by simp)) (fun u a hu h => ?_) h
  split at h
  · cases h
  · exact State.inv_advance (State.inv_emit (State.inv_emit (State.inv_coprocExecute hu _ _) _) _) h

end

/-! ## All 61 instructions, and a step -/

/-- Every instruction that goes on keeps the invariant. -/
theorem exec_inv {i : Instr} {s t : State} (hs : s.inv) (h : exec i s = .next t) : t.inv := by
  cases i with
  | and | eor | sub | rsb | add | adc | sbc | rsc | orr | bic | mov | mvn => exact dpWrite_inv hs h
  | tst | teq | cmp | cmn => exact dpTest_inv hs h
  | tstp | teqp | cmpp | cmnp => exact dpPsr_inv hs h
  | mrs => exact execMrs_inv hs h
  | msr => exact execMsr_inv hs h
  | mul | mla => exact mulWrite_inv hs h
  | umull | umlal | smull | smlal => exact mullWrite_inv hs h
  | ldr | ldrb | ldrt | ldrbt | ldrsb => exact loadTransfer_inv hs (fun _ _ hu => hu) h
  | ldrh | ldrsh => exact loadTransfer_inv hs (halfValue_inv _) h
  | str | strt => exact storeTransfer_inv hs (fun _ a v _ hu => State.inv_storeWord hu a v) h
  | strb | strbt => exact storeTransfer_inv hs (fun _ a _ _ hu => State.inv_storeByte hu a _) h
  | strh =>
    exact storeTransfer_inv hs (fun _ _ _ he hu => State.inv_storeHalf hu (getLsbD_zero_of_even (he rfl)) _) h
  | ldm => exact execLdm_inv hs h
  | stm => exact execStm_inv hs h
  | swp c rn rd rm =>
    rw [exec, execSwp] at h
    exact swap_inv hs (fun _ a v hu => State.inv_storeWord hu a v) h
  | swpb c rn rd rm =>
    rw [exec, execSwpb] at h
    exact swap_inv hs (fun _ a _ hu => State.inv_storeByte hu a _) h
  | b => exact execB_inv hs h
  | bl => exact execBl_inv hs h
  | swi c comment => exact execSwi_inv (comment := comment) hs h
  | cdp | ldc | stc => exact condExec_inv hs (State.inv_bounced hs) h
  | mrc => exact execMrc_inv hs h
  | mcr => exact execMcr_inv hs h
  | undefinedA => exact condExec_inv hs (State.inv_trapUndefined hs) h
  | undefinedB | undefinedC | undefinedD | undefinedE => exact undefinedBtoE_inv hs h
  | reservedMrs | reservedMsr | reservedSwp | reservedHreg => exact condExec_inv hs (fun h => by cases h) h

/-- Settles O5: the step boundary, the fetch and the announcement keep the invariant, every instruction does
(`exec_inv`), and reset and the exceptions give it. -/
theorem stepKeepsInvariant : Obligations.StepKeepsInvariant := by
  intro s t hs h
  have hb := State.inv_beginStep hs
  have ha : s.beginStep.abandon.canonical := State.canonical_congr hb.2.1 (by simp) (by simp) (by simp) (by simp)
  have hf := State.inv_requestFetch hb
  obtain ⟨-, rfl⟩ | ⟨-, ⟨-, rfl⟩ | ⟨-, rfl⟩ | ⟨w, -, h⟩ | ⟨-, rfl⟩ | ⟨w, -, h⟩⟩ := step_next h
  · exact State.inv_takeReset hb.2.1
  · exact State.inv_enter ha _ _
  · exact State.inv_enter ha _ _
  · exact exec_inv hb h
  · exact State.inv_enter hf.2.1 _ _
  · exact exec_inv (State.inv_issue hf _ _) h

/-- Settles O6: the state after reset is written out, and what its invariant asks of lists is asked of empty ones. -/
theorem resetState : Obligations.ResetState :=
  ⟨rfl, rfl, rfl, rfl, rfl, State.reset_canonical, State.reset_fresh⟩

end Sys2Proof.Machine
end

section
/-! PROOFS. How an instruction that writes registers and flags ends, said once; from it the twelve results (O16) and
their form for R15 in a 26-bit mode (O20). -/

namespace Sys2Proof.Machine

/-! ## The end at A + 4 -/

/-- `t` is `u` with the flags `g`, gone on at A + 4: an instruction at `s` that did its work in `u` has ended. -/
structure Ends (s u t : State) (g : Flags) (written : List Reg) : Prop where
  flags : t.cpsr.flags = g
  frame : s.goesOnTo t written
  reg : ∀ r, r ≠ .r15 → t.reg r = u.reg r
  regs : t.regs = u.regs
  mem : t.mem = u.mem
  marks : t.marks = u.marks
  outputs : t.outputs = u.outputs
  coproc : t.coproc = u.coproc

/-- Writing the flags that stand already changes nothing. -/
theorem State.setFlags_eq_self {u : State} {g : Flags} (h : u.cpsr.flags = g) : u.setFlags g = u := by
  rw [← h]
  rfl

/-- Work that leaves the system as it is ends at A + 4 with the flags that it writes. -/
theorem Plain.ends {s u : State} (h : Plain s u) {written : List Reg} (hk : s.keepsRegs u written)
    (hs : s.canAdvance) (g : Flags) : ∃ t, (u.setFlags g).advance = .next t ∧ Ends s u t g written := by
  have hu : (u.setFlags g).canAdvance := (State.canAdvance_congr rfl rfl).2 (h.canAdvance_iff.2 hs)
  obtain ⟨hi, hf, hm⟩ := h.keepsControl
  refine ⟨_, State.advance_of_canAdvance hu, ?_⟩
  exact {
    flags := rfl
    frame := ⟨congrArg (· + 4) h.pc, hk, ⟨hi, hf, hm⟩, h.keepsSystem, h.fetchUnit⟩
    reg := fun r hr => State.reg_congr hr rfl rfl
    regs := rfl
    mem := rfl
    marks := rfl
    outputs := rfl
    coproc := rfl }

/-- The same, where the flags stay. -/
theorem Plain.ends_flags {s u : State} (h : Plain s u) {written : List Reg} (hk : s.keepsRegs u written)
    (hs : s.canAdvance) : ∃ t, u.advance = .next t ∧ Ends s u t s.cpsr.flags written := by
  have := h.ends hk hs s.cpsr.flags
  rwa [State.setFlags_eq_self (by rw [h.cpsr])] at this

/-- Work that does not touch memory leaves it as it was. -/
theorem Ends.keepsMemory {s u t : State} {g : Flags} {written : List Reg} (h : Ends s u t g written)
    (hm : u.mem = s.mem) (hk : u.marks = s.marks) : s.keepsMemory t :=
  ⟨fun a => by rw [h.mem, hm], h.marks.trans hk⟩

/-- One register and the flags written, and nothing else. -/
theorem Plain.ends_setReg {s u : State} (h : Plain s u) (hregs : u.regs = s.regs) (hm : u.mem = s.mem)
    (hk : u.marks = s.marks) (hs : s.canAdvance) {rd : Reg} (hd : rd ≠ .r15) (v : Word) (g : Flags) :
    ∃ t, ((u.setReg rd v).setFlags g).advance = .next t ∧ t.reg rd = v ∧ t.cpsr.flags = g ∧ s.goesOnTo t [rd]
      ∧ s.keepsMemory t := by
  have hkeep : s.keepsRegs (u.setReg rd v) [rd] := by
    intro p hp
    rw [State.get_setReg, if_neg (by rw [h.cpsr]; exact hp rd List.mem_cons_self), hregs]
  obtain ⟨t, ht, e⟩ := (h.setReg rd v).ends hkeep hs g
  refine ⟨t, ht, ?_, e.flags, e.frame, e.keepsMemory (by simpa using hm) (by simpa using hk)⟩
  rw [e.reg rd hd, State.reg_setReg_same _ _ hd]

/-! ## Results in R0 to R14 and in R15 -/

section
variable {s : State} {c : Cond} {o : Operand2} {op : AluIn → AluOut} {rn : Option Reg}

/-- With Rd = R0 to R14 the result goes to Rd, and with S = 1 the flags are written (R183). -/
theorem dpWrite_reg {f : Bool} {rd : Reg} (hr : s.ready c (rn.toList ++ operand2Reads o))
    (hsh : r15InRegisterShift rn.toList o = false) (hd : rd ≠ .r15) :
    dpWrite c f rd rn o op s = ((s.setReg rd (op (dpInput s rn o)).value).setFlags
      (if f then (op (dpInput s rn o)).flags else s.cpsr.flags)).advance := by
  rw [dpWrite, condExec_ready hr, hsh]
  cases f with
  | true => simp [hd]
  | false => simp [hd, State.setFlags_eq_self]

/-- With Rd = R15 and S = 1 in a 26-bit mode the PSR bits and the program counter come from the result (R398). -/
theorem dpWrite_r15_in26 (hr : s.ready c (rn.toList ++ operand2Reads o))
    (hsh : r15InRegisterShift rn.toList o = false) (h26 : s.cpsr.mode.is26 = true) :
    dpWrite c true .r15 rn o op s
      = .next ((s.writePsr26 (op (dpInput s rn o)).value).jumpTo (op (dpInput s rn o)).value) := by
  rw [dpWrite, condExec_ready hr, hsh]
  simp [State.writePcAndPsr, h26, State.jump]

end

/-- Settles O16: each of the twelve is `dpWrite`, and its result and flags are those of R170's table. -/
theorem dataProcessingResult : Obligations.DataProcessingResult := by
  intro op s c f rd rn o hr hsh hd hs
  rw [← op.toList_head?_rnRead rn] at hr hsh
  rw [op.exec_instr_alu, dpWrite_reg hr hsh hd, op.alu_dpInput_value, op.alu_dpInput_flags]
  exact (Plain.refl s).ends_setReg rfl rfl rfl hs hd _ _

/-- A combined word written in a 26-bit mode gives a state in a 26-bit mode, whose program counter has 26 bits
(R392, R398). -/
theorem State.writePsr26_jumpTo_pc {s : State} (h26 : s.cpsr.mode.is26 = true) (v : Word) :
    ((s.writePsr26 v).jumpTo v).pc = v &&& 0x03FFFFFC#32 := by
  rw [State.jumpTo_pc, Mode.pcMask, if_pos (State.writePsr26_is26 h26 v)]

/-- Settles O20: the state written is that of `State.writePsr26`, and the jump changes the program counter and flushes
the Prefetch Unit. -/
theorem resultToPcPsr26 : Obligations.ResultToPcPsr26 := by
  intro op s c rn o hr hsh h26 v
  rw [← op.toList_head?_rnRead rn] at hr hsh
  rw [op.exec_instr_alu, dpWrite_r15_in26 hr hsh h26, op.alu_dpInput_value]
  refine ⟨_, rfl, State.writePsr26_jumpTo_pc h26 v, s.writePsr26_flags v, fun h => State.writePsr26_privileged h v,
    fun h => State.writePsr26_keepsControl h v, s.writePsr26_regs v, ?_, fun _ => by simp, by simp⟩
  simp [State.keepsSystem, State.keepsPlatform]

end Sys2Proof.Machine
end

section
/-! PROOFS. The order of two operands in the flags of CMP (O12), and operand 2 by an amount in a register (O14). -/

namespace Sys2Proof.Machine

/-! ## The flags of a subtraction -/

/-- The sign of a word is its bit 31. -/
theorem getLsbD_31_eq (x : Word) : x.getLsbD 31 = decide (x.toInt < 0) := by
  rw [← BitVec.msb_eq_getLsbD_last, BitVec.msb_eq_toInt]

/-- A difference is zero where the operands agree. -/
theorem sub_flags_z (x y : Word) (sc c v : Bool) : (DpOp.sub.flags x y sc c v).z = decide (x = y) :=
  decide_eq_decide.2 sub_eq_zero

/-- N and V of a difference agree where Op1 is not below Op2 as signed numbers: the difference of two words is off by
2^32 where it does not fit, and then its sign is the wrong one. -/
theorem sub_flags_n_eq_v (x y : Word) (sc c v : Bool) :
    ((DpOp.sub.flags x y sc c v).n == (DpOp.sub.flags x y sc c v).v) = decide (y.toInt ≤ x.toInt) := by
  have hx := BitVec.toInt_lt (x := x)
  have hx' := BitVec.le_toInt x
  have hy := BitVec.toInt_lt (x := y)
  have hy' := BitVec.le_toInt y
  have hn : (DpOp.sub.flags x y sc c v).n = decide ((x - y).toInt < 0) := getLsbD_31_eq _
  have hv : (DpOp.sub.flags x y sc c v).v
      = decide (x.toInt - y.toInt < -2 ^ 31 ∨ 2 ^ 31 ≤ x.toInt - y.toInt) := rfl
  rw [hn, hv, BitVec.toInt_sub, Int.bmod_def, Bool.beq_eq_decide_eq, decide_eq_decide, decide_eq_decide]
  norm_num at *
  split <;> omega

/-- Settles O12: the flags of CMP are those of a subtraction (`testResult`), and its Z, C and N = V say that Op1 is
equal, not below as an unsigned and not below as a signed number. -/
theorem compareThenCondition : Obligations.CompareThenCondition := by
  intro s c rd rn o hr hsh hd hs
  obtain ⟨t, hexec, hflags, -, -⟩ := testResult s c rd rn o hr hsh hd hs (.cmp c rd rn o, .sub) (by simp)
  refine ⟨t, hexec, ?_⟩
  intro x y
  have hz : t.cpsr.flags.z = decide (x = y) := by rw [hflags]; exact sub_flags_z _ _ _ _ _
  have hc : t.cpsr.flags.c = decide (y.toNat ≤ x.toNat) := by rw [hflags]; rfl
  have hnv : (t.cpsr.flags.n == t.cpsr.flags.v) = decide (y.toInt ≤ x.toInt) := by
    rw [hflags]; exact sub_flags_n_eq_v _ _ _ _ _
  have hlt : (t.cpsr.flags.n != t.cpsr.flags.v) = !decide (y.toInt ≤ x.toInt) := by rw [bne, hnv]
  simp only [condPassed, hz, hc, hnv, hlt, Bool.and_eq_true, Bool.or_eq_true, Bool.not_eq_true', decide_eq_true_eq,
    decide_eq_false_iff_not, ne_eq, ← BitVec.toNat_inj]
  have hxy : x.toInt = y.toInt ↔ x.toNat = y.toNat := by rw [BitVec.toInt_inj, BitVec.toNat_inj]
  refine ⟨trivial, trivial, trivial, ?_, ?_, ?_, trivial, ?_, ?_, ?_⟩ <;> omega

/-! ## Amounts from 32 on -/

section
variable (m : Word) (n : Nat) (c : Bool)

/-- LSL by any amount is a multiplication modulo 2^32 (R172). -/
theorem shiftBy_lsl_toNat : (shiftBy .lsl m n c).1.toNat = m.toNat * 2 ^ n % 2 ^ 32 := by
  obtain rfl | h0 := eq_or_ne n 0
  · simp [shiftBy, Nat.mod_eq_of_lt m.isLt]
  obtain hn | hn := Nat.lt_or_ge n 32
  · rw [shiftBy_lsl h0 hn, BitVec.toNat_shiftLeft, Nat.shiftLeft_eq]
  · have hmul : 2 ^ 32 ∣ m.toNat * 2 ^ n := Dvd.dvd.mul_left (Nat.pow_dvd_pow 2 hn) _
    rw [Nat.mod_eq_zero_of_dvd hmul]
    obtain rfl | hne := eq_or_ne n 32 <;> simp [shiftBy, *, Nat.not_lt.2 hn]

/-- LSR by any amount is a division (R173). -/
theorem shiftBy_lsr_toNat : (shiftBy .lsr m n c).1.toNat = m.toNat / 2 ^ n := by
  obtain rfl | h0 := eq_or_ne n 0
  · simp [shiftBy]
  obtain hn | hn := Nat.lt_or_ge n 32
  · rw [shiftBy_lsr h0 hn, BitVec.toNat_ushiftRight, Nat.shiftRight_eq_div_pow]
  · rw [Nat.div_eq_of_lt (m.isLt.trans_le (Nat.pow_le_pow_right (by decide) hn))]
    obtain rfl | hne := eq_or_ne n 32 <;> simp [shiftBy, *, Nat.not_lt.2 hn]

/-- An arithmetic shift by 31 leaves 0 or -1, which is what division by any higher power leaves. -/
theorem toInt_div_of_ge {n : Nat} (hn : 31 ≤ n) : (m.sshiftRight 31).toInt = m.toInt / 2 ^ n := by
  have hlt := BitVec.toInt_lt (x := m)
  have hle := BitVec.le_toInt m
  have hpow : (2 : Int) ^ 31 ≤ 2 ^ n := pow_le_pow_right₀ (by decide) hn
  rw [BitVec.toInt_sshiftRight, Int.shiftRight_eq_div_pow, Nat.cast_pow, Nat.cast_ofNat]
  norm_num at hlt hle hpow ⊢
  obtain h0 | h0 := lt_or_ge m.toInt 0
  · rw [Int.ediv_eq_neg_one_of_neg_of_le h0 (by omega), Int.ediv_eq_neg_one_of_neg_of_le h0 (by omega)]
  · rw [Int.ediv_eq_zero_of_lt h0 (by omega), Int.ediv_eq_zero_of_lt h0 (by omega)]

/-- ASR by any amount is a division that rounds down (R174). -/
theorem shiftBy_asr_toInt : (shiftBy .asr m n c).1.toInt = m.toInt / 2 ^ n := by
  obtain rfl | h0 := eq_or_ne n 0
  · simp [shiftBy]
  obtain hn | hn := Nat.lt_or_ge n 32
  · rw [shiftBy_asr h0 hn, BitVec.toInt_sshiftRight, Int.shiftRight_eq_div_pow, Nat.cast_pow, Nat.cast_ofNat]
  · rw [← toInt_div_of_ge m (by omega : 31 ≤ n)]
    simp [shiftBy, h0, Nat.not_lt.2 hn]

/-- ROR by any amount is a rotation by the amount modulo 32 (R175). -/
theorem shiftBy_ror_getLsbD {k : Nat} (hk : k < 32) :
    (shiftBy .ror m n c).1.getLsbD k = m.getLsbD ((k + n) % 32) := by
  obtain rfl | h0 := eq_or_ne n 0
  · simp [shiftBy, Nat.mod_eq_of_lt hk]
  by_cases hmod : n % 32 = 0
  · have e : (k + n) % 32 = k := by omega
    simp [shiftBy, h0, hmod, e]
  · have e : (k + n) % 32 = (k + n % 32) % 32 := by omega
    rw [e, ← getLsbD_rotateRight_word m _ hk]
    simp [shiftBy, h0, hmod]

end

section
variable (m : Word) {n : Nat} (c : Bool)

/-- The carry of LSL is the bit that the product has at 2^32 (R172). -/
theorem shiftBy_lsl_carry (h0 : n ≠ 0) : (shiftBy .lsl m n c).2 = (m.toNat * 2 ^ n).testBit 32 := by
  have hbit : (m.toNat * 2 ^ n).testBit 32 = (decide (n ≤ 32) && m.getLsbD (32 - n)) := by
    rw [← Nat.shiftLeft_eq, Nat.testBit_shiftLeft]
    rfl
  rw [hbit]
  obtain hn | rfl | hn := Nat.lt_trichotomy n 32
  · rw [shiftBy_lsl h0 hn, decide_eq_true hn.le, Bool.true_and]
  · rfl
  · simp [shiftBy, h0, hn.ne', Nat.not_lt.2 hn.le, Nat.not_le.2 hn]

/-- The carry of LSR is the last bit shifted out, which past 32 lies above the word (R173). -/
theorem shiftBy_lsr_carry (h0 : n ≠ 0) : (shiftBy .lsr m n c).2 = m.getLsbD (n - 1) := by
  obtain hn | rfl | hn := Nat.lt_trichotomy n 32
  · rw [shiftBy_lsr h0 hn]
  · rfl
  · rw [BitVec.getLsbD_of_ge _ _ (by omega)]
    simp [shiftBy, h0, hn.ne', Nat.not_lt.2 hn.le]

/-- The carry of ASR is the last bit shifted out, which from 32 on is the sign (R174). -/
theorem shiftBy_asr_carry (h0 : n ≠ 0) : (shiftBy .asr m n c).2 = m.getLsbD (min n 32 - 1) := by
  obtain hn | hn := Nat.lt_or_ge n 32
  · rw [shiftBy_asr h0 hn, min_eq_left hn.le]
  · rw [min_eq_right hn]
    simp [shiftBy, h0, Nat.not_lt.2 hn]

/-- The carry of ROR is the last bit rotated out (R175). -/
theorem shiftBy_ror_carry (h0 : n ≠ 0) : (shiftBy .ror m n c).2 = m.getLsbD ((n - 1) % 32) := by
  by_cases hmod : n % 32 = 0
  · have e : (n - 1) % 32 = 31 := by omega
    simp [shiftBy, h0, hmod, e]
  · have e : (n - 1) % 32 = n % 32 - 1 := by omega
    simp [shiftBy, h0, hmod, e]

end

/-- Settles O14: operand 2 by a register is `shiftBy`, and each shift is said for every amount. -/
theorem shifterByRegister : Obligations.ShifterByRegister := by
  intro s rm rs m n
  refine ⟨shiftBy_lsl_toNat m n _, shiftBy_lsr_toNat m n _, shiftBy_asr_toInt m n _,
    fun k hk => shiftBy_ror_getLsbD m n _ hk, fun h0 ty => ?_, fun h0 => ?_⟩
  · show (shiftBy ty m n _).2 = _
    rw [h0]
    rfl
  · exact ⟨shiftBy_lsl_carry m _ h0, shiftBy_lsr_carry m _ h0, shiftBy_asr_carry m _ h0, shiftBy_ror_carry m _ h0⟩

end Sys2Proof.Machine
end

section
/-! PROOFS. The multiplies (O28, O29, O30). -/

namespace Sys2Proof.Machine

/-! ## MUL and MLA -/

section
variable {s : State} {c : Cond} {f : Bool} {rd rn rs rm : Reg} {reads : List Reg} {result : Word}

/-- A multiply with R15 in a register field stops (R241, R242). -/
theorem mulWrite_r15 (hr : s.ready c reads) (h : rd = .r15 ∨ rn = .r15 ∨ rs = .r15 ∨ rm = .r15) :
    mulWrite c f rd rn rs rm reads result s = .fault .mulR15 := by
  have hmem : [rd, rn, rs, rm].contains .r15 = true := by simpa [@eq_comm _ Reg.r15] using h
  rw [mulWrite, condExec_ready hr, if_pos hmem]

/-- A multiply with Rd = Rm stops (R241, R242). -/
theorem mulWrite_rdRm (hr : s.ready c reads) (hd : rd ≠ .r15) (hn : rn ≠ .r15) (hs : rs ≠ .r15) (hm : rm ≠ .r15)
    (h : rd = rm) : mulWrite c f rd rn rs rm reads result s = .fault .mulRdRm := by
  have hmem : [rd, rn, rs, rm].contains .r15 = false := by simp [hd.symm, hn.symm, hs.symm, hm.symm]
  rw [mulWrite, condExec_ready hr, hmem, if_pos h]
  rfl

/-- An allowed multiply writes its result to Rd, and with S = 1 the flags (R241, R242). -/
theorem mulWrite_ready (hr : s.ready c reads) (hd : rd ≠ .r15) (hn : rn ≠ .r15) (hs : rs ≠ .r15) (hm : rm ≠ .r15)
    (hdm : rd ≠ rm) (ha : s.canAdvance) :
    ∃ t, mulWrite c f rd rn rs rm reads result s = .next t ∧ t.reg rd = result
      ∧ t.cpsr.flags = (if f then mulFlags s.cpsr.flags result (s.free.getLsbD 0) else s.cpsr.flags)
      ∧ s.goesOnTo t [rd] ∧ s.keepsMemory t := by
  have hmem : [rd, rn, rs, rm].contains .r15 = false := by simp [hd.symm, hn.symm, hs.symm, hm.symm]
  simp only [mulWrite, condExec_ready hr, hmem, hdm, Bool.false_eq_true, if_false]
  cases f with
  | true => exact (Plain.refl s).drawn.ends_setReg rfl rfl rfl ha hd result _
  | false =>
    have h := (Plain.refl s).ends_setReg rfl rfl rfl ha hd result s.cpsr.flags
    rwa [State.setFlags_eq_self (by simp)] at h

end

/-! ## The long multiplies -/

section
variable {s : State} {c : Cond} {f : Bool} {rdHi rdLo rs rm : Reg} {reads : List Reg} {p : BitVec 64}

/-- A long multiply with R15 in a register field stops (R246 to R249). -/
theorem mullWrite_r15 (hr : s.ready c reads) (h : rdHi = .r15 ∨ rdLo = .r15 ∨ rs = .r15 ∨ rm = .r15) :
    mullWrite c f rdHi rdLo rs rm reads p s = .fault .mullR15 := by
  have hmem : [rdHi, rdLo, rs, rm].contains .r15 = true := by simpa [@eq_comm _ Reg.r15] using h
  rw [mullWrite, condExec_ready hr, if_pos hmem]

/-- A long multiply whose RdHi, RdLo and Rm are not all different stops (R246 to R249). -/
theorem mullWrite_overlap (hr : s.ready c reads) (hh : rdHi ≠ .r15) (hl : rdLo ≠ .r15) (hs : rs ≠ .r15)
    (hm : rm ≠ .r15) (h : rdHi = rdLo ∨ rdHi = rm ∨ rdLo = rm) :
    mullWrite c f rdHi rdLo rs rm reads p s = .fault .mullOverlap := by
  have hmem : [rdHi, rdLo, rs, rm].contains .r15 = false := by simp [hh.symm, hl.symm, hs.symm, hm.symm]
  rw [mullWrite, condExec_ready hr, hmem, if_pos h]
  rfl

/-- RdLo and RdHi written, one after the other, hold the two halves of the product. -/
theorem Plain.ends_setPair {u : State} (h : Plain s u) (hregs : u.regs = s.regs) (hm : u.mem = s.mem)
    (hk : u.marks = s.marks) (ha : s.canAdvance) (hh : rdHi ≠ .r15) (hl : rdLo ≠ .r15) (hhl : rdHi ≠ rdLo)
    (lo hi : Word) (g : Flags) :
    ∃ t, (((u.setReg rdLo lo).setReg rdHi hi).setFlags g).advance = .next t ∧ t.reg rdHi = hi ∧ t.reg rdLo = lo
      ∧ t.cpsr.flags = g ∧ s.goesOnTo t [rdHi, rdLo] ∧ s.keepsMemory t := by
  have hkeep : s.keepsRegs ((u.setReg rdLo lo).setReg rdHi hi) [rdHi, rdLo] := by
    intro q hq
    have hqh := hq rdHi (by simp)
    have hql := hq rdLo (by simp)
    rw [State.get_setReg, if_neg (by simpa [h.cpsr] using hqh), State.get_setReg,
      if_neg (by simpa [h.cpsr] using hql), hregs]
  obtain ⟨t, ht, e⟩ := ((h.setReg rdLo lo).setReg rdHi hi).ends hkeep ha g
  refine ⟨t, ht, ?_, ?_, e.flags, e.frame, e.keepsMemory (by simpa using hm) (by simpa using hk)⟩
  · rw [e.reg rdHi hh, State.reg_setReg_same _ _ hh]
  · rw [e.reg rdLo hl, State.reg_setReg _ _ hh, if_neg hhl.symm, State.reg_setReg_same _ _ hl]

/-- An allowed long multiply writes its product to RdHi and RdLo, and with S = 1 the flags (R246 to R249). -/
theorem mullWrite_ready (hr : s.ready c reads) (hh : rdHi ≠ .r15) (hl : rdLo ≠ .r15) (hs : rs ≠ .r15)
    (hm : rm ≠ .r15) (hhl : rdHi ≠ rdLo) (hhm : rdHi ≠ rm) (hlm : rdLo ≠ rm) (ha : s.canAdvance) :
    ∃ t, mullWrite c f rdHi rdLo rs rm reads p s = .next t ∧ t.reg rdHi = p.extractLsb' 32 32
      ∧ t.reg rdLo = p.extractLsb' 0 32
      ∧ t.cpsr.flags = (if f then mullFlags p (s.free.getLsbD 0) (s.free.getLsbD 1) else s.cpsr.flags)
      ∧ s.goesOnTo t [rdHi, rdLo] ∧ s.keepsMemory t := by
  have hmem : [rdHi, rdLo, rs, rm].contains .r15 = false := by simp [hh.symm, hl.symm, hs.symm, hm.symm]
  simp only [mullWrite, condExec_ready hr, hmem, hhl, hhm, hlm, Bool.false_eq_true, or_self, if_false]
  cases f with
  | true => exact (Plain.refl s).drawn.ends_setPair rfl rfl rfl ha hh hl hhl _ _ _
  | false =>
    have h := (Plain.refl s).ends_setPair rfl rfl rfl ha hh hl hhl (p.extractLsb' 0 32) (p.extractLsb' 32 32)
      s.cpsr.flags
    rwa [State.setFlags_eq_self (by simp)] at h

end

/-- The two halves of a 64-bit word, one above the other, are the word. -/
theorem halves_append (p : BitVec 64) : p.extractLsb' 32 32 ++ p.extractLsb' 0 32 = p := by
  exact (BitVec.extractLsb'_append_extractLsb'_eq_extractLsb' (start₁ := 0) rfl).trans BitVec.extractLsb'_eq_self

/-- A 64-bit word is zero where both of its halves are. -/
theorem eq_zero_iff_halves (p : BitVec 64) : p = 0 ↔ p.extractLsb' 32 32 = 0 ∧ p.extractLsb' 0 32 = 0 := by
  refine ⟨fun h => by simp [h], fun ⟨hhi, hlo⟩ => ?_⟩
  rw [← halves_append p, hhi, hlo]
  rfl

/-! ## The obligations -/

/-- Settles O28: MUL and MLA are `mulWrite` of the product and the sum modulo 2^32. -/
theorem multiplyResult : Obligations.MultiplyResult := by
  intro s c f rd rn rs rm hd hn hs hm hdm ha p hp hr
  obtain ⟨result, hexec, hresult⟩ : ∃ result, exec p.1 s = mulWrite c f rd rn rs rm p.2.1 result s
      ∧ result.toNat = p.2.2 % 2 ^ 32 := by
    simp only [List.mem_cons, List.not_mem_nil, or_false] at hp
    obtain rfl | rfl := hp
    · exact ⟨_, rfl, BitVec.toNat_mul _ _⟩
    · exact ⟨_, rfl, by simp [BitVec.toNat_add, BitVec.toNat_mul]⟩
  obtain ⟨t, ht, hreg, hflags, hframe, hmem⟩ := mulWrite_ready (f := f) (result := result) hr hd hn hs hm hdm ha
  refine ⟨t, hexec.trans ht, by rw [hreg, hresult], hframe, hmem, fun hf => ?_, fun hf => ?_⟩
  · simpa [hf] using hflags
  · rw [hflags, hreg, if_pos hf]
    exact ⟨rfl, rfl, rfl⟩

/-- Settles O29: the four are `mullWrite` of the exact product, or of it and the accumulator, modulo 2^64. -/
theorem longMultiplyResult : Obligations.LongMultiplyResult := by
  intro s c f rdHi rdLo rs rm hh hl hs hm hhl hhm hlm ha acc u g p hp hr
  have hu : umul64 (s.reg rm) (s.reg rs) = BitVec.ofInt 64 u := (BitVec.ofInt_natCast 64 _).symm
  have hacc : BitVec.ofInt 64 acc = s.reg rdHi ++ s.reg rdLo :=
    (BitVec.ofInt_natCast 64 _).trans ((BitVec.ofNat_toNat 64 _).trans (BitVec.setWidth_eq _))
  have hexec : exec p.1 s = mullWrite c f rdHi rdLo rs rm p.2.1 (BitVec.ofInt 64 p.2.2) s := by
    simp only [List.mem_cons, List.not_mem_nil, or_false] at hp
    obtain rfl | rfl | rfl | rfl := hp
    · rw [← hu]; rfl
    · rw [BitVec.ofInt_add, ← hu, hacc]; rfl
    · rfl
    · rw [BitVec.ofInt_add, hacc]; rfl
  obtain ⟨t, ht, hhi, hlo, hflags, hframe, hmem⟩ :=
    mullWrite_ready (f := f) (p := BitVec.ofInt 64 p.2.2) hr hh hl hs hm hhl hhm hlm ha
  refine ⟨t, hexec.trans ht, by rw [hhi, hlo, halves_append], hframe, hmem, fun hf => ?_, fun hf => ?_⟩
  · simpa [hf] using hflags
  · rw [hflags, hhi, hlo, if_pos hf]
    exact ⟨by simp [mullFlags], decide_eq_decide.2 (eq_zero_iff_halves _)⟩

/-- Settles O30: the two families stop as `mulWrite` and `mullWrite` do. -/
theorem multiplyStops : Obligations.MultiplyStops := by
  intro s c f x y rs rm
  refine ⟨fun hr => ⟨fun h => ?_, fun hx hy hs hm h => ?_, fun hx hy hs hm h => ?_⟩,
    fun hr => ⟨fun h => ?_, fun hx hy hs hm h => ?_⟩, fun hr => ⟨fun h => ?_, fun hx hy hs hm h => ?_⟩⟩
  · exact ⟨mulWrite_r15 hr h, mullWrite_r15 hr h, mullWrite_r15 hr h⟩
  · exact mulWrite_rdRm hr hx hy hs hm h
  · exact ⟨mullWrite_overlap hr hx hy hs hm h, mullWrite_overlap hr hx hy hs hm h⟩
  · exact mulWrite_r15 hr h
  · exact mulWrite_rdRm hr hx hy hs hm h
  · exact ⟨mullWrite_r15 hr h, mullWrite_r15 hr h⟩
  · exact ⟨mullWrite_overlap hr hx hy hs hm h, mullWrite_overlap hr hx hy hs hm h⟩

end Sys2Proof.Machine
end

section
/-! PROOFS. MRS and MSR (O23, O25, O26). -/

namespace Sys2Proof.Machine

/-! ## The status registers read as a word -/

/-- The defined bits of a PSR read as a word (R33, R221). -/
theorem Psr.word_fields (p : Psr) (free : Word) :
    (p.word free).getLsbD 31 = p.flags.n ∧ (p.word free).getLsbD 30 = p.flags.z
      ∧ (p.word free).getLsbD 29 = p.flags.c ∧ (p.word free).getLsbD 28 = p.flags.v
      ∧ (p.word free).getLsbD 7 = p.i ∧ (p.word free).getLsbD 6 = p.f ∧ (p.word free).extractLsb' 0 5 = p.m := by
  have hm : (p.word free).extractLsb' 0 5 = p.m :=
    (BitVec.extractLsb'_append_eq_of_add_le (xlo := p.m) (Nat.le_refl 5)).trans BitVec.extractLsb'_eq_self
  rw [hm]
  simp only [Psr.word, Flags.bits, BitVec.getLsbD_append]
  simp

section
variable {s : State} {c : Cond}

/-- MRS of a PSR that the mode has writes it to Rd, with reserved bits that are left open (R221, R223). -/
theorem execMrs_ready {spsr : Bool} {rd : Reg} {p : Psr} (hr : s.ready c []) (hd : rd ≠ .r15)
    (hp : s.namedPsr spsr = some p) :
    execMrs c spsr rd s = (s.drawn.setReg rd (p.word s.free)).advance := by
  rw [execMrs, condExec_ready hr, if_neg hd, hp]

/-- MSR to the CPSR in an unprivileged mode writes the flags field alone (R39). -/
theorem execMsr_user {mask : BitVec 4} {src : MsrSource} (hr : s.ready c (msrReads src)) (hd : src ≠ .reg .r15)
    (hp : s.cpsr.mode.privileged = false) :
    execMsr c false mask src s
      = (s.setFlags (if mask.getLsbD 3 then Flags.ofWord (s.msrValue src) else s.cpsr.flags)).advance := by
  rw [execMsr, condExec_ready hr, if_neg (mt msrReads_eq_r15.1 hd)]
  simp only [hp, Bool.and_false, Bool.false_eq_true, if_false]

/-- MSR to the SPSR of a mode that has one writes its selected fields (R224). -/
theorem execMsr_spsr {mask : BitVec 4} {src : MsrSource} {n : SpsrName} (hr : s.ready c (msrReads src))
    (hd : src ≠ .reg .r15) (hn : s.cpsr.mode.spsr = some n) :
    execMsr c true mask src s
      = State.advance { s with spsrs := s.spsrs.set n ((s.spsrs.get n).masked mask (s.msrValue src)) } := by
  rw [execMsr, condExec_ready hr, if_neg (mt msrReads_eq_r15.1 hd), hn]
  rfl

end

/-- Settles O23: MRS writes one register, and the fields of the word are those of the PSR. -/
theorem mrsResult : Obligations.MrsResult := by
  intro s c spsr rd p hr hd hs hp
  have hnamed : s.namedPsr spsr = some p := by
    obtain ⟨rfl, rfl⟩ | ⟨rfl, n, hn, rfl⟩ := hp
    · rfl
    · simp [State.namedPsr, hn]
  obtain ⟨t, ht, hreg, hflags, hframe, hmem⟩ :=
    (Plain.refl s).drawn.ends_setReg rfl rfl rfl hs hd (p.word s.free) s.cpsr.flags
  rw [State.setFlags_eq_self (by simp)] at ht
  refine ⟨t, (execMrs_ready hr hd hnamed).trans ht, ?_⟩
  rw [hreg]
  obtain ⟨hn, hz, hc, hv, hi, hf, hm⟩ := p.word_fields s.free
  exact ⟨hn, hz, hc, hv, hi, hf, hm, hflags, hframe, hmem⟩

/-- Settles O25: what is written is the flags. -/
theorem msrUserResult : Obligations.MsrUserResult := by
  intro s c mask src hr hd hp hs
  obtain ⟨t, ht, hflags, hframe, hmem⟩ := State.setFlags_advance hs _
  exact ⟨t, (execMsr_user hr hd hp).trans ht, hflags, hframe, hmem⟩

/-- Settles O26: what is written is one SPSR, under the mask. -/
theorem msrSpsrResult : Obligations.MsrSpsrResult := by
  intro s c mask src n hr hd hn hs
  let p := (s.spsrs.get n).masked mask (s.msrValue src)
  have hget : (s.spsrs.set n p).get n = p := Spsrs.get_set_same _ _ _
  have hexec := (execMsr_spsr (mask := mask) hr hd hn).trans
    (State.advance_of_canAdvance ((State.canAdvance_congr (s := s) rfl rfl).2 hs))
  exact ⟨_, hexec, rfl, rfl, rfl, congrArg Psr.flags hget, congrArg Psr.i hget, congrArg Psr.f hget,
    congrArg Psr.m hget, fun k hk => Spsrs.get_set_other _ _ hk,
    ⟨rfl, rfl, rfl, rfl, rfl, rfl, rfl, .inl rfl, rfl⟩, fun _ => rfl, rfl⟩

end Sys2Proof.Machine
end

section
/-! PROOFS. How words, halfwords and bytes lie in memory, read (O31) and written (O32). -/

namespace Sys2Proof.Machine

/-! ## Bytes of words and halfwords -/

/-- Each of four bytes stands at its place in the word that they make. -/
theorem extract_append_bytes (byte : Nat → Byte) {k : Nat} (hk : k < 4) :
    (byte 3 ++ byte 2 ++ byte 1 ++ byte 0 : Word).extractLsb' (8 * k) 8 = byte k := by
  interval_cases k
  all_goals
    simp (disch := decide) only [BitVec.extractLsb'_append_eq_of_add_le, BitVec.extractLsb'_append_eq_of_le]
    exact BitVec.extractLsb'_eq_self

/-- Each byte of a word that is joined from four bytes is the one that the byte order puts there (R64). -/
theorem extract_joinWord (big : Bool) (byte : Nat → Byte) {k : Nat} (hk : k < 4) :
    (joinWord big (byte 0) (byte 1) (byte 2) (byte 3)).extractLsb' (8 * k) 8 = byte (if big then 3 - k else k) := by
  cases big
  · simpa only [joinWord, Bool.false_eq_true, if_false] using extract_append_bytes byte hk
  · simpa only [joinWord, if_true] using extract_append_bytes (fun j => byte (3 - j)) hk

/-- Each byte of a halfword that is joined from two bytes (R64). -/
theorem extract_joinHalf (x y : Byte) {k : Nat} (hk : k < 2) :
    (x ++ y : Half).extractLsb' (8 * k) 8 = if k = 0 then y else x := by
  interval_cases k
  · exact (BitVec.extractLsb'_append_eq_of_add_le (Nat.le_refl 8)).trans BitVec.extractLsb'_eq_self
  · exact (BitVec.extractLsb'_append_eq_of_le (Nat.le_refl 8)).trans BitVec.extractLsb'_eq_self

/-- The two bytes of a halfword, one above the other, are the halfword. -/
theorem halfBytes_append (h : Half) : h.extractLsb' 8 8 ++ h.extractLsb' 0 8 = h :=
  (BitVec.extractLsb'_append_extractLsb'_eq_extractLsb' (start₁ := 0) rfl).trans BitVec.extractLsb'_eq_self

/-- Settles O31: the three reads join the bytes at their addresses. -/
theorem loadsReadBytes : Obligations.LoadsReadBytes := by
  intro s a
  refine ⟨fun k hk => ?_, fun k hk => ?_, rfl⟩
  · rw [← alignWord_toNat]
    exact extract_joinWord _ (fun k => Memory.read s.mem ((alignWord a).toNat + k)) hk
  · show (if s.cfg.bigend then _ else _ : Half).extractLsb' _ _ = _
    cases s.cfg.bigend
    · exact (extract_joinHalf _ _ hk).trans (by interval_cases k <;> rfl)
    · exact (extract_joinHalf _ _ hk).trans (by interval_cases k <;> rfl)

/-! ## Halfword stores -/

/-- The halfword that `storeHalf` writes at an even address is the halfword read back (R67, R70). -/
theorem State.loadHalf_storeHalf {s : State} (hs : Memory.wf s.mem = true) {a : Word} (ha : a.getLsbD 0 = false)
    (h : Half) : (s.storeHalf a h).loadHalf a = h := by
  have hlen : a.toNat + (halfBytes s.cfg.bigend h).length ≤ 2 ^ 32 := by simpa using even_add_two_le ha
  have hread (k : Nat) (hk : k < (halfBytes s.cfg.bigend h).length) :
      Memory.read (s.storeHalf a h).mem (a.toNat + k) = (halfBytes s.cfg.bigend h)[k] :=
    Memory.read_writeBytes_inside _ hs hlen hk
  have h0 := hread 0 (by simp)
  have h1 := hread 1 (by simp)
  show (if s.cfg.bigend then _ ++ _ else _ ++ _ : Half) = h
  rw [Nat.add_zero] at h0
  rw [h0, h1]
  simp only [halfBytes]
  cases s.cfg.bigend <;> exact halfBytes_append h

/-- Settles O32: the three stores write their bytes at consecutive addresses and nothing else. -/
theorem storesWriteBytes : Obligations.StoresWriteBytes := by
  intro s a v h x hs
  rw [← alignWord_toNat]
  refine ⟨State.storeWord_storesOnly hs a v, State.loadWord_storeWord hs a v, fun k hk => ?_, fun he => ?_, State.storeByte_storesOnly hs a x, State.read_storeByte hs a x⟩
  · rw [State.read_storeWord hs a v hk, wordByte, apply_ite (BitVec.extractLsb' · 8 v)]
  have h0 := getLsbD_zero_of_even he
  exact ⟨State.storeHalf_storesOnly hs h0 h, State.loadHalf_storeHalf hs h0 h⟩

end Sys2Proof.Machine
end

section
/-! PROOFS. The single and halfword loads (O33, O34, O35, O38), the stores (O36, O37, O39), and the operand combinations
on which they stop (O41). -/

namespace Sys2Proof.Machine

/-! ## Accesses and write-back -/

/-- An access of a T form is presented as from User mode (R263). -/
theorem State.access_user (s : State) (kind : AccessKind) (width : Width) (locked : Bool) (a : Word) :
    { s.access true kind width locked a with privileged := false } = s.access true kind width locked a := by
  simp [State.access]

/-- The base written back where the indexing says so, and nothing else. -/
def State.writeBack (u : State) (idx : Index) (rn : Reg) (base : Word) : State :=
  if writesBack idx then u.setReg rn base else u

section
variable (u : State) (idx : Index) (rn : Reg) (base : Word)

@[simp] theorem State.writeBack_mem : (u.writeBack idx rn base).mem = u.mem := by
  cases idx <;> simp [State.writeBack, writesBack]

@[simp] theorem State.writeBack_marks : (u.writeBack idx rn base).marks = u.marks := by
  cases idx <;> simp [State.writeBack, writesBack]

@[simp] theorem State.writeBack_outputs : (u.writeBack idx rn base).outputs = u.outputs := by
  cases idx <;> simp [State.writeBack, writesBack]

theorem Plain.writeBack {s : State} (h : Plain s u) : Plain s (u.writeBack idx rn base) := by
  unfold State.writeBack
  split
  · exact h.setReg rn base
  · exact h

/-- The registers after the write-back are those of before, but for the base. -/
theorem State.keepsRegs_writeBack {s : State} (hm : u.cpsr = s.cpsr) (hr : u.regs = s.regs) :
    s.keepsRegs (u.writeBack idx rn base) (writtenBase idx rn) := by
  intro p hp
  unfold State.writeBack
  split
  · rename_i hw
    rw [State.get_setReg, hm, if_neg (hp rn (by simp [writtenBase, writesBack_iff.1 hw])), hr]
  · rw [hr]

/-- The base after the write-back. -/
theorem State.reg_writeBack {idx : Index} {rn : Reg} (hi : idx ≠ .offset) (hn : rn ≠ .r15) :
    (u.writeBack idx rn base).reg rn = base := by
  rw [State.writeBack, if_pos (writesBack_iff.2 hi), State.reg_setReg_same _ _ hn]

end

/-- A byte, halfword or signed transfer that is allowed is of R0 to R14. -/
theorem transferAllowed.rd_ne_r15 {load : Bool} {idx : Index} {rn rd : Reg} {rm : Option Reg}
    (ha : transferAllowed load true idx rn rd rm) : rd ≠ .r15 :=
  fun hd => absurd (ha.narrow_eq_false hd) (by decide)

/-! ## Loads -/

/-- A load reads its value in a state that has the memory of before. -/
theorem State.afterLoadBase_loadWord (s : State) (ty : RequestType) (acc : Access) (idx : Index) (rn : Reg)
    (base a : Word) : (s.afterLoadBase ty acc idx rn base).loadWord a = s.loadWord a :=
  have ⟨hplain, hmem, _, _⟩ := s.afterLoadBase_plain ty acc idx rn base
  State.loadWord_congr hmem hplain.cfg a

section
variable {width : Width} {ty : RequestType} {narrow user : Bool} {value : State → Word → State × Word} {c : Cond}
  {idx : Index} {up : Bool} {rn rd : Reg} {rm : Option Reg} {offset : Word} {s : State}

/-- An allowed load to R0 to R14 whose access does not abort loads the value that is found after the write-back; the
value may have drawn a free word (R264, R292). -/
theorem loadTransfer_loaded (hr : s.ready c (rn :: rm.toList)) (ha : transferAllowed true narrow idx rn rd rm)
    (hd : rd ≠ .r15) (hs : s.canAdvance)
    (hab : s.abortsAt (s.access user .load width false (transferAddress idx up (s.reg rn) offset)) = false)
    (hvalue : ∀ u a, (value u a).1 = u ∨ (value u a).1 = u.drawn) :
    ∃ t, loadTransfer width ty narrow user value c idx up rn rd rm offset s = .next t
      ∧ s.loaded t idx up rn rd offset
          (value (s.afterLoadBase ty (s.access user .load width false (transferAddress idx up (s.reg rn) offset)) idx rn
            (modifiedBase up (s.reg rn) offset)) (transferAddress idx up (s.reg rn) offset)).2 := by
  rw [loadTransfer_allowed hr ha (fun h => absurd h hd), hab]
  simp only [Bool.false_eq_true, if_false, if_neg hd]
  generalize transferAddress idx up (s.reg rn) offset = addr
  generalize s.access user .load width false addr = acc
  let u := s.afterLoadBase ty acc idx rn (modifiedBase up (s.reg rn) offset)
  obtain ⟨hplain, hmem, hmarks, hkeep⟩ := s.afterLoadBase_plain ty acc idx rn (modifiedBase up (s.reg rn) offset)
  obtain ⟨hrp, hrm, hrk, hrr⟩ : Plain s (value u addr).1 ∧ (value u addr).1.mem = u.mem
      ∧ (value u addr).1.marks = u.marks ∧ (value u addr).1.regs = u.regs := by
    obtain h | h := hvalue u addr
    · rw [h]; exact ⟨hplain, rfl, rfl, rfl⟩
    · rw [h]; exact ⟨hplain.drawn, rfl, rfl, rfl⟩
  have hkeep' : s.keepsRegs ((value u addr).1.setReg rd (value u addr).2) (rd :: writtenBase idx rn) := by
    intro p hp
    rw [State.get_setReg, hrp.cpsr, if_neg (hp rd List.mem_cons_self), hrr]
    exact hkeep p fun r hmem => hp r (List.mem_cons_of_mem _ hmem)
  obtain ⟨t, ht, e⟩ := (hrp.setReg rd (value u addr).2).ends_flags hkeep' hs
  refine ⟨t, ht, ?_, fun hi => ?_, e.flags, e.frame,
    e.keepsMemory (by simpa using hrm.trans hmem) (by simpa using hrk.trans hmarks)⟩
  · rw [e.reg rd hd, State.reg_setReg_same _ _ hd]
  · obtain ⟨hbase, -, -, -, hdn⟩ := ha
    have hu : (value u addr).1.reg rn = u.reg rn :=
      State.reg_congr (hbase hi) (by rw [hrp.cpsr, hplain.cpsr]) hrr
    rw [e.reg rn (hbase hi), State.reg_setReg _ _ hd, if_neg (hdn rfl hi).symm, hu,
      State.afterLoadBase_base _ _ _ _ hi (hbase hi), modifiedBase]

/-- Work that leaves the system as it is and ends in a write of the program counter (R31, R92). -/
theorem Plain.jumpTo_goesTo {u : State} (h : Plain s u) {written : List Reg} (hk : s.keepsRegs u written) (v : Word) :
    s.goesTo (u.jumpTo v) written v := by
  obtain ⟨hi, hf, hm⟩ := h.keepsControl
  refine ⟨by rw [State.jumpTo_pc, hm], hk, ⟨hi, hf, hm⟩, ?_⟩
  exact ⟨h.spsrs, h.ran26, h.ran32, h.lines, h.coproc, h.pending, h.aborts, h.platform,
    .inr (congrArg FetchUnit.flushed h.fetchUnit), h.cfg⟩

/-- The word at a multiple of 4 is not rotated. -/
theorem State.loadRotated_of_aligned {s : State} {a : Word} (h : a.toNat % 4 = 0) : s.loadRotated a = s.loadWord a := by
  simp [State.loadRotated, h, BitVec.rotateRight_def]

/-- An allowed word load to R15 at a multiple of 4 goes to the loaded word (R268). -/
theorem loadTransfer_jumps (hr : s.ready c (rn :: rm.toList)) (ha : transferAllowed true false idx rn .r15 rm)
    (h4 : (transferAddress idx up (s.reg rn) offset).toNat % 4 = 0)
    (hab : s.abortsAt (s.access user .load .word false (transferAddress idx up (s.reg rn) offset)) = false) :
    ∃ t, loadTransfer .word ty false user wordValue c idx up rn .r15 rm offset s = .next t
      ∧ s.goesTo t (writtenBase idx rn) (s.loadWord (transferAddress idx up (s.reg rn) offset))
      ∧ (idx ≠ .offset → t.reg rn = if up then s.reg rn + offset else s.reg rn - offset)
      ∧ s.keepsMemory t ∧ t.cpsr.flags = s.cpsr.flags ∧ t.fetchUnit = s.fetchUnit.flushed := by
  rw [loadTransfer_allowed hr ha (fun _ => h4), hab]
  simp only [Bool.false_eq_true, if_false, if_true, wordValue, State.loadRotated_of_aligned h4,
    State.afterLoadBase_loadWord]
  generalize transferAddress idx up (s.reg rn) offset = addr
  generalize s.access user .load .word false addr = acc
  obtain ⟨hplain, hmem, hmarks, hkeep⟩ := s.afterLoadBase_plain ty acc idx rn (modifiedBase up (s.reg rn) offset)
  refine ⟨_, rfl, hplain.jumpTo_goesTo hkeep _, fun hi => ?_, ⟨fun a => congrArg (Memory.read · a) hmem, hmarks⟩,
    congrArg Cpsr.flags hplain.cpsr, congrArg FetchUnit.flushed hplain.fetchUnit⟩
  obtain ⟨hbase, -, -, -, -⟩ := ha
  rw [State.reg_congr (hbase hi) (congrArg Cpsr.mode (State.jumpTo_cpsr _ _)) (State.jumpTo_regs _ _),
    State.afterLoadBase_base _ _ _ _ hi (hbase hi), modifiedBase]

/-- An allowed word load loads the aligned word, rotated (R266). -/
theorem wordTransfer_loaded (hr : s.ready c (rn :: rm.toList)) (ha : transferAllowed true false idx rn rd rm)
    (hd : rd ≠ .r15) (hs : s.canAdvance)
    (hab : s.abortsAt (s.access user .load .word false (transferAddress idx up (s.reg rn) offset)) = false) :
    ∃ t, loadTransfer .word ty false user wordValue c idx up rn rd rm offset s = .next t
      ∧ s.loaded t idx up rn rd offset
          ((s.loadWord (transferAddress idx up (s.reg rn) offset)).rotateRight
            (8 * ((transferAddress idx up (s.reg rn) offset).toNat % 4))) := by
  have h := loadTransfer_loaded (ty := ty) (up := up) (offset := offset) hr ha hd hs hab fun u a => .inl (wordValue_state u a)
  rwa [wordValue, State.loadRotated, State.afterLoadBase_loadWord] at h

/-- A byte load loads what `extend` makes of the byte (R265, R295). -/
theorem byteTransfer_loaded (extend : Byte → Word) (hr : s.ready c (rn :: rm.toList))
    (ha : transferAllowed true true idx rn rd rm) (hs : s.canAdvance)
    (hab : s.abortsAt (s.access user .load .byte false (transferAddress idx up (s.reg rn) offset)) = false) :
    ∃ t, loadTransfer .byte ty true user (fun u a => (u, extend (u.loadByte a))) c idx up rn rd rm offset s = .next t
      ∧ s.loaded t idx up rn rd offset
          (extend (Memory.read s.mem (transferAddress idx up (s.reg rn) offset).toNat)) := by
  have h := loadTransfer_loaded (ty := ty) (up := up) (offset := offset)
    (value := fun u a => (u, extend (u.loadByte a))) hr ha ha.rd_ne_r15 hs hab fun u a => .inl rfl
  have hmem := (s.afterLoadBase_plain ty (s.access user .load .byte false (transferAddress idx up (s.reg rn) offset)) idx
    rn (modifiedBase up (s.reg rn) offset)).2.1
  simpa only [State.loadByte, Memory.readByte, hmem] using h

/-- A halfword load loads what `extend` makes of the halfword at an even address, and completes at an odd one too
(R293, R294, D3). -/
theorem halfTransfer_loaded (extend : Half → Word) (hr : s.ready c (rn :: rm.toList))
    (ha : transferAllowed true true idx rn rd rm) (hs : s.canAdvance)
    (hab : s.abortsAt (s.access user .load .half false (transferAddress idx up (s.reg rn) offset)) = false) :
    ∃ t, loadTransfer .half ty true user (halfValue extend) c idx up rn rd rm offset s = .next t
      ∧ ∃ v, s.loaded t idx up rn rd offset v
        ∧ ((transferAddress idx up (s.reg rn) offset).toNat % 2 = 0 →
            v = extend (s.loadHalf (transferAddress idx up (s.reg rn) offset))) := by
  have hvalue : ∀ u a, (halfValue extend u a).1 = u ∨ (halfValue extend u a).1 = u.drawn := by
    intro u a
    rw [halfValue_state]
    split
    · exact .inr rfl
    · exact .inl rfl
  obtain ⟨t, ht, hloaded⟩ :=
    loadTransfer_loaded (ty := ty) (up := up) (offset := offset) hr ha ha.rd_ne_r15 hs hab hvalue
  refine ⟨t, ht, _, hloaded, fun heven => ?_⟩
  obtain ⟨hplain, hmem, -, -⟩ := s.afterLoadBase_plain ty
    (s.access user .load .half false (transferAddress idx up (s.reg rn) offset)) idx rn (modifiedBase up (s.reg rn) offset)
  rw [halfValue, getLsbD_zero_of_even heven]
  exact congrArg extend (State.loadHalf_congr hmem hplain.cfg _)

end

/-- Settles O33: LDR and LDRB load the rotated word and the byte. -/
theorem ldrResult : Obligations.LdrResult := by
  intro s c idx up rn rd off hr hd hs a
  exact ⟨fun ha hab => wordTransfer_loaded hr ha hd hs hab,
    fun ha hab => byteTransfer_loaded (BitVec.setWidth 32) hr ha hs hab⟩

/-- Settles O34: LDR with Rd = R15 is a word load that ends in a write of the program counter. -/
theorem ldrPcResult : Obligations.LdrPcResult := by
  intro s c idx up rn off hr ha a h4 hab
  exact loadTransfer_jumps hr ha h4 hab

/-- Settles O35: the T forms are the post-indexed loads, whose address is the base, with the access made unprivileged. -/
theorem userLoadResult : Obligations.UserLoadResult := by
  intro s c up rn rd off hr
  simp only [State.access_user]
  refine ⟨fun ha hd hs hab => wordTransfer_loaded hr ha hd hs hab, fun ha h4 hab => ?_,
    fun ha hs hab => byteTransfer_loaded (BitVec.setWidth 32) hr ha hs hab⟩
  obtain ⟨t, ht, hgoes, hbase, hmem, hflags, hfetch⟩ := loadTransfer_jumps (idx := .post) hr ha h4 hab
  exact ⟨t, ht, hgoes, hbase (by decide), hmem, hflags, hfetch⟩

/-- Settles O38: the halfword loads extend the halfword, LDRSB the byte. -/
theorem halfLoadResult : Obligations.HalfLoadResult := by
  intro s c idx up rn rd off hr ha hs a
  exact ⟨fun hab => ⟨halfTransfer_loaded (BitVec.setWidth 32) hr ha hs hab,
      halfTransfer_loaded (BitVec.signExtend 32) hr ha hs hab⟩,
    fun hab => byteTransfer_loaded (BitVec.signExtend 32) hr ha hs hab⟩

/-! ## Stores -/

section
variable {width : Width} {ty : RequestType} {narrow user : Bool} {bus : Word → Word}
  {put : State → Word → Word → State} {c : Cond} {idx : Index} {up : Bool} {rn rd : Reg} {rm : Option Reg}
  {offset : Word} {s : State}

/-- An allowed store whose access does not abort stores its bytes, with the one exchange, and writes the base back
(R264, R292). -/
theorem storeTransfer_stored {x : Nat} {l : List Byte} (hr : s.ready c (rd :: rn :: rm.toList))
    (ha : transferAllowed false narrow idx rn rd rm)
    (h15 : rd = .r15 → (transferAddress idx up (s.reg rn) offset).toNat % 4 = 0)
    (hh : width = .half → (transferAddress idx up (s.reg rn) offset).toNat % 2 = 0) (hs : s.canAdvance)
    (hw : Memory.wf s.mem = true)
    (hab : s.abortsAt (s.access user .store width false (transferAddress idx up (s.reg rn) offset)) = false)
    (hput : ∀ u, u.cfg = s.cfg → put u (transferAddress idx up (s.reg rn) offset) (s.regM rd) = u.storeBytes x l)
    (hx : x + l.length ≤ 2 ^ 32) :
    ∃ t, storeTransfer width ty narrow user bus put c idx up rn rd rm offset s = .next t
      ∧ s.stored t idx up rn offset x l.length ∧ t.mem = Memory.writeBytes s.mem x l ∧ t.cfg = s.cfg
      ∧ t.outputs = s.outputs ++ [.access (s.storeTransaction 0 ty
          (s.access user .store width false (transferAddress idx up (s.reg rn) offset)) (bus (s.regM rd)))] := by
  rw [storeTransfer_allowed hr ha h15 hh, hab]
  simp only [Bool.false_eq_true, if_false]
  rw [hput (s.storeRequest 0 ty _ (bus (s.regM rd))) rfl]
  generalize s.access user .store width false (transferAddress idx up (s.reg rn) offset) = acc
  let u := (s.storeRequest 0 ty acc (bus (s.regM rd))).storeBytes x l
  have hplain : Plain (s.asked 1) u := (Plain.storeRequest 0 (Plain.refl (s.ask 0)) ty acc _).storeBytes x l
  have hkeep := State.keepsRegs_writeBack u idx rn (modifiedBase up (s.reg rn) offset) hplain.cpsr rfl
  have hs' : (s.asked 1).canAdvance := (State.canAdvance_congr rfl rfl).2 hs
  obtain ⟨t, ht, e⟩ := (Plain.writeBack u idx rn (modifiedBase up (s.reg rn) offset) hplain).ends_flags hkeep hs'
  have hmem : t.mem = Memory.writeBytes s.mem x l := by rw [e.mem, State.writeBack_mem]; rfl
  have hmarks : t.marks = insertAddrs x l.length s.marks := by rw [e.marks, State.writeBack_marks]; rfl
  have hcfg : t.cfg = s.cfg := by
    obtain ⟨-, -, -, ⟨-, -, -, -, -, -, -, -, -, hcfg⟩, -⟩ := e.frame
    exact hcfg
  refine ⟨t, ht, ⟨⟨fun a hout => ?_, fun a => ?_⟩, fun hi => ?_, e.flags, e.frame⟩, hmem, hcfg, ?_⟩
  · rw [hmem, Memory.read_writeBytes_outside l hw hx hout]
  · rw [hmarks, mem_insertAddrs]
  · obtain ⟨hbase, -, -, -, -⟩ := ha
    rw [e.reg rn (hbase hi), State.reg_writeBack u _ hi (hbase hi), modifiedBase]
  · rw [e.outputs, State.writeBack_outputs]
    rfl

/-- An allowed word store puts Rd at the aligned word that contains the address (R267). -/
theorem wordTransfer_stored (hr : s.ready c (rd :: rn :: rm.toList)) (ha : transferAllowed false false idx rn rd rm)
    (h15 : rd = .r15 → (transferAddress idx up (s.reg rn) offset).toNat % 4 = 0) (hs : s.canAdvance)
    (hw : Memory.wf s.mem = true)
    (hab : s.abortsAt (s.access user .store .word false (transferAddress idx up (s.reg rn) offset)) = false) :
    ∃ t, storeTransfer .word ty false user id State.storeWord c idx up rn rd rm offset s = .next t
      ∧ s.stored t idx up rn offset ((transferAddress idx up (s.reg rn) offset).toNat / 4 * 4) 4
      ∧ t.loadWord (transferAddress idx up (s.reg rn) offset) = s.regM rd
      ∧ t.outputs = s.outputs ++ [.access (s.storeTransaction 0 ty
          (s.access user .store .word false (transferAddress idx up (s.reg rn) offset)) (s.regM rd))] := by
  have hput (u : State) (hu : u.cfg = s.cfg) : u.storeWord (transferAddress idx up (s.reg rn) offset) (s.regM rd)
      = u.storeBytes (alignWord (transferAddress idx up (s.reg rn) offset)).toNat (wordBytes s.cfg.bigend (s.regM rd)) := by
    rw [State.storeWord, hu]
  obtain ⟨t, ht, hstored, hmem, hcfg, hout⟩ :=
    storeTransfer_stored (width := .word) (ty := ty) (bus := id) (up := up) (offset := offset) hr ha h15 nofun hs hw hab hput
      (alignWord_add_four_le _)
  rw [alignWord_toNat] at hstored
  exact ⟨t, ht, hstored, (State.loadWord_congr (s := s.storeWord _ (s.regM rd)) hmem hcfg _).trans
    (State.loadWord_storeWord hw _ _), hout⟩

/-- An allowed byte store puts the low byte of Rd at the address (R274). -/
theorem byteTransfer_stored (hr : s.ready c (rd :: rn :: rm.toList)) (ha : transferAllowed false true idx rn rd rm)
    (hs : s.canAdvance) (hw : Memory.wf s.mem = true)
    (hab : s.abortsAt (s.access user .store .byte false (transferAddress idx up (s.reg rn) offset)) = false) :
    ∃ t, storeTransfer .byte ty true user byteBus putByte c idx up rn rd rm offset s = .next t
      ∧ s.stored t idx up rn offset (transferAddress idx up (s.reg rn) offset).toNat 1
      ∧ Memory.read t.mem (transferAddress idx up (s.reg rn) offset).toNat = (s.reg rd).extractLsb' 0 8
      ∧ t.outputs = s.outputs ++ [.access (s.storeTransaction 0 ty
          (s.access user .store .byte false (transferAddress idx up (s.reg rn) offset)) (byteBus (s.reg rd)))] := by
  obtain ⟨t, ht, hstored, hmem, -, hout⟩ :=
    storeTransfer_stored (width := .byte) (ty := ty) (bus := byteBus) (put := putByte) (up := up) (offset := offset)
      (x := (transferAddress idx up (s.reg rn) offset).toNat) (l := [(s.regM rd).extractLsb' 0 8]) hr ha
      (fun hd => absurd hd ha.rd_ne_r15) nofun hs hw hab (fun _ _ => rfl) (transferAddress idx up (s.reg rn) offset).isLt
  rw [State.regM_eq_reg s ha.rd_ne_r15] at hmem hout
  refine ⟨t, ht, hstored, ?_, hout⟩
  rw [hmem]
  exact State.read_storeByte hw _ _

/-- An allowed halfword store puts bits 15 to 0 of Rd at an even address (R296). -/
theorem halfTransfer_stored (hr : s.ready c (rd :: rn :: rm.toList)) (ha : transferAllowed false true idx rn rd rm)
    (heven : (transferAddress idx up (s.reg rn) offset).toNat % 2 = 0) (hs : s.canAdvance)
    (hw : Memory.wf s.mem = true)
    (hab : s.abortsAt (s.access user .store .half false (transferAddress idx up (s.reg rn) offset)) = false) :
    ∃ t, storeTransfer .half ty true user halfBus putHalf c idx up rn rd rm offset s = .next t
      ∧ s.stored t idx up rn offset (transferAddress idx up (s.reg rn) offset).toNat 2
      ∧ t.loadHalf (transferAddress idx up (s.reg rn) offset) = (s.reg rd).extractLsb' 0 16 := by
  have h0 := getLsbD_zero_of_even heven
  have hput (u : State) (hu : u.cfg = s.cfg) : putHalf u (transferAddress idx up (s.reg rn) offset) (s.regM rd)
      = u.storeBytes (transferAddress idx up (s.reg rn) offset).toNat
          (halfBytes s.cfg.bigend ((s.regM rd).extractLsb' 0 16)) := by
    rw [putHalf, State.storeHalf, hu]
  obtain ⟨t, ht, hstored, hmem, hcfg, -⟩ :=
    storeTransfer_stored (width := .half) (ty := ty) (bus := halfBus) (up := up) (offset := offset) hr ha
      (fun hd => absurd hd ha.rd_ne_r15) (fun _ => heven) hs hw hab hput (by simpa using even_add_two_le h0)
  rw [halfBytes_length] at hstored
  rw [State.regM_eq_reg s ha.rd_ne_r15] at hmem
  exact ⟨t, ht, hstored, (State.loadHalf_congr (s := s.storeHalf _ _) hmem hcfg _).trans
    (State.loadHalf_storeHalf hw h0 _)⟩

/-- A halfword store at an odd address stops (R296, D3). -/
theorem storeTransfer_odd (hr : s.ready c (rd :: rn :: rm.toList)) (ha : transferAllowed false true idx rn rd rm)
    (hodd : (transferAddress idx up (s.reg rn) offset).toNat % 2 = 1) :
    storeTransfer .half ty true user bus put c idx up rn rd rm offset s = .fault .strhOdd := by
  rw [storeTransfer, condExec_ready hr, transferStop_of_allowed ha]
  simp [ha.rd_ne_r15, getLsbD_zero_of_odd hodd, -BitVec.getLsbD_eq_getElem]

end

/-- Settles O36: STR and STRB store their bytes with one exchange. -/
theorem strResult : Obligations.StrResult := by
  intro s c idx up rn rd off hr hs hw a shows
  refine ⟨fun ha h15 hab => ?_, fun ha hab => ?_⟩
  · obtain ⟨t, ht, hstored, hload, hout⟩ := wordTransfer_stored hr ha h15 hs hw hab
    obtain ⟨hty, haddr, hdata, -, hresp, hpre, hret⟩ :=
      State.storeTransaction_done (k := 0) (ty := .store false) (v := s.regM rd) hab rfl nofun
    exact ⟨t, ht, hstored, hload, _, hout, hty, haddr, hdata, hresp, hpre, hret⟩
  · obtain ⟨t, ht, hstored, hread, hout⟩ := byteTransfer_stored hr ha hs hw hab
    obtain ⟨hty, haddr, hdata, -, hresp, hpre, hret⟩ :=
      State.storeTransaction_done (k := 0) (ty := .storeB) (v := byteBus (s.reg rd)) hab rfl nofun
    exact ⟨t, ht, hstored, hread, _, hout, hty, haddr, hdata, hresp, hpre, hret⟩

/-- Settles O37: the T forms are the post-indexed stores, whose address is the base, with the access made unprivileged. -/
theorem userStoreResult : Obligations.UserStoreResult := by
  intro s c up rn rd off hr hs hw a
  simp only [State.access_user]
  refine ⟨fun ha h15 hab => ?_, fun ha hab => ?_⟩
  · obtain ⟨t, ht, hstored, hload, -⟩ := wordTransfer_stored (idx := .post) hr ha h15 hs hw hab
    exact ⟨t, ht, hstored, hload⟩
  · obtain ⟨t, ht, hstored, hread, -⟩ := byteTransfer_stored (idx := .post) hr ha hs hw hab
    exact ⟨t, ht, hstored, hread⟩

/-- Settles O39: STRH stores its two bytes at an even address and stops at an odd one. -/
theorem strhResult : Obligations.StrhResult := by
  intro s c idx up rn rd off hr ha a
  exact ⟨fun heven hs hw hab => halfTransfer_stored hr ha heven hs hw hab, fun hodd => storeTransfer_odd hr ha hodd⟩

/-! ## Operand combinations that are not allowed -/

section
variable {width : Width} {ty : RequestType} {narrow user : Bool} {c : Cond} {idx : Index} {up : Bool} {rn rd : Reg}
  {rm : Option Reg} {offset : Word} {s : State}

/-- A load that passes its condition and goes on has operands that are allowed, and for R15 a multiple of 4 (R269,
R297). -/
theorem loadTransfer_goesOn {value : State → Word → State × Word} (hc : condPassed s.cpsr.flags c = true)
    (h : goesOn (loadTransfer width ty narrow user value c idx up rn rd rm offset s)) :
    transferAllowed true narrow idx rn rd rm
      ∧ (rd = .r15 → (transferAddress idx up (s.reg rn) offset).toNat % 4 = 0) := by
  obtain ⟨t, ht⟩ := h
  obtain ⟨-, hfail, -⟩ | ⟨-, ha, h15, -⟩ := loadTransfer_next ht
  · simp [hc] at hfail
  · exact ⟨ha, h15⟩

/-- A store that passes its condition and goes on has operands that are allowed, and for R15 a multiple of 4 (R269,
R297). -/
theorem storeTransfer_goesOn {bus : Word → Word} {put : State → Word → Word → State}
    (hc : condPassed s.cpsr.flags c = true)
    (h : goesOn (storeTransfer width ty narrow user bus put c idx up rn rd rm offset s)) :
    transferAllowed false narrow idx rn rd rm
      ∧ (rd = .r15 → (transferAddress idx up (s.reg rn) offset).toNat % 4 = 0) := by
  obtain ⟨t, ht⟩ := h
  obtain ⟨-, hfail, -⟩ | ⟨-, ha, h15, -, -⟩ := storeTransfer_next ht
  · simp [hc] at hfail
  · exact ⟨ha, h15⟩

end

/-- Settles O41: a transfer that goes on has allowed operands, so one whose operands are not allowed does not. -/
theorem transferStops : Obligations.TransferStops := by
  intro s c idx up rn rd off hoff _ hc rm
  refine ⟨fun hn h => hn (loadTransfer_goesOn hc h).1, fun hn h => hn (loadTransfer_goesOn hc h).1,
    fun hn h => hn (storeTransfer_goesOn hc h).1, fun hn h => hn (storeTransfer_goesOn hc h).1,
    fun hn h => hn (loadTransfer_goesOn hc h).1, fun hn h => hn (loadTransfer_goesOn hc h).1,
    fun hn h => hn (storeTransfer_goesOn hc h).1, fun hn h => hn (storeTransfer_goesOn hc h).1,
    fun hn => ⟨fun h => ?_, fun h => ?_, fun h => ?_⟩, fun hn h => hn (storeTransfer_goesOn hc h).1,
    fun hn => ⟨fun h => ?_, fun h => ?_⟩, fun hn => ⟨fun h => ?_, fun h => ?_⟩⟩
  · exact hn (loadTransfer_goesOn hc h).1
  · exact hn (loadTransfer_goesOn hc h).1
  · exact hn (loadTransfer_goesOn hc h).1
  · exact hn ((loadTransfer_goesOn hc h).2 rfl)
  · exact hn ((storeTransfer_goesOn hc h).2 rfl)
  · exact hn ((loadTransfer_goesOn hc h).2 rfl)
  · exact hn ((storeTransfer_goesOn hc h).2 rfl)

end Sys2Proof.Machine
end

section
/-! PROOFS. The swaps (O50, O51). -/

namespace Sys2Proof.Machine

/-! ## What a swap does -/

/-- The read of a swap is shown before the Prefetch Unit takes what is returned with its write. -/
theorem State.ask_request (s : State) (ty : RequestType) (a : Access) (v : Word) :
    Plain (s.asked 1) ((s.request ty a v).ask 0) := by
  have h : (s.request ty a v).ask 0 = (s.asked 1).emit _ := State.askFrom_emit s _ 0 1
  rw [h]
  exact (Plain.refl _).emit _

section
variable {width : Width} {readTy writeTy : RequestType} {bus : Word → Word} {value : State → Word → Word}
  {put : State → Word → Word → State} {c : Cond} {rn rd rm : Reg} {s : State}

/-- A swap with R15 stops (R341, R342). -/
theorem swap_r15 (hr : s.ready c [rn, rm]) (h : rn = .r15 ∨ rd = .r15 ∨ rm = .r15) :
    swap width readTy writeTy bus value put c rn rd rm s = .fault .swpR15 := by
  have hmem : [rn, rd, rm].contains .r15 = true := by simpa [@eq_comm _ Reg.r15] using h
  rw [swap, condExec_ready hr, if_pos hmem]

/-- A swap without R15: the read, then the write, then Rd. -/
theorem swap_ready (hr : s.ready c [rn, rm]) (hn : rn ≠ .r15) (hd : rd ≠ .r15) (hm : rm ≠ .r15) :
    let racc := s.access false .load width true (s.reg rn)
    let wacc := s.access false .store width true (s.reg rn)
    let t := s.request readTy racc 0
    swap width readTy writeTy bus value put c rn rd rm s =
      if s.abortsAt racc then .next (t.enter .dataAbort (s.pc + 8))
      else if s.abortsAt wacc then .next ((t.storeAborted 0 writeTy wacc (bus (s.reg rm))).enter .dataAbort (s.pc + 8))
      else ((put (t.storeRequest 0 writeTy wacc (bus (s.reg rm))) (s.reg rn) (s.reg rm)).setReg rd
        (value s (s.reg rn))).advance := by
  have hmem : [rn, rd, rm].contains .r15 = false := by simp [hn.symm, hd.symm, hm.symm]
  rw [swap, condExec_ready hr, hmem]
  rfl

/-- A swap whose read or write aborts takes the data abort before it changes a register or a byte (R343). -/
theorem swap_aborts (hr : s.ready c [rn, rm]) (hn : rn ≠ .r15) (hd : rd ≠ .r15) (hm : rm ≠ .r15)
    (hab : s.abortsAt (s.access false .load width true (s.reg rn)) = true
      ∨ s.abortsAt (s.access false .store width true (s.reg rn)) = true) :
    s.abortsData (swap width readTy writeTy bus value put c rn rd rm s) := by
  have hread := (Plain.refl s).request readTy (s.access false .load width true (s.reg rn)) 0
  rw [swap_ready hr hn hd hm]
  cases hra : s.abortsAt (s.access false .load width true (s.reg rn)) with
  | true => exact hread.abortsData rfl rfl rfl
  | false =>
    rw [hra] at hab
    rw [hab.resolve_left Bool.false_ne_true]
    exact (hread.storeAborted 0 writeTy _ _).abortsData rfl rfl rfl

/-- A swap neither of whose accesses aborts writes its bytes, and Rd with what was in memory (R341, R342). -/
theorem swap_swapped {x : Nat} {l : List Byte} (hr : s.ready c [rn, rm]) (hn : rn ≠ .r15) (hd : rd ≠ .r15)
    (hm : rm ≠ .r15) (hs : s.canAdvance) (hw : Memory.wf s.mem = true)
    (hra : s.abortsAt (s.access false .load width true (s.reg rn)) = false)
    (hwa : s.abortsAt (s.access false .store width true (s.reg rn)) = false)
    (hput : ∀ u, u.cfg = s.cfg → put u (s.reg rn) (s.reg rm) = u.storeBytes x l) (hx : x + l.length ≤ 2 ^ 32) :
    ∃ t, swap width readTy writeTy bus value put c rn rd rm s = .next t ∧ t.reg rd = value s (s.reg rn)
      ∧ s.storesOnly t x l.length ∧ t.mem = Memory.writeBytes s.mem x l ∧ t.cfg = s.cfg
      ∧ t.cpsr.flags = s.cpsr.flags ∧ (s.asked 1).goesOnTo t [rd] := by
  let w := (s.request readTy (s.access false .load width true (s.reg rn)) 0).storeRequest 0 writeTy
    (s.access false .store width true (s.reg rn)) (bus (s.reg rm))
  rw [swap_ready hr hn hd hm, hra, hwa]
  simp only [Bool.false_eq_true, if_false]
  rw [hput w rfl]
  have hplain : Plain (s.asked 1) (w.storeBytes x l) := ((s.ask_request _ _ _).emit _).storeBytes x l
  have hkeep : (s.asked 1).keepsRegs ((w.storeBytes x l).setReg rd (value s (s.reg rn))) [rd] := by
    intro p hp
    rw [State.get_setReg, hplain.cpsr, if_neg (hp rd List.mem_cons_self)]
    rfl
  obtain ⟨t, ht, e⟩ := (hplain.setReg rd (value s (s.reg rn))).ends_flags hkeep ((State.canAdvance_congr rfl rfl).2 hs)
  have hmem : t.mem = Memory.writeBytes s.mem x l := by rw [e.mem, State.setReg_mem]; rfl
  have hmarks : t.marks = insertAddrs x l.length s.marks := by rw [e.marks, State.setReg_marks]; rfl
  have hcfg : t.cfg = s.cfg := by
    obtain ⟨-, -, -, ⟨-, -, -, -, -, -, -, -, -, hcfg⟩, -⟩ := e.frame
    exact hcfg
  refine ⟨t, ht, ?_, ⟨fun a hout => ?_, fun a => ?_⟩, hmem, hcfg, e.flags, e.frame⟩
  · rw [e.reg rd hd, State.reg_setReg_same _ _ hd]
  · rw [hmem, Memory.read_writeBytes_outside l hw hx hout]
  · rw [hmarks, mem_insertAddrs]

end

/-- SWP and SWPB are the two widths of the swap. -/
theorem exec_swp (s : State) (c : Cond) (rn rd rm : Reg) :
    exec (.swp c rn rd rm) s = swap .word .loadX .storeX id State.loadRotated State.storeWord c rn rd rm s := rfl

theorem exec_swpb (s : State) (c : Cond) (rn rd rm : Reg) :
    exec (.swpb c rn rd rm) s
      = swap .byte .loadBX .storeBX byteBus (fun t a => (t.loadByte a).setWidth 32) putByte c rn rd rm s := rfl

/-- Settles O50: SWP stores the word of Rm and loads the rotated word, SWPB the byte. -/
theorem swapResult : Obligations.SwapResult := by
  intro s c rn rd rm hr hn hd hm hs hw a
  rw [exec_swp, exec_swpb]
  refine ⟨fun hra hwa => ?_, fun hra hwa => ?_⟩
  · have hput (u : State) (hu : u.cfg = s.cfg) :
        u.storeWord a (s.reg rm) = u.storeBytes (alignWord a).toNat (wordBytes s.cfg.bigend (s.reg rm)) := by
      rw [State.storeWord, hu]
    obtain ⟨t, ht, hreg, hstores, hmem, hcfg, hflags, hframe⟩ :=
      swap_swapped (readTy := .loadX) (writeTy := .storeX) (bus := id) (value := State.loadRotated) hr hn hd hm hs hw
        hra hwa hput (alignWord_add_four_le a)
    refine ⟨t, ht, hreg, ?_, ?_, hflags, hframe⟩
    · exact (State.loadWord_congr (s := s.storeWord a (s.reg rm)) hmem hcfg a).trans (State.loadWord_storeWord hw _ _)
    · rw [← alignWord_toNat]
      exact hstores
  · obtain ⟨t, ht, hreg, hstores, hmem, -, hflags, hframe⟩ :=
      swap_swapped (readTy := .loadBX) (writeTy := .storeBX) (bus := byteBus)
        (value := fun t a => (t.loadByte a).setWidth 32) (put := putByte) (x := a.toNat)
        (l := [(s.reg rm).extractLsb' 0 8]) hr hn hd hm hs hw hra hwa (fun _ _ => rfl) a.isLt
    refine ⟨t, ht, hreg, ?_, hstores, hflags, hframe⟩
    rw [hmem]
    exact State.read_storeByte hw a _

/-- Settles O51: an abort comes before any change, and R15 stops the swap. -/
theorem swapAbortsAndStops : Obligations.SwapAbortsAndStops := by
  intro s c rn rd rm hr
  rw [exec_swp, exec_swpb]
  exact ⟨fun hn hd hm => ⟨swap_aborts hr hn hd hm, swap_aborts hr hn hd hm⟩,
    fun h => ⟨swap_r15 hr h, swap_r15 hr h⟩⟩

end Sys2Proof.Machine
end

section
/-! PROOFS. The step boundary: reset (O7), the interrupts and the prefetch abort (O8); the instructions that take an
exception (O52, O53, O57); and an exception followed by the return from it (O58). -/

namespace Sys2Proof.Machine

/-! ## Reset, interrupts and the prefetch abort -/

/-- Settles O7: the step is the boundary and then `State.takeReset`, which writes these fields and keeps the others. -/
theorem resetLine : Obligations.ResetLine := by
  intro s hr
  refine ⟨s.beginStep.takeReset, if_pos hr, rfl, rfl, rfl, rfl, ?_, rfl, rfl, rfl, rfl, rfl, rfl, ?_, ?_, ?_, ?_, ?_⟩
  all_goals simp [State.takeReset]

/-- An exception taken in a state with the registers and status registers of `s` is taken as from `s`. -/
theorem State.hasTaken_enter {s u : State} (hc : u.cpsr = s.cpsr) (hs : u.spsrs = s.spsrs) (hr : u.regs = s.regs)
    (e : Exception) (ret : Word) : s.hasTaken (u.enter e ret) e ret := by
  have taken := u.enter_hasTaken e ret
  rwa [State.hasTaken, hc, hs, hr] at taken

/-- Settles O8: of the boundary, the abandoned busy-wait and the fetch that come before the exception none changes a
register, a status register or memory. -/
theorem interruptAndPrefetchAbort : Obligations.InterruptAndPrefetchAbort := by
  intro s hr b
  refine ⟨fun hline hf => ?_, fun hfiq hline hi => ?_, fun hfiq hirq hwait hpres => ?_⟩
  · have hstep : step s = .next (b.abandon.enter .fiq (s.pc + 4)) := by simp [step, hr, hline, hf, b]
    exact ⟨_, hstep, State.hasTaken_enter (by simp [b]) (by simp [b]) (by simp [b]) _ _, ⟨fun a => by simp, by simp⟩, rfl,
      by simp⟩
  · have hstep : step s = .next (b.abandon.enter .irq (s.pc + 4)) := by simp [step, hr, hfiq, hline, hi, b]
    exact ⟨_, hstep, State.hasTaken_enter (by simp [b]) (by simp [b]) (by simp [b]) _ _, ⟨fun a => by simp, by simp⟩, rfl,
      by simp⟩
  · have hstep : step s = .next (b.requestFetch.enter .prefetchAbort (s.pc + 4)) := by
      rw [step_eq_runNext hr hfiq hirq, State.runNext, hwait, hpres]
      simp [b]
    exact ⟨_, hstep, State.hasTaken_enter (by simp [b]) (by simp [b]) (by simp [b]) _ _, ⟨fun a => by simp, by simp⟩,
      by simp⟩

/-! ## The instructions that take an exception -/

/-- The undefined instruction trap changes nothing else (R425). -/
theorem State.traps_trapUndefined (s : State) : s.traps s.trapUndefined :=
  ⟨_, rfl, s.enter_hasTaken _ _, fun _ => rfl, rfl⟩

/-- A bounced coprocessor instruction takes the trap, with CExecute LOW as its one output (R370, R376). -/
theorem State.traps_bounced (s : State) :
    s.traps s.bounced ∧ ∃ t, s.bounced = .next t ∧ t.coproc = s.coproc ∧ t.outputs = s.outputs ++ [.cpExecute false] :=
  ⟨⟨_, rfl, State.hasTaken_enter (s := s) rfl rfl rfl _ _, fun _ => rfl, rfl⟩, _, rfl, rfl, rfl⟩

/-- Settles O52: SWI is the barrier and then the exception. -/
theorem softwareInterrupt : Obligations.SoftwareInterrupt := by
  intro s c comment hr
  exact ⟨_, condExec_ready hr _, State.hasTaken_enter (s := s) rfl rfl rfl _ _, rfl, rfl, rfl, fun _ => rfl⟩

/-- Settles O53: the three are bounced whatever their fields are. -/
theorem coprocessorTrap : Obligations.CoprocessorTrap := by
  intro s c opc crn crd num info crm p up n w rn offset hr i hi
  have hexec : exec i s = s.bounced := by
    simp only [List.mem_cons, List.not_mem_nil, or_false] at hi
    obtain rfl | rfl | rfl := hi <;> exact condExec_ready hr _
  rw [hexec]
  exact s.traps_bounced

/-- Classes B to E take the trap where the implementation traps them (R372, D14). -/
theorem undefinedBtoE_traps {s : State} {c : Cond} (hr : s.ready c []) (h : s.cfg.undefClassesBtoE = true) (x : Fault) :
    s.traps (undefinedBtoE c x s) := by
  rw [undefinedBtoE, condExec_ready hr, if_pos h]
  exact s.traps_trapUndefined

/-- Classes B to E stop where it does not (R372). -/
theorem undefinedBtoE_stops {s : State} {c : Cond} (hr : s.ready c []) (h : s.cfg.undefClassesBtoE = false)
    (x : Fault) : undefinedBtoE c x s = .fault x := by
  rw [undefinedBtoE, condExec_ready hr, h]
  rfl

/-- Settles O57. Class A and the reserved words do not look at the parameter, classes B to E do. -/
theorem undefinedAndReserved : Obligations.UndefinedAndReserved := by
  intro s c bits hr
  refine ⟨?_, fun h => ?_, fun h => ?_, condExec_ready hr _, condExec_ready hr _, condExec_ready hr _,
    condExec_ready hr _⟩
  · have hexec : exec (.undefinedA c bits) s = s.trapUndefined := condExec_ready hr _
    rw [hexec]
    exact s.traps_trapUndefined
  · exact ⟨undefinedBtoE_traps hr h _, undefinedBtoE_traps hr h _, undefinedBtoE_traps hr h _,
      undefinedBtoE_traps hr h _⟩
  · exact ⟨undefinedBtoE_stops hr h _, undefinedBtoE_stops hr h _, undefinedBtoE_stops hr h _,
      undefinedBtoE_stops hr h _⟩

/-! ## An exception and the return from it -/

/-- The CPSR is what its SPSR keeps of it (R33). -/
theorem Cpsr.toPsr_injective {p q : Cpsr} (h : p.toPsr = q.toPsr) : p = q := by
  obtain ⟨flags, i, f, mode⟩ := p
  obtain ⟨flags', i', f', mode'⟩ := q
  simp only [Cpsr.toPsr, Psr.mk.injEq] at h
  obtain ⟨rfl, rfl, rfl, hm⟩ := h
  have hmode : some mode = some mode' := by rw [← Mode.ofBits_bits mode, hm, Mode.ofBits_bits]
  rw [Option.some.inj hmode]

/-- The mode of an exception is a 32-bit one, with an SPSR and an R14 of its own (R422). -/
theorem Exception.mode_facts (e : Exception) :
    e.mode.is26 = false ∧ e.mode.spsr = some e.spsr ∧ e.mode.bank.view .r14 = some e.link
      ∧ e.vector.toNat < 2 ^ 26 := by
  cases e <;> decide

/-- A return by an instruction whose result is the legal address `a` gives back what the exception has saved (R186,
R450). -/
theorem State.enter_return {s : State} {e : Exception} {a ret : Word} (ha : a &&& s.cpsr.mode.pcMask = a) {op : DpOp}
    {rn : Reg} {o : Operand2} (hsh : r15InRegisterShift (op.rnRead rn) o = false)
    (hv : (s.enter e ret).dpValue op rn o = a) :
    ∃ t, exec (op.instr .al true .r15 rn o) (s.enter e ret) = .next t ∧ t.pc = a ∧ t.cpsr = s.cpsr
      ∧ (∀ q, q ≠ e.link → t.regs.get q = s.regs.get q) ∧ (∀ n, n ≠ e.spsr → t.spsrs.get n = s.spsrs.get n)
      ∧ s.keepsMemory t := by
  obtain ⟨h32, hspsr, -, hvec⟩ := e.mode_facts
  have hr : (s.enter e ret).ready .al (op.rnRead rn ++ operand2Reads o) :=
    ⟨by decide, rfl, State.hazard_of_not_userLdm rfl _⟩
  have hsaved : (s.enter e ret).spsrs.get e.spsr = s.cpsr.toPsr := Spsrs.get_set_same _ _ _
  have hlow : s.cpsr.mode.is26 = true → (s.enter e ret).pc.toNat < 2 ^ 26 ∧ ((s.enter e ret).dpValue op rn o).toNat < 2 ^ 26 := by
    intro h26
    rw [Mode.pcMask, if_pos h26] at ha
    rw [hv]
    exact ⟨hvec, (mask26_eq_self.1 ha).2⟩
  obtain ⟨t, ht, hpsr, hpc, hregs, ⟨hspsrs, -⟩, hmem, hmarks⟩ :=
    returnFromException op (s.enter e ret) .al rn o e.spsr s.cpsr.mode hr hsh h32 hspsr (by rw [hsaved]; rfl) hlow
  refine ⟨t, ht, ?_, Cpsr.toPsr_injective (hpsr.trans hsaved), fun q hq => ?_, fun n hn => ?_, hmem, hmarks⟩
  · rw [hpc, hv, ha]
  · rw [hregs]
    exact RegFile.get_set_other _ _ hq
  · rw [hspsrs]
    exact Spsrs.get_set_other _ _ hn

/-- R14 of the exception's mode holds the return address (R423). -/
theorem State.reg_enter_r14 (s : State) (e : Exception) (ret : Word) :
    (s.enter e ret).reg .r14 = ret ∧ (s.enter e ret).regM .r14 = ret := by
  obtain ⟨-, -, hview, -⟩ := e.mode_facts
  have hreg : (s.enter e ret).reg .r14 = ret :=
    (State.reg_of_view _ hview).trans (RegFile.get_set_same _ _ _)
  exact ⟨hreg, (State.regM_eq_reg _ (by decide)).trans hreg⟩

/-- Settles O58: each of the three returns computes the address that the exception was taken at. -/
theorem exceptionRoundTrip : Obligations.ExceptionRoundTrip := by
  intro s e a ha p hp
  simp only [List.mem_cons, List.not_mem_nil, or_false] at hp
  obtain rfl | rfl | rfl := hp
  · refine State.enter_return (op := .mov) ha rfl ?_
    have h14 := (s.reg_enter_r14 e (a + 0#32)).2
    rw [BitVec.add_zero] at h14 ⊢
    exact h14
  · refine State.enter_return (op := .sub) ha rfl ?_
    have h14 := (s.reg_enter_r14 e (a + 4#32)).1
    show (s.enter e (a + 4#32)).reg .r14 - 4#32 = a
    rw [h14, BitVec.add_sub_cancel]
  · refine State.enter_return (op := .sub) ha rfl ?_
    have h14 := (s.reg_enter_r14 e (a + 8#32)).1
    show (s.enter e (a + 8#32)).reg .r14 - 8#32 = a
    rw [h14, BitVec.add_sub_cancel]

end Sys2Proof.Machine
end

section
/-! PROOFS. MRC and MCR: accepted (O54, O55), bounced and busy-waiting (O56). -/

namespace Sys2Proof.Machine

/-! ## The bits of the instruction -/

/-- Bits 25 to 0 of an instruction are those of its body. -/
theorem encode_bits26 (i : Instr) : (encode i).extractLsb' 0 26 = (encodeBody i).extractLsb' 0 26 :=
  BitVec.extractLsb'_append_eq_of_add_le (by decide)

/-- CP# is bits 11 to 8 of an MRC or MCR (R112). -/
theorem encodeCoprocReg_num (load : Bool) (opc : BitVec 3) (crn : BitVec 4) (rd : Reg) (num : BitVec 4)
    (info : BitVec 3) (crm : BitVec 4) :
    ((encodeCoprocReg load opc crn rd num info crm).extractLsb' 0 26).extractLsb' 8 4 = num := by
  rw [BitVec.extractLsb'_extractLsb'_of_le (by decide)]
  simp (disch := decide) only [encodeCoprocReg, BitVec.extractLsb'_append_eq_of_add_le,
    BitVec.extractLsb'_append_eq_of_le]
  exact BitVec.extractLsb'_eq_self

/-! ## The three ends of a coprocessor transfer -/

section
variable {c : Cond} {reads : List Reg} {bits : BitVec 26} {wait : State → State} {accepted : State → CoprocAnswer → Out}
  {s : State}

/-- An accepted transfer goes on with CExecute HIGH. -/
theorem coprocTransfer_accepted (hr : s.ready c reads) (hb : (s.coprocAnswer bits).busy = some 0)
    (ha : (s.coprocAnswer bits).accept = true) :
    coprocTransfer c reads bits wait accepted s = accepted (s.emit (.cpExecute true)) (s.coprocAnswer bits) := by
  rw [coprocTransfer, condExec_ready hr]
  simp only [hb, ne_eq, not_true_eq_false, if_false, ha, if_true]

/-- A transfer that is bounced takes the trap. -/
theorem coprocTransfer_bounced (hr : s.ready c reads) (hb : (s.coprocAnswer bits).busy = some 0)
    (ha : (s.coprocAnswer bits).accept = false) : coprocTransfer c reads bits wait accepted s = s.bounced := by
  rw [coprocTransfer, condExec_ready hr]
  simp only [hb, ne_eq, not_true_eq_false, if_false, ha, Bool.false_eq_true]

/-- A transfer that is answered busy stays in Execute. -/
theorem coprocTransfer_waits (hr : s.ready c reads) (hb : (s.coprocAnswer bits).busy ≠ some 0) :
    coprocTransfer c reads bits wait accepted s = .next { wait (s.emit (.cpExecute true)) with
      pending := (s.coprocAnswer bits).later, busyWait := true, userLdm := false } := by
  rw [coprocTransfer, condExec_ready hr]
  simp only [hb, ne_eq, not_false_eq_true, if_true]

end

/-! ## Accepted transfers -/

/-- The CPSR of before, where the flags are those of before. -/
theorem Ends.cpsr_eq {s u t : State} {written : List Reg} (h : Ends s u t s.cpsr.flags written) :
    t.cpsr = s.cpsr := by
  obtain ⟨-, -, ⟨hi, hf, hm⟩, -⟩ := h.frame
  have hflags := h.flags
  generalize t.cpsr = p at *
  generalize s.cpsr = q at *
  cases p
  cases q
  simp_all

section
variable {s : State} {c : Cond} {opc : BitVec 3} {crn : BitVec 4} {rd : Reg} {num : BitVec 4} {info : BitVec 3}
  {crm : BitVec 4} {a : CoprocAnswer}

/-- An accepted MRC writes its word to Rd, or to the flags (R367). -/
theorem execMrc_accepted (hr : s.ready c [])
    (h : s.coprocAnswer ((encodeCoprocReg true opc crn rd num info crm).extractLsb' 0 26) = a) (hb : a.busy = some 0)
    (ha : a.accept = true) :
    let v := s.coproc.word a.data
    let u := (s.emit (.cpExecute true)).coprocExecute a v
    execMrc c opc crn rd num info crm s
      = if rd = .r15 then (u.setFlags (Flags.ofWord v)).advance else (u.setReg rd v).advance := by
  subst h
  exact coprocTransfer_accepted hr hb ha

/-- An accepted MCR gives Rd to the coprocessor and to the address bus, and stops with Rd = R15 (R368). -/
theorem execMcr_accepted (hr : s.ready c [rd])
    (h : s.coprocAnswer ((encodeCoprocReg false opc crn rd num info crm).extractLsb' 0 26) = a) (hb : a.busy = some 0)
    (ha : a.accept = true) :
    execMcr c opc crn rd num info crm s
      = if rd = .r15 then .fault .mcrR15
        else State.advance
          (((((s.emit (.cpExecute true)).coprocExecute a (s.reg rd)).emit
            (.cpWrite ((encodeCoprocReg false opc crn rd num info crm).extractLsb' 0 26) (s.reg rd))).emit
              (.access (s.noAccess .control (s.reg rd) .done)))) := by
  subst h
  unfold execMcr
  rw [coprocTransfer_accepted hr hb ha]

/-- MRC is a transfer whose busy-wait cycle shows AREQ_NONE (R369). -/
theorem exec_mrc_transfer (s : State) : ∃ accepted, exec (.mrc c opc crn rd num info crm) s
    = coprocTransfer c [] ((encodeCoprocReg true opc crn rd num info crm).extractLsb' 0 26) (fun t => t.noRequest 0)
        accepted s := by
  show ∃ accepted, execMrc c opc crn rd num info crm s = _
  unfold execMrc
  exact ⟨_, rfl⟩

/-- MCR is a transfer whose busy-wait cycle shows Rd (R382). -/
theorem exec_mcr_transfer (s : State) : ∃ accepted, exec (.mcr c opc crn rd num info crm) s
    = coprocTransfer c [rd] ((encodeCoprocReg false opc crn rd num info crm).extractLsb' 0 26) (fun t => t.mcrWait rd)
        accepted s := by
  show ∃ accepted, execMcr c opc crn rd num info crm s = _
  unfold execMcr
  exact ⟨_, rfl⟩

end

/-- Settles O54: the work is done in the state whose coprocessors have taken the effect, with CExecute shown. -/
theorem mrcAccepted : Obligations.MrcAccepted := by
  intro s c opc crn rd num info crm hr
  rw [encode_bits26]
  intro a v hb ha hs
  rw [show exec (.mrc c opc crn rd num info crm) s = _ from execMrc_accepted hr rfl hb ha]
  let b := s.coprocExecute a v
  have hplain : Plain b ((s.emit (.cpExecute true)).coprocExecute a v) := (Plain.refl b).emit (.cpExecute true)
  have hnone : a.effects = [] → s.coproc.execute a v = s.coproc := fun h => s.coproc.execute_of_no_effects h v
  by_cases hd : rd = .r15
  · have hkeep : b.keepsRegs ((s.emit (.cpExecute true)).coprocExecute a v) [rd] := fun _ _ => rfl
    obtain ⟨t, ht, e⟩ := hplain.ends hkeep hs (Flags.ofWord v)
    obtain ⟨hpc, hregs, hctl, ⟨hspsrs, -⟩, -⟩ := e.frame
    refine ⟨t, (if_pos hd).trans ht, hpc, fun h => absurd hd h, fun _ => ⟨e.regs, e.flags⟩, hregs, hctl, hspsrs,
      e.keepsMemory rfl rfl, e.coproc, fun h => e.coproc.trans (hnone h), ?_⟩
    rw [e.outputs]
    simp
  · have hkeep : b.keepsRegs (((s.emit (.cpExecute true)).coprocExecute a v).setReg rd v) [rd] :=
      State.keepsRegs_setReg ((s.emit (.cpExecute true)).coprocExecute a v) v List.mem_cons_self
    obtain ⟨t, ht, e⟩ := (hplain.setReg rd v).ends_flags hkeep hs
    obtain ⟨hpc, hregs, hctl, ⟨hspsrs, -⟩, -⟩ := e.frame
    have hcoproc : t.coproc = s.coproc.execute a v := by rw [e.coproc, State.setReg_coproc]; rfl
    refine ⟨t, (if_neg hd).trans ht, hpc, fun _ => ⟨?_, e.cpsr_eq⟩, fun h => absurd h hd, hregs, hctl, hspsrs,
      e.keepsMemory (by simp [b]) (by simp [b]), hcoproc, fun h => hcoproc.trans (hnone h), ?_⟩
    · rw [e.reg rd hd, State.reg_setReg_same _ _ hd]
    · rw [e.outputs]
      simp

/-- Settles O55: the work is done in the state whose coprocessors have taken the effect, with CExecute, Rd and the
control request shown. -/
theorem mcrAccepted : Obligations.McrAccepted := by
  intro s c opc crn rd num info crm hr
  rw [encode_bits26]
  intro bits a hb ha
  rw [show exec (.mcr c opc crn rd num info crm) s = _ from execMcr_accepted hr rfl hb ha]
  refine ⟨fun hd hs => ?_, fun hd => if_pos hd⟩
  rw [if_neg hd]
  let b := s.coprocExecute a (s.reg rd)
  have hplain : Plain b _ := (((Plain.refl b).emit (.cpExecute true)).emit (.cpWrite bits (s.reg rd))).emit
    (.access (s.noAccess .control (s.reg rd) .done))
  obtain ⟨t, ht, e⟩ := hplain.ends_flags (written := []) (fun _ _ => rfl) hs
  obtain ⟨hpc, -, -, ⟨hspsrs, -⟩, -⟩ := e.frame
  have hcoproc : t.coproc = s.coproc.execute a (s.reg rd) := e.coproc
  have hout : t.outputs = s.outputs ++ [.cpExecute true] ++ [.cpWrite bits (s.reg rd)]
      ++ [.access (s.noAccess .control (s.reg rd) .done)] := e.outputs
  refine ⟨t, ht, hpc, e.regs, e.cpsr_eq, hspsrs, e.keepsMemory rfl rfl, hcoproc,
    fun h => hcoproc.trans (s.coproc.execute_of_no_effects h _), fun k hk hlt => ?_, ?_, ?_,
    s.noAccess .control (s.reg rd) .done, ?_, rfl, rfl, rfl, rfl⟩
  · rw [hcoproc]
    exact Coproc.reg_execute hk hlt _
  all_goals simp [hout]

/-! ## The answers of the coprocessors -/

section
variable {s : State} {bits : BitVec 26}

/-- With no busy-wait the first rule that speaks of the instruction answers it, where its CP# is present (R377). -/
theorem State.coprocAnswer_rule (hw : s.busyWait = false) {before after : List CoprocRule} {r : CoprocRule}
    (hrules : s.coproc.rules = before ++ r :: after) (hpres : bits.extractLsb' 8 4 ∈ s.coproc.present)
    (hbefore : ∀ q ∈ before, q.applies s.coproc bits s.cpsr.mode.privileged = false)
    (hr : r.applies s.coproc bits s.cpsr.mode.privileged = true) : s.coprocAnswer bits = r.answer := by
  have hfind : s.coproc.rules.find? (·.applies s.coproc bits s.cpsr.mode.privileged) = some r := by
    rw [List.find?_eq_some_iff_append]
    exact ⟨hr, before, after, hrules, fun q hq => by simp [hbefore q hq]⟩
  simp [State.coprocAnswer, hw, Coproc.respond, hpres, hfind]

/-- With no busy-wait an absent coprocessor bounces, and so does an instruction of which no rule speaks (R379). -/
theorem State.coprocAnswer_bounce (hw : s.busyWait = false)
    (h : bits.extractLsb' 8 4 ∉ s.coproc.present
      ∨ ∀ r ∈ s.coproc.rules, r.applies s.coproc bits s.cpsr.mode.privileged = false) :
    s.coprocAnswer bits = CoprocAnswer.bounce := by
  rw [State.coprocAnswer, hw]
  obtain habsent | hnone := h
  · exact Coproc.respond_absent habsent _
  · have hfind : s.coproc.rules.find? (·.applies s.coproc bits s.cpsr.mode.privileged) = none := by
      rw [List.find?_eq_none]
      exact fun r hr => by simp [hnone r hr]
    simp [Coproc.respond, hfind]

end

/-- A cycle of busy-wait of an MCR shows AREQ_NONE, and Rd unless it is R15 (R382). -/
theorem State.mcrWait_outputs (s : State) (rd : Reg) :
    ∃ v, (s.mcrWait rd).outputs = s.outputs ++ [.access (s.noAccess .none v .notDone)]
      ∧ (rd ≠ .r15 → v = s.reg rd) := by
  unfold State.mcrWait
  split
  · split
    · exact ⟨_, rfl, fun h => absurd ‹rd = .r15› h⟩
    · exact ⟨_, rfl, fun h => absurd ‹rd = .r15› h⟩
  · exact ⟨_, rfl, fun _ => rfl⟩

/-- Settles O56: each of the two is `coprocTransfer`, whose busy-wait cycle changes the outputs and the wait alone. -/
theorem coprocessorBounceAndWait : Obligations.CoprocessorBounceAndWait := by
  intro s c opc crn rd num info crm i hi hr
  rw [encode_bits26]
  intro bits speaks a
  obtain ⟨wait, accepted, hexec, hnum, hplain, hregs, hmem, hmarks, hout⟩ :
      ∃ wait accepted, exec i.1 s = coprocTransfer c i.2 bits wait accepted s ∧ bits.extractLsb' 8 4 = num
        ∧ (∀ u : State, Plain u (wait u)) ∧ (∀ u : State, (wait u).regs = u.regs) ∧ (∀ u : State, (wait u).mem = u.mem)
        ∧ (∀ u : State, (wait u).marks = u.marks)
        ∧ ∀ u : State, ∃ v, (wait u).outputs = u.outputs ++ [.access (u.noAccess .none v .notDone)]
          ∧ (i.2 = [rd] → rd ≠ .r15 → v = u.reg rd) := by
    simp only [List.mem_cons, List.not_mem_nil, or_false] at hi
    obtain rfl | rfl := hi
    · obtain ⟨accepted, hexec⟩ := exec_mrc_transfer (c := c) (opc := opc) (crn := crn) (rd := rd) (num := num)
        (info := info) (crm := crm) s
      exact ⟨_, accepted, hexec, encodeCoprocReg_num _ _ _ _ _ _ _, fun u => u.noRequest_plain 0, fun _ => rfl, fun _ => rfl,
        fun _ => rfl, fun u => ⟨0, rfl, nofun⟩⟩
    · obtain ⟨accepted, hexec⟩ := exec_mcr_transfer (c := c) (opc := opc) (crn := crn) (rd := rd) (num := num)
        (info := info) (crm := crm) s
      refine ⟨_, accepted, hexec, encodeCoprocReg_num _ _ _ _ _ _ _, fun u => u.mcrWait_plain rd, fun u => u.mcrWait_regs rd,
        fun u => u.mcrWait_mem rd, fun u => u.mcrWait_marks rd, fun u => ?_⟩
      obtain ⟨v, hv, hrd⟩ := u.mcrWait_outputs rd
      exact ⟨v, hv, fun _ => hrd⟩
  rw [hexec]
  refine ⟨fun hw before r after hrules hpres hbefore hspeaks => ?_, fun hw => if_pos hw, fun h => ?_, fun hb => ?_⟩
  · exact State.coprocAnswer_rule hw hrules (hnum ▸ hpres) hbefore hspeaks
  · have hbounce : a.busy = some 0 ∧ a.accept = false := by
      obtain ⟨hw, hnone⟩ | hanswer := h
      · have ha : a = CoprocAnswer.bounce := State.coprocAnswer_bounce hw (hnum.symm ▸ hnone)
        rw [ha]
        exact ⟨rfl, rfl⟩
      · exact hanswer
    rw [coprocTransfer_bounced hr hbounce.1 hbounce.2]
    exact s.traps_bounced
  · let go := s.emit (.cpExecute true)
    obtain ⟨v, hv, hrd⟩ := hout go
    have hp : Plain s (wait go) := ((Plain.refl s).emit _).trans (hplain go)
    refine ⟨_, coprocTransfer_waits hr hb, hp.pc, rfl, hregs go, hp.cpsr, hp.spsrs, hp.coproc, rfl,
      ⟨fun x => congrArg (Memory.read · x) (hmem go), hmarks go⟩, hp.fetchUnit, v, ?_, hrd⟩
    exact hv.trans (List.append_assoc _ _ _)

end Sys2Proof.Machine
end

section
/-! PROOFS. LDM of the registers of the mode, with S = 0 (O43) and with R15 in a 26-bit mode (O45). -/

namespace Sys2Proof.Machine

/-! ## Modes and banks -/

section
variable {load psr : Bool} {list : BitVec 16} {m : Mode}

/-- A 26-bit mode has an SPSR or is usr26 (R395). -/
theorem Mode.spsr_or_usr26 (h : m.is26 = true) : m.spsr ≠ none ∨ m = .usr26 := by
  cases m <;> simp_all [Mode.is26, Mode.spsr]

/-- The bank of a transfer that is not of the User bank is that of the mode. -/
theorem blockBank_mode (h : userBank load psr list = false) : blockBank load psr list m = m.bank := by
  rw [blockBank, h]
  rfl

end

/-! ## Loads -/

section
variable {s : State} {p up psr w : Bool} {rn : Reg} {list : BitVec 16}

/-- What an LDM of the bank of the mode leaves in the registers (R315). -/
theorem State.ldmLoaded_regs (hbank : blockBank true psr list s.cpsr.mode = s.cpsr.mode.bank)
    (hb : w = true → rn ∉ listRegs list) :
    (∀ k r q, (listRegs list)[k]? = some r → s.cpsr.mode.bank.view r = some q →
      (s.ldmLoaded p up psr w rn list).regs.get q = s.loadWord (s.blockAddress p up rn list k))
    ∧ (∀ q, w = true → s.cpsr.mode.bank.view rn = some q →
      (s.ldmLoaded p up psr w rn list).regs.get q = blockFinal up (s.reg rn) (listRegs list).length)
    ∧ s.keepsRegs (s.ldmLoaded p up psr w rn list) (listRegs list ++ if w then [rn] else []) := by
  refine ⟨fun k r q hk hq => s.ldmLoaded_listed p up psr w rn list hk (by rw [hbank]; exact hq), fun q hw hq => ?_,
    fun q hq => ?_⟩
  · rw [State.ldmLoaded_unlisted, if_pos ⟨hw, hq⟩]
    intro r hr hv
    rw [hbank] at hv
    exact hb hw (Bank.view_injective hq hv ▸ hr)
  · rw [State.ldmLoaded_unlisted, if_neg fun h => hq rn (by simp [h.1]) h.2]
    intro r hr
    rw [hbank]
    exact hq r (by simp [hr])

/-- The same for the registers that the mode names. -/
theorem State.ldmLoaded_reg (hbank : blockBank true psr list s.cpsr.mode = s.cpsr.mode.bank)
    (hb : w = true → rn ∉ listRegs list) (hn : rn ≠ .r15) :
    (∀ k r, (listRegs list)[k]? = some r → r ≠ .r15 →
      (s.ldmLoaded p up psr w rn list).reg r = s.loadWord (s.blockAddress p up rn list k))
    ∧ (w = true → (s.ldmLoaded p up psr w rn list).reg rn = blockFinal up (s.reg rn) (listRegs list).length) := by
  obtain ⟨hplain, -⟩ := s.ldmLoaded_plain p up psr w rn list
  obtain ⟨hlisted, hbase, -⟩ := State.ldmLoaded_regs (p := p) (up := up) hbank hb
  have hview (r : Reg) (hr : r ≠ .r15) : ∃ q, s.cpsr.mode.bank.view r = some q :=
    Option.ne_none_iff_exists'.1 fun h => hr ((Bank.view_eq_none _ _).1 h)
  refine ⟨fun k r hk hr => ?_, fun hw => ?_⟩
  · obtain ⟨q, hq⟩ := hview r hr
    rw [State.reg_of_view _ (by rw [hplain.cpsr]; exact hq), hlisted k r q hk hq]
  · obtain ⟨q, hq⟩ := hview rn hn
    rw [State.reg_of_view _ (by rw [hplain.cpsr]; exact hq), hbase q hw hq]

end

/-- Settles O43: with S = 0 the bank is that of the mode, and the end is a write of the program counter or A + 4. -/
theorem ldmResult : Obligations.LdmResult := by
  intro s c p up w rn list hr hl hn hb hs ha
  obtain ⟨hplain, hmem⟩ := s.ldmLoaded_plain p up false w rn list
  have hmarks := s.ldmLoaded_marks p up false w rn list
  have hbank : blockBank true false list s.cpsr.mode = s.cpsr.mode.bank := rfl
  obtain ⟨-, -, hkeep⟩ := State.ldmLoaded_regs (p := p) (up := up) hbank hb
  obtain ⟨hlisted, hbase⟩ := State.ldmLoaded_reg (p := p) (up := up) hbank hb hn
  have hexec : exec (.ldm c p up false w rn list) s
      = (s.ldmLoaded p up false w rn list).finishLoad false list (s.blockTransfers p up rn list) :=
    execLdm_loaded hr (blockStop_none hl hn hb rfl (.inl rfl)) ha
  rw [hexec, State.finishLoad_eq s _ false p up rn hl, State.loadWord_congr hmem hplain.cfg]
  by_cases h15 : .r15 ∈ listRegs list
  · rw [if_pos h15]
    let v := s.loadWord (s.blockAddress p up rn list ((listRegs list).length - 1))
    obtain ⟨hpc, hregs, hctl, hsys⟩ := hplain.jumpTo_goesTo hkeep v
    have hreg (r : Reg) (hr : r ≠ .r15) : ((s.ldmLoaded p up false w rn list).jumpTo v).reg r
        = (s.ldmLoaded p up false w rn list).reg r := State.reg_congr hr rfl rfl
    exact ⟨_, rfl, fun k r hk hr => (hreg r hr).trans (hlisted k r hk hr), fun hw => (hreg rn hn).trans (hbase hw),
      fun h => absurd h15 h, fun _ => hpc, hregs, hctl, congrArg Cpsr.flags hplain.cpsr, hsys,
      fun a => congrArg (Memory.read · a) hmem, hmarks⟩
  · rw [if_neg h15]
    obtain ⟨t, ht, e⟩ := hplain.ends_flags hkeep (hs h15)
    obtain ⟨hpc, hregs, hctl, hsys, -⟩ := e.frame
    exact ⟨t, ht, fun k r hk hr => (e.reg r hr).trans (hlisted k r hk hr), fun hw => (e.reg rn hn).trans (hbase hw),
      fun _ => hpc, fun h => absurd h h15, hregs, hctl, e.flags, hsys, e.keepsMemory hmem hmarks⟩

/-- Settles O45: the bank is that of the mode, and the end is a combined word written to the PC and the PSR bits. -/
theorem ldm26Result : Obligations.Ldm26Result := by
  intro s c p up w rn list hr hn hb h15 ha h26 v
  have hl := list_ne_zero h15
  have hu := userBank_load_of_mem h15
  obtain ⟨hplain, hmem⟩ := s.ldmLoaded_plain p up true w rn list
  have hmarks := s.ldmLoaded_marks p up true w rn list
  obtain ⟨hlisted, hbase, hkeep⟩ := State.ldmLoaded_regs (p := p) (up := up) (blockBank_mode hu) hb
  let u := s.ldmLoaded p up true w rn list
  have hu26 : u.cpsr.mode.is26 = true := by rw [hplain.cpsr, h26]
  have hexec : exec (.ldm c p up true w rn list) s = .next ((u.writePsr26 v).jumpTo v) := by
    refine (execLdm_loaded hr (blockStop_none hl hn hb hu (.inr (Mode.spsr_or_usr26 h26))) ha).trans ?_
    rw [State.finishLoad_eq s _ true p up rn hl, if_pos h15, if_pos rfl, State.writePcAndPsr, if_pos hu26,
      State.loadWord_congr hmem hplain.cfg]
    rfl
  have hregs : ((u.writePsr26 v).jumpTo v).regs = u.regs := u.writePsr26_regs v
  have hsys : u.keepsSystem ((u.writePsr26 v).jumpTo v) := by simp [State.keepsSystem, State.keepsPlatform]
  refine ⟨_, hexec, fun k r q hk hq => ?_, fun q hw hq => ?_, State.writePsr26_jumpTo_pc hu26 v, u.writePsr26_flags v,
    fun hp => State.writePsr26_privileged (by rw [hplain.cpsr, hp]) v, fun hp => ?_, fun q hq => ?_,
    hplain.keepsSystem_trans hsys, fun a => ?_, ?_⟩
  · rw [hregs, hlisted k r q hk hq]
  · rw [hregs, hbase q hw hq]
  · have hctl := State.writePsr26_keepsControl (s := u) (by rw [hplain.cpsr, hp]) v
    rw [State.keepsControl, hplain.cpsr] at hctl
    exact hctl
  · rw [hregs, hkeep q hq]
  · rw [State.jumpTo_mem, State.writePsr26_mem, hmem]
  · rw [State.jumpTo_marks, State.writePsr26_marks, hmarks]

end Sys2Proof.Machine
end

section
/-! PROOFS. STM (O47), LDM and STM of the User bank (O46), and the transfers that abort (O48). -/

namespace Sys2Proof.Machine

/-! ## The forms that are allowed -/

section
variable {load w : Bool} {rn : Reg} {list : BitVec 16} {m : Mode}

/-- A transfer of the User bank without write-back, in a mode with an SPSR, is allowed (R321). -/
theorem blockStop_userBank (hl : list ≠ 0) (hn : rn ≠ .r15) (hm : m.spsr ≠ none) :
    blockStop load true false rn list m = none := by
  obtain ⟨h1, h2, h3⟩ := Mode.spsr_ne_none hm
  rw [blockStop, if_neg hl, if_neg hn]
  simp [h1, h2, h3]

/-- An STM with S = 0 is allowed in every mode (R316, R319). -/
theorem blockStop_store (hl : list ≠ 0) (hn : rn ≠ .r15) : blockStop false false w rn list m = none := by
  rw [blockStop, if_neg hl, if_neg hn]
  rfl

end

/-! ## The words stored -/

/-- What the Prefetch Unit takes does not depend on the free words. -/
theorem State.askFrom_drawn (s : State) (k n : Nat) : s.drawn.askFrom k n = (s.askFrom k n).drawn := by
  induction n generalizing s k with
  | zero => rfl
  | succ n ih => exact ih (s.ask k) (k + 1)

section
variable {s : State} {p up psr w : Bool} {rn : Reg} {list : BitVec 16}

/-- The first `n` transfers, each a register of the list with its address (R312). -/
theorem State.mem_take_blockTransfers {n : Nat} {ra : Reg × Word} :
    ra ∈ (s.blockTransfers p up rn list).take n
      ↔ ∃ k, k < n ∧ (listRegs list)[k]? = some ra.1 ∧ ra.2 = s.blockAddress p up rn list k := by
  rw [List.mem_iff_getElem?]
  constructor
  · rintro ⟨k, hk⟩
    rw [List.getElem?_take] at hk
    split at hk
    · refine ⟨k, ‹k < n›, ?_⟩
      rw [State.blockTransfers, transfersFrom_getElem?, Option.map_eq_some_iff] at hk
      obtain ⟨r, hr, rfl⟩ := hk
      exact ⟨hr, rfl⟩
    · cases hk
  · rintro ⟨k, hn, hk, ha⟩
    refine ⟨k, ?_⟩
    rw [List.getElem?_take, if_pos hn, s.blockTransfers_getElem? p up rn hk, ← ha]

/-- A byte lies in one of the first `n` words of a transfer. -/
theorem State.exists_mem_take_blockTransfers {n : Nat} (hn : n ≤ (listRegs list).length) (x : Nat) :
    (∃ ra ∈ (s.blockTransfers p up rn list).take n, x / 4 = ra.2.toNat / 4)
      ↔ ∃ k, k < n ∧ x / 4 = (s.blockAddress p up rn list k).toNat / 4 := by
  constructor
  · rintro ⟨ra, hra, hx⟩
    obtain ⟨k, hk, -, ha⟩ := State.mem_take_blockTransfers.1 hra
    exact ⟨k, hk, ha ▸ hx⟩
  · rintro ⟨k, hk, hx⟩
    have hlt : k < (listRegs list).length := hk.trans_le hn
    exact ⟨((listRegs list)[k], s.blockAddress p up rn list k),
      State.mem_take_blockTransfers.2 ⟨k, hk, List.getElem?_eq_getElem hlt, rfl⟩, hx⟩

/-- The word stored for a register is its value, but for a written-back base that is not the lowest (R316, R319, R321). -/
theorem State.stmValue_listed {k : Nat} {r : Reg} (hk : (listRegs list)[k]? = some r)
    (h : psr = false → w = true → r = rn → k = 0) :
    s.stmValue psr w rn list r = if psr then s.regUsr r else s.regM r := by
  cases psr with
  | true => rfl
  | false =>
    have hbase : (r == rn && baseNotSpecified w rn list) = false := by
      by_contra hc
      simp only [baseNotSpecified, Bool.not_eq_false, Bool.and_eq_true, beq_iff_eq, bne_iff_ne] at hc
      obtain ⟨rfl, ⟨hw, -⟩, hhead⟩ := hc
      rw [h rfl hw rfl] at hk
      exact hhead (List.head?_eq_getElem?.trans hk)
    simp [State.stmValue, hbase]

/-- The state in which an STM has stored its first `n` words: the exchanges made, the words stored. -/
def State.stmStored (s : State) (p up psr w : Bool) (rn : Reg) (list : BitVec 16) (n : Nat) : State :=
  ((if baseNotSpecified w rn list then s.drawn else s).storeRequests (s.stmValue psr w rn list) 0
    (s.blockTransfers p up rn list)).storeWords (s.stmValue psr w rn list) ((s.blockTransfers p up rn list).take n)

/-- What an STM has changed when it has stored its first `n` words: those words, their marks, and what the Prefetch Unit
has taken with them. -/
theorem State.stmStored_spec {n : Nat} (hn : n ≤ (listRegs list).length) (hw : Memory.wf s.mem = true)
    (hdone : s.blockDone .store (s.blockTransfers p up rn list) = (s.blockTransfers p up rn list).take n) :
    let u := s.stmStored p up psr w rn list n
    Plain (s.asked n) u ∧ u.regs = s.regs
      ∧ (∀ x : Nat, (∀ k, k < n → x / 4 ≠ (s.blockAddress p up rn list k).toNat / 4) →
          Memory.read u.mem x = Memory.read s.mem x)
      ∧ (∀ x : Nat, x ∈ u.marks ↔ (∃ k, k < n ∧ x / 4 = (s.blockAddress p up rn list k).toNat / 4) ∨ x ∈ s.marks)
      ∧ (∀ k r, k < n → (listRegs list)[k]? = some r → (psr = false → w = true → r = rn → k = 0) →
          u.loadWord (s.blockAddress p up rn list k) = if psr then s.regUsr r else s.regM r) := by
  intro u
  let ts := s.blockTransfers p up rn list
  let value := s.stmValue psr w rn list
  have hlen : (ts.take n).length = n := by
    rw [List.length_take, State.blockTransfers_length, min_eq_left hn]
  obtain ⟨d, hd, hdplain, hdregs, hdmem, hdmarks⟩ : ∃ d,
      (if baseNotSpecified w rn list then s.drawn else s).storeRequests value 0 ts = d ∧ Plain (s.asked n) d
        ∧ d.regs = s.regs ∧ d.mem = s.mem ∧ d.marks = s.marks := by
    refine ⟨_, rfl, ?_⟩
    split
    · obtain ⟨hplain, hrest⟩ := s.drawn.storeRequests_plain value 0 ts
      rw [show s.drawn.blockDone .store ts = ts.take n from hdone, hlen, State.askFrom_drawn] at hplain
      exact ⟨((Plain.refl (s.asked n)).drawn).trans hplain, hrest⟩
    · obtain ⟨hplain, hrest⟩ := s.storeRequests_plain value 0 ts
      rw [hdone, hlen] at hplain
      exact ⟨hplain, hrest⟩
  have hu : u = d.storeWords value (ts.take n) := by rw [← hd]; rfl
  obtain ⟨hplain, hregs, -, hread, hmarks, hload⟩ := State.storeWords_spec value (ts.take n) (s := d) (by rw [hdmem, hw])
  rw [← hu] at hplain hregs hread hmarks hload
  refine ⟨hdplain.trans hplain, hregs.trans hdregs, fun x hx => ?_, fun x => ?_, fun k r hk hr hbase => ?_⟩
  · rw [hread x, hdmem]
    intro ra hra hxa
    obtain ⟨k, hk, hxk⟩ := (State.exists_mem_take_blockTransfers hn x).1 ⟨ra, hra, hxa⟩
    exact hx k hk hxk
  · rw [hmarks x, State.exists_mem_take_blockTransfers hn, hdmarks]
  · have hdistinct := (s.blockTransfers_distinct p up rn list).sublist (List.take_sublist n ts)
    rw [hload hdistinct (r, s.blockAddress p up rn list k) (State.mem_take_blockTransfers.2 ⟨k, hk, hr, rfl⟩)]
    exact State.stmValue_listed hr hbase

/-- An allowed STM none of whose accesses aborts stores its whole list, and then the base (R316, R319). -/
theorem execStm_stored {c : Cond} (hr : s.ready c (rn :: listRegs list))
    (hx : blockStop false psr w rn list s.cpsr.mode = none) (ha : s.noBlockAbort .store p up rn list) :
    execStm c p up psr w rn list s
      = (if w then (s.stmStored p up psr w rn list (listRegs list).length).setReg rn
            (blockFinal up (s.reg rn) (listRegs list).length)
          else s.stmStored p up psr w rn list (listRegs list).length).advance := by
  have htake : (s.blockTransfers p up rn list).take (listRegs list).length = s.blockTransfers p up rn list := by
    rw [← s.blockTransfers_length p up rn list, List.take_length]
  rw [execStm, condExec_ready hr, hx]
  simp only [State.blockDone_all ha, lt_irrefl, if_false, State.stmStored, htake, State.blockTransfers_length]

/-- An allowed STM whose access `k` is the first to abort stores the words before it and takes the data abort (R323). -/
theorem execStm_aborted {c : Cond} {k : Nat} (hr : s.ready c (rn :: listRegs list))
    (hx : blockStop false psr w rn list s.cpsr.mode = none) (hk : k < (listRegs list).length)
    (hdone : s.blockDone .store (s.blockTransfers p up rn list) = (s.blockTransfers p up rn list).take k) :
    execStm c p up psr w rn list s
      = .next ((s.stmStored p up psr w rn list k).enter .dataAbort (s.pc + 8)) := by
  rw [execStm, condExec_ready hr, hx]
  have hlt : ((s.blockTransfers p up rn list).take k).length < (s.blockTransfers p up rn list).length := by
    rw [List.length_take, State.blockTransfers_length]
    omega
  simp only [hdone, hlt, if_true]
  rfl

/-- An allowed STM none of whose accesses aborts: the words, their marks, the base, and nothing else. -/
theorem execStm_completes {c : Cond} (hr : s.ready c (rn :: listRegs list)) (hn : rn ≠ .r15)
    (hx : blockStop false psr w rn list s.cpsr.mode = none) (ha : s.noBlockAbort .store p up rn list)
    (hs : s.canAdvance) (hw : Memory.wf s.mem = true) :
    ∃ t, execStm c p up psr w rn list s = .next t
      ∧ (∀ k r, (listRegs list)[k]? = some r → (psr = false → w = true → r = rn → k = 0) →
          t.loadWord (s.blockAddress p up rn list k) = if psr then s.regUsr r else s.regM r)
      ∧ (∀ x : Nat, (∀ k, k < (listRegs list).length → x / 4 ≠ (s.blockAddress p up rn list k).toNat / 4) →
          Memory.read t.mem x = Memory.read s.mem x)
      ∧ (∀ x : Nat, x ∈ t.marks ↔
          (∃ k, k < (listRegs list).length ∧ x / 4 = (s.blockAddress p up rn list k).toNat / 4) ∨ x ∈ s.marks)
      ∧ (w = true → t.reg rn = blockFinal up (s.reg rn) (listRegs list).length)
      ∧ t.cpsr.flags = s.cpsr.flags ∧ (s.asked (listRegs list).length).goesOnTo t (if w then [rn] else []) := by
  have hdone : s.blockDone .store (s.blockTransfers p up rn list)
      = (s.blockTransfers p up rn list).take (listRegs list).length := by
    rw [State.blockDone_all ha, ← s.blockTransfers_length p up rn list, List.take_length]
  obtain ⟨hplain, hregs, hread, hmarks, hload⟩ := State.stmStored_spec (psr := psr) (w := w) le_rfl hw hdone
  rw [execStm_stored hr hx ha]
  generalize s.stmStored p up psr w rn list (listRegs list).length = u at *
  generalize blockFinal up (s.reg rn) (listRegs list).length = base
  obtain ⟨t, ht, e, hbase⟩ : ∃ t, (if w then u.setReg rn base else u).advance = .next t
      ∧ Ends (s.asked (listRegs list).length) (if w then u.setReg rn base else u) t s.cpsr.flags
          (if w then [rn] else [])
      ∧ (w = true → t.reg rn = base) := by
    have hs' : (s.asked (listRegs list).length).canAdvance :=
      (State.canAdvance_congr (State.asked_pc _ _) (by rw [State.asked_cpsr])).2 hs
    have hf : (s.asked (listRegs list).length).cpsr.flags = s.cpsr.flags := by rw [State.asked_cpsr]
    rw [← hf]
    cases w with
    | true =>
      have hkeep : (s.asked (listRegs list).length).keepsRegs (u.setReg rn base) [rn] := by
        intro q hq
        rw [State.get_setReg, hplain.cpsr, if_neg (hq rn List.mem_cons_self), hregs, State.asked_regs]
      obtain ⟨t, ht, e⟩ := (hplain.setReg rn base).ends_flags hkeep hs'
      exact ⟨t, ht, e, fun _ => (e.reg rn hn).trans (State.reg_setReg_same _ _ hn)⟩
    | false =>
      obtain ⟨t, ht, e⟩ := hplain.ends_flags (written := []) (fun q _ => by rw [hregs, State.asked_regs]) hs'
      exact ⟨t, ht, e, nofun⟩
  have hmem : t.mem = u.mem := by rw [e.mem]; split <;> simp
  have hmark : t.marks = u.marks := by rw [e.marks]; split <;> simp
  have hcfg : t.cfg = u.cfg := by
    obtain ⟨-, -, -, ⟨-, -, -, -, -, -, -, -, -, hcfg⟩, -⟩ := e.frame
    exact hcfg.trans hplain.cfg.symm
  refine ⟨t, ht, fun k r hk h => ?_, fun x hx => ?_, fun x => ?_, hbase, e.flags, e.frame⟩
  · obtain ⟨hlt, -⟩ := List.getElem?_eq_some_iff.1 hk
    rw [State.loadWord_congr hmem hcfg, hload k r hlt hk h]
  · rw [hmem, hread x hx]
  · rw [hmark, hmarks x]

end

/-- Settles O47: with S = 0 the words are those of the current mode's registers. -/
theorem stmResult : Obligations.StmResult := by
  intro s c p up w rn list hr hl hn hs ha hw
  obtain ⟨t, ht, hload, hrest⟩ := execStm_completes hr hn (blockStop_store hl hn) ha hs hw
  exact ⟨t, ht, fun k r hk h => hload k r hk fun _ => h, hrest⟩

/-! ## The User bank -/

/-- An LDM of the User bank that has loaded its list goes on, and is marked (R321, R322). -/
theorem execLdm_userBank {s : State} {c : Cond} {p up : Bool} {rn : Reg} {list : BitVec 16} (hr : s.ready c [rn])
    (hl : list ≠ 0) (hn : rn ≠ .r15) (hm : s.cpsr.mode.spsr ≠ none) (h15 : .r15 ∉ listRegs list)
    (ha : s.noBlockAbort .load p up rn list) :
    execLdm c p up true false rn list s = markUserLdm (s.ldmLoaded p up true false rn list).advance := by
  rw [execLdm_loaded hr (blockStop_userBank hl hn hm) ha, State.finishLoad_eq s _ true p up rn hl, if_neg h15,
    if_pos rfl]

/-- Settles O46: the bank is that of the User mode, for the loads and for the stores. -/
theorem userBankTransfer : Obligations.UserBankTransfer := by
  intro s c p up rn list hl hn hm hs
  refine ⟨fun hr h15 ha => ?_, fun hr ha hw => ?_⟩
  · obtain ⟨hplain, hmem⟩ := s.ldmLoaded_plain p up true false rn list
    have hbank : blockBank true true list s.cpsr.mode = .usr := by
      rw [blockBank, userBank_load_of_not_mem h15]
      rfl
    have hother (q : PReg) (hq : ∀ r ∈ listRegs list, Bank.usr.view r ≠ some q) :
        (s.ldmLoaded p up true false rn list).regs.get q = s.regs.get q := by
      rw [State.ldmLoaded_unlisted _ _ _ _ _ _ _ (by rw [hbank]; exact hq)]
      rfl
    have hadv := State.advance_of_canAdvance (hplain.canAdvance_iff.2 hs)
    refine ⟨_, (execLdm_userBank hr hl hn hm h15 ha).trans (congrArg markUserLdm hadv), fun k r q hk hq => ?_, hother,
      congrArg (· + 4) hplain.pc, hplain.cpsr, hplain.keepsSystem, ⟨fun a => congrArg (Memory.read · a) hmem,
      s.ldmLoaded_marks p up true false rn list⟩, rfl⟩
    exact s.ldmLoaded_listed p up true false rn list hk (by rw [hbank]; exact hq)
  · obtain ⟨t, ht, hload, hread, hmarks, -, hrest⟩ :=
      execStm_completes hr hn (blockStop_userBank hl hn hm) ha hs hw
    refine ⟨t, ht, fun k r hk => ?_, hread, hmarks, hrest⟩
    have hword : t.loadWord (s.blockAddress p up rn list k) = s.regUsr r := hload k r hk nofun
    exact ⟨hword, fun q hq => by rw [hword, State.regUsr, hq]⟩

/-! ## Aborted transfers -/

section
variable {s : State} {c : Cond} {p up psr w : Bool} {rn : Reg} {list : BitVec 16} {k : Nat}

/-- An allowed LDM whose access `k` is the first to abort has loaded some of the registers before it, and takes the data
abort (R323, D24). -/
theorem execLdm_aborted (hr : s.ready c [rn]) (hx : blockStop true psr w rn list s.cpsr.mode = none)
    (hk : k < (listRegs list).length)
    (hdone : s.blockDone .load (s.blockTransfers p up rn list) = (s.blockTransfers p up rn list).take k) :
    execLdm c p up psr w rn list s = .next
      (((s.loadRequests 0 (s.blockTransfers p up rn list)).drawn.loadSome (blockBank true psr list s.cpsr.mode)
        (s.cpsr.mode.bank.view rn) s.free ((s.blockTransfers p up rn list).take k)).enter .dataAbort (s.pc + 8)) := by
  rw [execLdm, condExec_ready hr, hx]
  have hlt : ((s.blockTransfers p up rn list).take k).length < (s.blockTransfers p up rn list).length := by
    rw [List.length_take, State.blockTransfers_length]
    omega
  simp only [hdone, hlt, if_true]

/-- Of the registers before the abort each has kept its value or has its word; the base and every other register have
kept theirs (R323, D24). -/
theorem State.loadSome_take {u : State} (hu : Plain s u) (hregs : u.regs = s.regs) (hmem : u.mem = s.mem) (bank : Bank)
    (which : Word) (q : PReg) :
    let v := u.loadSome bank (s.cpsr.mode.bank.view rn) which ((s.blockTransfers p up rn list).take k)
    v.regs.get q = s.regs.get q
      ∨ (s.cpsr.mode.bank.view rn ≠ some q ∧ ∃ j r, j < k ∧ (listRegs list)[j]? = some r ∧ bank.view r = some q
          ∧ v.regs.get q = s.loadWord (s.blockAddress p up rn list j)) := by
  intro v
  obtain h | ⟨hbase, ra, hra, hview, hword⟩ :=
    u.loadSome_get bank (s.cpsr.mode.bank.view rn) which ((s.blockTransfers p up rn list).take k) q
  · exact .inl (h.trans (by rw [hregs]))
  · obtain ⟨j, hj, hr, haddr⟩ := State.mem_take_blockTransfers.1 hra
    exact .inr ⟨hbase.symm, j, ra.1, hj, hr, hview, by rw [hword, haddr, State.loadWord_congr hmem hu.cfg]⟩

/-- The forms of LDM that O48 speaks of are allowed. -/
theorem blockStop_load_none {m : Mode} (hl : list ≠ 0) (hn : rn ≠ .r15) (hb : w = true → rn ∉ listRegs list)
    (hp : psr = true → (m.spsr ≠ none ∨ m = .usr26 ∧ .r15 ∈ listRegs list) ∧ (w = true → .r15 ∈ listRegs list)) :
    blockStop true psr w rn list m = none := by
  cases psr with
  | false => exact blockStop_none hl hn hb rfl (.inl rfl)
  | true =>
    obtain ⟨hm, hw15⟩ := hp rfl
    by_cases h15 : .r15 ∈ listRegs list
    · exact blockStop_none hl hn hb (userBank_load_of_mem h15) (.inr (hm.imp_right And.left))
    · obtain rfl : w = false := Bool.eq_false_iff.2 fun hw => h15 (hw15 hw)
      exact blockStop_userBank hl hn (hm.resolve_right fun h => h15 h.2)

end

/-- Two places of a register list that hold registers with one physical register are the same place. -/
theorem listRegs_place_unique {list : BitVec 16} {bank : Bank} {i j : Nat} {r r' : Reg} {q : PReg}
    (hi : (listRegs list)[i]? = some r) (hj : (listRegs list)[j]? = some r') (hr : bank.view r = some q)
    (hr' : bank.view r' = some q) : i = j := by
  obtain rfl := Bank.view_injective hr hr'
  obtain ⟨hlt, -⟩ := List.getElem?_eq_some_iff.1 hi
  exact (List.getElem?_inj hlt (listRegs_nodup list)).1 (hi.trans hj.symm)

/-- Settles O48: the abort is taken in the state that the accesses before it have left. -/
theorem blockAbort : Obligations.BlockAbort := by
  intro s c p up psr w rn list k hn hk
  have hl : list ≠ 0 := by
    rintro rfl
    exact absurd hk (Nat.not_lt_zero k)
  refine ⟨fun hr hb hp hab hbefore => ?load, fun hr hw hp hab hbefore => ?store⟩
  case load =>
    intro bank
    obtain ⟨hplain, hregs, hmem, hmarks, -⟩ := s.loadRequests_plain 0 (s.blockTransfers p up rn list)
    have hexec : exec (.ldm c p up psr w rn list) s = _ :=
      execLdm_aborted hr (blockStop_load_none hl hn hb hp) hk (State.blockDone_take hk hab hbefore)
    have hget (q : PReg) := State.loadSome_take (p := p) (up := up) (rn := rn) (list := list) (k := k) hplain.drawn hregs
      hmem bank s.free q
    obtain ⟨hvplain, hvmem, hvmarks⟩ := (s.loadRequests 0 (s.blockTransfers p up rn list)).drawn.loadSome_plain bank
      (s.cpsr.mode.bank.view rn) s.free ((s.blockTransfers p up rn list).take k)
    have hv := hplain.drawn.trans hvplain
    replace hvmem := hvmem.trans hmem
    replace hvmarks := hvmarks.trans hmarks
    rw [hexec]
    generalize (s.loadRequests 0 (s.blockTransfers p up rn list)).drawn.loadSome bank (s.cpsr.mode.bank.view rn) s.free
      ((s.blockTransfers p up rn list).take k) = v at *
    have hkeep (q : PReg) (hq : q ≠ .r14abt) : (v.enter .dataAbort (s.pc + 8)).regs.get q = v.regs.get q :=
      RegFile.get_set_other _ _ hq
    obtain ⟨hmode, hi, hf, hflags, hpc, hlink, hspsr, -, -⟩ := v.enter_hasTaken .dataAbort (s.pc + 8)
    rw [hv.cpsr] at hf hflags hspsr
    refine ⟨_, rfl, hmode, hi, hf.trans (Bool.or_false _), hflags, hpc, hlink, hspsr,
      ⟨fun a => congrArg (Memory.read · a) hvmem, hvmarks⟩, fun q hq hbase => ?_, fun q hq hlist => ?_,
      fun j r q hj hq hr hview => ?_⟩
    · obtain h | ⟨hne, -⟩ := hget q
      · exact (hkeep q hq).trans h
      · exact absurd hbase hne
    · obtain h | ⟨-, j, r, hj, hr, hview, -⟩ := hget q
      · exact (hkeep q hq).trans h
      · refine absurd hview (hlist r (List.mem_iff_getElem?.2 ⟨j, ?_⟩))
        rw [List.getElem?_take, if_pos hj, hr]
    · rw [hkeep q hq]
      obtain h | ⟨-, i, r', -, hr', hview', hword⟩ := hget q
      · exact .inl h
      · obtain rfl := listRegs_place_unique hr hr' hview hview'
        exact .inr hword
  case store =>
    have hx : blockStop false psr w rn list s.cpsr.mode = none := by
      cases psr with
      | false => exact blockStop_store hl hn
      | true =>
        obtain ⟨hm, rfl⟩ := hp rfl
        exact blockStop_userBank hl hn hm
    have hdone := State.blockDone_take hk hab hbefore
    obtain ⟨hplain, hregs, hread, hmarks, hload⟩ := State.stmStored_spec (psr := psr) (w := w) hk.le hw hdone
    refine ⟨_, execStm_aborted hr hx hk hdone, ?_, fun j r hj hr h => ?_, hread, hmarks⟩
    · exact State.hasTaken_enter (hplain.cpsr.trans (State.asked_cpsr _ _)) (hplain.spsrs.trans (State.asked_spsrs _ _))
        hregs _ _
    · exact hload j r hj hr fun _ => h

end Sys2Proof.Machine
end

section
/-! PROOFS. A step is the boundary and then the decoded word (O4); twelve words written out (O3). -/

namespace Sys2Proof.Machine

/-! ## A device byte at the boundary -/

section
variable {s : State} {d : DeviceByte} {a : Transaction}

/-- With no writes of other agents, the boundary after one exchange leaves the memory that the exchange's device bytes
leave, and their next values. -/
theorem State.beginStep_react (hw : s.platformStep.writes = []) (ho : s.outputs = [.access a]) :
    s.beginStep.mem = (s.react (.access a)).mem
      ∧ s.beginStep.platform.devices = (s.react (.access a)).platform.devices := by
  rw [State.beginStep_mem, State.beginStep_platform, State.settle, hw, ho]
  exact ⟨rfl, rfl⟩

/-- A device byte that the access reaches shows its next value; its shown values are used up by one (R75, R77). -/
theorem State.react_device {v : Byte} {rest : List Byte} {x : Nat} (hs : s.canonical) (hx : x < 2 ^ 32)
    (hd : s.platform.devices = [{ addr := x, shows := v :: rest }]) :
    (a.touches x = true → Memory.read (s.react (.access a)).mem x = v
        ∧ (s.react (.access a)).platform.devices = [{ addr := x, shows := rest }])
      ∧ (a.touches x = false → Memory.read (s.react (.access a)).mem x = Memory.read s.mem x
        ∧ (s.react (.access a)).platform.devices = s.platform.devices) := by
  have hmod : x % 2 ^ 32 = x := Nat.mod_eq_of_lt hx
  refine ⟨fun h => ?_, fun h => ?_⟩
  · have hmem : (s.react (.access a)).mem = (s.outsideWrite (x, v)).mem := by
      simp [State.react, hd, State.deviceReacts, h]
    have hread := State.read_outsideWrite hs.1 (x, v) x
    rw [if_pos hmod.symm] at hread
    exact ⟨by rw [hmem, hread], by simp [State.react, hd, State.deviceReacts, DeviceByte.after, h]⟩
  · simp [State.react, hd, State.deviceReacts, DeviceByte.after, h]

end

/-! ## The word that is run -/

section
variable {s : State}

/-- What the coprocessors are told of the instruction is among the outputs (R371). -/
theorem State.cpInstruct_mem_issue (s : State) (i : Instr) (w : Word) :
    .cpInstruct (if isCoprocessor w then some (w.extractLsb' 0 26) else none) s.cpsr.mode.privileged
      ∈ (s.issue i w).outputs := by
  generalize hq : (if isCoprocessor w then some (w.extractLsb' 0 26) else none) = q
  rw [State.issue, State.announce, hq]
  dsimp only
  split <;> simp [State.emit]

/-- A word that is neither marked nor noted for the other width is run as what it decodes to (R89, R406). -/
theorem State.runWord_exec (hm : s.modified = false) (hx : s.mixedWidth = false) (w : Word) :
    s.runWord w = exec (decode w) (s.issue (decode w) w) := by
  simp [State.runWord, hm, hx]

/-- A word that is taken from the prefetch buffer leaves it, and is its oldest (R93). -/
theorem State.requestFetch_buffered {e : Prefetched} (h : s.buffered = some e) :
    s.fetchUnit.buffer = e :: s.requestFetch.fetchUnit.buffer := by
  rw [State.requestFetch, h]
  unfold State.buffered at h
  split at h
  · cases h
  · rename_i x l hl
    split at h
    · obtain rfl := Option.some.inj h
      simp [hl]
    · cases h

end

/-- Settles O4. The boundary's parts are those of `State.settle`; the word is run by `State.runWord`, and taking it,
noting its address and telling the coprocessors change neither registers nor memory. -/
theorem stepRunsDecoded : Obligations.StepRunsDecoded := by
  intro s b
  have hpc : b.pc = s.pc := s.beginStep_pc
  refine ⟨?fields, State.beginStep_quiet, fun hs x hw hd => ?same, fun hs before c after hw ha => ?written,
    fun hs a v rest x hd hx hw ho => ?device, fun hr hf hi => ⟨fun hwait hm hx w hp => ?presented, fun w hw => ?waiting⟩,
    State.beginStep_fetchUnit, fun hb => ?fetched, fun e hb => ?buffered, fun hs hm w hp => ?word⟩
  case fields =>
    exact ⟨s.beginStep_regs, hpc, s.beginStep_cpsr, s.beginStep_spsrs, s.beginStep_pending, s.beginStep_userLdm,
      s.beginStep_busyWait, s.beginStep_cfg, s.beginStep_lines, s.beginStep_coproc, s.beginStep_aborts,
      s.beginStep_buffers, s.beginStep_double, s.beginStep_predictOn⟩
  case same =>
    obtain ⟨-, hread, -⟩ := State.beginStep_sameByte hs hw hd
    exact hread
  case written =>
    obtain ⟨hread, -⟩ := State.beginStep_written hs hw ha
    exact hread
  case device =>
    obtain ⟨hmem, hdev⟩ := State.beginStep_react hw ho
    rw [hmem, hdev]
    exact State.react_device hs hx hd
  case presented =>
    have hrun : step s = b.requestFetch.runWord w :=
      (step_eq_runNext hr hf hi).trans (State.runNext_presented hwait hp)
    have hexec := State.runWord_exec (b.requestFetch_modified.trans hm) (b.requestFetch_mixedWidth.trans hx) w
    have htold := State.cpInstruct_mem_issue b.requestFetch (decode w) w
    have hcpsr : b.requestFetch.cpsr = s.cpsr := by simp [b]
    rw [hcpsr] at htold
    intro t
    refine ⟨hrun.trans hexec, ?_, ?_, ?_, ?_, ?_, ?_, ?_, ?_, ?_, ?_, ?_, htold⟩
    all_goals simp [t, b]
  case waiting =>
    rw [step_eq_runNext hr hf hi, State.runNext, show s.beginStep.waiting = some w from hw]
  case fetched =>
    rw [State.presented_of_not_buffered hb, State.requestFetch_prediction, hb, hpc]
    simp [State.presented_of_not_buffered hb, hpc]
  case buffered =>
    obtain ⟨hword, hout⟩ := State.presented_of_buffered hb
    exact ⟨hword, hout, by rw [State.requestFetch_prediction, hb], State.requestFetch_buffered hb⟩
  case word =>
    have hfresh : b.fresh := (State.inv_beginStep hs).2.2
    rw [State.presented_eq hfresh hm hp, hpc]

/-- Settles O3: each word is decoded. -/
theorem wordsDecodeAsWritten : Obligations.WordsDecodeAsWritten := by
  refine ⟨?_, ?_, ?_, ?_, ?_, ?_, ?_, ?_, ?_, ?_, ?_, ?_⟩
  all_goals decide

end Sys2Proof.Machine
end

section
/-! PROOFS. Fields of an instruction body: how they join, and how an equation of a field speaks of its bits. -/

namespace Sys2Proof

/-- Two adjacent fields are one field. -/
theorem field_append {w hi lo m n : Nat} {b : BitVec w} (h : hi = lo + n) :
    b.extractLsb' hi m ++ b.extractLsb' lo n = b.extractLsb' lo (m + n) := by
  subst h
  apply BitVec.eq_of_getLsbD_eq
  intro i hi
  simp only [BitVec.getLsbD_append, BitVec.getLsbD_extractLsb']
  by_cases hin : i < n
  · simp [hin, hi]
  · have hm : i - n < m := by omega
    rw [show lo + n + (i - n) = lo + i by omega]
    simp [hin, hi, hm]

theorem ofBool_bit (b : BitVec 28) (k : Nat) : BitVec.ofBool (b.getLsbD k) = b.extractLsb' k 1 := by
  apply BitVec.eq_of_getLsbD_eq
  intro i hi
  obtain rfl : i = 0 := by omega
  simp

@[simp] theorem regAt_bits (b : BitVec 28) (lo : Nat) : (regAt b lo).bits = b.extractLsb' lo 4 :=
  Reg.bits_ofBits _

/-- A field has a value exactly if each of its bits has that of the value. -/
theorem field_eq_iff {w lo n : Nat} {b : BitVec w} {v : BitVec n} :
    b.extractLsb' lo n = v ↔ ∀ i < n, b.getLsbD (lo + i) = v.getLsbD i := by
  constructor
  · rintro rfl i hi
    simp [hi]
  · intro h
    apply BitVec.eq_of_getLsbD_eq
    intro i hi
    simp [hi, h i hi]

/-- A field within a field whose value is known. -/
theorem subfield_eq {w lo n k m : Nat} {b : BitVec w} {v : BitVec n} (h : b.extractLsb' lo n = v) (hk : k + m ≤ n) :
    b.extractLsb' (lo + k) m = v.extractLsb' k m := by
  subst h
  apply BitVec.eq_of_getLsbD_eq
  intro i hi
  have hik : k + i < n := by omega
  simp [hi, hik, Nat.add_assoc]

/-- A field made of two adjacent fields whose values are known. -/
theorem field_of_parts {w lo m n : Nat} {b : BitVec w} {u : BitVec m} {v : BitVec n}
    (hu : b.extractLsb' (lo + n) m = u) (hv : b.extractLsb' lo n = v) : b.extractLsb' lo (m + n) = u ++ v := by
  rw [← hu, ← hv, field_append rfl]

/-- The lowest bit of a field, and the field above it. -/
theorem field_succ_eq_iff {w lo n : Nat} {b : BitVec w} {v : BitVec (n + 1)} :
    b.extractLsb' lo (n + 1) = v ↔ b.getLsbD lo = v.getLsbD 0 ∧ b.extractLsb' (lo + 1) n = v.extractLsb' 1 n := by
  simp only [field_eq_iff]
  constructor
  · intro h
    exact ⟨h 0 (by omega), fun i hi => by
      rw [Nat.add_assoc, h (1 + i) (by omega)]; simp [hi]⟩
  · rintro ⟨h0, h⟩ i hi
    cases i with
    | zero => exact h0
    | succ i =>
      have := h i (by omega)
      simpa [Nat.add_comm i 1, Nat.add_assoc, show i < n by omega] using this

end Sys2Proof
end

section
/-! PROOFS. The decoder, one equation per value of the fields it looks at. -/

namespace Sys2Proof
variable {c : Cond} {b : BitVec 28}

theorem decodeBody_000 (h : b.extractLsb' 25 3 = 0b000#3) : decodeBody c b = decode000 c b := by
  unfold decodeBody; rw [h]; rfl

theorem decodeBody_001 (h : b.extractLsb' 25 3 = 0b001#3) : decodeBody c b = decode001 c b := by
  unfold decodeBody; rw [h]; rfl

theorem decodeBody_010 (h : b.extractLsb' 25 3 = 0b010#3) :
    decodeBody c b = decodeSingle c b (.imm (b.extractLsb' 0 12)) := by
  unfold decodeBody; rw [h]; rfl

theorem decodeBody_011 (h : b.extractLsb' 25 3 = 0b011#3) :
    decodeBody c b = if b.getLsbD 4 then .undefinedA c b
      else decodeSingle c b (.reg (regAt b 0) (ShiftType.ofBits (b.extractLsb' 5 2)) (b.extractLsb' 7 5)) := by
  unfold decodeBody; rw [h]; rfl

theorem decodeBody_100 (h : b.extractLsb' 25 3 = 0b100#3) : decodeBody c b = decodeBlock c b := by
  unfold decodeBody; rw [h]; rfl

theorem decodeBody_101 (h : b.extractLsb' 25 3 = 0b101#3) :
    decodeBody c b = if b.getLsbD 24 then .bl c (b.extractLsb' 0 24) else .b c (b.extractLsb' 0 24) := by
  unfold decodeBody; rw [h]; rfl

theorem decodeBody_110 (h : b.extractLsb' 25 3 = 0b110#3) : decodeBody c b = decodeCoprocTransfer c b := by
  unfold decodeBody; rw [h]; rfl

theorem decodeBody_111 (h : b.extractLsb' 25 3 = 0b111#3) : decodeBody c b = decode111 c b := by
  unfold decodeBody; rw [h]; rfl

/-- The eight values of bits 27 to 25. -/
theorem class_cases (v : BitVec 3) : v = 0b000#3 ∨ v = 0b001#3 ∨ v = 0b010#3 ∨ v = 0b011#3 ∨ v = 0b100#3
    ∨ v = 0b101#3 ∨ v = 0b110#3 ∨ v = 0b111#3 := by
  revert v; decide

end Sys2Proof
end

section
/-! PROOFS. An encoding whose fields are those of a body is the body. -/

namespace Sys2Proof
variable {b : BitVec 28}

theorem encodeDp_fields {o : Operand2} (h : b.extractLsb' 26 2 = 0b00#2) (hi : o.isImm = b.getLsbD 25)
    (ho : o.bits = b.extractLsb' 0 12) :
    encodeDp (b.extractLsb' 21 4) (b.getLsbD 20) (regAt b 12) (regAt b 16) o = b := by
  simp (disch := decide) only [encodeDp, ← h, hi, ho, ofBool_bit, regAt_bits, field_append]
  exact BitVec.extractLsb'_eq_self

theorem encodeMul_fields (h : b.extractLsb' 22 6 = 0b000000#6) (h4 : b.extractLsb' 4 4 = 0b1001#4) :
    encodeMul (b.getLsbD 21) (b.getLsbD 20) (regAt b 16) (regAt b 12) (regAt b 8) (regAt b 0) = b := by
  simp (disch := decide) only [encodeMul, ← h, ← h4, ofBool_bit, regAt_bits, field_append]
  exact BitVec.extractLsb'_eq_self

theorem encodeMull_fields (h : b.extractLsb' 23 5 = 0b00001#5) (h4 : b.extractLsb' 4 4 = 0b1001#4) :
    encodeMull (b.getLsbD 22) (b.getLsbD 21) (b.getLsbD 20) (regAt b 16) (regAt b 12) (regAt b 8) (regAt b 0) = b := by
  simp (disch := decide) only [encodeMull, ← h, ← h4, ofBool_bit, regAt_bits, field_append]
  exact BitVec.extractLsb'_eq_self

theorem encodeSwap_fields (h : b.extractLsb' 23 5 = 0b00010#5) (h20 : b.extractLsb' 20 2 = 0b00#2)
    (h8 : b.extractLsb' 8 4 = 0b0000#4) (h4 : b.extractLsb' 4 4 = 0b1001#4) :
    encodeSwap (b.getLsbD 22) (regAt b 16) (regAt b 12) (regAt b 0) = b := by
  simp (disch := decide) only [encodeSwap, ← h, ← h20, ← h8, ← h4, ofBool_bit, regAt_bits, field_append]
  exact BitVec.extractLsb'_eq_self

theorem encodeSingle_fields {off : TransferOffset} (h : b.extractLsb' 26 2 = 0b01#2) (hi : off.isReg = b.getLsbD 25)
    (ho : off.bits = b.extractLsb' 0 12) :
    encodeSingle (b.getLsbD 24) (b.getLsbD 23) (b.getLsbD 22) (b.getLsbD 21) (b.getLsbD 20) (regAt b 16) (regAt b 12)
      off = b := by
  simp (disch := decide) only [encodeSingle, ← h, hi, ho, ofBool_bit, regAt_bits, field_append]
  exact BitVec.extractLsb'_eq_self

theorem encodeBlock_fields (h : b.extractLsb' 25 3 = 0b100#3) :
    encodeBlock (b.getLsbD 24) (b.getLsbD 23) (b.getLsbD 22) (b.getLsbD 21) (b.getLsbD 20) (regAt b 16)
      (b.extractLsb' 0 16) = b := by
  simp (disch := decide) only [encodeBlock, ← h, ofBool_bit, regAt_bits, field_append]
  exact BitVec.extractLsb'_eq_self

theorem encodeCoprocTransfer_fields (h : b.extractLsb' 25 3 = 0b110#3) :
    encodeCoprocTransfer (b.getLsbD 24) (b.getLsbD 23) (b.getLsbD 22) (b.getLsbD 21) (b.getLsbD 20) (regAt b 16)
      (b.extractLsb' 12 4) (b.extractLsb' 8 4) (b.extractLsb' 0 8) = b := by
  simp (disch := decide) only [encodeCoprocTransfer, ← h, ofBool_bit, regAt_bits, field_append]
  exact BitVec.extractLsb'_eq_self

theorem encodeCoprocReg_fields (h : b.extractLsb' 24 4 = 0b1110#4) (h4 : b.extractLsb' 4 1 = 0b1#1) :
    encodeCoprocReg (b.getLsbD 20) (b.extractLsb' 21 3) (b.extractLsb' 16 4) (regAt b 12) (b.extractLsb' 8 4)
      (b.extractLsb' 5 3) (b.extractLsb' 0 4) = b := by
  simp (disch := decide) only [encodeCoprocReg, ← h, ← h4, ofBool_bit, regAt_bits, field_append]
  exact BitVec.extractLsb'_eq_self

theorem encodeCdp_fields (h : b.extractLsb' 24 4 = 0b1110#4) (h4 : b.extractLsb' 4 1 = 0b0#1) :
    encodeCdp (b.extractLsb' 20 4) (b.extractLsb' 16 4) (b.extractLsb' 12 4) (b.extractLsb' 8 4) (b.extractLsb' 5 3)
      (b.extractLsb' 0 4) = b := by
  simp (disch := decide) only [encodeCdp, ← h, ← h4, field_append]
  exact BitVec.extractLsb'_eq_self

theorem bits24_fields {v : BitVec 4} (h : b.extractLsb' 24 4 = v) : v ++ b.extractLsb' 0 24 = b := by
  simp (disch := decide) only [← h, field_append]
  exact BitVec.extractLsb'_eq_self

theorem encodeMsr_imm_fields (h : b.extractLsb' 23 5 = 0b00110#5) (h20 : b.extractLsb' 20 2 = 0b10#2)
    (h12 : b.extractLsb' 12 4 = 0b1111#4) :
    encodeMsr (b.getLsbD 22) (b.extractLsb' 16 4) (.imm (b.extractLsb' 8 4) (b.extractLsb' 0 8)) = b := by
  simp (disch := decide) only [encodeMsr, ← h, ← h20, ← h12, ofBool_bit, field_append]
  exact BitVec.extractLsb'_eq_self

theorem encodeMsr_reg_fields (h : b.extractLsb' 23 5 = 0b00010#5) (h20 : b.extractLsb' 20 2 = 0b10#2)
    (h12 : b.extractLsb' 12 4 = 0b1111#4) (h4 : b.extractLsb' 4 8 = 0b00000000#8) :
    encodeMsr (b.getLsbD 22) (b.extractLsb' 16 4) (.reg (regAt b 0)) = b := by
  simp (disch := decide) only [encodeMsr, ← h, ← h20, ← h12, ← h4, ofBool_bit, regAt_bits, field_append]
  exact BitVec.extractLsb'_eq_self

theorem encodeBody_mrs_fields {c : Cond} (h : b.extractLsb' 23 5 = 0b00010#5) (h20 : b.extractLsb' 20 2 = 0b00#2)
    (h16 : b.extractLsb' 16 4 = 0b1111#4) (h0 : b.extractLsb' 0 12 = 0#12) :
    encodeBody (.mrs c (b.getLsbD 22) (regAt b 12)) = b := by
  simp (disch := decide) only [encodeBody, ← h, ← h20, ← h16, ← h0, ofBool_bit, regAt_bits, field_append]
  exact BitVec.extractLsb'_eq_self

theorem field_one {k : Nat} {v : Bool} (h : b.getLsbD k = v) : b.extractLsb' k 1 = BitVec.ofBool v := by
  rw [← ofBool_bit, h]

/-- A body as the fields of formats HREG and HIMM (R112). -/
theorem half_format (b : BitVec 28) :
    b.extractLsb' 25 3 ++ b.extractLsb' 24 1 ++ b.extractLsb' 23 1 ++ b.extractLsb' 22 1 ++ b.extractLsb' 21 1
      ++ b.extractLsb' 20 1 ++ b.extractLsb' 16 4 ++ b.extractLsb' 12 4 ++ b.extractLsb' 8 4 ++ b.extractLsb' 7 1
      ++ b.extractLsb' 5 2 ++ b.extractLsb' 4 1 ++ b.extractLsb' 0 4 = b := by
  simp (disch := decide) only [field_append]
  exact BitVec.extractLsb'_eq_self

theorem encodeHalf_reg_fields {idx : Index} (h : b.extractLsb' 25 3 = 0b000#3) (h22 : b.getLsbD 22 = false)
    (h7 : b.getLsbD 7 = true) (h4 : b.getLsbD 4 = true) (h8 : b.extractLsb' 8 4 = 0b0000#4)
    (hp : idx.p = b.getLsbD 24) (hw : idx.w = b.getLsbD 21) :
    encodeHalf idx (b.getLsbD 23) (b.getLsbD 20) (b.extractLsb' 5 2) (regAt b 16) (regAt b 12) (.reg (regAt b 0))
      = b := by
  refine Eq.trans ?_ (half_format b)
  rw [field_one h22, field_one h7, field_one h4, h, h8]
  simp only [encodeHalf, hp, hw, ofBool_bit, regAt_bits]
  rfl

theorem encodeHalf_imm_fields {idx : Index} (h : b.extractLsb' 25 3 = 0b000#3) (h22 : b.getLsbD 22 = true)
    (h7 : b.getLsbD 7 = true) (h4 : b.getLsbD 4 = true) (hp : idx.p = b.getLsbD 24) (hw : idx.w = b.getLsbD 21) :
    encodeHalf idx (b.getLsbD 23) (b.getLsbD 20) (b.extractLsb' 5 2) (regAt b 16) (regAt b 12)
      (.imm (b.extractLsb' 8 4 ++ b.extractLsb' 0 4)) = b := by
  refine Eq.trans ?_ (half_format b)
  rw [field_one h22, field_one h7, field_one h4, h]
  simp only [encodeHalf, hp, hw, ofBool_bit, regAt_bits, BitVec.extractLsb'_append_eq_left,
    BitVec.extractLsb'_append_eq_right]
  rfl

theorem decodeOperand2Reg_bits (h : ¬ (b.getLsbD 7 && b.getLsbD 4) = true) :
    (decodeOperand2Reg b).bits = b.extractLsb' 0 12 := by
  unfold decodeOperand2Reg
  cases h4 : b.getLsbD 4 with
  | true =>
    have h7 : b.getLsbD 7 = false := by simpa [h4] using h
    calc _ = b.extractLsb' 8 4 ++ b.extractLsb' 7 1 ++ b.extractLsb' 5 2 ++ b.extractLsb' 4 1 ++ b.extractLsb' 0 4 := by
          rw [field_one h7, field_one h4]
          simp only [↓reduceIte, Operand2.bits, regAt_bits, ShiftType.bits_ofBits]
          rfl
      _ = _ := by simp (disch := decide) only [field_append]
  | false =>
    calc _ = b.extractLsb' 7 5 ++ b.extractLsb' 5 2 ++ b.extractLsb' 4 1 ++ b.extractLsb' 0 4 := by
          rw [field_one h4]
          simp only [Bool.false_eq_true, ↓reduceIte, Operand2.bits, regAt_bits, ShiftType.bits_ofBits]
          rfl
      _ = _ := by simp (disch := decide) only [field_append]

theorem decodeOperand2Reg_isImm : (decodeOperand2Reg b).isImm = false := by
  unfold decodeOperand2Reg
  split <;> rfl

theorem decodeOperand2Imm_bits : (decodeOperand2Imm b).bits = b.extractLsb' 0 12 := by
  simp (disch := decide) only [decodeOperand2Imm, Operand2.bits, field_append]

theorem transferOffset_bits (h4 : b.getLsbD 4 = false) :
    (TransferOffset.reg (regAt b 0) (ShiftType.ofBits (b.extractLsb' 5 2)) (b.extractLsb' 7 5)).bits
      = b.extractLsb' 0 12 := by
  calc _ = b.extractLsb' 7 5 ++ b.extractLsb' 5 2 ++ b.extractLsb' 4 1 ++ b.extractLsb' 0 4 := by
        rw [field_one h4]
        simp only [TransferOffset.bits, regAt_bits, ShiftType.bits_ofBits]
        rfl
    _ = _ := by simp (disch := decide) only [field_append]

@[simp] theorem Index.w_ofBits {p w : Bool} (h : ¬ (!p && w) = true) : (Index.ofBits p w).w = w := by
  cases p <;> cases w <;> simp_all [Index.ofBits, Index.w]

end Sys2Proof
end

section
/-! PROOFS. The decoder answers a well-formed instruction whose bits 27 to 0 are the body decoded: EncodeDecode (O2). -/

namespace Sys2Proof

/-- `i` is well-formed and is encoded by the condition `c` and the body `b`. -/
def EncodedBy (c : Cond) (b : BitVec 28) (i : Instr) : Prop :=
  i.wf = true ∧ i.cond = c ∧ encodeBody i = b

variable {c : Cond} {b : BitVec 28}

theorem field_of_bits {lo : Nat} {u v : Bool} (hu : b.getLsbD (lo + 1) = u) (hv : b.getLsbD lo = v) :
    b.extractLsb' lo 2 = BitVec.ofBool u ++ BitVec.ofBool v :=
  field_of_parts (field_one hu) (field_one hv)

/-! Data processing -/

theorem field_of_toNat {lo n k : Nat} (h : (b.extractLsb' lo n).toNat = k) : BitVec.ofNat n k = b.extractLsb' lo n := by
  rw [← h, BitVec.ofNat_toNat, BitVec.setWidth_eq]

/-- The S bit of the four that write no register is set, as the words with it clear are PSR transfers (R125 (b)). -/
theorem bit20_of_compare {k : BitVec 4} (hf : ¬ (b.extractLsb' 23 2 = 0b10#2 ∧ b.getLsbD 20 = false))
    (hk : k = b.extractLsb' 21 4) (hk2 : k.extractLsb' 2 2 = 0b10#2) : b.getLsbD 20 = true := by
  have h23 : b.extractLsb' 23 2 = 0b10#2 := (subfield_eq (k := 2) (m := 2) hk.symm (by decide)).trans hk2
  simpa [h23] using hf

theorem encodedBy_compare {op : BitVec 4} {rd rn : Reg} {o : Operand2} {i ip : Instr}
    (hi : rd ≠ .r15 → i.wf = true ∧ i.cond = c ∧ encodeBody i = encodeDp op true rd rn o)
    (hp : ip.wf = true ∧ ip.cond = c ∧ encodeBody ip = encodeDp op true .r15 rn o)
    (h : encodeDp op true rd rn o = b) : EncodedBy c b (if rd = .r15 then ip else i) := by
  split
  next hrd => exact ⟨hp.1, hp.2.1, hp.2.2.trans (hrd ▸ h)⟩
  next hrd => exact ⟨(hi hrd).1, (hi hrd).2.1, (hi hrd).2.2.trans h⟩

theorem decodeDp_encodedBy {o : Operand2} (h : b.extractLsb' 26 2 = 0b00#2) (hi : o.isImm = b.getLsbD 25)
    (ho : o.bits = b.extractLsb' 0 12) (hf : ¬ (b.extractLsb' 23 2 = 0b10#2 ∧ b.getLsbD 20 = false)) :
    EncodedBy c b (decodeDp c b o) := by
  have henc := encodeDp_fields h hi ho
  unfold decodeDp
  simp only
  split <;> rename_i hk
  case h_9 | h_10 | h_11 | h_12 =>
    have hk := field_of_toNat hk
    rw [← hk, bit20_of_compare hf hk rfl] at henc
    exact encodedBy_compare (fun hrd => ⟨by simpa [Instr.wf] using hrd, rfl, rfl⟩) ⟨rfl, rfl, rfl⟩ henc
  case h_16 =>
    have hlt := (b.extractLsb' 21 4).isLt
    have hk : (b.extractLsb' 21 4).toNat = 15 := by
      simp only [imp_false] at *
      omega
    rw [← field_of_toNat hk] at henc
    exact ⟨rfl, rfl, henc⟩
  all_goals
    rw [← field_of_toNat hk] at henc
    exact ⟨rfl, rfl, henc⟩

/-! Multiplies and swaps -/

theorem encodedBy_undefinedD (h : b.extractLsb' 25 3 = 0b000#3) (h4 : b.extractLsb' 4 4 = 0b1001#4)
    (hmul : b.extractLsb' 22 3 ≠ 0b000#3) (hc : b.extractLsb' 22 3 ≠ 0b001#3) (hmull : b.extractLsb' 23 2 ≠ 0b01#2)
    (hswp : b.extractLsb' 20 5 ≠ 0b10000#5) (hswpb : b.extractLsb' 20 5 ≠ 0b10100#5) :
    EncodedBy c b (.undefinedD c b) := by
  refine ⟨?_, rfl, rfl⟩
  simp only [ne_eq, field_succ_eq_iff] at *
  simp only [Instr.wf, isUndefinedD, Bool.and_eq_true, beq_iff_eq, bne_iff_ne, ne_eq, field_succ_eq_iff]
  simp at *
  grind

theorem encodedBy_swap {byte : Bool} {i : Instr} (h : b.extractLsb' 25 3 = 0b000#3) (h4 : b.extractLsb' 4 4 = 0b1001#4)
    (h20 : b.extractLsb' 20 5 = 0b10#2 ++ BitVec.ofBool byte ++ 0b00#2)
    (hi : i.wf = true ∧ i.cond = c ∧ encodeBody i = encodeSwap byte (regAt b 16) (regAt b 12) (regAt b 0)) :
    EncodedBy c b (if b.extractLsb' 8 4 = 0b0000#4 then i else .reservedSwp c b) := by
  obtain ⟨hwf, hc, hbody⟩ := hi
  have h23 : b.extractLsb' 23 5 = 0b00010#5 :=
    field_of_parts h ((subfield_eq (k := 3) (m := 2) h20 (by decide)).trans (by cases byte <;> rfl))
  have h22 : b.getLsbD 22 = byte := (field_eq_iff.1 h20 2 (by decide)).trans (by cases byte <;> rfl)
  have h20 : b.extractLsb' 20 2 = 0b00#2 :=
    (subfield_eq (k := 0) (m := 2) h20 (by decide)).trans (by cases byte <;> rfl)
  split
  next h8 => exact ⟨hwf, hc, hbody.trans (h22 ▸ encodeSwap_fields h23 h20 h8 h4)⟩
  next h8 => exact ⟨by simp [Instr.wf, isReservedSwp, h23, h20, h4, h8], rfl, rfl⟩

theorem bits_of_field {lo : Nat} {v : BitVec 2} (h : v = b.extractLsb' lo 2) :
    b.getLsbD lo = v.getLsbD 0 ∧ b.getLsbD (lo + 1) = v.getLsbD 1 :=
  ⟨field_eq_iff.1 h.symm 0 (by decide), field_eq_iff.1 h.symm 1 (by decide)⟩

theorem decodeMultiplySwap_encodedBy (h : b.extractLsb' 25 3 = 0b000#3) (h4 : b.extractLsb' 4 4 = 0b1001#4) :
    EncodedBy c b (decodeMultiplySwap c b) := by
  unfold decodeMultiplySwap
  simp only
  split
  next h22 =>
    have henc := encodeMul_fields (field_of_parts h h22) h4
    split <;> rename_i h21 <;> simp only [h21] at henc <;> exact ⟨rfl, rfl, henc⟩
  next hmul =>
  split
  next h22 =>
    refine ⟨?_, rfl, rfl⟩
    simp only [Instr.wf, isUndefinedC, h4, (field_of_parts h h22 : b.extractLsb' 22 6 = 0b000001#6)]
    rfl
  next hc =>
  split
  next h23 =>
    have henc := encodeMull_fields (field_of_parts h h23) h4
    split <;> rename_i hk
    case h_4 =>
      have hlt := (b.extractLsb' 21 2).isLt
      have hk : (b.extractLsb' 21 2).toNat = 3 := by
        simp only [imp_false] at *
        omega
      obtain ⟨h21, h22⟩ := bits_of_field (field_of_toNat hk)
      rw [h21, h22] at henc
      exact ⟨rfl, rfl, henc⟩
    all_goals
      obtain ⟨h21, h22⟩ := bits_of_field (field_of_toNat hk)
      rw [h21, h22] at henc
      exact ⟨rfl, rfl, henc⟩
  next hmull =>
  split
  next h20 => exact encodedBy_swap (byte := false) h h4 h20 ⟨rfl, rfl, rfl⟩
  next hswp =>
  split
  next h20 => exact encodedBy_swap (byte := true) h h4 h20 ⟨rfl, rfl, rfl⟩
  next hswpb => exact encodedBy_undefinedD h h4 hmul hc hmull hswp hswpb

/-! Halfword and signed transfers -/

theorem isUndefinedE_eq (h : b.extractLsb' 25 3 = 0b000#3) (h7 : b.getLsbD 7 = true) (h4 : b.getLsbD 4 = true)
    (h5 : b.extractLsb' 5 2 ≠ 0b00#2) :
    isUndefinedE b = ((!b.getLsbD 24 && b.getLsbD 21) || (!b.getLsbD 20 && b.getLsbD 6)) := by
  have h24 : b.extractLsb' 24 4 = 0b0000#4 ↔ b.getLsbD 24 = false :=
    ⟨fun h => field_eq_iff.1 h 0 (by decide), fun h24 => field_of_parts h (field_one h24)⟩
  have h6 : b.extractLsb' 6 2 = 0b11#2 ↔ b.getLsbD 6 = true :=
    ⟨fun h => field_eq_iff.1 h 0 (by decide), fun h6 => field_of_bits h7 h6⟩
  rw [Bool.eq_iff_iff]
  simp [isUndefinedE, -BitVec.getLsbD_eq_getElem, h, h4, h5, h7, h24, h6]

theorem isReservedHreg_eq (h : b.extractLsb' 25 3 = 0b000#3) (h7 : b.getLsbD 7 = true) (h4 : b.getLsbD 4 = true)
    (h5 : b.extractLsb' 5 2 ≠ 0b00#2) :
    isReservedHreg b = (!b.getLsbD 22 && !isUndefinedE b && b.extractLsb' 8 4 != 0b0000#4) := by
  simp [isReservedHreg, -BitVec.getLsbD_eq_getElem, h, h4, h7, bne_iff_ne.2 h5]

/-- A halfword or signed store is a store of a halfword: the other two forms are of class E. -/
theorem store_field (h20 : b.getLsbD 20 = false) (h5 : b.extractLsb' 5 2 ≠ 0b00#2)
    (hE : ¬ (!b.getLsbD 20 && b.getLsbD 6) = true) : b.extractLsb' 5 2 = 0b01#2 := by
  have h6 : b.getLsbD 6 = false := by simpa [-BitVec.getLsbD_eq_getElem, h20] using hE
  cases h : b.getLsbD 5 with
  | true => exact field_of_bits h6 h
  | false => exact absurd (field_of_bits h6 h) h5

theorem decodeHalf_encodedBy (h : b.extractLsb' 25 3 = 0b000#3) (h7 : b.getLsbD 7 = true) (h4 : b.getLsbD 4 = true)
    (h5 : b.extractLsb' 5 2 ≠ 0b00#2) : EncodedBy c b (decodeHalf c b) := by
  have hU := isUndefinedE_eq h h7 h4 h5
  unfold decodeHalf
  simp only
  split
  next hE => exact ⟨by rw [Instr.wf, hU, hE, Bool.true_or], rfl, rfl⟩
  next hE =>
  split
  next hE => exact ⟨by rw [Instr.wf, hU, hE, Bool.or_true], rfl, rfl⟩
  next hE' =>
  split
  next h8 =>
    refine ⟨?_, rfl, rfl⟩
    have hnotE : isUndefinedE b = false := by simp only [hU, hE, hE', Bool.or_false]
    obtain ⟨h22, h8⟩ := Bool.and_eq_true_iff.1 h8
    rw [Instr.wf, isReservedHreg_eq h h7 h4 h5, hnotE, h22, h8]
    rfl
  next h8 =>
  have henc (idx : Index) (hp : idx.p = b.getLsbD 24) (hw : idx.w = b.getLsbD 21) :
      encodeHalf idx (b.getLsbD 23) (b.getLsbD 20) (b.extractLsb' 5 2) (regAt b 16) (regAt b 12) (decodeHalfOffset b)
        = b := by
    unfold decodeHalfOffset
    split
    next h22 => exact encodeHalf_imm_fields h h22 h7 h4 hp hw
    next h22 =>
      rw [Bool.not_eq_true] at h22
      exact encodeHalf_reg_fields h h22 h7 h4 (by simpa [-BitVec.getLsbD_eq_getElem, h22] using h8) hp hw
  have henc := henc (Index.ofBits (b.getLsbD 24) (b.getLsbD 21)) (Index.p_ofBits _ _) (Index.w_ofBits hE)
  split
  next h20 =>
    rw [h20] at henc
    split <;> rename_i hk
    case h_3 =>
      have hlt := (b.extractLsb' 5 2).isLt
      have hk0 : (b.extractLsb' 5 2).toNat ≠ 0 := fun h0 => h5 (field_of_toNat h0).symm
      have hk : (b.extractLsb' 5 2).toNat = 3 := by
        simp only [imp_false] at *
        omega
      rw [← field_of_toNat hk] at henc
      exact ⟨rfl, rfl, henc⟩
    all_goals
      rw [← field_of_toNat hk] at henc
      exact ⟨rfl, rfl, henc⟩
  next h20 =>
    rw [Bool.not_eq_true] at h20
    rw [store_field h20 h5 hE', h20] at henc
    exact ⟨rfl, rfl, henc⟩

/-! PSR transfers -/

theorem decodePsr_encodedBy (h : b.extractLsb' 23 5 = 0b00010#5) (h20 : b.getLsbD 20 = false)
    (h7 : ¬ (b.getLsbD 7 && b.getLsbD 4) = true) : EncodedBy c b (decodePsr c b) := by
  unfold decodePsr
  split
  next h4 =>
    have h7 : b.getLsbD 7 = false := by simpa [-BitVec.getLsbD_eq_getElem, h4] using h7
    exact ⟨by simp only [Instr.wf, isUndefinedB, h, h20, h4, h7]; simp, rfl, rfl⟩
  next h4 =>
  rw [Bool.not_eq_true] at h4
  split
  next h5 => exact ⟨by simp [-BitVec.getLsbD_eq_getElem, Instr.wf, isUndefinedB, h, h20, h4, h5], rfl, rfl⟩
  next h5 =>
  rw [ne_eq, Decidable.not_not] at h5
  have h44 : b.extractLsb' 4 4 = 0b0000#4 := field_of_parts h5 (field_one h4)
  split
  next h21 =>
    have h20 : b.extractLsb' 20 2 = 0b10#2 := field_of_bits h21 h20
    split
    next hfix => exact ⟨rfl, rfl, encodeMsr_reg_fields h h20 hfix.1 (field_of_parts hfix.2 h44)⟩
    next hfix =>
      have hfix : b.extractLsb' 12 4 = 0b1111#4 → b.extractLsb' 8 4 ≠ 0b0000#4 := by simpa using hfix
      exact ⟨by simpa [Instr.wf, isReservedMsr, h, h20, h44, ← imp_iff_not_or] using hfix, rfl, rfl⟩
  next h21 =>
    rw [Bool.not_eq_true] at h21
    have h20 : b.extractLsb' 20 2 = 0b00#2 := field_of_bits h21 h20
    split
    next hfix => exact ⟨rfl, rfl, encodeBody_mrs_fields h h20 hfix.1 hfix.2⟩
    next hfix =>
      refine ⟨?_, rfl, rfl⟩
      by_contra hwf
      simp [Instr.wf, isReservedMrs, h, h20, h44] at hwf
      exact hfix ⟨hwf.1.1, field_of_parts hwf.1.2 (field_of_parts h44 hwf.2)⟩

/-! The eight classes of bits 27 to 25 -/

theorem decode000_encodedBy (h : b.extractLsb' 25 3 = 0b000#3) : EncodedBy c b (decode000 c b) := by
  unfold decode000
  split
  next h74 =>
    obtain ⟨h7, h4⟩ := Bool.and_eq_true_iff.1 h74
    split
    next h5 => exact decodeMultiplySwap_encodedBy h (field_of_parts (field_one h7) (field_of_parts h5 (field_one h4)))
    next h5 => exact decodeHalf_encodedBy h h7 h4 h5
  next h74 =>
  split
  next hpsr => exact decodePsr_encodedBy (field_of_parts h hpsr.1) hpsr.2 h74
  next hpsr =>
    have h25 : b.getLsbD 25 = false := field_eq_iff.1 h 0 (by decide)
    exact decodeDp_encodedBy (subfield_eq (k := 1) (m := 2) h (by decide)) (decodeOperand2Reg_isImm.trans h25.symm)
      (decodeOperand2Reg_bits h74) hpsr

theorem decode001_encodedBy (h : b.extractLsb' 25 3 = 0b001#3) : EncodedBy c b (decode001 c b) := by
  unfold decode001
  split
  next hpsr =>
    have h23 : b.extractLsb' 23 5 = 0b00110#5 := field_of_parts h hpsr.1
    split
    next h21 =>
      have h20 : b.extractLsb' 20 2 = 0b10#2 := field_of_bits h21 hpsr.2
      split
      next h12 => exact ⟨rfl, rfl, encodeMsr_imm_fields h23 h20 h12⟩
      next h12 => exact ⟨by simp [Instr.wf, isReservedMsr, h23, h20, h12], rfl, rfl⟩
    next h21 =>
      rw [Bool.not_eq_true] at h21
      have h20 : b.extractLsb' 20 2 = 0b00#2 := field_of_bits h21 hpsr.2
      exact ⟨by simp [Instr.wf, isUndefinedB, h23, h20], rfl, rfl⟩
  next hpsr =>
    have h25 : b.getLsbD 25 = true := field_eq_iff.1 h 0 (by decide)
    exact decodeDp_encodedBy (subfield_eq (k := 1) (m := 2) h (by decide)) h25.symm decodeOperand2Imm_bits hpsr

/-! Single data transfers -/

theorem decodeSingle_encodedBy {off : TransferOffset} (h : b.extractLsb' 26 2 = 0b01#2) (hi : off.isReg = b.getLsbD 25)
    (ho : off.bits = b.extractLsb' 0 12) : EncodedBy c b (decodeSingle c b off) := by
  have henc := encodeSingle_fields h hi ho
  unfold decodeSingle
  simp only
  split_ifs with hT hL hB hB hL hB hB <;> refine ⟨rfl, rfl, ?_⟩ <;> simp_all [encodeBody]

theorem decode010_encodedBy (h : b.extractLsb' 25 3 = 0b010#3) :
    EncodedBy c b (decodeSingle c b (.imm (b.extractLsb' 0 12))) := by
  have h25 : b.getLsbD 25 = false := field_eq_iff.1 h 0 (by decide)
  exact decodeSingle_encodedBy (subfield_eq (k := 1) (m := 2) h (by decide)) h25.symm rfl

theorem decode011_encodedBy (h : b.extractLsb' 25 3 = 0b011#3) : EncodedBy c b (decodeBody c b) := by
  rw [decodeBody_011 h]
  split
  next h4 => exact ⟨by simp [-BitVec.getLsbD_eq_getElem, Instr.wf, isUndefinedA, h, h4], rfl, rfl⟩
  next h4 =>
    rw [Bool.not_eq_true] at h4
    have h25 : b.getLsbD 25 = true := field_eq_iff.1 h 0 (by decide)
    exact decodeSingle_encodedBy (subfield_eq (k := 1) (m := 2) h (by decide)) h25.symm (transferOffset_bits h4)

theorem decodeBlock_encodedBy (h : b.extractLsb' 25 3 = 0b100#3) : EncodedBy c b (decodeBlock c b) := by
  have henc := encodeBlock_fields h
  unfold decodeBlock
  split <;> rename_i h20 <;> simp only [h20] at henc <;> exact ⟨rfl, rfl, henc⟩

theorem decodeBranch_encodedBy (h : b.extractLsb' 25 3 = 0b101#3) : EncodedBy c b (decodeBody c b) := by
  rw [decodeBody_101 h]
  split
  next h24 => exact ⟨rfl, rfl, bits24_fields (field_of_parts h (field_one h24))⟩
  next h24 =>
    rw [Bool.not_eq_true] at h24
    exact ⟨rfl, rfl, bits24_fields (field_of_parts h (field_one h24))⟩

theorem decodeCoprocTransfer_encodedBy (h : b.extractLsb' 25 3 = 0b110#3) :
    EncodedBy c b (decodeCoprocTransfer c b) := by
  have henc := encodeCoprocTransfer_fields h
  unfold decodeCoprocTransfer
  split <;> rename_i h20 <;> simp only [h20] at henc <;> exact ⟨rfl, rfl, henc⟩

theorem decode111_encodedBy (h : b.extractLsb' 25 3 = 0b111#3) : EncodedBy c b (decode111 c b) := by
  unfold decode111
  split
  next h24 => exact ⟨rfl, rfl, bits24_fields (field_of_parts h (field_one h24))⟩
  next h24 =>
  rw [Bool.not_eq_true] at h24
  have h24 : b.extractLsb' 24 4 = 0b1110#4 := field_of_parts h (field_one h24)
  split
  next h4 =>
    rw [Bool.not_eq_true'] at h4
    exact ⟨rfl, rfl, encodeCdp_fields h24 (field_one h4)⟩
  next h4 =>
    have h4 : b.getLsbD 4 = true := by simpa using h4
    have henc := encodeCoprocReg_fields h24 (field_one h4)
    split <;> rename_i h20 <;> simp only [h20] at henc <;> exact ⟨rfl, rfl, henc⟩

theorem decodeBody_encodedBy (c : Cond) (b : BitVec 28) : EncodedBy c b (decodeBody c b) := by
  obtain h | h | h | h | h | h | h | h := class_cases (b.extractLsb' 25 3)
  · exact decodeBody_000 h ▸ decode000_encodedBy h
  · exact decodeBody_001 h ▸ decode001_encodedBy h
  · exact decodeBody_010 h ▸ decode010_encodedBy h
  · exact decode011_encodedBy h
  · exact decodeBody_100 h ▸ decodeBlock_encodedBy h
  · exact decodeBranch_encodedBy h
  · exact decodeBody_110 h ▸ decodeCoprocTransfer_encodedBy h
  · exact decodeBody_111 h ▸ decode111_encodedBy h

/-- Settles O2: the condition and the body of the word are those of the instruction that its body decodes to. -/
theorem encodeDecode : Obligations.EncodeDecode := by
  intro w
  obtain ⟨hwf, hcond, hbody⟩ := decodeBody_encodedBy (Cond.ofBits (w.extractLsb' 28 4)) (w.extractLsb' 0 28)
  exact ⟨hwf, by rw [encode, decode, hcond, hbody, Cond.bits_ofBits, split_word]⟩

end Sys2Proof
end

section
/-! PROOFS. The fields of the encodings, each read back from the place where the format has it (R112). -/

namespace Sys2Proof

theorem field_append_hi {w v lo n : Nat} {x : BitVec w} {y : BitVec v} (h : v ≤ lo) :
    (x ++ y).extractLsb' lo n = x.extractLsb' (lo - v) n :=
  BitVec.extractLsb'_append_eq_of_le h

theorem field_append_lo {w v lo n : Nat} {x : BitVec w} {y : BitVec v} (h : lo + n ≤ v) :
    (x ++ y).extractLsb' lo n = y.extractLsb' lo n :=
  BitVec.extractLsb'_append_eq_of_add_le h

theorem bit_of_field {b : BitVec 28} {k : Nat} {v : Bool} (h : b.extractLsb' k 1 = BitVec.ofBool v) :
    b.getLsbD k = v := by
  simpa using field_eq_iff.1 h 0 (by decide)

theorem regAt_eq {b : BitVec 28} {lo : Nat} {r : Reg} (h : b.extractLsb' lo 4 = r.bits) : regAt b lo = r := by
  rw [regAt, h, Reg.ofBits_bits]

theorem Index.not_post_w (idx : Index) : (!idx.p && idx.w) = false := by
  cases idx <;> rfl

theorem encodeDp_read (op : BitVec 4) (f : Bool) (rd rn : Reg) (o : Operand2) :
    let b := encodeDp op f rd rn o
    b.extractLsb' 25 3 = 0b00#2 ++ BitVec.ofBool o.isImm ∧ b.extractLsb' 21 4 = op ∧ b.getLsbD 20 = f ∧ regAt b 16 = rn
    ∧ regAt b 12 = rd ∧ b.extractLsb' 0 12 = o.bits := by
  refine ⟨?_, ?_, bit_of_field ?_, regAt_eq ?_, regAt_eq ?_, ?_⟩ <;>
    simp (disch := decide) only [encodeDp, field_append_hi, field_append_lo] <;>
    exact BitVec.extractLsb'_eq_self

theorem encodeMul_read (a f : Bool) (rd rn rs rm : Reg) :
    let b := encodeMul a f rd rn rs rm
    b.extractLsb' 22 6 = 0b000000#6 ∧ b.getLsbD 21 = a ∧ b.getLsbD 20 = f ∧ regAt b 16 = rd ∧ regAt b 12 = rn
    ∧ regAt b 8 = rs ∧ b.extractLsb' 4 4 = 0b1001#4 ∧ regAt b 0 = rm := by
  refine ⟨?_, bit_of_field ?_, bit_of_field ?_, regAt_eq ?_, regAt_eq ?_, regAt_eq ?_, ?_, regAt_eq ?_⟩ <;>
    simp (disch := decide) only [encodeMul, field_append_hi, field_append_lo] <;>
    exact BitVec.extractLsb'_eq_self

theorem encodeMull_read (u a f : Bool) (rdHi rdLo rs rm : Reg) :
    let b := encodeMull u a f rdHi rdLo rs rm
    b.extractLsb' 23 5 = 0b00001#5 ∧ b.getLsbD 22 = u ∧ b.getLsbD 21 = a ∧ b.getLsbD 20 = f ∧ regAt b 16 = rdHi
    ∧ regAt b 12 = rdLo ∧ regAt b 8 = rs ∧ b.extractLsb' 4 4 = 0b1001#4 ∧ regAt b 0 = rm := by
  refine ⟨?_, bit_of_field ?_, bit_of_field ?_, bit_of_field ?_, regAt_eq ?_, regAt_eq ?_, regAt_eq ?_, ?_,
    regAt_eq ?_⟩ <;>
    simp (disch := decide) only [encodeMull, field_append_hi, field_append_lo] <;>
    exact BitVec.extractLsb'_eq_self

theorem encodeSwap_read (byte : Bool) (rn rd rm : Reg) :
    let b := encodeSwap byte rn rd rm
    b.extractLsb' 23 5 = 0b00010#5 ∧ b.getLsbD 22 = byte ∧ b.extractLsb' 20 2 = 0b00#2 ∧ regAt b 16 = rn
    ∧ regAt b 12 = rd ∧ b.extractLsb' 8 4 = 0b0000#4 ∧ b.extractLsb' 4 4 = 0b1001#4 ∧ regAt b 0 = rm := by
  refine ⟨?_, bit_of_field ?_, ?_, regAt_eq ?_, regAt_eq ?_, ?_, ?_, regAt_eq ?_⟩ <;>
    simp (disch := decide) only [encodeSwap, field_append_hi, field_append_lo] <;>
    exact BitVec.extractLsb'_eq_self

theorem encodeSingle_read (p up byte w load : Bool) (rn rd : Reg) (off : TransferOffset) :
    let b := encodeSingle p up byte w load rn rd off
    b.extractLsb' 25 3 = 0b01#2 ++ BitVec.ofBool off.isReg ∧ b.getLsbD 24 = p ∧ b.getLsbD 23 = up ∧ b.getLsbD 22 = byte
    ∧ b.getLsbD 21 = w ∧ b.getLsbD 20 = load ∧ regAt b 16 = rn ∧ regAt b 12 = rd ∧ b.extractLsb' 0 12 = off.bits := by
  refine ⟨?_, bit_of_field ?_, bit_of_field ?_, bit_of_field ?_, bit_of_field ?_, bit_of_field ?_, regAt_eq ?_,
    regAt_eq ?_, ?_⟩ <;>
    simp (disch := decide) only [encodeSingle, field_append_hi, field_append_lo] <;>
    exact BitVec.extractLsb'_eq_self

/-- The fields that formats HREG and HIMM share. -/
theorem encodeHalf_read (idx : Index) (up load : Bool) (sh : BitVec 2) (rn rd : Reg) (off : HalfOffset) :
    let b := encodeHalf idx up load sh rn rd off
    b.extractLsb' 25 3 = 0b000#3 ∧ b.getLsbD 24 = idx.p ∧ b.getLsbD 23 = up ∧ b.getLsbD 21 = idx.w
    ∧ b.getLsbD 20 = load ∧ regAt b 16 = rn ∧ regAt b 12 = rd ∧ b.getLsbD 7 = true ∧ b.extractLsb' 5 2 = sh
    ∧ b.getLsbD 4 = true := by
  cases off <;>
    refine ⟨?_, bit_of_field ?_, bit_of_field ?_, bit_of_field ?_, bit_of_field ?_, regAt_eq ?_, regAt_eq ?_,
      bit_of_field ?_, ?_, bit_of_field ?_⟩ <;>
    simp (disch := decide) only [encodeHalf, field_append_hi, field_append_lo] <;>
    exact BitVec.extractLsb'_eq_self

theorem encodeHalf_reg_read (idx : Index) (up load : Bool) (sh : BitVec 2) (rn rd rm : Reg) :
    let b := encodeHalf idx up load sh rn rd (.reg rm)
    b.getLsbD 22 = false ∧ b.extractLsb' 8 4 = 0b0000#4 ∧ regAt b 0 = rm := by
  refine ⟨bit_of_field ?_, ?_, regAt_eq ?_⟩ <;>
    simp (disch := decide) only [encodeHalf, field_append_hi, field_append_lo] <;>
    exact BitVec.extractLsb'_eq_self

theorem encodeHalf_imm_read (idx : Index) (up load : Bool) (sh : BitVec 2) (rn rd : Reg) (offset : BitVec 8) :
    let b := encodeHalf idx up load sh rn rd (.imm offset)
    b.getLsbD 22 = true ∧ b.extractLsb' 8 4 = offset.extractLsb' 4 4 ∧ b.extractLsb' 0 4 = offset.extractLsb' 0 4 := by
  refine ⟨bit_of_field ?_, ?_, ?_⟩ <;>
    simp (disch := decide) only [encodeHalf, field_append_hi, field_append_lo] <;>
    exact BitVec.extractLsb'_eq_self

theorem encodeMsr_reg_read (spsr : Bool) (mask : BitVec 4) (rm : Reg) :
    let b := encodeMsr spsr mask (.reg rm)
    b.extractLsb' 23 5 = 0b00010#5 ∧ b.getLsbD 22 = spsr ∧ b.extractLsb' 20 2 = 0b10#2 ∧ b.extractLsb' 16 4 = mask
    ∧ b.extractLsb' 12 4 = 0b1111#4 ∧ b.extractLsb' 4 8 = 0b00000000#8 ∧ regAt b 0 = rm := by
  refine ⟨?_, bit_of_field ?_, ?_, ?_, ?_, ?_, regAt_eq ?_⟩ <;>
    simp (disch := decide) only [encodeMsr, field_append_hi, field_append_lo] <;>
    exact BitVec.extractLsb'_eq_self

theorem encodeMsr_imm_read (spsr : Bool) (mask rotate : BitVec 4) (imm8 : BitVec 8) :
    let b := encodeMsr spsr mask (.imm rotate imm8)
    b.extractLsb' 23 5 = 0b00110#5 ∧ b.getLsbD 22 = spsr ∧ b.extractLsb' 20 2 = 0b10#2 ∧ b.extractLsb' 16 4 = mask
    ∧ b.extractLsb' 12 4 = 0b1111#4 ∧ b.extractLsb' 8 4 = rotate ∧ b.extractLsb' 0 8 = imm8 := by
  refine ⟨?_, bit_of_field ?_, ?_, ?_, ?_, ?_, ?_⟩ <;>
    simp (disch := decide) only [encodeMsr, field_append_hi, field_append_lo] <;>
    exact BitVec.extractLsb'_eq_self

theorem encodeBody_mrs_read (c : Cond) (spsr : Bool) (rd : Reg) :
    let b := encodeBody (.mrs c spsr rd)
    b.extractLsb' 23 5 = 0b00010#5 ∧ b.getLsbD 22 = spsr ∧ b.extractLsb' 20 2 = 0b00#2 ∧ b.extractLsb' 16 4 = 0b1111#4
    ∧ regAt b 12 = rd ∧ b.extractLsb' 0 12 = 0#12 := by
  refine ⟨?_, bit_of_field ?_, ?_, ?_, regAt_eq ?_, ?_⟩ <;>
    simp (disch := decide) only [encodeBody, field_append_hi, field_append_lo] <;>
    exact BitVec.extractLsb'_eq_self

theorem encodeBlock_read (p up psr w load : Bool) (rn : Reg) (list : BitVec 16) :
    let b := encodeBlock p up psr w load rn list
    b.extractLsb' 25 3 = 0b100#3 ∧ b.getLsbD 24 = p ∧ b.getLsbD 23 = up ∧ b.getLsbD 22 = psr ∧ b.getLsbD 21 = w
    ∧ b.getLsbD 20 = load ∧ regAt b 16 = rn ∧ b.extractLsb' 0 16 = list := by
  refine ⟨?_, bit_of_field ?_, bit_of_field ?_, bit_of_field ?_, bit_of_field ?_, bit_of_field ?_, regAt_eq ?_, ?_⟩ <;>
    simp (disch := decide) only [encodeBlock, field_append_hi, field_append_lo] <;>
    exact BitVec.extractLsb'_eq_self

theorem encodeCoprocTransfer_read (p up n w load : Bool) (rn : Reg) (crd num : BitVec 4) (offset : BitVec 8) :
    let b := encodeCoprocTransfer p up n w load rn crd num offset
    b.extractLsb' 25 3 = 0b110#3 ∧ b.getLsbD 24 = p ∧ b.getLsbD 23 = up ∧ b.getLsbD 22 = n ∧ b.getLsbD 21 = w
    ∧ b.getLsbD 20 = load ∧ regAt b 16 = rn ∧ b.extractLsb' 12 4 = crd ∧ b.extractLsb' 8 4 = num
    ∧ b.extractLsb' 0 8 = offset := by
  refine ⟨?_, bit_of_field ?_, bit_of_field ?_, bit_of_field ?_, bit_of_field ?_, bit_of_field ?_, regAt_eq ?_, ?_, ?_,
    ?_⟩ <;>
    simp (disch := decide) only [encodeCoprocTransfer, field_append_hi, field_append_lo] <;>
    exact BitVec.extractLsb'_eq_self

theorem encodeCoprocReg_read (load : Bool) (opc : BitVec 3) (crn : BitVec 4) (rd : Reg) (num : BitVec 4)
    (info : BitVec 3) (crm : BitVec 4) :
    let b := encodeCoprocReg load opc crn rd num info crm
    b.extractLsb' 24 4 = 0b1110#4 ∧ b.extractLsb' 21 3 = opc ∧ b.getLsbD 20 = load ∧ b.extractLsb' 16 4 = crn
    ∧ regAt b 12 = rd ∧ b.extractLsb' 8 4 = num ∧ b.extractLsb' 5 3 = info ∧ b.getLsbD 4 = true
    ∧ b.extractLsb' 0 4 = crm := by
  refine ⟨?_, ?_, bit_of_field ?_, ?_, regAt_eq ?_, ?_, ?_, bit_of_field ?_, ?_⟩ <;>
    simp (disch := decide) only [encodeCoprocReg, field_append_hi, field_append_lo] <;>
    exact BitVec.extractLsb'_eq_self

theorem encodeCdp_read (opc crn crd num : BitVec 4) (info : BitVec 3) (crm : BitVec 4) :
    let b := encodeCdp opc crn crd num info crm
    b.extractLsb' 24 4 = 0b1110#4 ∧ b.extractLsb' 20 4 = opc ∧ b.extractLsb' 16 4 = crn ∧ b.extractLsb' 12 4 = crd
    ∧ b.extractLsb' 8 4 = num ∧ b.extractLsb' 5 3 = info ∧ b.getLsbD 4 = false ∧ b.extractLsb' 0 4 = crm := by
  refine ⟨?_, ?_, ?_, ?_, ?_, ?_, bit_of_field ?_, ?_⟩ <;>
    simp (disch := decide) only [encodeCdp, field_append_hi, field_append_lo] <;>
    exact BitVec.extractLsb'_eq_self

end Sys2Proof
end

section
/-! PROOFS. The decoder on the encoding of each format, and on the words that are no instruction's: DecodeEncode (O1). -/

namespace Sys2Proof
variable {c : Cond} {b : BitVec 28}

/-! The parts of the decoder below bits 27 to 25 = 000 (R125) -/

theorem decodeBody_mulSwap (h : b.extractLsb' 25 3 = 0b000#3) (h4 : b.extractLsb' 4 4 = 0b1001#4) :
    decodeBody c b = decodeMultiplySwap c b := by
  have hb7 : b.getLsbD 7 = true := field_eq_iff.1 h4 3 (by decide)
  have hb4 : b.getLsbD 4 = true := field_eq_iff.1 h4 0 (by decide)
  have h5 : b.extractLsb' 5 2 = 0b00#2 := subfield_eq (k := 1) (m := 2) h4 (by decide)
  rw [decodeBody_000 h, decode000, if_pos (by rw [hb7, hb4]; rfl), if_pos h5]

theorem decodeBody_half (h : b.extractLsb' 25 3 = 0b000#3) (h7 : b.getLsbD 7 = true) (h4 : b.getLsbD 4 = true)
    (h5 : b.extractLsb' 5 2 ≠ 0b00#2) : decodeBody c b = decodeHalf c b := by
  rw [decodeBody_000 h, decode000, if_pos (by rw [h7, h4]; rfl), if_neg h5]

theorem decodeBody_psr (h : b.extractLsb' 23 5 = 0b00010#5) (h20 : b.getLsbD 20 = false)
    (h74 : (b.getLsbD 7 && b.getLsbD 4) = false) : decodeBody c b = decodePsr c b := by
  have h23 : b.extractLsb' 23 2 = 0b10#2 := subfield_eq (k := 0) (m := 2) h (by decide)
  rw [decodeBody_000 (subfield_eq (k := 2) (m := 3) h (by decide)), decode000, if_neg (by simp only [h74]; decide),
    if_pos ⟨h23, h20⟩]

theorem decodeBody_psrImm (h : b.extractLsb' 23 5 = 0b00110#5) (h20 : b.getLsbD 20 = false) :
    decodeBody c b = if b.getLsbD 21 then
      (if b.extractLsb' 12 4 = 0b1111#4 then
        .msr c (b.getLsbD 22) (b.extractLsb' 16 4) (.imm (b.extractLsb' 8 4) (b.extractLsb' 0 8))
       else .reservedMsr c b)
     else .undefinedB c b := by
  have h23 : b.extractLsb' 23 2 = 0b10#2 := subfield_eq (k := 0) (m := 2) h (by decide)
  rw [decodeBody_001 (subfield_eq (k := 2) (m := 3) h (by decide)), decode001, if_pos ⟨h23, h20⟩]

/-! Data processing -/

theorem decodeOperand2Imm_eq {rotate : BitVec 4} {imm8 : BitVec 8}
    (h : b.extractLsb' 0 12 = (Operand2.imm rotate imm8).bits) : decodeOperand2Imm b = .imm rotate imm8 := by
  have h8 : b.extractLsb' 8 4 = rotate :=
    (subfield_eq (k := 8) (m := 4) h (by decide)).trans BitVec.extractLsb'_append_eq_left
  have h0 : b.extractLsb' 0 8 = imm8 :=
    (subfield_eq (k := 0) (m := 8) h (by decide)).trans BitVec.extractLsb'_append_eq_right
  rw [decodeOperand2Imm, h8, h0]

theorem shiftImm_read {rm : Reg} {ty : ShiftType} {amount : BitVec 5}
    (h : b.extractLsb' 0 12 = amount ++ ty.bits ++ 0b0#1 ++ rm.bits) :
    b.extractLsb' 7 5 = amount ∧ ShiftType.ofBits (b.extractLsb' 5 2) = ty ∧ b.getLsbD 4 = false ∧ regAt b 0 = rm := by
  have read (k m : Nat) (hk : k + m ≤ 12) := subfield_eq (k := k) (m := m) h hk
  simp only [Nat.zero_add] at read
  rw [regAt, read 7 5 (by decide), read 5 2 (by decide), read 0 4 (by decide)]
  refine ⟨?_, ?_, bit_of_field ((read 4 1 (by decide)).trans ?_), ?_⟩ <;>
    simp (disch := decide) only [field_append_hi, field_append_lo]
  · exact BitVec.extractLsb'_eq_self
  · exact (congrArg _ BitVec.extractLsb'_eq_self).trans (ShiftType.ofBits_bits ty)
  · exact BitVec.extractLsb'_eq_self
  · exact (congrArg _ BitVec.extractLsb'_eq_self).trans (Reg.ofBits_bits rm)

theorem shiftReg_read {rm rs : Reg} {ty : ShiftType}
    (h : b.extractLsb' 0 12 = rs.bits ++ 0b0#1 ++ ty.bits ++ 0b1#1 ++ rm.bits) :
    regAt b 8 = rs ∧ b.getLsbD 7 = false ∧ ShiftType.ofBits (b.extractLsb' 5 2) = ty ∧ b.getLsbD 4 = true
    ∧ regAt b 0 = rm := by
  have read (k m : Nat) (hk : k + m ≤ 12) := subfield_eq (k := k) (m := m) h hk
  simp only [Nat.zero_add] at read
  rw [regAt, regAt, read 8 4 (by decide), read 5 2 (by decide), read 0 4 (by decide)]
  refine ⟨?_, bit_of_field ((read 7 1 (by decide)).trans ?_), ?_, bit_of_field ((read 4 1 (by decide)).trans ?_), ?_⟩ <;>
    simp (disch := decide) only [field_append_hi, field_append_lo]
  · exact (congrArg _ BitVec.extractLsb'_eq_self).trans (Reg.ofBits_bits rs)
  · exact BitVec.extractLsb'_eq_self
  · exact (congrArg _ BitVec.extractLsb'_eq_self).trans (ShiftType.ofBits_bits ty)
  · exact BitVec.extractLsb'_eq_self
  · exact (congrArg _ BitVec.extractLsb'_eq_self).trans (Reg.ofBits_bits rm)

/-- A data-processing body is no PSR transfer if TST, TEQ, CMP and CMN have their S bit set. -/
theorem not_psr_of_op {op : BitVec 4} {f : Bool} (hop : b.extractLsb' 21 4 = op) (hs : b.getLsbD 20 = f)
    (hf : op.extractLsb' 2 2 = 0b10#2 → f = true) : ¬ (b.extractLsb' 23 2 = 0b10#2 ∧ b.getLsbD 20 = false) := by
  rintro ⟨h23, h20⟩
  have := hf ((subfield_eq (k := 2) (m := 2) hop (by decide)).symm.trans h23)
  simp only [← hs, h20, Bool.false_eq_true] at this

theorem decodeBody_encodeDp (op : BitVec 4) (f : Bool) (rd rn : Reg) (o : Operand2)
    (hf : op.extractLsb' 2 2 = 0b10#2 → f = true) :
    decodeBody c (encodeDp op f rd rn o) = decodeDp c (encodeDp op f rd rn o) o := by
  obtain ⟨h25, hop, hs, -, -, ho⟩ := encodeDp_read op f rd rn o
  have hpsr := not_psr_of_op hop hs hf
  cases o with
  | imm rotate imm8 => rw [decodeBody_001 (h25.trans (by decide : 0b00#2 ++ BitVec.ofBool true = 0b001#3)), decode001,
      if_neg hpsr, decodeOperand2Imm_eq ho]
  | shiftImm rm ty amount =>
    obtain ⟨h7, h5, h4, h0⟩ := shiftImm_read ho
    rw [decodeBody_000 (h25.trans (by decide : 0b00#2 ++ BitVec.ofBool false = 0b000#3)), decode000,
      if_neg (by rw [h4, Bool.and_false]; decide), if_neg hpsr, decodeOperand2Reg, h0, h5, h7, h4]
    rfl
  | shiftReg rm ty rs =>
    obtain ⟨h8, h7, h5, h4, h0⟩ := shiftReg_read ho
    rw [decodeBody_000 (h25.trans (by decide : 0b00#2 ++ BitVec.ofBool false = 0b000#3)), decode000,
      if_neg (by rw [h7, Bool.false_and]; decide), if_neg hpsr, decodeOperand2Reg, h0, h5, h8, h4]
    rfl

/-- The instruction of a data-processing body is the one of its five fields. -/
theorem decode_dp {op : BitVec 4} {f : Bool} {rd rn : Reg} {o : Operand2} {i : Instr}
    (hf : op.extractLsb' 2 2 = 0b10#2 → f = true)
    (hi : ∀ b : BitVec 28, b.extractLsb' 21 4 = op → b.getLsbD 20 = f → regAt b 12 = rd → regAt b 16 = rn →
      decodeDp c b o = i) : decodeBody c (encodeDp op f rd rn o) = i := by
  obtain ⟨-, hop, hs, hrn, hrd, -⟩ := encodeDp_read op f rd rn o
  rw [decodeBody_encodeDp op f rd rn o hf, hi _ hop hs hrd hrn]

/-! PSR transfers -/

theorem bits20_of_10 (h : b.extractLsb' 20 2 = 0b10#2) : b.getLsbD 21 = true ∧ b.getLsbD 20 = false :=
  ⟨field_eq_iff.1 h 1 (by decide), field_eq_iff.1 h 0 (by decide)⟩

theorem bits20_of_00 (h : b.extractLsb' 20 2 = 0b00#2) : b.getLsbD 21 = false ∧ b.getLsbD 20 = false :=
  ⟨field_eq_iff.1 h 1 (by decide), field_eq_iff.1 h 0 (by decide)⟩

theorem decodePsr_of_bit4 (h4 : b.getLsbD 4 = true) : decodePsr c b = .undefinedB c b := by
  rw [decodePsr, if_pos h4]

theorem decodePsr_of_bits5 (h4 : b.getLsbD 4 = false) (h5 : b.extractLsb' 5 3 ≠ 0b000#3) :
    decodePsr c b = .undefinedB c b := by
  rw [decodePsr, if_neg (by rw [h4]; decide), if_pos h5]

theorem decodePsr_msr (h21 : b.getLsbD 21 = true) (h4 : b.extractLsb' 4 4 = 0b0000#4) :
    decodePsr c b = if b.extractLsb' 12 4 = 0b1111#4 ∧ b.extractLsb' 8 4 = 0b0000#4 then
      .msr c (b.getLsbD 22) (b.extractLsb' 16 4) (.reg (regAt b 0)) else .reservedMsr c b := by
  have hb4 : b.getLsbD 4 = false := field_eq_iff.1 h4 0 (by decide)
  have h5 : b.extractLsb' 5 3 = 0b000#3 := subfield_eq (k := 1) (m := 3) h4 (by decide)
  rw [decodePsr, if_neg (by rw [hb4]; decide), if_neg (by rw [h5]; decide), if_pos h21]

theorem decodePsr_mrs (h21 : b.getLsbD 21 = false) (h4 : b.extractLsb' 4 4 = 0b0000#4) :
    decodePsr c b = if b.extractLsb' 16 4 = 0b1111#4 ∧ b.extractLsb' 0 12 = 0#12 then
      .mrs c (b.getLsbD 22) (regAt b 12) else .reservedMrs c b := by
  have hb4 : b.getLsbD 4 = false := field_eq_iff.1 h4 0 (by decide)
  have h5 : b.extractLsb' 5 3 = 0b000#3 := subfield_eq (k := 1) (m := 3) h4 (by decide)
  rw [decodePsr, if_neg (by rw [hb4]; decide), if_neg (by rw [h5]; decide), if_neg (by rw [h21]; decide)]

/-- Where bits 7 to 4 are 0, the words with bits 27 to 23 = 00010 and bit 20 clear are PSR transfers. -/
theorem decodeBody_psr_of_zero (h : b.extractLsb' 23 5 = 0b00010#5) (h20 : b.getLsbD 20 = false)
    (h4 : b.extractLsb' 4 4 = 0b0000#4) : decodeBody c b = decodePsr c b := by
  have hb4 : b.getLsbD 4 = false := field_eq_iff.1 h4 0 (by decide)
  exact decodeBody_psr h h20 (by rw [hb4, Bool.and_false])

theorem decodeBody_encodeMsr (spsr : Bool) (mask : BitVec 4) (src : MsrSource) :
    decodeBody c (encodeMsr spsr mask src) = .msr c spsr mask src := by
  cases src with
  | reg rm =>
    obtain ⟨h23, h22, h20, h16, h12, h4, h0⟩ := encodeMsr_reg_read spsr mask rm
    obtain ⟨hb21, hb20⟩ := bits20_of_10 h20
    have h44 := subfield_eq (k := 0) (m := 4) h4 (by decide)
    have h84 := subfield_eq (k := 4) (m := 4) h4 (by decide)
    rw [decodeBody_psr_of_zero h23 hb20 h44, decodePsr_msr hb21 h44, if_pos ⟨h12, h84⟩, h22, h16, h0]
  | imm rotate imm8 =>
    obtain ⟨h23, h22, h20, h16, h12, h8, h0⟩ := encodeMsr_imm_read spsr mask rotate imm8
    obtain ⟨hb21, hb20⟩ := bits20_of_10 h20
    rw [decodeBody_psrImm h23 hb20, if_pos hb21, if_pos h12, h22, h16, h8, h0]

theorem decodeBody_encodeMrs (spsr : Bool) (rd : Reg) :
    decodeBody c (encodeBody (.mrs c spsr rd)) = .mrs c spsr rd := by
  obtain ⟨h23, h22, h20, h16, h12, h0⟩ := encodeBody_mrs_read c spsr rd
  obtain ⟨hb21, hb20⟩ := bits20_of_00 h20
  have h4 := subfield_eq (k := 4) (m := 4) h0 (by decide)
  rw [decodeBody_psr_of_zero h23 hb20 h4, decodePsr_mrs hb21 h4, if_pos ⟨h16, h0⟩, h22, h12]

theorem decodeBody_undefinedB (h : isUndefinedB b = true) : decodeBody c b = .undefinedB c b := by
  simp only [isUndefinedB, Bool.or_eq_true, Bool.and_eq_true, beq_iff_eq, bne_iff_ne, Bool.not_eq_true'] at h
  obtain (⟨⟨⟨h23, h20⟩, h4⟩, h5⟩ | ⟨⟨⟨h23, h20⟩, h4⟩, h7⟩) | ⟨h23, h20⟩ := h
  · rw [decodeBody_psr h23 h20 (by rw [h4, Bool.and_false]), decodePsr_of_bits5 h4 h5]
  · rw [decodeBody_psr h23 h20 (by rw [h7, Bool.false_and]), decodePsr_of_bit4 h4]
  · obtain ⟨hb21, hb20⟩ := bits20_of_00 h20
    rw [decodeBody_psrImm h23 hb20, if_neg (by rw [hb21]; decide)]

theorem decodeBody_reservedMrs (h : isReservedMrs b = true) : decodeBody c b = .reservedMrs c b := by
  simp only [isReservedMrs, Bool.or_eq_true, Bool.and_eq_true, beq_iff_eq, bne_iff_ne] at h
  obtain ⟨⟨⟨h23, h20⟩, h4⟩, hfix⟩ := h
  obtain ⟨hb21, hb20⟩ := bits20_of_00 h20
  rw [decodeBody_psr_of_zero h23 hb20 h4, decodePsr_mrs hb21 h4, if_neg]
  rintro ⟨h16, h0⟩
  obtain (h | h) | h := hfix
  · exact h h16
  · exact h (subfield_eq (k := 8) (m := 4) h0 (by decide))
  · exact h (subfield_eq (k := 0) (m := 4) h0 (by decide))

theorem decodeBody_reservedMsr (h : isReservedMsr b = true) : decodeBody c b = .reservedMsr c b := by
  simp only [isReservedMsr, Bool.or_eq_true, Bool.and_eq_true, beq_iff_eq, bne_iff_ne] at h
  obtain ⟨⟨⟨h23, h20⟩, h4⟩, hfix⟩ | ⟨⟨h23, h20⟩, h12⟩ := h
  · obtain ⟨hb21, hb20⟩ := bits20_of_10 h20
    rw [decodeBody_psr_of_zero h23 hb20 h4, decodePsr_msr hb21 h4, if_neg (fun hok => hfix.elim (· hok.1) (· hok.2))]
  · obtain ⟨hb21, hb20⟩ := bits20_of_10 h20
    rw [decodeBody_psrImm h23 hb20, if_pos hb21, if_neg h12]

/-! Multiplies and swaps -/

theorem decodeBody_encodeMul (a f : Bool) (rd rn rs rm : Reg) :
    decodeBody c (encodeMul a f rd rn rs rm) = if a then .mla c f rd rn rs rm else .mul c f rd rn rs rm := by
  obtain ⟨h22, h21, h20, hrd, hrn, hrs, h4, hrm⟩ := encodeMul_read a f rd rn rs rm
  have h223 : (encodeMul a f rd rn rs rm).extractLsb' 22 3 = 0b000#3 := subfield_eq (k := 0) (m := 3) h22 (by decide)
  rw [decodeBody_mulSwap (subfield_eq (k := 3) (m := 3) h22 (by decide)) h4, decodeMultiplySwap,
    if_pos h223, h21, h20, hrd, hrn, hrs, hrm]

/-- Bits 24 to 22 are not what they are in a multiply or in class C, where bits 24 and 23 are not 00. -/
theorem bits22_ne {u : BitVec 2} (h : b.extractLsb' 23 2 = u) (hu : u ≠ 0b00#2) :
    b.extractLsb' 22 3 ≠ 0b000#3 ∧ b.extractLsb' 22 3 ≠ 0b001#3 :=
  ⟨fun h22 => hu (h.symm.trans (subfield_eq (k := 1) (m := 2) h22 (by decide))),
   fun h22 => hu (h.symm.trans (subfield_eq (k := 1) (m := 2) h22 (by decide)))⟩

theorem decodeMultiplySwap_long (h23 : b.extractLsb' 23 2 = 0b01#2) {u a : Bool} (hu : b.getLsbD 22 = u)
    (ha : b.getLsbD 21 = a) :
    decodeMultiplySwap c b =
      if u then
        (if a then .smlal c (b.getLsbD 20) (regAt b 16) (regAt b 12) (regAt b 8) (regAt b 0)
         else .smull c (b.getLsbD 20) (regAt b 16) (regAt b 12) (regAt b 8) (regAt b 0))
      else
        (if a then .umlal c (b.getLsbD 20) (regAt b 16) (regAt b 12) (regAt b 8) (regAt b 0)
         else .umull c (b.getLsbD 20) (regAt b 16) (regAt b 12) (regAt b 8) (regAt b 0)) := by
  obtain ⟨hmul, hc⟩ := bits22_ne h23 (by decide)
  rw [decodeMultiplySwap, if_neg hmul, if_neg hc, if_pos h23, field_of_bits (lo := 21) hu ha]
  cases u <;> cases a <;> rfl

theorem decodeBody_encodeMull (u a f : Bool) (rdHi rdLo rs rm : Reg) :
    decodeBody c (encodeMull u a f rdHi rdLo rs rm) =
      if u then (if a then .smlal c f rdHi rdLo rs rm else .smull c f rdHi rdLo rs rm)
      else (if a then .umlal c f rdHi rdLo rs rm else .umull c f rdHi rdLo rs rm) := by
  obtain ⟨h23, hu, ha, hf, hHi, hLo, hrs, h4, hrm⟩ := encodeMull_read u a f rdHi rdLo rs rm
  rw [decodeBody_mulSwap (subfield_eq (k := 2) (m := 3) h23 (by decide)) h4,
    decodeMultiplySwap_long (subfield_eq (k := 0) (m := 2) h23 (by decide)) hu ha, hf, hHi, hLo, hrs, hrm]

theorem decodeMultiplySwap_swap {byte : Bool} (h23 : b.extractLsb' 23 2 = 0b10#2) (h22 : b.getLsbD 22 = byte)
    (h20 : b.extractLsb' 20 2 = 0b00#2) :
    decodeMultiplySwap c b =
      if b.extractLsb' 8 4 = 0b0000#4 then
        (if byte then .swpb c (regAt b 16) (regAt b 12) (regAt b 0) else .swp c (regAt b 16) (regAt b 12) (regAt b 0))
      else .reservedSwp c b := by
  obtain ⟨hmul, hc⟩ := bits22_ne h23 (by decide)
  have h205 : b.extractLsb' 20 5 = 0b10#2 ++ (BitVec.ofBool byte ++ 0b00#2) :=
    field_of_parts h23 (field_of_parts (field_one h22) h20)
  rw [decodeMultiplySwap, if_neg hmul, if_neg hc, if_neg (by rw [h23]; decide), h205]
  cases byte <;> rfl

theorem decodeBody_encodeSwap (byte : Bool) (rn rd rm : Reg) :
    decodeBody c (encodeSwap byte rn rd rm) = if byte then .swpb c rn rd rm else .swp c rn rd rm := by
  obtain ⟨h23, h22, h20, hrn, hrd, h8, h4, hrm⟩ := encodeSwap_read byte rn rd rm
  rw [decodeBody_mulSwap (subfield_eq (k := 2) (m := 3) h23 (by decide)) h4,
    decodeMultiplySwap_swap (subfield_eq (k := 0) (m := 2) h23 (by decide)) h22 h20, if_pos h8, hrn, hrd, hrm]

theorem decodeBody_reservedSwp (h : isReservedSwp b = true) : decodeBody c b = .reservedSwp c b := by
  simp only [isReservedSwp, Bool.and_eq_true, beq_iff_eq, bne_iff_ne] at h
  obtain ⟨⟨⟨h23, h20⟩, h4⟩, h8⟩ := h
  rw [decodeBody_mulSwap (subfield_eq (k := 2) (m := 3) h23 (by decide)) h4,
    decodeMultiplySwap_swap (subfield_eq (k := 0) (m := 2) h23 (by decide)) rfl h20, if_neg h8]

theorem decodeBody_undefinedC (h : isUndefinedC b = true) : decodeBody c b = .undefinedC c b := by
  simp only [isUndefinedC, Bool.and_eq_true, beq_iff_eq] at h
  obtain ⟨h22, h4⟩ := h
  have h223 : b.extractLsb' 22 3 = 0b001#3 := subfield_eq (k := 0) (m := 3) h22 (by decide)
  rw [decodeBody_mulSwap (subfield_eq (k := 3) (m := 3) h22 (by decide)) h4, decodeMultiplySwap,
    if_neg (by rw [h223]; decide), if_pos h223]

theorem decodeBody_undefinedD (h : isUndefinedD b = true) : decodeBody c b = .undefinedD c b := by
  simp only [isUndefinedD, Bool.and_eq_true, beq_iff_eq, bne_iff_ne] at h
  obtain ⟨⟨⟨h24, hswp⟩, hswpb⟩, h4⟩ := h
  have hb24 : b.getLsbD 24 = true := field_eq_iff.1 h24 0 (by decide)
  have off (lo : Nat) {n : Nat} {v : BitVec n} (k : Nat) (hlo : lo + k = 24) (hk : k < n) (hv : v.getLsbD k = false) :
      b.extractLsb' lo n ≠ v := fun h => by
    have := field_eq_iff.1 h k hk
    rw [hlo, hb24, hv] at this
    exact Bool.noConfusion this
  rw [decodeBody_mulSwap (subfield_eq (k := 1) (m := 3) h24 (by decide)) h4, decodeMultiplySwap,
    if_neg (off 22 2 rfl (by decide) rfl), if_neg (off 22 2 rfl (by decide) rfl),
    if_neg (off 23 1 rfl (by decide) rfl),
    if_neg (fun h20 => hswp (subfield_eq (k := 0) (m := 4) h20 (by decide))),
    if_neg (fun h20 => hswpb (subfield_eq (k := 0) (m := 4) h20 (by decide)))]

/-! Halfword and signed transfers -/

theorem decodeHalfOffset_encodeHalf (idx : Index) (up load : Bool) (sh : BitVec 2) (rn rd : Reg) (off : HalfOffset) :
    let b := encodeHalf idx up load sh rn rd off
    decodeHalfOffset b = off ∧ (!b.getLsbD 22 && b.extractLsb' 8 4 != 0b0000#4) = false := by
  cases off with
  | reg rm =>
    obtain ⟨h22, h8, h0⟩ := encodeHalf_reg_read idx up load sh rn rd rm
    simp only [decodeHalfOffset, h22, h8, h0]
    exact ⟨rfl, rfl⟩
  | imm offset =>
    obtain ⟨h22, h8, h0⟩ := encodeHalf_imm_read idx up load sh rn rd offset
    simp (disch := decide) only [decodeHalfOffset, h22, h8, h0, field_append]
    exact ⟨congrArg _ BitVec.extractLsb'_eq_self, rfl⟩

/-- Which of the four instructions a halfword or signed transfer is. -/
theorem decodeBody_encodeHalf (idx : Index) (up load : Bool) (sh : BitVec 2) (rn rd : Reg) (off : HalfOffset)
    (hsh : sh ≠ 0b00#2) (hst : load = false → sh = 0b01#2) :
    decodeBody c (encodeHalf idx up load sh rn rd off) =
      if load then
        (match sh.toNat with
         | 1 => .ldrh c idx up rn rd off
         | 2 => .ldrsb c idx up rn rd off
         | _ => .ldrsh c idx up rn rd off)
      else .strh c idx up rn rd off := by
  obtain ⟨h25, h24, h23, h21, h20, hrn, hrd, h7, h5, h4⟩ := encodeHalf_read idx up load sh rn rd off
  obtain ⟨hoff, hres⟩ := decodeHalfOffset_encodeHalf idx up load sh rn rd off
  have h6 := field_eq_iff.1 h5 1 (by decide)
  have hE : (!load && sh.getLsbD 1) = false := by
    cases load with
    | true => rfl
    | false => rw [hst rfl]; rfl
  rw [decodeBody_half h25 h7 h4 (by rw [h5]; exact hsh), decodeHalf, hoff, hres, h24, h21, h20, h6, h23, h5, hrn, hrd,
    Index.not_post_w, hE, Index.ofBits_p_w]
  rfl

theorem decodeBody_undefinedE_of_half (h25 : b.extractLsb' 25 3 = 0b000#3) (h7 : b.getLsbD 7 = true)
    (h4 : b.getLsbD 4 = true) (h5 : b.extractLsb' 5 2 ≠ 0b00#2)
    (hE : ((!b.getLsbD 24 && b.getLsbD 21) || (!b.getLsbD 20 && b.getLsbD 6)) = true) :
    decodeBody c b = .undefinedE c b := by
  rw [decodeBody_half h25 h7 h4 h5, decodeHalf]
  split
  · rfl
  next hno =>
    rw [Bool.not_eq_true] at hno
    rw [hno, Bool.false_or] at hE
    rw [if_pos hE]

theorem decodeBody_undefinedE (h : isUndefinedE b = true) : decodeBody c b = .undefinedE c b := by
  have hU := h
  simp only [isUndefinedE, Bool.or_eq_true, Bool.and_eq_true, beq_iff_eq, bne_iff_ne, Bool.not_eq_true'] at h
  obtain ⟨⟨⟨⟨h24, h21⟩, h7⟩, h4⟩, h5⟩ | ⟨⟨⟨h25, h20⟩, h6⟩, h4⟩ := h
  · have h25 : b.extractLsb' 25 3 = 0b000#3 := subfield_eq (k := 1) (m := 3) h24 (by decide)
    exact decodeBody_undefinedE_of_half h25 h7 h4 h5 (isUndefinedE_eq h25 h7 h4 h5 ▸ hU)
  · have h7 : b.getLsbD 7 = true := field_eq_iff.1 h6 1 (by decide)
    have h5 : b.extractLsb' 5 2 ≠ 0b00#2 := fun h5 => by
      have hb6 := field_eq_iff.1 h5 1 (by decide)
      exact Bool.noConfusion ((field_eq_iff.1 h6 0 (by decide)).symm.trans hb6)
    exact decodeBody_undefinedE_of_half h25 h7 h4 h5 (isUndefinedE_eq h25 h7 h4 h5 ▸ hU)

theorem decodeBody_reservedHreg (h : isReservedHreg b = true) : decodeBody c b = .reservedHreg c b := by
  simp only [isReservedHreg, Bool.and_eq_true, beq_iff_eq, bne_iff_ne, Bool.not_eq_true'] at h
  obtain ⟨⟨⟨⟨⟨⟨h25, h22⟩, h7⟩, h4⟩, h5⟩, hE⟩, h8⟩ := h
  rw [isUndefinedE_eq h25 h7 h4 h5, Bool.or_eq_false_iff] at hE
  have hres : (!b.getLsbD 22 && b.extractLsb' 8 4 != 0b0000#4) = true := by
    rw [h22, bne_iff_ne.2 h8]; rfl
  rw [decodeBody_half h25 h7 h4 h5, decodeHalf, hE.1, hE.2, hres]
  rfl

/-! Single data transfers -/

theorem decodeBody_encodeSingle (p up byte w load : Bool) (rn rd : Reg) (off : TransferOffset) :
    decodeBody c (encodeSingle p up byte w load rn rd off)
      = decodeSingle c (encodeSingle p up byte w load rn rd off) off := by
  obtain ⟨h25, -, -, -, -, -, -, -, ho⟩ := encodeSingle_read p up byte w load rn rd off
  cases off with
  | imm offset => rw [decodeBody_010 (h25.trans (by decide : 0b01#2 ++ BitVec.ofBool false = 0b010#3)), ho]; rfl
  | reg rm ty amount =>
    obtain ⟨h7, h5, h4, h0⟩ := shiftImm_read ho
    rw [decodeBody_011 (h25.trans (by decide : 0b01#2 ++ BitVec.ofBool true = 0b011#3)), if_neg (by rw [h4]; decide), h7,
      h5, h0]

theorem decodeBody_encodeSingle_indexed (idx : Index) (up byte load : Bool) (rn rd : Reg) (off : TransferOffset) :
    decodeBody c (encodeSingle idx.p up byte idx.w load rn rd off) =
      if load then (if byte then .ldrb c idx up rn rd off else .ldr c idx up rn rd off)
      else (if byte then .strb c idx up rn rd off else .str c idx up rn rd off) := by
  obtain ⟨-, h24, h23, h22, h21, h20, hrn, hrd, -⟩ := encodeSingle_read idx.p up byte idx.w load rn rd off
  rw [decodeBody_encodeSingle, decodeSingle, h24, h23, h22, h21, h20, hrn, hrd, Index.not_post_w, Index.ofBits_p_w]
  rfl

theorem decodeBody_encodeSingle_user (up byte load : Bool) (rn rd : Reg) (off : TransferOffset) :
    decodeBody c (encodeSingle false up byte true load rn rd off) =
      if load then (if byte then .ldrbt c up rn rd off else .ldrt c up rn rd off)
      else (if byte then .strbt c up rn rd off else .strt c up rn rd off) := by
  obtain ⟨-, h24, h23, h22, h21, h20, hrn, hrd, -⟩ := encodeSingle_read false up byte true load rn rd off
  rw [decodeBody_encodeSingle, decodeSingle, h24, h23, h22, h21, h20, hrn, hrd]
  rfl

theorem decodeBody_undefinedA (h : isUndefinedA b = true) : decodeBody c b = .undefinedA c b := by
  simp only [isUndefinedA, Bool.and_eq_true, beq_iff_eq] at h
  rw [decodeBody_011 h.1, if_pos h.2]

/-! Block transfers, branches, SWI and the coprocessor formats -/

theorem decodeBody_encodeBlock (p up psr w load : Bool) (rn : Reg) (list : BitVec 16) :
    decodeBody c (encodeBlock p up psr w load rn list) =
      if load then .ldm c p up psr w rn list else .stm c p up psr w rn list := by
  obtain ⟨h25, h24, h23, h22, h21, h20, hrn, h0⟩ := encodeBlock_read p up psr w load rn list
  rw [decodeBody_100 h25, decodeBlock, h24, h23, h22, h21, h20, hrn, h0]

theorem decodeBody_encodeCoprocTransfer (p up n w load : Bool) (rn : Reg) (crd num : BitVec 4) (offset : BitVec 8) :
    decodeBody c (encodeCoprocTransfer p up n w load rn crd num offset) =
      if load then .ldc c p up n w rn crd num offset else .stc c p up n w rn crd num offset := by
  obtain ⟨h25, h24, h23, h22, h21, h20, hrn, h12, h8, h0⟩ := encodeCoprocTransfer_read p up n w load rn crd num offset
  rw [decodeBody_110 h25, decodeCoprocTransfer, h24, h23, h22, h21, h20, hrn, h12, h8, h0]

theorem decodeBody_branch (link : Bool) (offset : BitVec 24) :
    decodeBody c (0b101#3 ++ BitVec.ofBool link ++ offset) = if link then .bl c offset else .b c offset := by
  have h25 : (0b101#3 ++ BitVec.ofBool link ++ offset).extractLsb' 25 3 = 0b101#3 := by
    simp (disch := decide) only [field_append_hi]
    exact BitVec.extractLsb'_eq_self
  have h24 : (0b101#3 ++ BitVec.ofBool link ++ offset).getLsbD 24 = link := by
    apply bit_of_field
    simp (disch := decide) only [field_append_hi, field_append_lo]
    exact BitVec.extractLsb'_eq_self
  rw [decodeBody_101 h25, h24, BitVec.extractLsb'_append_eq_right]

theorem decodeBody_swi (comment : BitVec 24) : decodeBody c (0b1111#4 ++ comment) = .swi c comment := by
  have h24 : (0b1111#4 ++ comment).extractLsb' 24 4 = 0b1111#4 := BitVec.extractLsb'_append_eq_left
  have hb24 : (0b1111#4 ++ comment).getLsbD 24 = true := field_eq_iff.1 h24 0 (by decide)
  rw [decodeBody_111 (subfield_eq (k := 1) (m := 3) h24 (by decide)), decode111,
    if_pos hb24, BitVec.extractLsb'_append_eq_right]

theorem decodeBody_encodeCoprocReg (load : Bool) (opc : BitVec 3) (crn : BitVec 4) (rd : Reg) (num : BitVec 4)
    (info : BitVec 3) (crm : BitVec 4) :
    decodeBody c (encodeCoprocReg load opc crn rd num info crm) =
      if load then .mrc c opc crn rd num info crm else .mcr c opc crn rd num info crm := by
  obtain ⟨h24, hopc, h20, h16, h12, h8, h5, h4, h0⟩ := encodeCoprocReg_read load opc crn rd num info crm
  have hb24 := field_eq_iff.1 h24 0 (by decide)
  rw [decodeBody_111 (subfield_eq (k := 1) (m := 3) h24 (by decide)), decode111, if_neg (by rw [hb24]; decide),
    if_neg (by rw [h4]; decide), hopc, h20, h16, h12, h8, h5, h0]

theorem decodeBody_encodeCdp (opc crn crd num : BitVec 4) (info : BitVec 3) (crm : BitVec 4) :
    decodeBody c (encodeCdp opc crn crd num info crm) = .cdp c opc crn crd num info crm := by
  obtain ⟨h24, hopc, h16, h12, h8, h5, h4, h0⟩ := encodeCdp_read opc crn crd num info crm
  have hb24 := field_eq_iff.1 h24 0 (by decide)
  rw [decodeBody_111 (subfield_eq (k := 1) (m := 3) h24 (by decide)), decode111, if_neg (by rw [hb24]; decide),
    if_pos (by rw [h4]; rfl), hopc, h16, h12, h8, h5, h0]

/-! Every instruction -/

theorem decodeBody_encodeBody (i : Instr) (hwf : i.wf = true) : decodeBody i.cond (encodeBody i) = i := by
  cases i
  case and | eor | sub | rsb | add | adc | sbc | rsc | orr | mov | bic | mvn =>
    exact decode_dp (fun h => absurd h (by decide)) fun _ hop hs hrd hrn => by
      rw [decodeDp, hop, hs, hrd, hrn]; rfl
  case tst | teq | cmp | cmn =>
    have hrd := bne_iff_ne.1 hwf
    exact decode_dp (fun _ => rfl) fun _ hop _ hrd' hrn => by
      rw [decodeDp, hop, hrd', hrn]; exact if_neg hrd
  case tstp | teqp | cmpp | cmnp =>
    exact decode_dp (fun _ => rfl) fun _ hop _ hrd hrn => by
      rw [decodeDp, hop, hrd, hrn]; rfl
  case mrs c spsr rd => exact decodeBody_encodeMrs spsr rd
  case msr c spsr mask src => exact decodeBody_encodeMsr spsr mask src
  case mul | mla => exact decodeBody_encodeMul ..
  case umull | umlal | smull | smlal => exact decodeBody_encodeMull ..
  case ldr | ldrb | str | strb => exact decodeBody_encodeSingle_indexed ..
  case ldrt | ldrbt | strt | strbt => exact decodeBody_encodeSingle_user ..
  case ldrh | ldrsb | ldrsh => exact decodeBody_encodeHalf _ _ _ _ _ _ _ (by decide) (fun h => nomatch h)
  case strh => exact decodeBody_encodeHalf _ _ _ _ _ _ _ (by decide) (fun _ => rfl)
  case ldm | stm => exact decodeBody_encodeBlock ..
  case swp | swpb => exact decodeBody_encodeSwap ..
  case b c offset => exact decodeBody_branch false offset
  case bl c offset => exact decodeBody_branch true offset
  case swi => exact decodeBody_swi _
  case cdp => exact decodeBody_encodeCdp ..
  case ldc | stc => exact decodeBody_encodeCoprocTransfer ..
  case mrc | mcr => exact decodeBody_encodeCoprocReg ..
  case undefinedA => exact decodeBody_undefinedA hwf
  case undefinedB => exact decodeBody_undefinedB hwf
  case undefinedC => exact decodeBody_undefinedC hwf
  case undefinedD => exact decodeBody_undefinedD hwf
  case undefinedE => exact decodeBody_undefinedE hwf
  case reservedMrs => exact decodeBody_reservedMrs hwf
  case reservedMsr => exact decodeBody_reservedMsr hwf
  case reservedSwp => exact decodeBody_reservedSwp hwf
  case reservedHreg => exact decodeBody_reservedHreg hwf

/-- Settles O1: the decoder reads an encoded body under its condition, and each format gives its fields back. -/
theorem decodeEncode : Obligations.DecodeEncode := by
  intro i hwf
  obtain ⟨-, -, hdecode⟩ := Laws.encode_split i
  exact hdecode.trans (decodeBody_encodeBody i hwf)

end Sys2Proof
end
